-- ==== Sys2Proof/Word.lean ====
section
/-! DEFINITION. The words of the links and the plainest arithmetic on counts. -/

namespace Sys2Proof

/-- A link word: sixteen bits, bit 15 the most significant (section 10.1). -/
abbrev Word := BitVec 16

/-- Eight bits, such as a directive's tag. -/
abbrev Byte := BitVec 8

/-- A flag set: flag number n stands in bit n - 1 (section 10.1). -/
abbrev FlagSet := BitVec 16

/-- One packet, as the sequence of its words. -/
abbrev Packet := List Word

/-- A count as one link word. -/
def word (n : Nat) : Word := BitVec.ofNat 16 n

/-- A quantity wider than 16 bits occupies two words, the high word first (section 10.1). -/
def words2 (n : Nat) : List Word := [word (n / 65536), word n]

/-- Adds with saturation at a limit (chapter 0, Arithmetic). -/
def satAdd (limit a b : Nat) : Nat := min limit (a + b)

end Sys2Proof
end

