-- ==== Sys2Proof/Syntax.lean ====
section
/-! DEFINITION. The commands of the part: one constructor per row of spec/opcode_table.json. -/

namespace Sys2Proof

/-- The two output links (chapter 6). -/
inductive LinkId where
  | p  -- the P-link: principal frames and reports
  | x  -- the X-link: proxy frames
  deriving DecidableEq, Repr

/-- A request of a link that may be taken while an admission is in progress (R45, R47). -/
inductive LinkEvent where
  /-- the last packet of the frame in flight on the link has been sent (R54, R117) -/
  | sent (l : LinkId)
  /-- the X-link asks to start the proxy at the head of its queue (R47, R112) -/
  | proxyStart
  deriving DecidableEq, Repr

/-- At a frame boundary the pending cue actions are taken together, either before the first queued directive or after
the last (R76). Which, is said by the command: the manual admits both. -/
inductive BoundaryOrder where
  | actionsFirst
  | directivesFirst
  deriving DecidableEq, Repr

/-- The orders the manual leaves open inside one TOD pulse. -/
structure PulseOrder where
  /-- R17, R18: the Ingress Port counts the pulse, tests for expiry and takes it before the boundary is tested; otherwise
  the boundary is tested first, and the count, the test and the expiry follow it within the same pulse. -/
  lossFirst : Bool
  /-- R38: a fired cue's action is handed over before the boundary is taken. -/
  handOverFirst : Bool
  /-- R76, at a boundary the pulse makes. -/
  boundary : BoundaryOrder
  deriving DecidableEq, Repr

/-- The commands. A packet of the input link is given by the words that follow its kind code, the last of them its CRC
(section 10.2); UNKNOWN_PACKET by all its words. A directive that is taken is given by its tag and its fields. -/
inductive Instr where
  | powerOnReset
  | symbolLockGained
  | symbolLockLost
  /-- `during` lists the link requests taken while the admission is in progress (R45): one entry before the shortage
  test, then one after each measure that is taken, then one between the principal's reservation and the twin test. -/
  | frameOpen (rest : List Word) (order : BoundaryOrder) (during : List (List LinkEvent))
  | line (rest : List Word)
  | frameClose (rest : List Word)
  | fill (rest : List Word)
  | unknownPacket (words : List Word)
  | todPulse (order : PulseOrder)
  | pictureLossExpiry
  | directive (rest : List Word)
  | loadSegment (tag : Byte) (param : Word) (payload : List Word)
  | copyBank (tag : Byte)
  | switchBank (tag : Byte) (ramp : Word)
  | cacheOn (tag : Byte)
  | cacheOff (tag : Byte)
  | start (tag : Byte)
  | stop (tag : Byte)
  /-- the six payload words: start action, start label, stop action, stop label -/
  | setCues (tag : Byte) (startAct startHi startLo stopAct stopHi stopLo : Word)
  /-- the three payload words: label, hold option -/
  | jamTimecode (tag : Byte) (labelHi labelLo hold : Word)
  | runTimecode (tag : Byte)
  /-- the two payload words: rate code, DF mark -/
  | setRate (tag : Byte) (code mark : Word)
  | clearFlags (tag : Byte) (list : FlagSet)
  | setNotices (tag : Byte) (enables : FlagSet)
  | queryStatus (tag : Byte)
  | armSnapshot (tag : Byte) (triggers : FlagSet)
  | fetchSnapshot (tag : Byte)
  | restart (tag : Byte)
  | owedMarkerPlaced
  | sinkReadyChange (l : LinkId) (level : Bool)
  | linkResetAsserted (l : LinkId)
  | linkResetReleased (l : LinkId)
  | principalFrameStart
  | proxyFrameStart
  | frameSent (l : LinkId)
  | reportStart
  | reportSent
  | frameAbortSent (l : LinkId)
  | sendFill (l : LinkId)
  deriving DecidableEq, Repr

end Sys2Proof
end

