-- ==== Sys2Proof/Decode.lean ====
section
/-! DEFINITION. From words to commands. The opcode table gives its rows no bits, so no table word spells a command; what
the part does decode is the kind of an input packet (R3), and that reading and its converse stand here. -/

namespace Sys2Proof

/-- The command a table word spells: none, since no row of spec/opcode_table.json gives bits
(notes/assumptions/2.md). -/
def decodeTableWord (_nbits _w : Nat) : Option Instr := none

/-- The five kinds the input link carries (R3). -/
inductive Kind where
  | fill | frameOpen | line | frameClose | directive
  deriving DecidableEq, Repr

/-- The kind codes (section 10.1). -/
def Kind.code : Kind → Word
  | .fill => 0x0D00#16
  | .frameOpen => 0x0D01#16
  | .line => 0x0D02#16
  | .frameClose => 0x0D03#16
  | .directive => 0x0D04#16

/-- The kind code of a FRAME ABORT, sent at RESTART (section 10.1). -/
def abortCode : Word := 0x0D05#16
/-- The kind code of a report (section 10.1). -/
def reportCode : Word := 0x0D06#16

/-- The kind that a first word names, if it names one (R3). -/
def kindOfWord (w : Word) : Option Kind :=
  if w = Kind.fill.code then some .fill
  else if w = Kind.frameOpen.code then some .frameOpen
  else if w = Kind.line.code then some .line
  else if w = Kind.frameClose.code then some .frameClose
  else if w = Kind.directive.code then some .directive
  else none

/-- The kind of a packet as received, whatever its verdict: a packet of fewer than two words has none (R3). -/
def packetKind : Packet → Option Kind
  | w :: _ :: _ => kindOfWord w
  | _ => none

/-- The command that the arrival of a packet on the input link is. The order and the link requests of a FRAME OPEN are
said beside the packet: no word of it carries them. -/
def decodePacket (order : BoundaryOrder) (during : List (List LinkEvent)) (p : Packet) : Instr :=
  match packetKind p with
  | some .fill => .fill p.tail
  | some .frameOpen => .frameOpen p.tail order during
  | some .line => .line p.tail
  | some .frameClose => .frameClose p.tail
  | some .directive => .directive p.tail
  | none => .unknownPacket p

/-- The packet whose arrival a command is; none for a command that is no packet of the input link. -/
def encodePacket : Instr → Option Packet
  | .fill rest => some (Kind.fill.code :: rest)
  | .frameOpen rest _ _ => some (Kind.frameOpen.code :: rest)
  | .line rest => some (Kind.line.code :: rest)
  | .frameClose rest => some (Kind.frameClose.code :: rest)
  | .directive rest => some (Kind.directive.code :: rest)
  | .unknownPacket p => some p
  | _ => none

end Sys2Proof
end

