-- ==== Sys2Proof/Config.lean ====
section
/-! DEFINITION. The fixed sizes of the part, and the free values: what the manual leaves open and no proof can see. -/

namespace Sys2Proof.Config

/-- Records of the frame table (R42). -/
abbrev frameRecords : Nat := 160
/-- Pages of the frame store (R40). -/
def storePages : Nat := 65536
/-- Entries of the directive queue (R148). -/
def directiveQueueDepth : Nat := 16
/-- Entries of the report queue (R153). -/
def reportQueueDepth : Nat := 32
/-- Clip records (R66). -/
def clipRecords : Nat := 4
/-- The ceiling of the principal joined count (R83). -/
def clipCeiling : Nat := 16777215
/-- Runs of a gap list (R73). -/
def gapRuns : Nat := 16
/-- The highest clip number (R67). -/
def lastClipNumber : Nat := 9999
/-- Limit of the interval count (R32). -/
def intervalLimit : Nat := 4294967295
/-- Limit of the line and flaw counts of the frame-in-progress record (R5). -/
def countLimit : Nat := 65535
/-- Limit of the picture-loss pulse count (R17). -/
def lossLimit : Nat := 255
/-- Limit of the pace count (R113). -/
def paceLimit : Nat := 8

/-- FREE VALUE (notes/assumptions/3.md). Whether the packet leaving on an output link ends with the reference tick
that draws this number: the manual gives the links no speed. It has no body, so no proof can see it. -/
opaque packetEnds : Nat → Bool

/-- FREE VALUE (notes/assumptions/4.md). A choice between two orders that R17, R18, R38 and R76 leave open, for a
TOD pulse that the reference clock itself produces. It has no body, so no proof can see it. -/
opaque orderChoice : Nat → Bool

end Sys2Proof.Config
end

