-- ==== Sys2Proof/Machine/State.lean ====
section
/-! DEFINITION. The state of the part, block by block, as plain data, and its value after power-on reset. -/

namespace Sys2Proof.Machine

open Sys2Proof

/-! ### Outcomes -/

/-- The manual names no event that stops the part: every event leaves a next state. No meaning raises a fault. -/
inductive Fault where
  deriving DecidableEq, Repr

/-- A refusal of the model. -/
inductive Refusal where
  /-- An arm of `exec` that has no meaning yet raises it (safe: the model stops). No arm does. -/
  | notModelled (mnemonic : String)
  deriving DecidableEq, Repr

/-! ### Names shared by several blocks -/

/-- A frame record number, 0 to 159 (R42). -/
abbrev RecNo := Fin Config.frameRecords

/-- One line of a stored frame: its samples, R, G and B of pixel 0 first (R91, R107). -/
abbrev Samples := List Nat

/-- The states of the input link (R1). -/
inductive InputLink where
  | down | idle | streaming
  deriving DecidableEq, Repr

/-- The eight timecode rates (R20). -/
inductive Rate where
  | r23976 | r24 | r25 | r2997 | r30 | r50 | r5994 | r60
  deriving DecidableEq, Repr

/-- A timecode label hh:mm:ss:ff (section 2.3). -/
structure Label where
  hh : Nat
  mm : Nat
  ss : Nat
  ff : Nat
  deriving DecidableEq, Repr

/-- A frame stamp (R30). -/
structure Stamp where
  tod   : Nat
  phase : Nat
  sub   : Nat
  deriving DecidableEq, Repr

/-- The sixteen flags (R160). -/
inductive Flag where
  | pictureLost | inputDown | flawedFrame | geometryMismatch | captureSkip | proxyGap | storeLow | storeFullCut
  | clipSettled | splitDeferred | cueFired | tableInvalid | directiveCorrupt | reportsLost | snapshotTaken | strayLines
  deriving DecidableEq, Repr

/-! ### Ingress Port (chapter 1) -/

/-- The frame-in-progress record (R5). -/
structure FrameInProgress where
  principal     : RecNo
  twin          : Option RecNo
  width         : Nat
  height        : Nat
  expected      : Nat
  lastReceived  : Option Nat
  linesReceived : Nat
  check         : Nat
  missing       : Nat
  excess        : Nat
  deriving DecidableEq, Repr

/-- The frame-in-progress state (R5). -/
inductive FrameState where
  | noFrame
  | inFrame (f : FrameInProgress)
  | skipping
  deriving DecidableEq, Repr

/-- The state of the Ingress Port. -/
structure Ingress where
  link        : InputLink
  frame       : FrameState
  /-- the picture-loss pulse count, 0 to 255 (R17) -/
  lossCount   : Nat
  /-- the last capture index, which may be absent (R7) -/
  lastCapture : Option (BitVec 32)
  deriving DecidableEq, Repr

/-! ### Time Base Unit (chapter 2) -/

/-- The state of the Time Base Unit. -/
structure TimeBase where
  rate         : Rate
  /-- the DF mark of the rate (R20) -/
  df           : Bool
  /-- the first stage of the tick phase (R21) -/
  stage1       : Nat
  /-- the second stage of the tick phase (R21) -/
  stage2       : Nat
  tod          : Nat
  /-- RUNNING, or HELD when false (R24) -/
  running      : Bool
  rr           : Nat
  startCue     : Option Nat
  stopCue      : Option Nat
  lastSub      : Option Nat
  interval     : Nat
  lastInterval : Nat
  deriving DecidableEq, Repr

/-! ### Store Manager (chapter 3) -/

/-- The two renditions (R42). -/
inductive Rendition where
  | principal | proxy
  deriving DecidableEq, Repr

/-- The states of a frame record (R43). -/
inductive RecState where
  | free | filling | stored | sending
  deriving DecidableEq, Repr

/-- A frame's flaws: TRUNCATED and the three counts, which give the other kinds of the flaw set (R5, R15). -/
structure Flaws where
  truncated : Bool
  check     : Nat
  missing   : Nat
  excess    : Nat
  deriving DecidableEq, Repr

/-- The clip part of a frame record (R42). -/
structure ClipPart where
  clip     : Nat
  number   : Nat
  timecode : Nat
  deriving DecidableEq, Repr

/-- A frame record (R42), with the lines its pages hold. -/
structure FrameRecord where
  kind     : Rendition
  state    : RecState
  pages    : Nat
  width    : Nat
  height   : Nat
  capture  : BitVec 32
  stamp    : Stamp
  flaws    : Flaws
  twin     : Option RecNo
  part     : Option ClipPart
  started  : Bool
  /-- the ramp step 1 to 16, absent when the twin was not rendered in a ramp -/
  rampNote : Option Nat
  /-- the lines written into the record's pages, line 0 first -/
  lines    : List Samples
  deriving DecidableEq, Repr

/-- The state of the Store Manager. -/
structure Store where
  freePages : Nat
  table     : Vector FrameRecord Config.frameRecords
  /-- the principal send queue, head first (R52) -/
  pq        : List RecNo
  /-- the proxy send queue, head first (R52) -/
  xq        : List RecNo
  pFlawed   : Nat
  xFlawed   : Nat
  deriving DecidableEq, Repr

/-! ### Clip Controller (chapter 4) -/

/-- The record states (R60). -/
inductive RecordState where
  | standby | caching | recording
  deriving DecidableEq, Repr

/-- A pending cue action (R74). -/
inductive CueAction where
  | start | stop
  deriving DecidableEq, Repr

/-- A run of gaps (R73). -/
structure GapRun where
  first  : Nat
  length : Nat
  deriving DecidableEq, Repr

/-- The end causes of a clip (R66). -/
inductive EndCause where
  | stop | cue | split | storeFull | pictureLost | geometry | limit | restart
  deriving DecidableEq, Repr

/-- The states of a clip record (R66). -/
inductive ClipState where
  | isOpen | closing
  deriving DecidableEq, Repr

/-- The timecode modes (R26). -/
inductive TimecodeMode where
  | freeRun | recordRun
  deriving DecidableEq, Repr

/-- A clip record (R66). -/
structure ClipRecord where
  number       : Nat
  take         : Nat
  part         : Nat
  /-- the four glyph codes of the reel tag -/
  reel         : List Nat
  state        : ClipState
  mode         : TimecodeMode
  rate         : Rate
  df           : Bool
  startTc      : Option Nat
  firstCapture : Option (BitVec 32)
  joined       : Nat
  sent         : Nat
  made         : Nat
  evicted      : Nat
  proxySent    : Nat
  gapTotal     : Nat
  gaps         : List GapRun
  overflow     : Bool
  flawed       : Nat
  cause        : Option EndCause
  deriving DecidableEq, Repr

/-- The state of the Clip Controller. -/
structure Clips where
  recordState      : RecordState
  cacheMark        : Bool
  /-- the pre-roll ring: principal records, oldest first (R63) -/
  ring             : List RecNo
  /-- the clip records that exist, in the order their clips opened -/
  records          : List ClipRecord
  nextNumber       : Nat
  actions          : List CueAction
  splitPending     : Bool
  deferralReported : Bool
  deriving DecidableEq, Repr

/-! ### Bank Manager (chapter 7) -/

/-- The two banks (R125). -/
inductive BankId where
  | a | b
  deriving DecidableEq, Repr

/-- The six tables of a bank, in the order of their IDs 1 to 6 (chapter 7). -/
inductive TableId where
  | input | hkernel | vkernel | tone | overlay | record
  deriving DecidableEq, Repr

/-- The reasons of an INVALID table (R126). -/
inductive Reason where
  | geometry | crop | scale | kernelSum | curveRange | glyphCode | timecodeMode
  deriving DecidableEq, Repr

/-- The table states (R126). -/
inductive TableState where
  | empty
  | incomplete (next : Nat)  -- PARTIAL, with the next segment expected
  | valid
  | invalid (reason : Reason)
  deriving DecidableEq, Repr

/-- A table: its words, as far as they are loaded, and its state (R126). -/
structure Table where
  words : List Word
  state : TableState
  deriving DecidableEq, Repr

/-- A bank: its six tables, and the page counts P and X of a VALID INPUT table (R130). -/
structure Bank where
  input   : Table
  hkernel : Table
  vkernel : Table
  tone    : Table
  overlay : Table
  record  : Table
  pages   : Option (Nat × Nat)
  deriving DecidableEq, Repr

/-- The state of the Bank Manager. -/
structure Banks where
  a      : Bank
  b      : Bank
  active : BankId
  deriving DecidableEq, Repr

/-! ### Proxy Renderer (chapter 5) -/

/-- The step of a ramp that a twin is rendered at, with the ramp length (R99). -/
structure RampStep where
  step   : Nat
  length : Nat
  deriving DecidableEq, Repr

/-- The frame setup (R88). -/
structure FrameSetup where
  twin    : RecNo
  bank    : BankId
  x0      : Nat
  y0      : Nat
  wc      : Nat
  hc      : Nat
  wi      : Nat
  wo      : Nat
  ho      : Nat
  sx      : Nat
  ox      : Nat
  sy      : Nat
  oy      : Nat
  ramp    : Option RampStep
  /-- the sixteen glyph codes of the overlay string, absent when the overlay is disabled (R102) -/
  overlay : Option (List Nat)
  nextRow : Nat
  /-- the held lines: each crop row with its horizontally scaled samples (R96) -/
  held    : List (Nat × Samples)
  deriving DecidableEq, Repr

/-- The state of the Proxy Renderer: the setup while RENDERING, absent while IDLE, and the ramp state (R88, R98). -/
structure Renderer where
  setup      : Option FrameSetup
  rampLength : Nat
  stepsLeft  : Nat
  deriving DecidableEq, Repr

/-! ### Directive Unit (chapter 8) -/

/-- The seventeen directives (section 8.4). -/
inductive DirCode where
  | loadSegment | copyBank | switchBank | cacheOn | cacheOff | start | stop | setCues | jamTimecode | runTimecode
  | setRate | clearFlags | setNotices | queryStatus | armSnapshot | fetchSnapshot | restart
  deriving DecidableEq, Repr

/-- An entry of the directive queue: the directive as it arrived (R148). -/
structure Directive where
  code    : DirCode
  tag     : Byte
  param   : Word
  payload : List Word
  deriving DecidableEq, Repr

/-- The outcomes of a directive (section 8.3). -/
inductive DirOutcome where
  | done | doneClamped | refUnknown | refBadLength | refBadValue | refBadSegment | refBadTable | refNotReady
  | refGeometryLocked | refBusy | refNotNow | refQueueFull | refCancelled
  deriving DecidableEq, Repr

/-- What a NOTICE lists, once it is filled, and its later-settings set (R119, R165). -/
structure NoticeContent where
  listed : FlagSet
  later  : FlagSet
  deriving DecidableEq, Repr

/-- An entry of the report queue (R152). -/
inductive Report where
  | response (tag : Byte) (code : Word) (outcome : DirOutcome) (cleared : FlagSet)
  | status (body : List Word) (content : NoticeContent)
  /-- the notice marker: no content until the P-link begins to send it (R119) -/
  | marker (content : Option NoticeContent)
  | clipSummary (body : List Word)
  | snapshot (body : List Word)
  deriving DecidableEq, Repr

/-- The state of the Directive Unit. -/
structure DirectiveUnit where
  queue         : List Directive
  reports       : List Report
  markerWaiting : Bool
  deriving DecidableEq, Repr

/-! ### Flag Unit (chapter 9) -/

/-- The classes of a flag and of the marker (R160, R163). -/
inductive NoticeClass where
  | routine | urgent
  deriving DecidableEq, Repr

/-- The snapshot record (R167). -/
structure SnapshotRecord where
  status  : List Word
  trigger : Flag
  tod     : Label
  deriving DecidableEq, Repr

/-- The snapshot state (R167). -/
inductive Snapshot where
  | disarmed
  | armed (triggers : FlagSet)
  | captured (r : SnapshotRecord)
  deriving DecidableEq, Repr

/-- The state of the Flag Unit. -/
structure FlagUnit where
  raised      : FlagSet
  shown       : FlagSet
  enables     : FlagSet
  markerClass : NoticeClass
  renotice    : Bool
  snapshot    : Snapshot
  deriving DecidableEq, Repr

/-! ### Egress Ports (chapter 6) -/

/-- What an output link is doing. -/
inductive Activity where
  /-- nothing is being sent -/
  | free
  /-- a frame in flight: its record, its output FRAME OPEN, and how many of its packets have been sent -/
  | frame (r : RecNo) (header : Packet) (done : Nat)
  /-- after a RESTART: the FRAME CLOSE of a frame already complete on the link is leaving (R122) -/
  | closing (packet : Packet)
  /-- after a RESTART: a FRAME ABORT is leaving (R122) -/
  | aborting (packet : Packet)
  /-- P-link only: the report at the head of the report queue is in flight; the mark says that a RESTART was taken
  meanwhile (R118, R122) -/
  | report (acrossRestart : Bool)
  deriving DecidableEq, Repr

/-- An output link: the two lines its sink drives, what it is doing, and the packets it has sent, oldest first. -/
structure OutLink where
  readyLine : Bool
  resetLine : Bool
  act       : Activity
  sent      : List Packet
  deriving DecidableEq, Repr

/-- The state of the part. -/
structure State where
  ingress   : Ingress
  time      : TimeBase
  store     : Store
  clips     : Clips
  render    : Renderer
  banks     : Banks
  dir       : DirectiveUnit
  flags     : FlagUnit
  pLink     : OutLink
  xLink     : OutLink
  /-- the report batch count of the P-link (R118) -/
  batch     : Nat
  /-- the pace count of the X-link (R113) -/
  pace      : Nat
  /-- the last proxy sent on the X-link, which may be absent (R116) -/
  lastProxy : Option Nat
  /-- MODEL's own: how many free values the reference ticks have drawn -/
  drawn     : Nat
  /-- MODEL's own: the commands that wait, first in, first out -/
  pending   : List Instr
  deriving DecidableEq, Repr

/-! ### Power-on values -/

/-- What a FREE record holds: it describes no frame (R42). -/
def FrameRecord.blank : FrameRecord :=
  { kind := .principal, state := .free, pages := 0, width := 0, height := 0, capture := 0, stamp := ⟨0, 0, 0⟩,
    flaws := ⟨false, 0, 0, 0⟩, twin := none, part := none, started := false, rampNote := none, lines := [] }

/-- An EMPTY table (R126). -/
def Table.none : Table := { words := [], state := .empty }

/-- A bank of six EMPTY tables (R125). -/
def Bank.none : Bank :=
  { input := .none, hkernel := .none, vkernel := .none, tone := .none, overlay := .none, record := .none,
    pages := Option.none }

/-- The Store Manager after power-on reset and after RESTART (R59). -/
def Store.reset : Store :=
  { freePages := Config.storePages, table := Vector.replicate Config.frameRecords .blank, pq := [], xq := [],
    pFlawed := 0, xFlawed := 0 }

/-- An output link after power-on reset: NOT READY, nothing in flight (R124). The levels of the two lines are the
model's choice (notes/assumptions/1.md): the sink drives them. -/
def OutLink.reset : OutLink := { readyLine := false, resetLine := false, act := .free, sent := [] }

/-- The part right after power-on reset (R19, R39, R59, R87, R108, R124, R144, R159, R169). -/
def State.reset : State :=
  { ingress := { link := .down, frame := .noFrame, lossCount := 0, lastCapture := none }
    time := { rate := .r25, df := false, stage1 := 0, stage2 := 0, tod := 0, running := true, rr := 0,
              startCue := none, stopCue := none, lastSub := none, interval := 0, lastInterval := 0 }
    store := .reset
    clips := { recordState := .standby, cacheMark := false, ring := [], records := [], nextNumber := 1, actions := [],
               splitPending := false, deferralReported := false }
    render := { setup := none, rampLength := 0, stepsLeft := 0 }
    banks := { a := .none, b := .none, active := .a }
    dir := { queue := [], reports := [], markerWaiting := false }
    flags := { raised := 0, shown := 0, enables := 0, markerClass := .routine, renotice := false,
               snapshot := .disarmed }
    pLink := .reset
    xLink := .reset
    batch := 0
    pace := Config.paceLimit
    lastProxy := none
    drawn := 0
    pending := [] }

end Sys2Proof.Machine
end

