-- ==== Sys2Proof/Machine/Operands.lean ====
section
/-! DEFINITION. The fields of packets and directives, the CRC, and the codes of section 10. -/

namespace Sys2Proof.Machine

open Sys2Proof

/-! ### Words -/

/-- The high byte of a word, as a number. -/
def highByte (w : Word) : Nat := w.toNat / 256
/-- The low byte of a word, as a number. -/
def lowByte (w : Word) : Nat := w.toNat % 256
/-- Two bytes as one word. -/
def bytesWord (high low : Nat) : Word := word (high * 256 + low)

/-- The words of a label: hh and mm, then ss and ff (section 10.1). -/
def labelWords (l : Label) : List Word := [bytesWord l.hh l.mm, bytesWord l.ss l.ff]
/-- The label two words spell (section 10.1). -/
def wordsLabel (hi lo : Word) : Label := ⟨highByte hi, lowByte hi, highByte lo, lowByte lo⟩

/-! ### The CRC (R170) -/

/-- One incoming bit: bit 15 of the register is combined with it, the register shifts left, and 1021h is combined in
when the combined bit was 1. -/
def crcBit (reg : Word) (b : Bool) : Word :=
  if reg.getLsbD 15 != b then (reg <<< 1) ^^^ 0x1021#16 else reg <<< 1

/-- One covered word, most significant bit first. -/
def crcWord (reg w : Word) : Word := (List.range 16).foldl (fun r i => crcBit r (w.getLsbD (15 - i))) reg

/-- The CRC over a packet's words from the first header word to the last payload word. -/
def crc (ws : List Word) : Word := ws.foldl crcWord 0xFFFF#16

/-- A packet as it is sent: its words, then their CRC. -/
def sealed (ws : List Word) : Packet := ws ++ [crc ws]

/-- The CRC verdict of a packet as received: good when the register agrees with the final word (R3). -/
def goodVerdict (p : Packet) : Bool := crc p.dropLast == p.getLastD 0

/-! ### Input packets (section 10.2). Each is given by the words after its kind code, the CRC last. -/

/-- A good verdict and the fixed word count, as a taken FRAME OPEN and a FRAME CLOSE that counts need (R3). -/
def goodFixed (k : Kind) (count : Nat) (rest : List Word) : Bool :=
  goodVerdict (k.code :: rest) && rest.length + 1 == count

/-- The capture index of a FRAME OPEN. -/
def openCapture (rest : List Word) : BitVec 32 := rest.getD 0 0 ++ rest.getD 1 0
/-- The declared width of a FRAME OPEN. -/
def openWidth (rest : List Word) : Nat := (rest.getD 2 0).toNat
/-- The declared height of a FRAME OPEN. -/
def openHeight (rest : List Word) : Nat := (rest.getD 3 0).toNat

/-- The payload of a LINE: the words between its line number and its CRC. -/
def linePayload (rest : List Word) : List Word := rest.tail.dropLast

/-- A LINE is damaged when its verdict is bad, or its payload does not hold exactly 3 × W samples (R12). -/
def lineDamaged (width : Nat) (rest : List Word) : Bool :=
  !goodVerdict (Kind.line.code :: rest) || (linePayload rest).length != 3 * width

/-- The samples a LINE gives a line of width W: the low 12 bits of each word, the rest of a short line 0, the rest of a
long one discarded (R11, R12). -/
def lineSamples (width : Nat) (rest : List Word) : Samples :=
  (List.range (3 * width)).map fun i => ((linePayload rest).getD i 0).toNat % 4096

/-! ### Directives (section 10.4) -/

/-- The directive codes. -/
def DirCode.word : DirCode → Word
  | .loadSegment => 0x0001#16
  | .copyBank => 0x0002#16
  | .switchBank => 0x0003#16
  | .cacheOn => 0x0004#16
  | .cacheOff => 0x0005#16
  | .start => 0x0006#16
  | .stop => 0x0007#16
  | .setCues => 0x0008#16
  | .jamTimecode => 0x0009#16
  | .runTimecode => 0x000A#16
  | .setRate => 0x000B#16
  | .clearFlags => 0x000C#16
  | .setNotices => 0x000D#16
  | .queryStatus => 0x000E#16
  | .armSnapshot => 0x000F#16
  | .fetchSnapshot => 0x0010#16
  | .restart => 0x0011#16

/-- Every directive, in the order of the codes. -/
def DirCode.all : List DirCode :=
  [.loadSegment, .copyBank, .switchBank, .cacheOn, .cacheOff, .start, .stop, .setCues, .jamTimecode, .runTimecode,
   .setRate, .clearFlags, .setNotices, .queryStatus, .armSnapshot, .fetchSnapshot, .restart]

/-- The directive a code names, if it names one. -/
def dirCode (w : Word) : Option DirCode := DirCode.all.find? (fun c => c.word = w)

/-- The fixed payload length of a directive; LOAD SEGMENT has none (R145). -/
def DirCode.payloadLength : DirCode → Option Nat
  | .loadSegment => none
  | .switchBank | .clearFlags | .setNotices | .armSnapshot => some 1
  | .setCues => some 6
  | .jamTimecode => some 3
  | .setRate => some 2
  | _ => some 0

/-- The five directives that are queued whatever their timing field says (R146). -/
def DirCode.boundaryOnly : DirCode → Bool
  | .switchBank | .cacheOn | .cacheOff | .start | .stop => true
  | _ => false

/-- What the Directive Unit makes of a DIRECTIVE packet (R145, R146). -/
inductive Judgement where
  /-- discarded: a bad verdict, or too short for its header -/
  | corrupt
  /-- refused on arrival; the response echoes the tag and the code as received -/
  | refused (tag : Byte) (code : Word) (outcome : DirOutcome)
  /-- sound, to be taken at once -/
  | atOnce (d : Directive)
  /-- sound, to be queued for the next boundary -/
  | atBoundary (d : Directive)
  deriving DecidableEq, Repr

/-- Judges a DIRECTIVE, given by the words after its kind code. The first case of R145 that holds gives the outcome. -/
def judge (rest : List Word) : Judgement :=
  let codeWord := rest.getD 0 0
  let tag : Byte := (rest.getD 1 0).truncate 8
  let timing := highByte (rest.getD 1 0)
  let length := (rest.getD 2 0).toNat
  let payload := (rest.drop 4).take length
  if !goodVerdict (Kind.directive.code :: rest) then .corrupt
  else if rest.length + 1 < 6 then .corrupt
  else match dirCode codeWord with
  | none => .refused tag codeWord .refUnknown
  | some c =>
    if length > 256 || rest.length + 1 != length + 6 || c.payloadLength.any (· != length) then
      .refused tag codeWord .refBadLength
    else if timing > 1 then .refused tag codeWord .refBadValue
    else
      let d : Directive := { code := c, tag := tag, param := rest.getD 3 0, payload := payload }
      if c.boundaryOnly || timing == 1 then .atBoundary d else .atOnce d

/-! ### Code values of reports (section 10.5) -/

/-- The outcome codes. -/
def DirOutcome.word : DirOutcome → Word
  | .done => 0x0000#16
  | .doneClamped => 0x0001#16
  | .refUnknown => 0x0011#16
  | .refBadLength => 0x0012#16
  | .refBadValue => 0x0013#16
  | .refBadSegment => 0x0014#16
  | .refBadTable => 0x0015#16
  | .refNotReady => 0x0016#16
  | .refGeometryLocked => 0x0017#16
  | .refBusy => 0x0018#16
  | .refNotNow => 0x0019#16
  | .refQueueFull => 0x001A#16
  | .refCancelled => 0x001B#16

/-- The codes of the reasons of an INVALID table. -/
def Reason.code : Reason → Nat
  | .geometry => 1
  | .crop => 2
  | .scale => 3
  | .kernelSum => 4
  | .curveRange => 5
  | .glyphCode => 6
  | .timecodeMode => 7

/-- The codes of the end causes. -/
def EndCause.code : EndCause → Nat
  | .stop => 1
  | .cue => 2
  | .split => 3
  | .storeFull => 4
  | .pictureLost => 5
  | .geometry => 6
  | .limit => 7
  | .restart => 8

/-- The codes of the input link states. -/
def InputLink.code : InputLink → Nat
  | .down => 0
  | .idle => 1
  | .streaming => 2

/-- The codes of the record states. -/
def RecordState.code : RecordState → Nat
  | .standby => 0
  | .caching => 1
  | .recording => 2

/-- The words of the renditions. -/
def Rendition.word : Rendition → Word
  | .principal => 0x0001#16
  | .proxy => 0x0002#16

end Sys2Proof.Machine
end

