-- ==== Sys2Proof/Machine/Tables.lean ====
section
/-! DEFINITION. The fields of the six tables, their validation, and the banks (chapter 7, section 10.6). -/

namespace Sys2Proof.Machine

open Sys2Proof

/-! ### Banks and tables -/

/-- The table a table ID names (chapter 7). -/
def tableOfId : Nat → Option TableId
  | 1 => some .input
  | 2 => some .hkernel
  | 3 => some .vkernel
  | 4 => some .tone
  | 5 => some .overlay
  | 6 => some .record
  | _ => none

/-- The six tables in the order of their IDs. -/
def TableId.all : List TableId := [.input, .hkernel, .vkernel, .tone, .overlay, .record]

/-- The word counts of a table's segments (chapter 7). -/
def TableId.segments : TableId → List Nat
  | .input => [10]
  | .hkernel | .vkernel => [192]
  | .tone => [256, 256, 256, 3]
  | .overlay => [256, 256, 256, 80]
  | .record => [12]

/-- One table of a bank. -/
def Bank.table (b : Bank) : TableId → Table
  | .input => b.input
  | .hkernel => b.hkernel
  | .vkernel => b.vkernel
  | .tone => b.tone
  | .overlay => b.overlay
  | .record => b.record

/-- A bank with one table replaced. -/
def Bank.setTable (b : Bank) (t : Table) : TableId → Bank
  | .input => { b with input := t }
  | .hkernel => { b with hkernel := t }
  | .vkernel => { b with vkernel := t }
  | .tone => { b with tone := t }
  | .overlay => { b with overlay := t }
  | .record => { b with record := t }

/-- A bank is valid when all six of its tables are VALID (R125). -/
def Bank.valid (b : Bank) : Bool := TableId.all.all fun i => (b.table i).state == .valid

/-- The other bank. -/
def BankId.other : BankId → BankId
  | .a => .b
  | .b => .a

/-- One of the two banks. -/
def Banks.get (s : Banks) : BankId → Bank
  | .a => s.a
  | .b => s.b

/-- The active bank (R125). -/
def Banks.act (s : Banks) : Bank := s.get s.active
/-- The standby bank (R125). -/
def Banks.standby (s : Banks) : Bank := s.get s.active.other

/-- The standby bank replaced: loads and copies write no other (R126). -/
def Banks.setStandby (s : Banks) (b : Bank) : Banks :=
  match s.active with
  | .a => { s with b := b }
  | .b => { s with a := b }

/-! ### Fields (section 10.6, R174) -/

/-- Word i of a table, as an unsigned whole word. -/
def Table.nat (t : Table) (i : Nat) : Nat := (t.words.getD i 0).toNat

def Bank.wi (b : Bank) : Nat := b.input.nat 0
def Bank.hi (b : Bank) : Nat := b.input.nat 1
def Bank.x0 (b : Bank) : Nat := b.input.nat 2
def Bank.y0 (b : Bank) : Nat := b.input.nat 3
def Bank.wc (b : Bank) : Nat := b.input.nat 4
def Bank.hc (b : Bank) : Nat := b.input.nat 5
def Bank.wo (b : Bank) : Nat := b.input.nat 6
def Bank.ho (b : Bank) : Nat := b.input.nat 7
/-- Proxy enable: bit 0 of its word. -/
def Bank.proxyEnable (b : Bank) : Bool := b.input.nat 8 % 2 == 1

def Bank.preRollDepth (b : Bank) : Nat := b.record.nat 0
def Bank.clipLimit (b : Bank) : Nat := b.record.nat 1 * 65536 + b.record.nat 2
def Bank.proxyFloor (b : Bank) : Nat := b.record.nat 3
def Bank.mode (b : Bank) : TimecodeMode := if b.record.nat 7 = 2 then .recordRun else .freeRun
/-- The four glyph codes of the reel tag. -/
def Bank.reel (b : Bank) : List Nat := [b.record.nat 8, b.record.nat 9, b.record.nat 10, b.record.nat 11]

def Bank.overlayOn (b : Bank) : Bool := b.overlay.nat 0 % 2 == 1
def Bank.darken (b : Bank) : Bool := b.overlay.nat 1 % 2 == 1
/-- The overlay scale: bit 0 selects 1 or 2. -/
def Bank.overlayScale (b : Bank) : Nat := 1 + b.overlay.nat 2 % 2
def Bank.originColumn (b : Bank) : Nat := b.overlay.nat 3 % 2048
def Bank.originRow (b : Bank) : Nat := b.overlay.nat 4 % 2048
def Bank.ink (b : Bank) : Nat := b.overlay.nat 5 % 1024
/-- Row w of glyph g. -/
def Bank.glyphRow (b : Bank) (g w : Nat) : Word := b.overlay.words.getD (8 + 20 * g + w) 0

/-- The fields whose values hold only while the active bank is valid (R125): the picture-loss window is 255 otherwise. -/
def Banks.lossWindow (s : Banks) : Nat := if s.act.valid then s.act.record.nat 5 else 255
/-- The low mark of a bank: 0 while it is not valid (R57). -/
def Bank.lowMark (b : Bank) : Nat := if b.valid then b.record.nat 4 else 0
/-- The pace interval: 0 while the active bank is not valid (R113). -/
def Banks.paceInterval (s : Banks) : Nat := if s.act.valid then s.act.record.nat 6 else 0

/-- P, the pages of a principal frame of size W × H (R41). -/
def principalPages (w h : Nat) : Nat := (w * h * 9 / 2 + 65535) / 65536
/-- X, the pages of a proxy frame of size W × H (R41). -/
def proxyPages (w h : Nat) : Nat := (w * h * 4 + 65535) / 65536

/-- The page counts kept with the active INPUT table (R41); none while that table is not VALID. -/
def Banks.pagesP (s : Banks) : Nat := (s.act.pages.getD (0, 0)).1
def Banks.pagesX (s : Banks) : Nat := (s.act.pages.getD (0, 0)).2

/-! ### Validation (R129 to R134) -/

/-- Coefficient of phase φ and tap k, signed (R131). -/
def Table.coeff (t : Table) (phase tap : Nat) : Int := (t.words.getD (6 * phase + tap) 0).toInt

/-- The six coefficients of a phase. -/
def Table.phase (t : Table) (p : Nat) : List Int := (List.range 6).map (t.coeff p)

/-- The first fault of an INPUT table (R130). -/
def inputFault (b : Bank) : Option Reason :=
  if b.wi % 2 = 1 || b.wi < 64 || b.wi > 4096 || b.hi < 16 || b.hi > 2304 then some .geometry
  else if b.x0 + b.wc > b.wi || b.y0 + b.hc > b.hi then some .crop
  else if b.wo % 2 = 1 || b.wo < 64 || b.wo > 2048 || b.ho % 2 = 1 || b.ho < 36 || b.ho > 1152
      || b.wc < b.wo || b.wc > 8 * b.wo || b.hc < b.ho || b.hc > 8 * b.ho then some .scale
  else none

/-- One phase of a kernel is sound: every coefficient in −512 to 511, and their sum 256 (R131). -/
def phaseSound (cs : List Int) : Bool := cs.all (fun c => -512 ≤ c && c ≤ 511) && cs.sum == 256

/-- The fault of a kernel table (R131). -/
def kernelFault (t : Table) : Option Reason :=
  if (List.range 32).all fun p => phaseSound (t.phase p) then none else some .kernelSum

/-- The fault of a TONE table (R132). -/
def toneFault (t : Table) : Option Reason :=
  if (List.range 771).all fun i => t.nat i ≤ 1023 then none else some .curveRange

/-- The first structural fault of a RECORD table (R134). -/
def recordFault (b : Bank) : Option Reason :=
  if b.record.nat 7 ≠ 1 ∧ b.record.nat 7 ≠ 2 then some .timecodeMode
  else if b.reel.any (· > 41) then some .glyphCode
  else none

/-- The first structural fault of a completed table of a bank (R129 to R134); an OVERLAY has none (R133). -/
def tableFault (b : Bank) : TableId → Option Reason
  | .input => inputFault b
  | .hkernel => kernelFault b.hkernel
  | .vkernel => kernelFault b.vkernel
  | .tone => toneFault b.tone
  | .overlay => none
  | .record => recordFault b

/-- The words of a RECORD table with its numeric fields clamped into range (R134). -/
def clampRecord (t : Table) : List Word :=
  let limit := min (t.nat 1 * 65536 + t.nat 2) 1048575
  [word (min (t.nat 0) 120)] ++ words2 limit ++
  [word (min (t.nat 3) 8192), word (t.nat 4), word (max 1 (min (t.nat 5) 255)), word (min (t.nat 6) 8)] ++
  (List.range 5).map fun i => t.words.getD (7 + i) 0

/-- A completed table with the state and, for RECORD, the clamped words that validation gives it, and the outcome
(R129). -/
def validated (b : Bank) (id : TableId) : Bank × DirOutcome :=
  let t := b.table id
  match tableFault b id with
  | some reason =>
    let b := b.setTable { t with state := .invalid reason } id
    (if id = .input then { b with pages := none } else b, .refBadTable)
  | none =>
    let ws := if id = .record then clampRecord t else t.words
    let b' := b.setTable { words := ws, state := .valid } id
    (if id = .input then { b' with pages := some (principalPages b.wi b.hi, proxyPages b.wo b.ho) } else b',
     if ws = t.words then .done else .doneClamped)

/-- The segment a table expects next; 0 is always accepted (R127). -/
def Table.expects (t : Table) (segment : Nat) : Bool :=
  segment == 0 || t.state == .incomplete segment

/-- An accepted segment written into its table (R128): segment 0 discards what the table held, a later one follows the
words already loaded. -/
def Table.append (t : Table) (segment : Nat) (payload : List Word) : Table :=
  { words := (if segment = 0 then [] else t.words.take (256 * segment)) ++ payload
    state := .incomplete (segment + 1) }

/-- The word of a table state in a STATUS report: the state in the low byte, the next segment or the reason in the high
byte (section 10.5, R173). -/
def TableState.word : TableState → Word
  | .empty => bytesWord 0 0
  | .incomplete n => bytesWord n 1
  | .valid => bytesWord 0 2
  | .invalid r => bytesWord r.code 3

/-- The geometry fields that a recording locks (R136): the input size, the crop, the proxy size and proxy enable. -/
def Bank.geometry (b : Bank) : List Nat :=
  [b.wi, b.hi, b.x0, b.y0, b.wc, b.hc, b.wo, b.ho, b.proxyEnable.toNat]

end Sys2Proof.Machine
end

