-- ==== Sys2Proof/Machine/Timecode.lean ====
section
/-! DEFINITION. Rates, the tick phase and the arithmetic of labels and counts (chapter 2, sections 2.1 and 2.3). -/

namespace Sys2Proof.Machine

open Sys2Proof

/-- The nominal frame count F of a rate (R20). -/
def Rate.nominal : Rate → Nat
  | .r23976 | .r24 => 24
  | .r25 => 25
  | .r2997 | .r30 => 30
  | .r50 => 50
  | .r5994 | .r60 => 60

/-- The first-stage divisor m of a rate (R20). -/
def Rate.divisor : Rate → Nat
  | .r23976 | .r2997 | .r5994 => 1001
  | _ => 1000

/-- The rate codes (section 10.4). -/
def Rate.code : Rate → Nat
  | .r23976 => 0
  | .r24 => 1
  | .r25 => 2
  | .r2997 => 3
  | .r30 => 4
  | .r50 => 5
  | .r5994 => 6
  | .r60 => 7

/-- The rate a rate code names, if it names one (R172). -/
def rateOfCode : Nat → Option Rate
  | 0 => some .r23976
  | 1 => some .r24
  | 2 => some .r25
  | 3 => some .r2997
  | 4 => some .r30
  | 5 => some .r50
  | 6 => some .r5994
  | 7 => some .r60
  | _ => none

/-- The rates that may carry the DF mark (R20). -/
def Rate.mayDrop : Rate → Bool
  | .r2997 | .r5994 => true
  | _ => false

/-- The drop count D under a rate and mark: 0 at an NDF rate (section 2.3). -/
def dropCount (r : Rate) (df : Bool) : Nat :=
  match df, r with
  | true, .r2997 => 2
  | true, .r5994 => 4
  | _, _ => 0

/-- The second-stage divisor of a rate (R20). -/
def Rate.divisor2 (r : Rate) : Nat := 27000 / r.nominal

/-- The lane period of a rate, in reference ticks (R20). -/
def Rate.period (r : Rate) : Nat := r.divisor * r.divisor2

/-- Frames per day of a rate and mark (R20). -/
def framesPerDay (r : Rate) (df : Bool) : Nat := r.nominal * 86400 - dropCount r df * 1296

/-- The range check of a label under a rate (R27, first step). -/
def Label.inRange (r : Rate) (l : Label) : Bool :=
  l.hh < 24 && l.mm < 60 && l.ss < 60 && l.ff < r.nominal

/-- A dropped label names no frame (R27, second step). -/
def Label.dropped (r : Rate) (df : Bool) (l : Label) : Bool :=
  l.ss == 0 && l.mm % 10 != 0 && l.ff < dropCount r df

/-- A dropped label is moved up: ff becomes D (R27). -/
def Label.movedUp (r : Rate) (df : Bool) (l : Label) : Label :=
  if l.dropped r df then { l with ff := dropCount r df } else l

/-- A label in range and not dropped becomes a count (R28). -/
def labelToCount (r : Rate) (df : Bool) (l : Label) : Nat :=
  let totalMinutes := l.hh * 60 + l.mm
  (l.hh * 3600 + l.mm * 60 + l.ss) * r.nominal + l.ff
    - dropCount r df * (totalMinutes - totalMinutes / 10)

/-- A count restored to its NDF position: itself at an NDF rate, N′ at a DF rate (R29). -/
def ndfPosition (r : Rate) (df : Bool) (n : Nat) : Nat :=
  let d := dropCount r df
  let per10 := 600 * r.nominal - 9 * d
  let perMin := 60 * r.nominal - d
  let q := n / per10
  let m := n % per10
  if m < d then n + 9 * d * q else n + 9 * d * q + d * ((m - d) / perMin)

/-- A count becomes a label (R29). -/
def countToLabel (r : Rate) (df : Bool) (n : Nat) : Label :=
  let p := ndfPosition r df n
  let f := r.nominal
  { hh := p / (3600 * f), mm := p / (60 * f) % 60, ss := p / f % 60, ff := p % f }

/-- A timecode word: the DF mark in bit 0, the rate code in bits 3 to 1, further marks above (section 10.1). -/
def timecodeNat (r : Rate) (df : Bool) : Nat := df.toNat + 2 * r.code

/-- The tick phase (R21). -/
def TimeBase.phase (t : TimeBase) : Nat := t.stage2 * t.rate.divisor + t.stage1

/-- Frames per day at the current rate and mark (R20). -/
def TimeBase.perDay (t : TimeBase) : Nat := framesPerDay t.rate t.df

/-- A count raised by 1, returning from frames per day less one to 0 (R24, R25). -/
def nextCount (perDay n : Nat) : Nat := if n + 1 ≥ perDay then 0 else n + 1

/-- The label of a count under the current rate. -/
def TimeBase.label (t : TimeBase) (n : Nat) : Label := countToLabel t.rate t.df n

/-- Both stages of the tick phase at 0 and the last subframe index absent, as a jam and a rate change leave them
(R33, R35). -/
def TimeBase.restartLane (t : TimeBase) : TimeBase := { t with stage1 := 0, stage2 := 0, lastSub := none }

/-- Reference ticks that pass, as the interval count counts them (R32). -/
def TimeBase.pass (ticks : Nat) (t : TimeBase) : TimeBase :=
  { t with interval := satAdd Config.intervalLimit t.interval ticks }

/-- One reference tick that does not end the lane period (R21, R32). -/
def TimeBase.tick (t : TimeBase) : TimeBase :=
  let t := t.pass 1
  if t.stage1 + 1 ≥ t.rate.divisor then { t with stage1 := 0, stage2 := t.stage2 + 1 }
  else { t with stage1 := t.stage1 + 1 }

/-- The next reference tick ends the lane period: both stages stand at their last values (R21). -/
def TimeBase.atWrap (t : TimeBase) : Bool := t.phase + 1 ≥ t.rate.period

/-- The subframe index of the next stamp (R31). -/
def TimeBase.nextSub (t : TimeBase) : Nat :=
  match t.lastSub with
  | none => 0
  | some i => satAdd 15 i 1

/-- The stamp latched at a taken FRAME OPEN (R30). -/
def TimeBase.stamp (t : TimeBase) : Stamp := { tod := t.tod, phase := t.phase, sub := t.nextSub }

/-- What a stamp leaves: its subframe index and the capture interval latched, the interval count back at 0
(R31, R32). -/
def TimeBase.afterStamp (t : TimeBase) : TimeBase :=
  { t with lastSub := some t.nextSub, lastInterval := t.interval, interval := 0 }

/-- A count carried to a new rate by its label: clamped, moved up and counted again (R35). The mark says that the label
was clamped or moved up. -/
def reExpress (oldRate : Rate) (oldDf : Bool) (newRate : Rate) (newDf : Bool) (n : Nat) : Nat × Bool :=
  let l := countToLabel oldRate oldDf n
  let clamped := { l with ff := min l.ff (newRate.nominal - 1) }
  let moved := clamped.movedUp newRate newDf
  (labelToCount newRate newDf moved, moved != l)

end Sys2Proof.Machine
end

