-- ==== Sys2Proof/Machine/Reports.lean ====
section
/-! DEFINITION. The bodies of the reports and the report packets (section 10.5, R156, R173). -/

namespace Sys2Proof.Machine

open Sys2Proof

/-! ### The state of an output link as reports show it -/

/-- The states of an output link (R109). -/
inductive LinkState where
  | notReady | ready | sendingFrame | sendingReport
  deriving DecidableEq, Repr

/-- The state of an output link: a free link takes NOT READY or READY from its two lines as they stand (R109). A link on
which a FRAME ABORT, or the FRAME CLOSE of a frame RESTART has discarded, is leaving is in SENDING FRAME (R122). -/
def OutLink.state (l : OutLink) : LinkState :=
  match l.act with
  | .free => if l.readyLine && !l.resetLine then .ready else .notReady
  | .frame .. | .closing _ | .aborting _ => .sendingFrame
  | .report _ => .sendingReport

/-- The codes of the link states. -/
def LinkState.code : LinkState → Nat
  | .notReady => 0
  | .ready => 1
  | .sendingFrame => 2
  | .sendingReport => 3

/-! ### STATUS -/

/-- A FREE frame record (R42). -/
def FrameRecord.isFree (r : FrameRecord) : Bool := r.state == .free

/-- The number of FREE records (R58). -/
def Store.freeRecords (s : Store) : Nat := s.table.toList.countP FrameRecord.isFree

/-- The seven counts of a clip, two words each, in the order of the clip entry (section 10.5). -/
def ClipRecord.countWords (c : ClipRecord) : List Word :=
  [c.joined, c.sent, c.made, c.evicted, c.proxySent, c.gapTotal, c.flawed].flatMap words2

/-- A clip entry of 16 words (section 10.5). -/
def ClipRecord.entry (c : ClipRecord) : List Word :=
  [word c.number, bytesWord c.overflow.toNat (if c.state = .closing then 1 else 0)] ++ c.countWords

/-- The four clip entries: the records that exist, oldest first, the rest 0 in every word (R173). -/
def clipEntries (cs : List ClipRecord) : List Word :=
  let used := (cs.take 4).flatMap ClipRecord.entry
  used ++ List.replicate (64 - used.length) 0

/-- The body of a STATUS report, and the STATUS fields of a snapshot record, as every block stands (R156, R167). -/
def State.statusBody (s : State) : List Word :=
  [word s.ingress.link.code,
   bytesWord s.clips.cacheMark.toNat s.clips.recordState.code,
   word (if s.banks.active = .a then 0 else 1)] ++
  TableId.all.map (fun i => (s.banks.standby.table i).state.word) ++
  [word s.render.stepsLeft] ++
  words2 s.store.freePages ++
  [word s.store.freeRecords, word s.store.pq.length, word s.store.pFlawed, word s.store.xq.length,
   word s.store.xFlawed, word s.clips.ring.length] ++
  labelWords (s.time.label s.time.tod) ++
  [word (timecodeNat s.time.rate s.time.df + if s.time.running then 0 else 16)] ++
  labelWords (s.time.label s.time.rr) ++
  words2 s.time.lastInterval ++
  [word s.pLink.state.code, word s.xLink.state.code, s.flags.raised] ++
  clipEntries s.clips.records

/-! ### SNAPSHOT -/

/-- The number of a flag (R160). -/
def Flag.number : Flag → Nat
  | .pictureLost => 1
  | .inputDown => 2
  | .flawedFrame => 3
  | .geometryMismatch => 4
  | .captureSkip => 5
  | .proxyGap => 6
  | .storeLow => 7
  | .storeFullCut => 8
  | .clipSettled => 9
  | .splitDeferred => 10
  | .cueFired => 11
  | .tableInvalid => 12
  | .directiveCorrupt => 13
  | .reportsLost => 14
  | .snapshotTaken => 15
  | .strayLines => 16

/-- The body of a SNAPSHOT report (section 10.5). -/
def SnapshotRecord.body (r : SnapshotRecord) : List Word := r.status ++ [word r.trigger.number] ++ labelWords r.tod

/-! ### CLIP SUMMARY -/

/-- A run of a gap list, as four words (section 10.5). -/
def GapRun.words (g : GapRun) : List Word := words2 g.first ++ words2 g.length

/-- The reel tag, two glyph codes in each word (section 10.3). -/
def reelWords (reel : List Nat) : List Word :=
  [bytesWord (reel.getD 0 0) (reel.getD 1 0), bytesWord (reel.getD 2 0) (reel.getD 3 0)]

/-- The body of the clip summary of a clip record as it stands (R85, R173). -/
def ClipRecord.summary (c : ClipRecord) : List Word :=
  [word c.number, word c.take, word c.part] ++ reelWords c.reel ++
  [word (timecodeNat c.rate c.df + 16 * (if c.mode = .recordRun then 1 else 0) + 32 * c.startTc.isSome.toNat
    + 64 * c.firstCapture.isSome.toNat + 128 * c.overflow.toNat)] ++
  (match c.startTc with
    | some n => labelWords (countToLabel c.rate c.df n)
    | none => [0, 0]) ++
  (match c.firstCapture with
    | some n => words2 n.toNat
    | none => [0, 0]) ++
  c.countWords ++
  [word (match c.cause with
    | some e => e.code
    | none => 0),
   word c.gaps.length] ++
  c.gaps.flatMap GapRun.words

/-! ### Report packets -/

/-- The kind word of a report (section 10.5). -/
def Report.kindWord : Report → Word
  | .response .. => 0x0001#16
  | .status .. => 0x0002#16
  | .marker _ => 0x0003#16
  | .clipSummary _ => 0x0004#16
  | .snapshot _ => 0x0005#16

/-- The body of a report (section 10.5). -/
def Report.body : Report → List Word
  | .response tag code outcome cleared => [tag.setWidth 16, code, outcome.word, cleared]
  | .status body _ => body
  | .marker content => [match content with
    | some c => c.listed
    | none => 0]
  | .clipSummary body => body
  | .snapshot body => body

/-- A report as it is sent (section 10.5). -/
def Report.packet (r : Report) : Packet := sealed ([reportCode, r.kindWord, word r.body.length] ++ r.body)

/-- The notice marker among the entries of the report queue. -/
def Report.isMarker : Report → Bool
  | .marker _ => true
  | _ => false

/-- What a report listed as set, with its later-settings set: STATUS and a filled NOTICE hold one (R165). -/
def Report.content : Report → Option NoticeContent
  | .status _ c => some c
  | .marker c => c
  | _ => none

/-- The report with flags added to its later-settings set (R165). -/
def Report.addLater (f : FlagSet) : Report → Report
  | .status b c => .status b { c with later := c.later ||| f }
  | .marker (some c) => .marker (some { c with later := c.later ||| f })
  | r => r

end Sys2Proof.Machine
end

