-- ==== Sys2Proof/Machine/Flags.lean ====
section
/-! DEFINITION. The Flag Unit and the report queue: setting a flag, notices, the snapshot, placing reports
(chapter 9, section 8.5, R118). -/

namespace Sys2Proof.Machine

open Sys2Proof

/-! ### The flags (R160) -/

/-- The bit of a flag in a flag set (section 10.1). -/
def Flag.bit (f : Flag) : FlagSet := 1#16 <<< (f.number - 1)

/-- The class of a flag (R160). -/
def Flag.noticeClass : Flag → NoticeClass
  | .pictureLost | .inputDown | .geometryMismatch | .storeFullCut => .urgent
  | _ => .routine

/-- A flag is in a flag set. -/
def Flag.isIn (f : Flag) (fs : FlagSet) : Bool := fs.getLsbD (f.number - 1)

/-! ### The report queue (R118, R153, R154) -/

/-- The P-link is sending the report at the head of the report queue. -/
def OutLink.sendingReport (l : OutLink) : Bool :=
  match l.act with
  | .report _ => true
  | _ => false

/-- The P-link is idle: free, LINK RESET released, its batch done, and no frame may start (R118). -/
def State.idleP (s : State) : Bool :=
  s.pLink.act == .free && !s.pLink.resetLine && s.batch == 0 && !(s.pLink.readyLine && !s.store.pq.isEmpty)

/-- The report queue after a report has been placed in it. While the link is idle, each report placed begins a batch of
the entries then in the queue (R118). The first report makes the count 1, the link is then no longer idle, and
later ones join the batch uncounted. DESIGN CHOICE: this holds for the reports of a RESTART on a link already free too,
for which R124 names no count (notes/assumptions/34.md, unsafe). -/
def State.placed (rs : List Report) (s : State) : State :=
  { s with dir := { s.dir with reports := rs }, batch := if s.idleP then rs.length else s.batch }

/-- A report placed at the head goes behind the report in flight (R153). DESIGN CHOICE: a report that LINK RESET has
abandoned waits at the head but is not in flight (R120); R153, R163 and R164 name the report in flight alone, so the model
puts an urgent marker ahead of an abandoned report (notes/assumptions/32.md, unsafe). -/
def State.atHead (s : State) (r : Report) (rs : List Report) : List Report :=
  match s.pLink.sendingReport, rs with
  | true, first :: others => first :: r :: others
  | _, rs => r :: rs

/-- A notice marker is placed, at the head or the tail by the marker class, or owed when the queue is full
(R154, R163). -/
def State.placeMarker (s : State) : State :=
  if s.dir.reports.length < Config.reportQueueDepth then
    match s.flags.markerClass with
    | .urgent => s.placed (s.atHead (.marker none) s.dir.reports)
    | .routine => s.placed (s.dir.reports ++ [.marker none])
  else { s with dir := { s.dir with markerWaiting := true } }

/-! ### Notices (R163, R164) -/

/-- Where the single marker is (R163). -/
inductive MarkerPlace where
  | nowhere | queued | owed | inFlight
  deriving DecidableEq, Repr

/-- The place of the marker: in flight while the P-link is sending it at the head of the queue. -/
def State.markerPlace (s : State) : MarkerPlace :=
  if s.pLink.sendingReport && s.dir.reports.head?.any Report.isMarker then .inFlight
  else if s.dir.reports.any Report.isMarker then .queued
  else if s.dir.markerWaiting then .owed
  else .nowhere

/-- The marker class made urgent by an urgent flag; a routine one leaves it (R163). -/
def State.raiseClass (c : NoticeClass) (s : State) : State :=
  match c with
  | .urgent => { s with flags := { s.flags with markerClass := .urgent } }
  | .routine => s

/-- The queued marker moves to the head, behind the report in flight; the others keep their order (R164). -/
def State.promoteMarker (s : State) : State :=
  match s.dir.reports.find? Report.isMarker with
  | some m =>
    { s with dir := { s.dir with reports := s.atHead m (s.dir.reports.eraseP Report.isMarker) } }
  | none => s

/-- A call for a notice by a flag of a class (R163). -/
def State.callNotice (c : NoticeClass) (s : State) : State :=
  match s.markerPlace with
  | .nowhere => (s.raiseClass c).placeMarker
  | .queued =>
    match c, s.flags.markerClass with
    | .urgent, .routine => (s.raiseClass .urgent).promoteMarker
    | _, _ => s
  | .owed => s.raiseClass c
  | .inFlight => { s.raiseClass c with flags := { (s.raiseClass c).flags with renotice := true } }

/-! ### Setting a flag (R161, R167) -/

/-- Steps 1 and 2 of R161: the flag becomes set, its shown mark is cleared, and it joins the later-settings set of every
report that holds one (R165). -/
def State.markSet (f : Flag) (s : State) : State :=
  { s with
    flags := { s.flags with raised := s.flags.raised ||| f.bit, shown := s.flags.shown &&& ~~~f.bit }
    dir := { s.dir with reports := s.dir.reports.map (Report.addLater f.bit) } }

/-- Steps 1 to 3 of R161: a flag that was clear and whose notice is enabled calls for a notice. -/
def State.setFlagNotice (f : Flag) (s : State) : State :=
  if !f.isIn s.flags.raised && f.isIn s.flags.enables then (s.markSet f).callNotice f.noticeClass else s.markSet f

/-- The snapshot record of the part as it stands, made for a trigger flag (R167). -/
def State.snapshotRecord (f : Flag) (s : State) : SnapshotRecord :=
  { status := s.statusBody, trigger := f, tod := s.time.label s.time.tod }

/-- The snapshot is captured (R167): the record, CAPTURED, then SNAPSHOT TAKEN. -/
def State.capture (f : Flag) (s : State) : State :=
  ({ s with flags := { s.flags with snapshot := .captured (s.snapshotRecord f) } }).setFlagNotice .snapshotTaken

/-- A setting event of a flag (R161). -/
def State.setFlag (f : Flag) (s : State) : State :=
  let s := s.setFlagNotice f
  match s.flags.snapshot with
  | .armed triggers => if f.isIn triggers then s.capture f else s
  | _ => s

/-- A report other than a marker is placed at the tail, or dropped from a full queue with REPORTS LOST set (R153). -/
def State.placeReport (r : Report) (s : State) : State :=
  if s.dir.reports.length < Config.reportQueueDepth then s.placed (s.dir.reports ++ [r])
  else s.setFlag .reportsLost

/-- The response to a directive is placed (R151). -/
def State.respond (tag : Byte) (code : Word) (o : DirOutcome) (cleared : FlagSet) (s : State) : State :=
  s.placeReport (.response tag code o cleared)

/-! ### The shown mark (R165) -/

/-- A report that listed flags has been sent in full: each listed flag with no setting event since is marked shown. -/
def FlagUnit.markShown (c : NoticeContent) (u : FlagUnit) : FlagUnit :=
  { u with shown := u.shown ||| (c.listed &&& ~~~c.later) }

/-- The flags a CLEAR FLAGS clears: listed, set and shown (R166). -/
def FlagUnit.clearable (list : FlagSet) (u : FlagUnit) : FlagSet := list &&& u.raised &&& u.shown

end Sys2Proof.Machine
end

