-- ==== Sys2Proof/Machine/Store.lean ====
section
/-! DEFINITION. The Store Manager's own operations: records, pages, the send queues, ring releases (chapter 3). -/

namespace Sys2Proof.Machine

open Sys2Proof

/-! ### Records and pages -/

/-- One frame record. -/
def Store.frame (s : Store) (i : RecNo) : FrameRecord := s.table[i]

/-- The frame table with one record changed. -/
def Store.modify (i : RecNo) (f : FrameRecord → FrameRecord) (s : Store) : Store :=
  { s with table := s.table.set i (f s.table[i]) }

/-- The lowest-numbered FREE record (R49). -/
def Store.lowestFree (s : Store) : Option RecNo := (List.finRange Config.frameRecords).find? fun i => (s.frame i).isFree

/-- A twin field that names a record, made absent (R42). -/
def FrameRecord.dropTwin (i : RecNo) (r : FrameRecord) : FrameRecord :=
  if r.twin = some i then { r with twin := none } else r

/-- A record becomes FREE: its pages return, and any record whose twin field names it has that field made absent
(R40, R42). -/
def Store.release (i : RecNo) (s : Store) : Store :=
  { s with
    freePages := s.freePages + (s.frame i).pages
    table := (s.table.map (FrameRecord.dropTwin i)).set i .blank }

/-- A record is reserved: it is written afresh, and its pages leave the free page count (R40, R42). -/
def Store.reserve (i : RecNo) (r : FrameRecord) (s : Store) : Store :=
  { s with freePages := s.freePages - r.pages, table := s.table.set i r }

/-- A record made STORED, as a completion and a link reset leave it (R51, R53). -/
def FrameRecord.makeStored (r : FrameRecord) : FrameRecord := { r with state := .stored }

/-- The flaw set of a frame is empty (R5). -/
def Flaws.clean (f : Flaws) : Bool := !f.truncated && f.check == 0 && f.missing == 0 && f.excess == 0

/-- The flaw set as the output FRAME OPEN carries it (section 10.3). -/
def Flaws.setNat (f : Flaws) : Nat :=
  (if f.check > 0 then 1 else 0) + (if f.missing > 0 then 2 else 0) + (if f.excess > 0 then 4 else 0)
    + (if f.truncated then 8 else 0)

/-- What a flawed record adds to its queue's flawed-frame count (R55). -/
def FrameRecord.flawCount (r : FrameRecord) : Nat := if r.flaws.clean then 0 else 1

/-! ### The send queues (R51, R52, R54, R55) -/

/-- A principal is appended to the principal send queue. -/
def Store.appendP (i : RecNo) (s : Store) : Store :=
  { s with pq := s.pq ++ [i], pFlawed := s.pFlawed + (s.frame i).flawCount }

/-- A twin is appended to the proxy send queue. -/
def Store.appendX (i : RecNo) (s : Store) : Store :=
  { s with xq := s.xq ++ [i], xFlawed := s.xFlawed + (s.frame i).flawCount }

/-- A principal and its twin, when it has one, are appended at the same step (R51). -/
def Store.appendPair (i : RecNo) (s : Store) : Store :=
  match (s.frame i).twin with
  | some t => (s.appendP i).appendX t
  | none => s.appendP i

/-- A sent frame leaves the head of its queue and its record becomes FREE (R54). -/
def Store.removeSent (l : LinkId) (i : RecNo) (s : Store) : Store :=
  match l with
  | .p => { s with pq := s.pq.tail, pFlawed := s.pFlawed - (s.frame i).flawCount }.release i
  | .x => { s with xq := s.xq.tail, xFlawed := s.xFlawed - (s.frame i).flawCount }.release i

/-- The newest proxy of the proxy send queue, when it may be evicted: STORED, its started mark clear (R47). -/
def Store.evictable (s : Store) : Option RecNo :=
  match s.xq.getLast? with
  | some i => if (s.frame i).state = .stored ∧ (s.frame i).started = false then some i else none
  | none => none

/-- Steps 1 and 2 of an eviction: the record leaves the newest end of the queue and becomes FREE (R47). -/
def Store.evict (i : RecNo) (s : Store) : Store :=
  { s with xq := s.xq.dropLast, xFlawed := s.xFlawed - (s.frame i).flawCount }.release i

/-! ### Ring releases (R56) -/

/-- A pair release: the principal record and its twin, when it has one, become FREE. -/
def Store.releasePair (i : RecNo) (s : Store) : Store :=
  match (s.frame i).twin with
  | some t => (s.release i).release t
  | none => s.release i

/-- A twin release: the twin alone becomes FREE. -/
def Store.releaseTwin (i : RecNo) (s : Store) : Store :=
  match (s.frame i).twin with
  | some t => s.release t
  | none => s

/-- Every record of a list released with its twin, in order. -/
def Store.releasePairs (is : List RecNo) (s : Store) : Store := is.foldl (fun s i => s.releasePair i) s

/-- The twin of every record of a list released. -/
def Store.releaseTwins (is : List RecNo) (s : Store) : Store := is.foldl (fun s i => s.releaseTwin i) s

/-! ### Admission (R45, R49, R50, R57) -/

/-- The principal is short: fewer than P free pages, or no FREE record (R45). -/
def Store.short (pages : Nat) (s : Store) : Bool := s.freePages < pages || s.lowestFree.isNone

/-- The free page count lies below a mark: never below a mark of 0 (R57). -/
def belowMark (mark free : Nat) : Bool := 0 < mark && free < mark

/-- The STORE LOW test after a reservation, against the count before it (R57). -/
def State.testStoreLow (before : Nat) (s : State) : State :=
  let mark := s.banks.act.lowMark
  if !belowMark mark before && belowMark mark s.store.freePages then s.setFlag .storeLow else s

/-- A record is reserved and STORE LOW is tested (R49, R50). -/
def State.reserve (i : RecNo) (r : FrameRecord) (s : State) : State :=
  ({ s with store := s.store.reserve i r }).testStoreLow s.store.freePages

/-- The principal record of an admission (R49). -/
def principalRecord (b : Banks) (capture : BitVec 32) (stamp : Stamp) : FrameRecord :=
  { FrameRecord.blank with
    kind := .principal, state := .filling, pages := b.pagesP, width := b.act.wi, height := b.act.hi,
    capture := capture, stamp := stamp }

/-- The twin record of an admission (R50). -/
def twinRecord (b : Banks) (capture : BitVec 32) (stamp : Stamp) (principal : RecNo) (note : Option Nat) :
    FrameRecord :=
  { FrameRecord.blank with
    kind := .proxy, state := .filling, pages := b.pagesX, width := b.act.wo, height := b.act.ho,
    capture := capture, stamp := stamp, twin := some principal, rampNote := note }

/-- The record a twin takes, when all three conditions of R50 hold. -/
def State.twinRoom (s : State) : Option RecNo :=
  if s.banks.act.proxyEnable && s.banks.act.proxyFloor + s.banks.pagesX ≤ s.store.freePages then s.store.lowestFree
  else none

end Sys2Proof.Machine
end

