-- ==== Sys2Proof/Machine/Clips.lean ====
section
/-! DEFINITION. The Clip Controller's own operations: gap lists, joins, opening, closing, splitting, settling, the ring
and cue actions (chapter 4). -/

namespace Sys2Proof.Machine

open Sys2Proof

/-! ### Gap lists (R73) -/

/-- One past the last clip frame number of a run. -/
def GapRun.stop (r : GapRun) : Nat := r.first + r.length

/-- A gap entered in a list of runs, where `room` says that fewer than 16 runs exist. None: the gap touches no run and
the list is full, or it stands in a run already. -/
def enterGap (g : Nat) (room : Bool) : List GapRun → Option (List GapRun)
  | [] => if room then some [⟨g, 1⟩] else none
  | r :: rs =>
    if g + 1 < r.first then if room then some (⟨g, 1⟩ :: r :: rs) else none
    else if g + 1 = r.first then some (⟨g, r.length + 1⟩ :: rs)
    else if g < r.stop then none
    else if g = r.stop then
      match rs with
      | n :: ns =>
        if n.first = g + 1 then some (⟨r.first, r.length + 1 + n.length⟩ :: ns)
        else some (⟨r.first, r.length + 1⟩ :: n :: ns)
      | [] => some [⟨r.first, r.length + 1⟩]
    else (enterGap g room rs).map (r :: ·)

/-- A gap recorded at a clip frame number: the gap total, and the gap list or the overflow mark (R72, R73). -/
def ClipRecord.addGap (g : Nat) (c : ClipRecord) : ClipRecord :=
  match enterGap g (c.gaps.length < Config.gapRuns) c.gaps with
  | some gaps => { c with gapTotal := c.gapTotal + 1, gaps := gaps }
  | none => { c with gapTotal := c.gapTotal + 1, overflow := true }

/-- An eviction of one of the clip's proxies, with its gap (R72). -/
def ClipRecord.evict (g : Nat) (c : ClipRecord) : ClipRecord := { c.addGap g with evicted := c.evicted + 1 }

/-- The record after a principal has joined: frame 0 gives the start timecode and the first capture index, a twin counts
as made, and a twinless join is a gap at its clip frame number (R66, R68, R72). -/
def ClipRecord.join (timecode : Nat) (capture : BitVec 32) (hasTwin : Bool) (c : ClipRecord) : ClipRecord :=
  let c' := if hasTwin then { c with made := c.made + 1 } else c.addGap c.joined
  { c' with
    joined := c.joined + 1
    startTc := if c.joined = 0 then some timecode else c.startTc
    firstCapture := if c.joined = 0 then some capture else c.firstCapture }

/-! ### Clip records -/

/-- The open clip, when there is one (R66). -/
def Clips.openClip (c : Clips) : Option ClipRecord := c.records.find? (·.state == .isOpen)

/-- The open clip's record changed. -/
def Clips.modifyOpen (f : ClipRecord → ClipRecord) (c : Clips) : Clips :=
  { c with records := c.records.map fun r => if r.state = .isOpen then f r else r }

/-- The record of a clip number changed. -/
def Clips.modifyNumber (n : Nat) (f : ClipRecord → ClipRecord) (c : Clips) : Clips :=
  { c with records := c.records.map fun r => if r.number = n then f r else r }

/-- A clip record is free (R66). -/
def Clips.roomForClip (c : Clips) : Bool := c.records.length < Config.clipRecords

/-- The split-pending mark set or cleared; the deferral-reported mark is cleared whenever it is cleared (R80, R82). -/
def Clips.setSplit (mark : Bool) (c : Clips) : Clips :=
  { c with splitPending := mark, deferralReported := c.deferralReported && mark }

/-- The split-pending mark that a clip limit gives a principal joined count (R80, R139). -/
def splitDue (limit joined : Nat) : Bool := limit != 0 && limit ≤ joined

/-- The record state after an open clip has closed (R60). -/
def Clips.fallback (c : Clips) : Clips := { c with recordState := if c.cacheMark then .caching else .standby }

/-! ### Settling (R84) -/

/-- A CLOSING clip whose frames have all left. -/
def ClipRecord.settled (c : ClipRecord) : Bool :=
  c.state == .closing && c.sent == c.joined && c.proxySent + c.evicted == c.made

/-- The settling test of a clip: its summary is queued, CLIP SETTLED is set and its record is freed. -/
def State.testSettle (n : Nat) (s : State) : State :=
  match s.clips.records.find? (fun c => c.number == n && c.settled) with
  | some c =>
    let s := (s.placeReport (.clipSummary c.summary)).setFlag .clipSettled
    { s with clips := { s.clips with records := s.clips.records.eraseP fun c => c.number == n && c.settled } }
  | none => s

/-- The send of a frame of a clip, counted; the clip may settle (R54, R84). -/
def ClipRecord.countSend (l : LinkId) (c : ClipRecord) : ClipRecord :=
  match l with
  | .p => { c with sent := c.sent + 1 }
  | .x => { c with proxySent := c.proxySent + 1 }

/-- A frame sent is reported to the Clip Controller (R84). -/
def State.reportSend (l : LinkId) (n : Nat) (s : State) : State :=
  ({ s with clips := s.clips.modifyNumber n (ClipRecord.countSend l) }).testSettle n

/-- An eviction is reported to the Clip Controller: counted, its gap recorded, PROXY GAP set, the clip tested for settling
(R47, R72, R84). -/
def State.reportEviction (part : ClipPart) (s : State) : State :=
  (({ s with clips := s.clips.modifyNumber part.clip (ClipRecord.evict part.number) }).setFlag .proxyGap).testSettle
    part.clip

/-! ### Opening (R66, R67) -/

/-- The clip number after a number. -/
def numberAfter (n : Nat) : Nat := if n < Config.lastClipNumber then n + 1 else 1

/-- The counter advanced past the numbers in use (R67): at most four records exist, so few steps are needed. -/
def advanceNumber (used : List Nat) : Nat → Nat → Nat
  | 0, n => n
  | fuel + 1, n => if used.contains n then advanceNumber used fuel (numberAfter n) else n

/-- The record of a clip that opens, after the clip it continues when a split opens it (R66). -/
def newClip (continued : Option ClipRecord) (s : State) : ClipRecord :=
  let b := s.banks.act
  { number := s.clips.nextNumber
    take := match continued with
      | some c => c.take
      | none => s.clips.nextNumber
    part := match continued with
      | some c => satAdd 255 c.part 1
      | none => 0
    reel := match continued with
      | some c => c.reel
      | none => b.reel
    state := .isOpen
    mode := match continued with
      | some c => c.mode
      | none => b.mode
    rate := s.time.rate, df := s.time.df, startTc := none, firstCapture := none
    joined := 0, sent := 0, made := 0, evicted := 0, proxySent := 0, gapTotal := 0, gaps := [], overflow := false
    flawed := 0, cause := none }

/-- A clip opens: its record, the counter, the picture-loss count back at 0, the split-pending mark cleared, the record
state RECORDING (R17, R66, R67). -/
def State.openRecord (continued : Option ClipRecord) (s : State) : State :=
  let records := s.clips.records ++ [newClip continued s]
  { s with
    clips := { s.clips.setSplit false with
      records := records
      nextNumber := advanceNumber (records.map (·.number)) (records.length + 1) (numberAfter s.clips.nextNumber)
      recordState := .recording }
    ingress := { s.ingress with lossCount := 0 } }

/-! ### Joins (R25, R26, R68, R69) -/

/-- The clip part written into a principal record and its twin's (R68, step 3). -/
def Store.writePart (i : RecNo) (part : ClipPart) (s : Store) : Store :=
  let s' := s.modify i fun r => { r with part := some part }
  match (s.frame i).twin with
  | some t => s'.modify t fun r => { r with part := some part }
  | none => s'

/-- Steps 1 to 4 of R68: a principal joins the open clip, takes the RR count, and the clip limit is tested (R80). -/
def State.joinOpen (i : RecNo) (s : State) : State :=
  match s.clips.openClip with
  | none => s
  | some c =>
    let r := s.store.frame i
    let timecode := match c.mode with
      | .freeRun => r.stamp.tod
      | .recordRun => s.time.rr
    let part : ClipPart := ⟨c.number, c.joined, timecode⟩
    let s := { s with
      time := { s.time with rr := nextCount s.time.perDay s.time.rr }
      store := s.store.writePart i part
      clips := (s.clips.modifyOpen (ClipRecord.join timecode r.capture r.twin.isSome)).setSplit
        (splitDue s.banks.act.clipLimit (c.joined + 1)) }
    if r.twin.isSome then s else s.setFlag .proxyGap

/-- A joined frame whose flaws are not empty raises its clip's flawed count (R71). -/
def State.countFlawed (i : RecNo) (s : State) : State :=
  match (s.store.frame i).part with
  | some part =>
    { s with clips := s.clips.modifyNumber part.clip fun c =>
        { c with flawed := c.flawed + (s.store.frame i).flawCount } }
  | none => s

/-- One entry of the ring joins the new clip (R68). -/
def State.commitEntry (i : RecNo) (s : State) : State :=
  let s := (s.joinOpen i).countFlawed i
  { s with store := s.store.appendPair i }

/-- The ring is committed: each entry, oldest first, leaves the ring as it joins (R68). -/
def State.commitRing : List RecNo → State → State
  | [], s => s
  | i :: ring, s => State.commitRing ring (({ s with clips := { s.clips with ring := ring } }).commitEntry i)

/-- A clip opens by START or by a start action, and the ring is committed (R65, R66, R68). -/
def State.startClip (s : State) : State :=
  let s := s.openRecord none
  s.commitRing s.clips.ring

/-! ### Closing and splitting (R78, R81, R82, R83) -/

/-- The open clip's record as a close leaves it. -/
def ClipRecord.close (cause : EndCause) (c : ClipRecord) : ClipRecord :=
  { c with state := .closing, cause := some cause }

/-- The open clip closes with a cause and the record state falls back (R78). -/
def State.closeOpen (cause : EndCause) (s : State) : State :=
  match s.clips.openClip with
  | none => s
  | some c =>
    ({ s with clips := ((s.clips.modifyOpen (ClipRecord.close cause)).setSplit false).fallback }).testSettle c.number

/-- The open clip closes with a cause when the part is recording (R8, R18, R48). -/
def State.cut (cause : EndCause) (s : State) : State :=
  if s.clips.recordState = .recording then s.closeOpen cause else s

/-- The open clip closes with cause SPLIT and its next part opens in the same step (R78, R81). -/
def State.split (s : State) : State :=
  match s.clips.openClip with
  | none => s
  | some c =>
    let s := { s with clips := (s.clips.modifyOpen (ClipRecord.close .split)).setSplit false }
    (s.openRecord (some c)).testSettle c.number

/-- A split that cannot be made is deferred; the first deferral sets SPLIT DEFERRED (R82). -/
def State.deferSplit (s : State) : State :=
  if s.clips.deferralReported then s
  else ({ s with clips := { s.clips with deferralReported := true } }).setFlag .splitDeferred

/-- The split-pending mark is acted on before a live frame joins (R81). -/
def State.trySplit (s : State) : State :=
  if s.clips.splitPending then if s.clips.roomForClip then s.split else s.deferSplit else s

/-- The ceiling: a join that brought the joined count to it closes the clip (R83). -/
def State.testCeiling (s : State) : State :=
  if s.clips.openClip.any (·.joined == Config.clipCeiling) then s.closeOpen .limit else s

/-- A live frame joins at its admission (R69). -/
def State.joinLive (i : RecNo) (s : State) : State := (s.trySplit.joinOpen i).testCeiling

/-! ### The ring (R63, R64) -/

/-- The oldest pair of the ring is released (R64); an empty ring changes nothing. -/
def State.releaseOldest (s : State) : State :=
  match s.clips.ring with
  | [] => s
  | i :: ring => { s with store := s.store.releasePair i, clips := { s.clips with ring := ring } }

/-- The ring is flushed: every pair is released, oldest first (R64). -/
def State.flushRing (s : State) : State :=
  { s with store := s.store.releasePairs s.clips.ring, clips := { s.clips with ring := [] } }

/-- The twins of the ring are released; every entry stays (R64). -/
def State.releaseRingTwins (s : State) : State := { s with store := s.store.releaseTwins s.clips.ring }

/-- The ring is trimmed from its head to a length (R64). -/
def State.trimRing (depth : Nat) (s : State) : State :=
  let excess := s.clips.ring.length - depth
  { s with
    store := s.store.releasePairs (s.clips.ring.take excess)
    clips := { s.clips with ring := s.clips.ring.drop excess } }

/-- A frame admitted while caching is placed at its completion (R63). -/
def State.placeInRing (i : RecNo) (s : State) : State :=
  let depth := s.banks.act.preRollDepth
  if depth = 0 then { s with store := s.store.releasePair i }
  else
    let s := if s.clips.ring.length < depth then s else s.releaseOldest
    { s with clips := { s.clips with ring := s.clips.ring ++ [i] } }

/-- A completed frame is placed by its clip part (R70). -/
def State.placeFrame (i : RecNo) (s : State) : State :=
  match (s.store.frame i).part with
  | some _ =>
    let s := s.countFlawed i
    { s with store := s.store.appendPair i }
  | none => s.placeInRing i

/-! ### Cue actions (R74, R75) -/

/-- An action handed over by the Time Base Unit; one of the same kind already pending is merged with it (R74). -/
def State.handOver (a : CueAction) (s : State) : State :=
  if s.clips.actions.contains a then s else { s with clips := { s.clips with actions := s.clips.actions ++ [a] } }

/-- A START or a start action may open a clip: not RECORDING, the active bank valid, a clip record free (R65, R75). -/
def State.mayStart (s : State) : Bool :=
  s.clips.recordState != .recording && s.banks.act.valid && s.clips.roomForClip

/-- A pending action is taken (R75). -/
def State.takeAction (a : CueAction) (s : State) : State :=
  match a with
  | .start => if s.mayStart then s.startClip else s
  | .stop => s.cut .cue

/-- The pending actions are taken in list order, each removed as it is taken (R74). -/
def State.takeActions : List CueAction → State → State
  | [], s => s
  | a :: as, s => State.takeActions as (({ s with clips := { s.clips with actions := as } }).takeAction a)

end Sys2Proof.Machine
end

