-- ==== Sys2Proof/Machine/Links.lean ====
section
/-! DEFINITION. The Egress Ports: the packets of a frame, starting and completing frames, reports, link reset
(chapter 6, section 10.3). -/

namespace Sys2Proof.Machine

open Sys2Proof

/-! ### The two links -/

/-- One of the two output links. -/
def State.link (l : LinkId) (s : State) : OutLink :=
  match l with
  | .p => s.pLink
  | .x => s.xLink

/-- One of the two output links replaced. -/
def State.setLink (l : LinkId) (o : OutLink) (s : State) : State :=
  match l with
  | .p => { s with pLink := o }
  | .x => { s with xLink := o }

/-- A link takes up an activity. -/
def State.setAct (l : LinkId) (a : Activity) (s : State) : State := s.setLink l { s.link l with act := a }

/-- Packets that a link has sent. -/
def State.emit (l : LinkId) (ps : List Packet) (s : State) : State :=
  s.setLink l { s.link l with sent := (s.link l).sent ++ ps }

/-- A link becomes free; at such a moment the P-link's batch becomes the entries then in the report queue (R118). -/
def State.freeLink (l : LinkId) (s : State) : State :=
  match l with
  | .p => { s.setAct .p .free with batch := s.dir.reports.length }
  | .x => s.setAct .x .free

/-! ### The packets of a frame (R114, R115, R116, section 10.3) -/

/-- The skip count of a proxy about to start (R116). -/
def skipCount (c : Option ClipRecord) (lastProxy : Option Nat) (g : Nat) : Nat :=
  match c, lastProxy with
  | some c, some h => if c.proxySent = 0 then g else g - h - 1
  | _, _ => g

/-- The clip record a clip number names. -/
def Clips.find (n : Nat) (c : Clips) : Option ClipRecord := c.records.find? (·.number == n)

/-- The output FRAME OPEN of a record, built at the frame's start from the record and its clip's record (R115, R171). -/
def outputOpen (s : State) (r : FrameRecord) : Packet :=
  let part := r.part.getD ⟨0, 0, 0⟩
  let clip := s.clips.find part.clip
  let rate := (clip.map (·.rate)).getD s.time.rate
  let df := (clip.map (·.df)).getD s.time.df
  let proxy := r.kind = .proxy
  sealed ([Kind.frameOpen.code, r.kind.word, word part.clip, word ((clip.map (·.take)).getD 0),
      word ((clip.map (·.part)).getD 0)]
    ++ reelWords ((clip.map (·.reel)).getD [])
    ++ words2 part.number
    ++ labelWords (countToLabel rate df part.timecode)
    ++ [word (timecodeNat rate df)]
    ++ labelWords (countToLabel rate df r.stamp.tod)
    ++ words2 r.stamp.phase
    ++ [word r.stamp.sub]
    ++ words2 r.capture.toNat
    ++ [word r.flaws.setNat, word r.flaws.check, word r.flaws.missing, word r.flaws.excess, word r.width,
        word r.height]
    ++ words2 (if proxy then skipCount clip s.lastProxy part.number else 0)
    ++ [word (if proxy then r.rampNote.getD 0 else 0)])

/-- Packet k of a frame: its output FRAME OPEN, one LINE packet per line, and a FRAME CLOSE whose lines-sent value is the
height (R114). -/
def framePacket (header : Packet) (r : FrameRecord) (k : Nat) : Packet :=
  if k = 0 then header
  else if k ≤ r.height then
    sealed ([Kind.line.code, word (k - 1)] ++ (r.lines.getD (k - 1) []).map word)
  else sealed [Kind.frameClose.code, word r.height]

/-- The packets of a frame still to be sent when some have been. -/
def restOfFrame (header : Packet) (r : FrameRecord) (done : Nat) : List Packet :=
  ((List.range (r.height + 2)).drop done).map (framePacket header r)

/-- The FRAME ABORT that ends a frame, with the LINE packets already sent (section 10.3). -/
def abortPacket (r : FrameRecord) (linesSent : Nat) : Packet :=
  let part := r.part.getD ⟨0, 0, 0⟩
  sealed ([abortCode, r.kind.word, word part.clip] ++ words2 part.number ++ [word linesSent])

/-- A FILL packet (R109). -/
def fillPacket : Packet := sealed [Kind.fill.code]

/-! ### Starting a frame (R111, R112) -/

/-- The conditions under which the P-link starts a principal frame: the record it takes (R111). -/
def State.principalReady (s : State) : Option RecNo :=
  if s.pLink.state = .ready ∧ s.batch = 0 then s.store.pq.head? else none

/-- The conditions under which the X-link starts a proxy frame: the record it takes (R112). -/
def State.proxyReady (s : State) : Option RecNo :=
  if s.xLink.state = .ready ∧ s.banks.paceInterval ≤ s.pace then s.store.xq.head? else none

/-- A record goes from STORED to SENDING (R53). -/
def FrameRecord.makeSending (r : FrameRecord) : FrameRecord := { r with state := .sending }

/-- The P-link's start test, and the start of the head principal when it holds (R111). -/
def State.startPrincipal (s : State) : State :=
  match s.principalReady with
  | none => s
  | some i =>
    ({ s with store := s.store.modify i .makeSending }).setAct .p (.frame i (outputOpen s (s.store.frame i)) 0)

/-- The X-link's start test, and the start of the head proxy when it holds (R112). -/
def State.startProxy (s : State) : State :=
  match s.proxyReady with
  | none => s
  | some i =>
    ({ s with
        store := s.store.modify i fun r => { r.makeSending with started := true }
        pace := 0 }).setAct .x (.frame i (outputOpen s (s.store.frame i)) 0)

/-! ### Completing a frame (R54, R117) -/

/-- The send of a frame's last packet, as the Store Manager and the Clip Controller take it (R54, R84); on the X-link
its clip frame number becomes the last proxy sent (R117). -/
def State.frameLeft (l : LinkId) (i : RecNo) (s : State) : State :=
  let r := s.store.frame i
  let s := { s with store := s.store.removeSent l i }
  match r.part with
  | none => s
  | some part =>
    let s := s.reportSend l part.clip
    match l with
    | .p => s
    | .x => { s with lastProxy := some part.number }

/-- The last packet of the frame in flight has been sent (R117). A FRAME CLOSE that was leaving at a RESTART only frees
its link: RESTART has counted its send and freed its record (R122). -/
def State.frameSent (l : LinkId) (s : State) : State :=
  match (s.link l).act with
  | .frame i header done =>
    ((s.emit l (restOfFrame header (s.store.frame i) done)).frameLeft l i).freeLink l
  | .closing p => (s.emit l [p]).freeLink l
  | _ => s

/-- A link request taken while an admission is in progress (R45, R47). -/
def State.takeLinkEvent (s : State) : LinkEvent → State
  | .sent l => s.frameSent l
  | .proxyStart => s.startProxy

/-- The FRAME ABORT has been sent (R122). -/
def State.abortSent (l : LinkId) (s : State) : State :=
  match (s.link l).act with
  | .aborting p => (s.emit l [p]).freeLink l
  | _ => s

/-! ### Reports (R118, R119) -/

/-- The P-link may send the head report: free, LINK RESET released, a report waiting, and a batch outstanding or the
link idle (R118). -/
def State.reportReady (s : State) : Bool :=
  s.pLink.act == .free && !s.pLink.resetLine && !s.dir.reports.isEmpty && (s.batch != 0 || s.idleP)

/-- A notice marker filled with the flags as they stand; any other report as it was made (R119, R165). -/
def Report.filled (raised : FlagSet) : Report → Report
  | .marker _ => .marker (some ⟨raised, 0⟩)
  | r => r

/-- The Flag Unit as the P-link begins to send a report: for a marker, the class returns to routine (R163) and the
renotice mark is cleared (R164). -/
def FlagUnit.atStart (r : Report) (u : FlagUnit) : FlagUnit :=
  if r.isMarker then { u with markerClass := .routine, renotice := false } else u

/-- The P-link begins to send the head report (R119). An idle link begins a batch of the entries then in the queue. -/
def State.startReport (s : State) : State :=
  match s.reportReady, s.dir.reports with
  | true, r :: rs =>
    ({ s with
        dir := { s.dir with reports := r.filled s.flags.raised :: rs }
        flags := s.flags.atStart r
        batch := if s.batch = 0 then (r :: rs).length else s.batch }).setAct .p (.report false)
  | _, _ => s

/-- The owed notice: the renotice mark, read when an in-flight NOTICE has been sent in full and removed (R164). -/
def State.renotice (s : State) : State :=
  if s.flags.renotice then ({ s with flags := { s.flags with renotice := false } }).placeMarker else s

/-- What the Flag Unit is told of a report sent in full (R119, R164, R165). -/
def State.reportShown (r : Report) (s : State) : State :=
  let s := match r.content with
    | some c => { s with flags := s.flags.markShown c }
    | none => s
  if r.isMarker then s.renotice else s

/-- The batch after a report has been sent: one less, or all that waits when a RESTART was taken meanwhile; 0 when the
queue is empty (R118, R122). -/
def batchAfter (acrossRestart : Bool) (batch waiting : Nat) : Nat :=
  if acrossRestart then waiting else if waiting = 0 then 0 else batch - 1

/-- The last word of the report in flight has been sent (R119): it leaves the queue, the link becomes free, the Flag Unit
is told what it listed, and the batch continues. -/
def State.finishReport (s : State) : State :=
  match s.pLink.act, s.dir.reports with
  | .report across, r :: rs =>
    let t := ((({ s with dir := { s.dir with reports := rs } }).emit .p [r.packet]).setAct .p .free).reportShown r
    { t with batch := batchAfter across s.batch t.dir.reports.length }
  | _, _ => s

/-! ### Link reset (R120, R121) -/

/-- LINK RESET abandons what is in flight: a frame's record returns to STORED; everything else stays as it is
(R53, R120, R122). DESIGN CHOICE: R122 says what LINK RESET does to a FRAME ABORT after RESTART, but not to the FRAME CLOSE
of a frame whose record RESTART has freed; the model drops that packet too, frees the link and keeps the send RESTART has
counted (notes/assumptions/31.md, unsafe). -/
def State.abandon (l : LinkId) (s : State) : State :=
  match (s.link l).act with
  | .frame i _ _ => { s with store := s.store.modify i .makeStored }.setAct l .free
  | _ => s.setAct l .free

/-- A sink asserts LINK RESET (R120). -/
def State.assertReset (l : LinkId) (s : State) : State :=
  let s := s.abandon l
  let s := s.setLink l { s.link l with resetLine := true }
  match l with
  | .p => { s with batch := 0 }
  | .x => s

/-- A sink releases LINK RESET (R121): on the P-link a moment at which the link becomes free. A line already released has
no edge. -/
def State.releaseReset (l : LinkId) (s : State) : State :=
  if (s.link l).resetLine then
    (s.setLink l { s.link l with resetLine := false }).freeLink l
  else s

/-! ### FILL (R109) -/

/-- A link is free with nothing to send: LINK RESET released, and neither a frame nor a report may start. -/
def State.nothingToSend (l : LinkId) (s : State) : Bool :=
  (s.link l).act == .free && !(s.link l).resetLine &&
  match l with
  | .p => s.principalReady.isNone && !s.reportReady
  | .x => s.proxyReady.isNone

end Sys2Proof.Machine
end

