-- ==== Sys2Proof/Machine/Render.lean ====
section
/-! DEFINITION. The Proxy Renderer: scaling, tone, ramp, overlay, in exact integer arithmetic (chapter 5). -/

namespace Sys2Proof.Machine

open Sys2Proof

/-! ### Scaling (R91 to R95) -/

/-- A tap position clamped into 0 to n − 1 (R91). -/
def clampTap (position : Int) (n : Nat) : Nat := min position.toNat (n - 1)

/-- The step of a scaler: floor(crop × 65,536 ÷ proxy) (R92, R95). -/
def scaleStep (crop proxy : Nat) : Nat := crop * 65536 / proxy
/-- The offset of a scaler (R92, R95). -/
def scaleOffset (step : Nat) : Nat := (step - 65536) / 2
/-- The position of an output column or row (R92, R95). -/
def scalePosition (step offset i : Nat) : Nat := offset + i * step
/-- The base column or row of a position. -/
def basePosition (p : Nat) : Nat := p / 65536
/-- The phase of a position, 0 to 31. -/
def phasePosition (p : Nat) : Nat := p % 65536 / 2048

/-- The six taps of a base position, clamped into a crop of n (R91, R93, R95). -/
def taps (base n : Nat) : List Nat := (List.range 6).map fun (k : Nat) => clampTap ((base : Int) + (k : Int) - 2) n

/-- A scaler sum: each coefficient of the phase with the sample of its tap (R93, R95). -/
def scalerSum (coeffs : List Int) (samples : List Nat) : Int :=
  (List.zipWith (fun (c : Int) (x : Nat) => c * (x : Int)) coeffs samples).sum

/-- A scaler sum rounded toward minus infinity and clamped into 0 to 4095 (R94). -/
def scalerResult (sum : Int) : Nat := min ((sum + 128) / 256).toNat 4095

/-- The horizontally scaled sample of column j and component t of a crop line (R93). -/
def hSample (u : FrameSetup) (kernel : Table) (line : Samples) (j t : Nat) : Nat :=
  let p := scalePosition u.sx u.ox j
  scalerResult (scalerSum (kernel.phase (phasePosition p))
    ((taps (basePosition p) u.wc).map fun c => line.getD (3 * (u.x0 + c) + t) 0))

/-- A crop line scaled horizontally, three components a column. -/
def hLine (u : FrameSetup) (kernel : Table) (line : Samples) : Samples :=
  (List.range (3 * u.wo)).map fun i => hSample u kernel line (i / 3) (i % 3)

/-- The position of a proxy row (R95). -/
def FrameSetup.rowPosition (u : FrameSetup) (r : Nat) : Nat := scalePosition u.sy u.oy r
/-- The crop rows a proxy row takes (R95). -/
def FrameSetup.rowTaps (u : FrameSetup) (r : Nat) : List Nat := taps (basePosition (u.rowPosition r)) u.hc
/-- The crop row a proxy row needs last (R96). -/
def FrameSetup.lastNeeded (u : FrameSetup) (r : Nat) : Nat := min (basePosition (u.rowPosition r) + 3) (u.hc - 1)

/-- The sample of a held line. -/
def FrameSetup.heldSample (u : FrameSetup) (row i : Nat) : Nat := ((u.held.lookup row).getD []).getD i 0

/-- The vertically scaled sample of proxy row r, column j and component t (R95); i is 3j + t. -/
def vSample (u : FrameSetup) (kernel : Table) (r i : Nat) : Nat :=
  scalerResult (scalerSum (kernel.phase (phasePosition (u.rowPosition r)))
    ((u.rowTaps r).map fun row => u.heldSample row i))

/-! ### Tone and ramp (R97, R100) -/

/-- Entry i of the curve of component t of a TONE table. -/
def Table.curve (tone : Table) (t i : Nat) : Nat := tone.nat (257 * t + i)

/-- The tone mapping of a value x by the curve of component t (R97). -/
def toneOut (tone : Table) (t x : Nat) : Nat :=
  let i := x / 16
  let f := x % 16
  (tone.curve t i * (16 - f) + tone.curve t (i + 1) * f + 8) / 16

/-- The blend of the old and the new curve outputs at a ramp step (R100). -/
def blend (s : RampStep) (old new : Nat) : Nat :=
  (old * (s.length - s.step) + new * s.step + s.length / 2) / s.length

/-- The tone output of a twin: under its bank, blended with the other bank's during a ramp (R97, R100). -/
def toneStage (banks : Banks) (u : FrameSetup) (t x : Nat) : Nat :=
  let new := toneOut (banks.get u.bank).tone t x
  match u.ramp with
  | none => new
  | some s => blend s (toneOut (banks.get u.bank.other).tone t x) new

/-! ### Overlay (R102 to R105) -/

/-- The glyph codes of a number's two decimal digits. -/
def digits (n : Nat) : List Nat := [n / 10 % 10, n % 10]

/-- The overlay string of a frame: the reel tag, a space, and the label of its stamp (R102). -/
def overlayString (reel : List Nat) (df : Bool) (l : Label) : List Nat :=
  reel ++ [40] ++ digits l.hh ++ [36] ++ digits l.mm ++ [36] ++ digits l.ss ++ [if df then 37 else 36] ++ digits l.ff

/-- The lit test of a pixel of the string's boxes, given its column and row from the origin (R103). -/
def overlayLit (b : Bank) (string : List Nat) (dx dy : Nat) : Bool :=
  let s := b.overlayScale
  let cell := dx / (12 * s)
  let u := dx % (12 * s) / s
  let w := dy / s
  (b.glyphRow (string.getD cell 0) w).getLsbD (11 - u)

/-- A pixel stands in a cell box of the string (R103). -/
def inBoxes (b : Bank) (x y : Nat) : Bool :=
  b.originColumn ≤ x && x < b.originColumn + 192 * b.overlayScale
    && b.originRow ≤ y && y < b.originRow + 20 * b.overlayScale

/-- One component of the pixel at column x and row y after the overlay (R104); without a string it is left as it is. -/
def overlayStage (b : Bank) (string : Option (List Nat)) (x y v : Nat) : Nat :=
  match string with
  | none => v
  | some cells =>
    if inBoxes b x y then
      if overlayLit b cells (x - b.originColumn) (y - b.originRow) then b.ink
      else if b.darken then v / 4 else v
    else v

/-- Proxy row r as it is written into the twin's pages: only the pixels of the proxy frame are formed, so nothing of the
overlay is drawn outside it (R95 to R105). -/
def proxyRow (banks : Banks) (u : FrameSetup) (r : Nat) : Samples :=
  let b := banks.get u.bank
  (List.range (3 * u.wo)).map fun i =>
    overlayStage b u.overlay (i / 3) r (toneStage banks u (i % 3) (vSample u b.vkernel r i))

/-! ### The frame setup and its lines (R88, R89, R96) -/

/-- The frame setup of a twin, fixed at its admission from the active bank (R88, R92, R95, R102). -/
def frameSetup (s : State) (twin : RecNo) (stamp : Stamp) (ramp : Option RampStep) : FrameSetup :=
  let b := s.banks.act
  let sx := scaleStep b.wc b.wo
  let sy := scaleStep b.hc b.ho
  { twin := twin, bank := s.banks.active, x0 := b.x0, y0 := b.y0, wc := b.wc, hc := b.hc, wi := b.wi, wo := b.wo,
    ho := b.ho, sx := sx, ox := scaleOffset sx, sy := sy, oy := scaleOffset sy, ramp := ramp,
    overlay := if b.overlayOn then some (overlayString b.reel s.time.df (s.time.label stamp.tod)) else none,
    nextRow := 0, held := [] }

/-- A crop row is still needed: a row not yet formed takes it (R96). -/
def FrameSetup.needs (u : FrameSetup) (row : Nat) : Bool :=
  (List.range u.ho).any fun r => u.nextRow ≤ r && (u.rowTaps r).contains row

/-- The held lines no row not yet formed takes are dropped (R96). -/
def FrameSetup.drop (u : FrameSetup) : FrameSetup := { u with held := u.held.filter fun h => u.needs h.1 }

/-- Every row from next row onward whose last needed crop row has arrived is formed, in increasing order (R96). The fuel
is the number of rows not yet formed. -/
def formRows (banks : Banks) (arrived : Nat) : Nat → FrameSetup → FrameSetup × List Samples
  | 0, u => (u, [])
  | fuel + 1, u =>
    if u.nextRow < u.ho ∧ u.lastNeeded u.nextRow ≤ arrived then
      let row := proxyRow banks u u.nextRow
      let (u', rows) := formRows banks arrived fuel { u with nextRow := u.nextRow + 1 }
      (u', row :: rows)
    else (u, [])

/-- A line delivered to the renderer: a crop line is scaled and held, and the rows it completes are formed; a line
outside the crop window is not used (R89). The rows are those written into the twin's pages. -/
def takeLine (banks : Banks) (number : Nat) (line : Samples) (u : FrameSetup) : FrameSetup × List Samples :=
  if u.y0 ≤ number ∧ number < u.y0 + u.hc then
    let row := number - u.y0
    let u := { u with held := u.held ++ [(row, hLine u (banks.get u.bank).hkernel line)] }
    let (u, rows) := formRows banks row (u.ho - u.nextRow) u
    (u.drop, rows)
  else (u, [])

/-- Lines written into the pages of a record, after those it holds. -/
def FrameRecord.write (ls : List Samples) (r : FrameRecord) : FrameRecord := { r with lines := r.lines ++ ls }

/-- The renderer's share of a delivered line: nothing while IDLE (R89, R90). -/
def State.renderLine (number : Nat) (line : Samples) (s : State) : State :=
  match s.render.setup with
  | none => s
  | some u =>
    let (u', rows) := takeLine s.banks number line u
    { s with
      render := { s.render with setup := some u' }
      store := s.store.modify u.twin (FrameRecord.write rows) }

/-! ### The ramp (R98, R99) -/

/-- The ramp is running (R98). -/
def Renderer.ramping (r : Renderer) : Bool := 0 < r.stepsLeft

/-- The ramp step an admission takes, when the ramp is running (R99). -/
def Renderer.step (r : Renderer) : Option RampStep :=
  if r.ramping then some ⟨r.rampLength - r.stepsLeft + 1, r.rampLength⟩ else none

/-- The ramp state after an admission (R99). -/
def Renderer.afterStep (r : Renderer) : Renderer := { r with stepsLeft := r.stepsLeft - 1 }

/-- The ramp state a switch sets: a ramp of length k when the bank that has become standby is valid (R98). -/
def Renderer.startRamp (k : Nat) (standbyValid : Bool) (r : Renderer) : Renderer :=
  let n := if standbyValid then k else 0
  { r with rampLength := n, stepsLeft := n }

end Sys2Proof.Machine
end

