-- ==== Sys2Proof/Machine/Directives.lean ====
section
/-! DEFINITION. The directives as they are taken, RESTART, and the directive queue (chapters 7, 8 and 9, and the
directives of chapters 2 and 4). Each `take…` is one directive taken: its owner's effect, then its response (R147, R151). -/

namespace Sys2Proof.Machine

open Sys2Proof

/-! ### Time Base Unit (R33 to R36) -/

/-- JAM TIMECODE (R33). -/
def State.takeJam (tag : Byte) (labelHi labelLo hold : Word) (s : State) : State :=
  let t := s.time
  let l := wordsLabel labelHi labelLo
  if l.inRange t.rate then
    let moved := l.movedUp t.rate t.df
    let t' := { t.restartLane with tod := labelToCount t.rate t.df moved, running := hold.toNat % 2 == 0 }
    ({ s with time := t' }).respond tag DirCode.jamTimecode.word (if moved = l then .done else .doneClamped) 0
  else s.respond tag DirCode.jamTimecode.word .refBadValue 0

/-- RUN TIMECODE (R34). -/
def State.takeRun (tag : Byte) (s : State) : State :=
  ({ s with time := { s.time with running := true } }).respond tag DirCode.runTimecode.word .done 0

/-- The Time Base Unit after an accepted SET RATE (R35). -/
def TimeBase.setRate (r : Rate) (df : Bool) (t : TimeBase) : TimeBase :=
  { t.restartLane with
    rate := r, df := df, startCue := none, stopCue := none
    tod := (reExpress t.rate t.df r df t.tod).1, rr := (reExpress t.rate t.df r df t.rr).1 }

/-- SET RATE (R35, R86). -/
def State.takeSetRate (tag : Byte) (code mark : Word) (s : State) : State :=
  let df := mark.toNat % 2 == 1
  match rateOfCode code.toNat with
  | none => s.respond tag DirCode.setRate.word .refBadValue 0
  | some r =>
    if df && !r.mayDrop then s.respond tag DirCode.setRate.word .refBadValue 0
    else if s.clips.recordState ≠ .standby ∨ s.clips.records ≠ [] then
      s.respond tag DirCode.setRate.word .refNotNow 0
    else
      let t := s.time
      let moved := (reExpress t.rate t.df r df t.tod).2 || (reExpress t.rate t.df r df t.rr).2
      ({ s with time := t.setRate r df }).respond tag DirCode.setRate.word (if moved then .doneClamped else .done) 0

/-- One cue field of SET CUES, given its action word and its label, against the cue it holds: the cue it leaves, with a
mark that the label was moved up; none when the field refuses the directive (R36, R172). -/
def cueField (t : TimeBase) (action : Word) (l : Label) (held : Option Nat) : Option (Option Nat × Bool) :=
  if action = 0 then some (held, false)
  else if action = 1 then
    if l.inRange t.rate then
      let moved := l.movedUp t.rate t.df
      some (some (labelToCount t.rate t.df moved), moved != l)
    else none
  else if action = 2 then some (none, false)
  else none

/-- SET CUES (R36). -/
def State.takeSetCues (tag : Byte) (startAct startHi startLo stopAct stopHi stopLo : Word) (s : State) : State :=
  match cueField s.time startAct (wordsLabel startHi startLo) s.time.startCue,
        cueField s.time stopAct (wordsLabel stopHi stopLo) s.time.stopCue with
  | some (c1, m1), some (c2, m2) =>
    ({ s with time := { s.time with startCue := c1, stopCue := c2 } }).respond tag DirCode.setCues.word
      (if m1 || m2 then .doneClamped else .done) 0
  | _, _ => s.respond tag DirCode.setCues.word .refBadValue 0

/-! ### Clip Controller (R61, R62, R65, R77) -/

/-- CACHE ON (R61). -/
def State.takeCacheOn (tag : Byte) (s : State) : State :=
  if s.banks.act.valid then
    let state := if s.clips.recordState = .standby then .caching else s.clips.recordState
    ({ s with clips := { s.clips with cacheMark := true, recordState := state } }).respond tag DirCode.cacheOn.word
      .done 0
  else s.respond tag DirCode.cacheOn.word .refNotReady 0

/-- The effect of CACHE OFF (R62). DESIGN CHOICE: in STANDBY, R62 says both that CACHE OFF clears the cache mark and that
nothing changes; with the mark set (CACHE ON, then RESTART, which keeps it) the model clears it
(notes/assumptions/33.md, unsafe). -/
def State.cacheOff (s : State) : State :=
  let s := { s with clips := { s.clips with cacheMark := false } }
  if s.clips.recordState = .caching then
    let s := s.flushRing
    { s with clips := { s.clips with recordState := .standby } }
  else s

/-- CACHE OFF (R62). -/
def State.takeCacheOff (tag : Byte) (s : State) : State := s.cacheOff.respond tag DirCode.cacheOff.word .done 0

/-- START (R65). -/
def State.takeStart (tag : Byte) (s : State) : State :=
  if s.clips.recordState = .recording then s.respond tag DirCode.start.word .refNotNow 0
  else if !s.banks.act.valid then s.respond tag DirCode.start.word .refNotReady 0
  else if !s.clips.roomForClip then s.respond tag DirCode.start.word .refBusy 0
  else s.startClip.respond tag DirCode.start.word .done 0

/-- STOP (R77). -/
def State.takeStop (tag : Byte) (s : State) : State :=
  if s.clips.recordState = .recording then (s.closeOpen .stop).respond tag DirCode.stop.word .done 0
  else s.respond tag DirCode.stop.word .refNotNow 0

/-! ### Bank Manager (R127, R128, R135 to R140) -/

/-- A LOAD SEGMENT judged: the table and segment it writes, or its refusal (R127). -/
def judgeSegment (s : State) (param : Word) (payload : List Word) : TableId × Nat ⊕ DirOutcome :=
  match tableOfId (highByte param) with
  | none => .inr .refBadValue
  | some id =>
    let segment := lowByte param
    match id.segments[segment]? with
    | none => .inr .refBadValue
    | some length =>
      if id = .tone ∧ s.render.ramping then .inr .refBusy
      else if !(s.banks.standby.table id).expects segment then .inr .refBadSegment
      else if payload.length ≠ length then .inr .refBadLength
      else .inl (id, segment)

/-- An accepted segment written into the standby bank, and the table validated when it was the last (R128, R129). -/
def loadAccepted (b : Bank) (id : TableId) (segment : Nat) (payload : List Word) : Bank × DirOutcome :=
  let b' := b.setTable ((b.table id).append segment payload) id
  if segment + 1 = id.segments.length then validated b' id else (b', .done)

/-- LOAD SEGMENT (R127 to R134). A failed validation sets TABLE INVALID. -/
def State.takeLoad (tag : Byte) (param : Word) (payload : List Word) (s : State) : State :=
  match judgeSegment s param payload with
  | .inr o => s.respond tag DirCode.loadSegment.word o 0
  | .inl (id, segment) =>
    let (b, o) := loadAccepted s.banks.standby id segment payload
    let s := { s with banks := s.banks.setStandby b }
    let s := if o = .refBadTable then s.setFlag .tableInvalid else s
    s.respond tag DirCode.loadSegment.word o 0

/-- COPY BANK (R135). -/
def State.takeCopy (tag : Byte) (s : State) : State :=
  if s.render.ramping then s.respond tag DirCode.copyBank.word .refBusy 0
  else ({ s with banks := s.banks.setStandby s.banks.act }).respond tag DirCode.copyBank.word .done 0

/-- The refusal of a SWITCH BANK, when it is refused (R136). -/
def switchRefusal (s : State) (k : Word) : Option DirOutcome :=
  if k.toNat > 16 then some .refBadValue
  else if !s.banks.standby.valid then some .refNotReady
  else if s.render.ramping then some .refBusy
  else if s.clips.recordState = .recording ∧ s.banks.standby.geometry ≠ s.banks.act.geometry then
    some .refGeometryLocked
  else none

/-- What an accepted switch does to the ring, given the bank that was active (R138). -/
def State.switchRing (old : Bank) (s : State) : State :=
  let new := s.banks.act
  let s :=
    if new.wi ≠ old.wi ∨ new.hi ≠ old.hi then s.flushRing
    else if new.geometry ≠ old.geometry then s.releaseRingTwins
    else s
  if new.preRollDepth < s.clips.ring.length then s.trimRing new.preRollDepth else s

/-- What an accepted switch does to the split-pending mark (R139). -/
def State.switchSplit (old : Bank) (s : State) : State :=
  match s.clips.openClip with
  | some c =>
    if s.clips.recordState = .recording ∧ s.banks.act.clipLimit ≠ old.clipLimit then
      { s with clips := s.clips.setSplit (splitDue s.banks.act.clipLimit c.joined) }
    else s
  | none => s

/-- The low mark at a switch: STORE LOW is set when the count lies below the new mark and not below the old (R140). -/
def State.switchLowMark (old : Bank) (s : State) : State :=
  if belowMark s.banks.act.lowMark s.store.freePages && !belowMark old.lowMark s.store.freePages then
    s.setFlag .storeLow
  else s

/-- An accepted switch: the roles exchanged, the ramp started, and the consequences (R137 to R140). -/
def State.switchBanks (k : Nat) (s : State) : State :=
  let old := s.banks.act
  let s := { s with
    banks := { s.banks with active := s.banks.active.other }
    render := s.render.startRamp k old.valid }
  ((s.switchRing old).switchSplit old).switchLowMark old

/-- SWITCH BANK (R136, R137). -/
def State.takeSwitch (tag : Byte) (k : Word) (s : State) : State :=
  match switchRefusal s k with
  | some o => s.respond tag DirCode.switchBank.word o 0
  | none =>
    (s.switchBanks k.toNat).respond tag DirCode.switchBank.word
      (if !s.banks.act.valid && 0 < k.toNat then .doneClamped else .done) 0

/-! ### Flag Unit (R162, R166, R167, R168) -/

/-- CLEAR FLAGS (R166); its response lists the flags cleared. -/
def State.takeClear (tag : Byte) (list : FlagSet) (s : State) : State :=
  let gone := s.flags.clearable list
  ({ s with flags := { s.flags with raised := s.flags.raised &&& ~~~gone, shown := s.flags.shown &&& ~~~gone } }).respond
    tag DirCode.clearFlags.word .done gone

/-- SET NOTICES (R162). -/
def State.takeNotices (tag : Byte) (enables : FlagSet) (s : State) : State :=
  ({ s with flags := { s.flags with enables := enables } }).respond tag DirCode.setNotices.word .done 0

/-- ARM SNAPSHOT (R167). -/
def State.takeArm (tag : Byte) (triggers : FlagSet) (s : State) : State :=
  match s.flags.snapshot with
  | .captured _ => s.respond tag DirCode.armSnapshot.word .refNotNow 0
  | _ =>
    ({ s with flags := { s.flags with snapshot := if triggers = 0 then .disarmed else .armed triggers } }).respond tag
      DirCode.armSnapshot.word .done 0

/-- FETCH SNAPSHOT (R168). -/
def State.takeFetch (tag : Byte) (s : State) : State :=
  match s.flags.snapshot with
  | .captured r =>
    let s := (s.respond tag DirCode.fetchSnapshot.word .done 0).placeReport (.snapshot r.body)
    { s with flags := { s.flags with snapshot := .disarmed } }
  | _ => s.respond tag DirCode.fetchSnapshot.word .refNotNow 0

/-! ### Directive Unit (R155, R157 to R159) -/

/-- QUERY STATUS: the response, and then a STATUS report made from the state as it stands when the directive is taken
(R155). The flags it lists are fixed with its content. -/
def State.takeQuery (tag : Byte) (s : State) : State :=
  let report : Report := .status s.statusBody ⟨s.flags.raised, 0⟩
  (s.respond tag DirCode.queryStatus.word .done 0).placeReport report

/-- A link at RESTART (R122, R171): the packet leaving is completed; a frame is then ended by a FRAME ABORT, unless the
packet leaving is its FRAME CLOSE, whose send is counted at this moment. -/
def State.restartLink (l : LinkId) (s : State) : State :=
  match (s.link l).act with
  | .frame i header done =>
    let r := s.store.frame i
    if done ≤ r.height then
      (s.emit l [framePacket header r done]).setAct l (.aborting (abortPacket r done))
    else
      let s := match r.part with
        | some part => { s with clips := s.clips.modifyNumber part.clip (ClipRecord.countSend l) }
        | none => s
      s.setAct l (.closing (framePacket header r done))
  | .report _ => s.setAct l (.report true)
  | _ => s

/-- The Directive Unit's own state at RESTART: every report but the one in flight removed, the directive queue emptied
(R157); with the report queue empty, the batch count becomes 0 (R118). -/
def State.restartDirectives (s : State) : State :=
  let kept := if s.pLink.sendingReport then s.dir.reports.take 1 else []
  { s with dir := { queue := [], reports := kept, markerWaiting := false }, batch := if kept = [] then 0 else s.batch }

/-- The blocks' own state at RESTART (R19, R59, R87, R108, R122, R158, R169); the Time Base Unit, both banks, the cache
mark, the clip number counter and the notice enables are kept. -/
def State.restartBlocks (s : State) : State :=
  { s with
    ingress := { s.ingress with frame := .skipping, lossCount := 0, lastCapture := none }
    store := .reset
    clips := { s.clips with
      recordState := .standby, ring := [], records := [], actions := [], splitPending := false,
      deferralReported := false }
    render := { setup := none, rampLength := 0, stepsLeft := 0 }
    flags := { s.flags with raised := 0, shown := 0, markerClass := .routine, renotice := false, snapshot := .disarmed }
    pace := Config.paceLimit
    lastProxy := none }

/-- The reports of RESTART, in order: its response, one for each directive cancelled, and the summary of each clip closed
(R159). -/
def restartReports (tag : Byte) (cancelled : List Directive) (clips : List ClipRecord) : List Report :=
  [.response tag DirCode.restart.word .done 0] ++
  cancelled.map (fun d => .response d.tag d.code.word .refCancelled 0) ++
  clips.map (fun c => .clipSummary { c with cause := some .restart }.summary)

/-- RESTART (R157 to R159). DESIGN CHOICE: with the P-link free and LINK RESET released no later moment makes it free, so
R124 names no batch count; the response begins a batch of 1 on the idle link (R118) and the reports behind it join
uncounted (notes/assumptions/34.md, unsafe). -/
def State.takeRestart (tag : Byte) (s : State) : State :=
  let linked := (s.restartLink .p).restartLink .x
  let reports := restartReports tag s.dir.queue linked.clips.records
  reports.foldl (fun s r => s.placeReport r) linked.restartDirectives.restartBlocks

/-! ### Taking a directive, and the queue (R146 to R149) -/

/-- A directive is taken: handed to the block that owns its effect (section 8.4). -/
def State.takeDirective (d : Directive) (s : State) : State :=
  let w (i : Nat) : Word := d.payload.getD i 0
  match d.code with
  | .loadSegment => s.takeLoad d.tag d.param d.payload
  | .copyBank => s.takeCopy d.tag
  | .switchBank => s.takeSwitch d.tag (w 0)
  | .cacheOn => s.takeCacheOn d.tag
  | .cacheOff => s.takeCacheOff d.tag
  | .start => s.takeStart d.tag
  | .stop => s.takeStop d.tag
  | .setCues => s.takeSetCues d.tag (w 0) (w 1) (w 2) (w 3) (w 4) (w 5)
  | .jamTimecode => s.takeJam d.tag (w 0) (w 1) (w 2)
  | .runTimecode => s.takeRun d.tag
  | .setRate => s.takeSetRate d.tag (w 0) (w 1)
  | .clearFlags => s.takeClear d.tag (w 0)
  | .setNotices => s.takeNotices d.tag (w 0)
  | .queryStatus => s.takeQuery d.tag
  | .armSnapshot => s.takeArm d.tag (w 0)
  | .fetchSnapshot => s.takeFetch d.tag
  | .restart => s.takeRestart d.tag

/-- A directive is queued, or refused when the queue holds 16 entries (R148). DESIGN CHOICE: R157 says that a sound RESTART
is never refused; one sent AT BOUNDARY that finds 16 entries is refused here all the same, as R148 says of any directive
(notes/assumptions/35.md, unsafe). -/
def State.queueDirective (d : Directive) (s : State) : State :=
  if s.dir.queue.length < Config.directiveQueueDepth then { s with dir := { s.dir with queue := s.dir.queue ++ [d] } }
  else s.respond d.tag d.code.word .refQueueFull 0

/-- A DIRECTIVE packet handed to the Directive Unit (R145, R146). -/
def State.receiveDirective (rest : List Word) (s : State) : State :=
  match judge rest with
  | .corrupt => s.setFlag .directiveCorrupt
  | .refused tag code o => s.respond tag code o 0
  | .atOnce d => s.takeDirective d
  | .atBoundary d => s.queueDirective d

/-- The queued directives are taken from the head, one after another, until the queue is empty (R149). The fuel is the
length of the queue: taking a directive adds none. -/
def State.takeQueue : Nat → State → State
  | 0, s => s
  | n + 1, s =>
    match s.dir.queue with
    | [] => s
    | d :: ds => State.takeQueue n (({ s with dir := { s.dir with queue := ds } }).takeDirective d)

/-- A frame boundary: the queued directives and the pending cue actions, in one of the two orders (R76, R149). -/
def State.boundary (order : BoundaryOrder) (s : State) : State :=
  match order with
  | .actionsFirst =>
    let s := s.takeActions s.clips.actions
    s.takeQueue s.dir.queue.length
  | .directivesFirst =>
    let s := s.takeQueue s.dir.queue.length
    s.takeActions s.clips.actions

end Sys2Proof.Machine
end

