-- ==== Sys2Proof/Machine/DirectiveCommands.lean ====
section
/-! DEFINITION. The commands that are directives being taken: a sound directive, with its tag, handed to the block that
owns its effect, and its response placed (R147, R149, R151; notes/assumptions/7.md). -/

namespace Sys2Proof.Machine

open Sys2Proof

/-- LOAD_SEGMENT (R127 to R134). -/
def execLoadSegment (tag : Byte) (param : Word) (payload : List Word) (s : State) : Host.Outcome State Fault Refusal :=
  .next (s.takeLoad tag param payload)

/-- COPY_BANK (R135). -/
def execCopyBank (tag : Byte) (s : State) : Host.Outcome State Fault Refusal := .next (s.takeCopy tag)

/-- SWITCH_BANK (R136 to R141). -/
def execSwitchBank (tag : Byte) (ramp : Word) (s : State) : Host.Outcome State Fault Refusal :=
  .next (s.takeSwitch tag ramp)

/-- CACHE_ON (R61). -/
def execCacheOn (tag : Byte) (s : State) : Host.Outcome State Fault Refusal := .next (s.takeCacheOn tag)

/-- CACHE_OFF (R62). -/
def execCacheOff (tag : Byte) (s : State) : Host.Outcome State Fault Refusal := .next (s.takeCacheOff tag)

/-- START (R65). -/
def execStart (tag : Byte) (s : State) : Host.Outcome State Fault Refusal := .next (s.takeStart tag)

/-- STOP (R77). -/
def execStop (tag : Byte) (s : State) : Host.Outcome State Fault Refusal := .next (s.takeStop tag)

/-- SET_CUES (R36). -/
def execSetCues (tag : Byte) (startAct startHi startLo stopAct stopHi stopLo : Word) (s : State) :
    Host.Outcome State Fault Refusal :=
  .next (s.takeSetCues tag startAct startHi startLo stopAct stopHi stopLo)

/-- JAM_TIMECODE (R33). -/
def execJamTimecode (tag : Byte) (labelHi labelLo hold : Word) (s : State) : Host.Outcome State Fault Refusal :=
  .next (s.takeJam tag labelHi labelLo hold)

/-- RUN_TIMECODE (R34). -/
def execRunTimecode (tag : Byte) (s : State) : Host.Outcome State Fault Refusal := .next (s.takeRun tag)

/-- SET_RATE (R35). -/
def execSetRate (tag : Byte) (code mark : Word) (s : State) : Host.Outcome State Fault Refusal :=
  .next (s.takeSetRate tag code mark)

/-- CLEAR_FLAGS (R166). -/
def execClearFlags (tag : Byte) (list : FlagSet) (s : State) : Host.Outcome State Fault Refusal :=
  .next (s.takeClear tag list)

/-- SET_NOTICES (R162). -/
def execSetNotices (tag : Byte) (enables : FlagSet) (s : State) : Host.Outcome State Fault Refusal :=
  .next (s.takeNotices tag enables)

/-- QUERY_STATUS (R155). -/
def execQueryStatus (tag : Byte) (s : State) : Host.Outcome State Fault Refusal := .next (s.takeQuery tag)

/-- ARM_SNAPSHOT (R167). -/
def execArmSnapshot (tag : Byte) (triggers : FlagSet) (s : State) : Host.Outcome State Fault Refusal :=
  .next (s.takeArm tag triggers)

/-- FETCH_SNAPSHOT (R168). -/
def execFetchSnapshot (tag : Byte) (s : State) : Host.Outcome State Fault Refusal := .next (s.takeFetch tag)

/-- RESTART (R157 to R159). -/
def execRestart (tag : Byte) (s : State) : Host.Outcome State Fault Refusal := .next (s.takeRestart tag)

end Sys2Proof.Machine
end

