-- ==== Sys2Proof/Machine/Ingress.lean ====
section
/-! DEFINITION. The Ingress Port: lines, closing a frame, admission, opening a frame, picture loss (chapter 1, and the
admission of chapter 3). -/

namespace Sys2Proof.Machine

open Sys2Proof

/-- The frame-in-progress state, set. -/
def State.setFrame (f : FrameState) (s : State) : State := { s with ingress := { s.ingress with frame := f } }

/-! ### Lines (R11, R12) -/

/-- A line is stored or filled: written into the principal's pages, and delivered to the renderer (section 1.5). -/
def State.deliver (f : FrameInProgress) (number : Nat) (line : Samples) (s : State) : State :=
  ({ s with store := s.store.modify f.principal (FrameRecord.write [line]) }).renderLine number line

/-- The line a fill writes: a copy of the stored line last received, or black (R11). -/
def State.fillLine (f : FrameInProgress) (s : State) : Samples :=
  match f.lastReceived with
  | some n => (s.store.frame f.principal).lines.getD n []
  | none => List.replicate (3 * f.width) 0

/-- A number of lines filled from the expected line on, in increasing order (R11). -/
def fillLines : Nat → FrameInProgress → State → FrameInProgress × State
  | 0, f, s => (f, s)
  | n + 1, f, s => fillLines n { f with expected := f.expected + 1 } (s.deliver f f.expected (s.fillLine f))

/-- Lines filled and counted missing (R11, R14). -/
def fillMissing (n : Nat) (f : FrameInProgress) (s : State) : FrameInProgress × State :=
  let (f, s) := fillLines n f s
  ({ f with missing := satAdd Config.countLimit f.missing n }, s)

/-- A LINE placed by its line number (the table of R11). -/
def placeLine (number : Nat) (line : Samples) (f : FrameInProgress) (s : State) : FrameInProgress × State :=
  if f.height ≤ number ∨ number < f.expected then ({ f with excess := satAdd Config.countLimit f.excess 1 }, s)
  else
    let (f, s) := if f.expected < number then fillMissing (number - f.expected) f s else (f, s)
    ({ f with expected := number + 1, lastReceived := some number }, s.deliver f number line)

/-- A LINE packet while IN FRAME (R11, R12): counted, counted again as a check when damaged, and placed; one of two words
holds no line number and is discarded. -/
def State.receiveLine (rest : List Word) (f : FrameInProgress) (s : State) : State :=
  let f := { f with linesReceived := satAdd Config.countLimit f.linesReceived 1 }
  let f := if lineDamaged f.width rest || rest.length < 2 then { f with check := satAdd Config.countLimit f.check 1 } else f
  if rest.length < 2 then s.setFrame (.inFrame f)
  else
    let (f, s) := placeLine (rest.getD 0 0).toNat (lineSamples f.width rest) f s
    s.setFrame (.inFrame f)

/-! ### Closing a frame (R14, R15, R16) -/

/-- The flaws a frame-in-progress record gives at the close (R15). -/
def FrameInProgress.flaws (truncated : Bool) (f : FrameInProgress) : Flaws :=
  { truncated := truncated, check := f.check, missing := f.missing, excess := f.excess }

/-- A record as its frame's completion leaves it (R51). -/
def FrameRecord.complete (flaws : Flaws) (r : FrameRecord) : FrameRecord := { r.makeStored with flaws := flaws }

/-- The principal record, and the twin record when one was made, complete (R15, R51). -/
def Store.complete (f : FrameInProgress) (flaws : Flaws) (s : Store) : Store :=
  let s := s.modify f.principal (.complete flaws)
  match f.twin with
  | some t => s.modify t (.complete flaws)
  | none => s

/-- A frame completes (R15): both records STORED, the renderer IDLE (R106), the frame placed (R70), FLAWED FRAME. -/
def State.completeFrame (truncated : Bool) (f : FrameInProgress) (s : State) : State :=
  let flaws := f.flaws truncated
  let s := ({ s with
    store := s.store.complete f flaws
    render := { s.render with setup := none } }).placeFrame f.principal
  if flaws.clean then s else s.setFlag .flawedFrame

/-- The open frame closes: its remaining lines are filled and counted missing, the lines-sent value, when there is one, is
compared, the frame completes, and no frame is open (R14, R16). -/
def State.closeFrame (truncated : Bool) (linesSent : Option Nat) (f : FrameInProgress) (s : State) : State :=
  let (f, s) := fillMissing (f.height - f.expected) f s
  let f := if linesSent.any (· != f.linesReceived) then { f with check := satAdd Config.countLimit f.check 1 } else f
  (s.completeFrame truncated f).setFrame .noFrame

/-- An open frame, if there is one, closes without a lines-sent value (R16). -/
def State.closeAny (truncated : Bool) (s : State) : State :=
  match s.ingress.frame with
  | .inFrame f => s.closeFrame truncated none f
  | _ => s

/-! ### Admission (R45 to R50, R88, R99) -/

/-- The link requests taken at the next point of an admission, and those left (R45). -/
def State.takeDuring (during : List (List LinkEvent)) (s : State) : State × List (List LinkEvent) :=
  (during.headD [] |>.foldl State.takeLinkEvent s, during.tail)

/-- One measure of R46: the oldest pair of the ring. -/
def State.ringMeasure (s : State) : Option State :=
  if s.clips.recordState = .caching ∧ s.clips.ring ≠ [] then some s.releaseOldest else none

/-- One measure of R47: the newest proxy, when it may be evicted. -/
def State.evictMeasure (s : State) : Option State :=
  match s.store.evictable with
  | none => none
  | some i =>
    let s' := { s with store := s.store.evict i }
    match (s.store.frame i).part with
    | some part => some (s'.reportEviction part)
    | none => some s'

/-- A measure repeated while the principal is short (R46, R47), link requests being taken after each. The fuel bounds the
repetitions: each takes one entry of a finite list. -/
def measureWhileShort (measure : State → Option State) :
    Nat → List (List LinkEvent) → State → State × List (List LinkEvent)
  | 0, during, s => (s, during)
  | n + 1, during, s =>
    if s.store.short s.banks.pagesP then
      match measure s with
      | some s' =>
        let (s'', during) := s'.takeDuring during
        measureWhileShort measure n during s''
      | none => (s, during)
    else (s, during)

/-- The measures of R46 and R47, each applied only while the principal is short. -/
def State.measures (during : List (List LinkEvent)) (s : State) : State × List (List LinkEvent) :=
  let (s, during) := s.takeDuring during
  let (s, during) := measureWhileShort State.ringMeasure s.clips.ring.length during s
  measureWhileShort State.evictMeasure s.store.xq.length during s

/-- The principal that cannot be given room cuts the clip that is recording (R48). -/
def State.storeFull (s : State) : State :=
  if s.clips.recordState = .recording then (s.closeOpen .storeFull).setFlag .storeFullCut else s

/-- The twin of an admitted principal, when there is room for it: its record, with its ramp note, and the frame setup of
the renderer (R50, R88, R99). -/
def State.admitTwin (capture : BitVec 32) (stamp : Stamp) (p : RecNo) (s : State) : State × Option RecNo :=
  match s.twinRoom with
  | none => (s, none)
  | some t =>
    let step := s.render.step
    let s := s.reserve t (twinRecord s.banks capture stamp p (step.map (·.step)))
    ({ s with
      store := s.store.modify p fun r => { r with twin := some t }
      render := { s.render with setup := some (frameSetup s t stamp step) } }, some t)

/-- An admitted frame: principal, link requests still due, twin, ramp step, and the live join while RECORDING
(R49, R50, R69, R99). DESIGN CHOICE: R45, R69 and R99 do not order the ramp step against the live join, and the model takes
the ramp step first; the steps left in a snapshot that PROXY GAP or SPLIT DEFERRED of the join triggers (R167) show it
(notes/assumptions/15.md, unsafe). -/
def State.admitPrincipal (capture : BitVec 32) (stamp : Stamp) (p : RecNo) (during : List (List LinkEvent))
    (s : State) : State × Option RecNo :=
  let s := s.reserve p (principalRecord s.banks capture stamp)
  let s := (s.takeDuring during).1
  let (s, twin) := s.admitTwin capture stamp p
  let s := { s with render := s.render.afterStep }
  (if s.clips.recordState = .recording then s.joinLive p else s, twin)

/-- The Store Manager's answer to an admission request: the records reserved, or none (R45). -/
def State.admitFrame (capture : BitVec 32) (stamp : Stamp) (during : List (List LinkEvent)) (s : State) :
    State × Option (RecNo × Option RecNo) :=
  if s.clips.recordState = .standby then (s, none)
  else
    let (s, during) := s.measures during
    if s.store.short s.banks.pagesP then (s.storeFull, none)
    else
      match s.store.lowestFree with
      | none => (s, none)
      | some p =>
        let (s, twin) := s.admitPrincipal capture stamp p during
        (s, some (p, twin))

/-! ### Opening a frame (R6 to R10) -/

/-- The capture index checked against the last one, which it replaces (R7). -/
def State.checkCapture (index : BitVec 32) (s : State) : State :=
  let s' := match s.ingress.lastCapture with
    | some last => if index ≠ last + 1 then s.setFlag .captureSkip else s
    | none => s
  { s' with ingress := { s'.ingress with lastCapture := some index } }

/-- The frame-in-progress record of a frame admitted (R9). -/
def newFrame (p : RecNo) (twin : Option RecNo) (w h : Nat) : FrameInProgress :=
  { principal := p, twin := twin, width := w, height := h, expected := 0, lastReceived := none, linesReceived := 0,
    check := 0, missing := 0, excess := 0 }

/-- The geometry check and the admission of an announced frame (R8, R9). -/
def State.announce (capture : BitVec 32) (w h : Nat) (stamp : Stamp) (during : List (List LinkEvent)) (s : State) :
    State :=
  if !s.banks.act.valid then s.setFrame .skipping
  else if w ≠ s.banks.act.wi ∨ h ≠ s.banks.act.hi then
    ((s.setFrame .skipping).setFlag .geometryMismatch).cut .geometry
  else
    match s.admitFrame capture stamp during with
    | (s, some (p, twin)) => s.setFrame (.inFrame (newFrame p twin w h))
    | (s, none) => s.setFrame .skipping

/-- Steps 2 and 3 of R6: an IDLE link becomes STREAMING, and the picture-loss count returns to 0. -/
def Ingress.opened (i : Ingress) : Ingress :=
  { i with link := if i.link = .idle then .streaming else i.link, lossCount := 0 }

/-- A taken FRAME OPEN (R6). -/
def State.openFrame (capture : BitVec 32) (w h : Nat) (order : BoundaryOrder) (during : List (List LinkEvent))
    (s : State) : State :=
  let s := s.closeAny false
  let s := ({ s with ingress := s.ingress.opened }).boundary order
  let s := s.checkCapture capture
  let stamp := s.time.stamp
  ({ s with time := s.time.afterStamp }).announce capture w h stamp during

/-- A corrupt FRAME OPEN (R10). -/
def State.corruptOpen (s : State) : State := (s.closeAny false).setFrame .skipping

/-! ### Picture loss (R17, R18) -/

/-- Step 2 of R18: a STREAMING link becomes IDLE. -/
def Ingress.lost (i : Ingress) : Ingress :=
  { i with link := if i.link = .streaming then .idle else i.link }

/-- What picture-loss expiry does (R18). -/
def State.expire (s : State) : State :=
  let s := (s.closeAny true).setFrame .noFrame
  let s := { s with ingress := s.ingress.lost }
  (s.setFlag .pictureLost).cut .pictureLost

/-- The picture-loss count rises at a pulse (R17). -/
def State.countLoss (s : State) : State :=
  { s with ingress := { s.ingress with lossCount := satAdd Config.lossLimit s.ingress.lossCount 1 } }

/-- The test for expiry finds it: the link is STREAMING or the part is RECORDING, and the count stands at the window or
above (R18). -/
def State.lossExpired (s : State) : Bool :=
  (s.ingress.link == .streaming || s.clips.recordState == .recording) && s.banks.lossWindow ≤ s.ingress.lossCount

/-- The test for expiry, and the expiry when the test finds it (R18). -/
def State.testLoss (s : State) : State := if s.lossExpired then s.expire else s

/-! ### The TOD pulse (R22 to R24, R31, R37, R38, R113) -/

/-- A cue that equals the advanced count, while RUNNING (R37). -/
def cueFires (t : TimeBase) (cue : Option Nat) : Bool := t.running && cue == some t.tod

/-- The Time Base Unit at a pulse: the lane starts a new period, the TOD count advances while RUNNING, and the last
subframe index is absent (R22, R24, R31). The ticks that remained of the old period have passed (R32). -/
def TimeBase.pulse (t : TimeBase) : TimeBase :=
  let t := t.pass (t.rate.period - t.phase)
  { t.restartLane with tod := if t.running then nextCount t.perDay t.tod else t.tod }

/-- A cue fires: it is removed and CUE FIRED is set (R37). -/
def State.fireCue (a : CueAction) (s : State) : State :=
  match a with
  | .start =>
    if cueFires s.time s.time.startCue then
      ({ s with time := { s.time with startCue := none } }).setFlag .cueFired
    else s
  | .stop =>
    if cueFires s.time s.time.stopCue then
      ({ s with time := { s.time with stopCue := none } }).setFlag .cueFired
    else s

/-- The actions of the cues that fire at a pulse, the start action first (R74). -/
def firedActions (t : TimeBase) : List CueAction :=
  (if cueFires t t.startCue then [.start] else []) ++ (if cueFires t t.stopCue then [.stop] else [])

/-- The fired cues' actions handed over to the Clip Controller (R37, R74). -/
def State.handOverAll (as : List CueAction) (s : State) : State := as.foldl (fun s a => s.handOver a) s

/-- The pulse as the boundary takes it: a boundary while the link is not STREAMING (R23), the fired actions handed over
before it or after it (R38). -/
def State.pulseBoundary (o : PulseOrder) (fired : List CueAction) (s : State) : State :=
  let s := if o.handOverFirst then s.handOverAll fired else s
  let s := if s.ingress.link = .streaming then s else s.boundary o.boundary
  if o.handOverFirst then s else s.handOverAll fired

/-- A TOD pulse (R22): the Time Base Unit, then the pulse at the Ingress Port, the X-link and the boundary. With
`lossFirst` the Ingress Port counts the pulse, tests and takes any expiry before the boundary is tested; otherwise the
boundary is tested first, and the count, the test and the expiry follow it (R17, R18). -/
def State.pulse (o : PulseOrder) (s : State) : State :=
  let s := { s with time := s.time.pulse, pace := satAdd Config.paceLimit s.pace 1 }
  let fired := firedActions s.time
  let s := (s.fireCue .start).fireCue .stop
  if o.lossFirst then s.countLoss.testLoss.pulseBoundary o fired
  else (s.pulseBoundary o fired).countLoss.testLoss

/-! ### Lock (R1, R2) -/

/-- Loss of symbol lock (R2). -/
def State.loseLock (s : State) : State :=
  let s := { s with ingress := { s.ingress with link := .down } }
  let s := (s.closeAny true).setFrame .noFrame
  ({ s with ingress := { s.ingress with lastCapture := none } }).setFlag .inputDown

/-! ### Reference ticks (R21, R32, section 6 "how far through the frame") -/

/-- One packet of the frame in flight on a link ends, when the free value says so and it is not the last. -/
def State.packetEnds (l : LinkId) (ends : Bool) (s : State) : State :=
  match (s.link l).act with
  | .frame i header done =>
    if ends && done ≤ (s.store.frame i).height then
      (s.emit l [framePacket header (s.store.frame i) done]).setAct l (.frame i header (done + 1))
    else s
  | _ => s

/-- One reference tick with no command waiting (notes/assumptions/5.md): the tick phase and the interval count move, a tick
that ends the lane period is a TOD pulse (R21), and a packet may end on each link. The orders and the packets' ends are
free values. -/
def State.referenceTick (s : State) : State :=
  let n := s.drawn
  let ends := (s.packetEnds .p (Config.packetEnds (2 * n))).packetEnds .x (Config.packetEnds (2 * n + 1))
  let s := { ends with drawn := n + 1 }
  if s.time.atWrap then
    s.pulse
      { lossFirst := Config.orderChoice (3 * n), handOverFirst := Config.orderChoice (3 * n + 1)
        boundary := if Config.orderChoice (3 * n + 2) then .actionsFirst else .directivesFirst }
  else { s with time := s.time.tick }

end Sys2Proof.Machine
end

