-- ==== Sys2Proof/Machine/InputCommands.lean ====
section
/-! DEFINITION. The commands of the RESET line and of the input link. While the link is DOWN the receiver has no lock and
delivers no packet (section 1.1, R1), and a packet of fewer than two words has no kind and is discarded (R3). -/

namespace Sys2Proof.Machine

open Sys2Proof

/-- A packet of the input link, given by the words after its kind code, reaches the Ingress Port (section 1.1, R3). -/
def State.delivers (s : State) (rest : List Word) : Bool := s.ingress.link != .down && !rest.isEmpty

/-- An output link after power-on reset: free, its two lines as the sink drives them, so that it is READY at once when
they allow (R109, R124). What it has sent stays sent. -/
def OutLink.powerOn (l : OutLink) : OutLink := { l with act := .free }

/-- POWER_ON_RESET: every block at its power-on values (R1, R20, R40, R60, R88, R109, R124, R125, R160). -/
def execPowerOnReset (s : State) : Host.Outcome State Fault Refusal :=
  .next { State.reset with
    pLink := s.pLink.powerOn, xLink := s.xLink.powerOn, drawn := s.drawn, pending := s.pending }

/-- SYMBOL_LOCK_GAINED: a DOWN link moves to IDLE; the frame-in-progress state stands (R1). -/
def execSymbolLockGained (s : State) : Host.Outcome State Fault Refusal :=
  .next (if s.ingress.link = .down then { s with ingress := { s.ingress with link := .idle } } else s)

/-- SYMBOL_LOCK_LOST: from IDLE or STREAMING (R2). -/
def execSymbolLockLost (s : State) : Host.Outcome State Fault Refusal :=
  .next (if s.ingress.link = .down then s else s.loseLock)

/-- FRAME_OPEN: taken when its verdict is good and it has six words, corrupt otherwise (R3, R6, R10). -/
def execFrameOpen (rest : List Word) (order : BoundaryOrder) (during : List (List LinkEvent)) (s : State) :
    Host.Outcome State Fault Refusal :=
  .next (
    if !s.delivers rest then s
    else if goodFixed .frameOpen 6 rest then
      s.openFrame (openCapture rest) (openWidth rest) (openHeight rest) order during
    else s.corruptOpen)

/-- LINE, by the frame-in-progress state: placed, a stray, or discarded without notice (R11, R12, R13). -/
def execLine (rest : List Word) (s : State) : Host.Outcome State Fault Refusal :=
  .next (
    if !s.delivers rest then s
    else match s.ingress.frame with
    | .inFrame f => s.receiveLine rest f
    | .noFrame => s.setFlag .strayLines
    | .skipping => s)

/-- FRAME_CLOSE: with a good verdict and three words it closes the open frame; otherwise it is ignored (R14). -/
def execFrameClose (rest : List Word) (s : State) : Host.Outcome State Fault Refusal :=
  .next (
    if s.delivers rest && goodFixed .frameClose 3 rest then
      match s.ingress.frame with
      | .inFrame f => s.closeFrame false (some (rest.getD 0 0).toNat) f
      | _ => s
    else s)

/-- FILL: discarded with either verdict (R4). -/
def execFill (_rest : List Word) (s : State) : Host.Outcome State Fault Refusal := .next s

/-- UNKNOWN_PACKET: discarded with either verdict (R3). -/
def execUnknownPacket (_words : List Word) (s : State) : Host.Outcome State Fault Refusal := .next s

/-- DIRECTIVE: handed to the Directive Unit in any link state other than DOWN (R4, R145, R146). -/
def execDirective (rest : List Word) (s : State) : Host.Outcome State Fault Refusal :=
  .next (if s.delivers rest then s.receiveDirective rest else s)

end Sys2Proof.Machine
end

