-- ==== Sys2Proof/Machine/LinkCommands.lean ====
section
/-! DEFINITION. The commands of the output links and of the report queue. A command whose conditions do not hold finds no
such event to take, and leaves the state as it is (notes/assumptions/8.md). -/

namespace Sys2Proof.Machine

open Sys2Proof

/-- OWED_MARKER_PLACED: with room in the queue, the owed marker is placed and the mark is cleared (R154). -/
def execOwedMarkerPlaced (s : State) : Host.Outcome State Fault Refusal :=
  .next (
    if s.dir.markerWaiting && s.dir.reports.length < Config.reportQueueDepth then
      ({ s with dir := { s.dir with markerWaiting := false } }).placeMarker
    else s)

/-- SINK_READY_CHANGE: the READY line takes a level; a free link's state follows it (R109, R110). -/
def execSinkReadyChange (l : LinkId) (level : Bool) (s : State) : Host.Outcome State Fault Refusal :=
  .next (s.setLink l { s.link l with readyLine := level })

/-- LINK_RESET_ASSERTED (R53, R120). -/
def execLinkResetAsserted (l : LinkId) (s : State) : Host.Outcome State Fault Refusal := .next (s.assertReset l)

/-- LINK_RESET_RELEASED (R121). -/
def execLinkResetReleased (l : LinkId) (s : State) : Host.Outcome State Fault Refusal := .next (s.releaseReset l)

/-- PRINCIPAL_FRAME_START (R53, R111, R115). -/
def execPrincipalFrameStart (s : State) : Host.Outcome State Fault Refusal := .next s.startPrincipal

/-- PROXY_FRAME_START (R53, R112, R113, R115, R116). -/
def execProxyFrameStart (s : State) : Host.Outcome State Fault Refusal := .next s.startProxy

/-- FRAME_SENT (R54, R117). -/
def execFrameSent (l : LinkId) (s : State) : Host.Outcome State Fault Refusal := .next (s.frameSent l)

/-- REPORT_START (R118, R119). -/
def execReportStart (s : State) : Host.Outcome State Fault Refusal := .next s.startReport

/-- REPORT_SENT (R119, R164, R165). -/
def execReportSent (s : State) : Host.Outcome State Fault Refusal := .next s.finishReport

/-- FRAME_ABORT_SENT (R122). -/
def execFrameAbortSent (l : LinkId) (s : State) : Host.Outcome State Fault Refusal := .next (s.abortSent l)

/-- SEND_FILL: a free link with nothing to send and LINK RESET released sends a FILL packet (R109). -/
def execSendFill (l : LinkId) (s : State) : Host.Outcome State Fault Refusal :=
  .next (if s.nothingToSend l then s.emit l [fillPacket] else s)

end Sys2Proof.Machine
end

