-- ==== Sys2Proof/Machine/TimeCommands.lean ====
section
/-! DEFINITION. The commands of the timecode lane. -/

namespace Sys2Proof.Machine

open Sys2Proof

/-- TOD_PULSE: the tick phase wraps (R21, R22). The reference ticks that remained of the lane period have passed
(notes/assumptions/6.md). -/
def execTodPulse (order : PulseOrder) (s : State) : Host.Outcome State Fault Refusal := .next (s.pulse order)

/-- PICTURE_LOSS_EXPIRY: the test of R18 on the pulse count as it stands, and the expiry when the count has reached the
window; otherwise nothing happens. TOD_PULSE makes the same test at each rise of the count (notes/assumptions/10.md). -/
def execPictureLossExpiry (s : State) : Host.Outcome State Fault Refusal := .next s.testLoss

end Sys2Proof.Machine
end

