-- ==== Sys2Proof/Machine/Dispatch.lean ====
section
/-! DEFINITION. The meaning of every command: one arm per constructor, one direct call of its meaning. -/

namespace Sys2Proof.Machine

open Sys2Proof

def exec (i : Instr) (s : State) : Host.Outcome State Fault Refusal :=
  match i with
  | .powerOnReset => Sys2Proof.Machine.execPowerOnReset s
  | .symbolLockGained => Sys2Proof.Machine.execSymbolLockGained s
  | .symbolLockLost => Sys2Proof.Machine.execSymbolLockLost s
  | .frameOpen rest order during => Sys2Proof.Machine.execFrameOpen rest order during s
  | .line rest => Sys2Proof.Machine.execLine rest s
  | .frameClose rest => Sys2Proof.Machine.execFrameClose rest s
  | .fill rest => Sys2Proof.Machine.execFill rest s
  | .unknownPacket words => Sys2Proof.Machine.execUnknownPacket words s
  | .todPulse order => Sys2Proof.Machine.execTodPulse order s
  | .pictureLossExpiry => Sys2Proof.Machine.execPictureLossExpiry s
  | .directive rest => Sys2Proof.Machine.execDirective rest s
  | .loadSegment tag param payload => Sys2Proof.Machine.execLoadSegment tag param payload s
  | .copyBank tag => Sys2Proof.Machine.execCopyBank tag s
  | .switchBank tag ramp => Sys2Proof.Machine.execSwitchBank tag ramp s
  | .cacheOn tag => Sys2Proof.Machine.execCacheOn tag s
  | .cacheOff tag => Sys2Proof.Machine.execCacheOff tag s
  | .start tag => Sys2Proof.Machine.execStart tag s
  | .stop tag => Sys2Proof.Machine.execStop tag s
  | .setCues tag startAct startHi startLo stopAct stopHi stopLo => Sys2Proof.Machine.execSetCues tag startAct startHi startLo stopAct stopHi stopLo s
  | .jamTimecode tag labelHi labelLo hold => Sys2Proof.Machine.execJamTimecode tag labelHi labelLo hold s
  | .runTimecode tag => Sys2Proof.Machine.execRunTimecode tag s
  | .setRate tag code mark => Sys2Proof.Machine.execSetRate tag code mark s
  | .clearFlags tag list => Sys2Proof.Machine.execClearFlags tag list s
  | .setNotices tag enables => Sys2Proof.Machine.execSetNotices tag enables s
  | .queryStatus tag => Sys2Proof.Machine.execQueryStatus tag s
  | .armSnapshot tag triggers => Sys2Proof.Machine.execArmSnapshot tag triggers s
  | .fetchSnapshot tag => Sys2Proof.Machine.execFetchSnapshot tag s
  | .restart tag => Sys2Proof.Machine.execRestart tag s
  | .owedMarkerPlaced => Sys2Proof.Machine.execOwedMarkerPlaced s
  | .sinkReadyChange l level => Sys2Proof.Machine.execSinkReadyChange l level s
  | .linkResetAsserted l => Sys2Proof.Machine.execLinkResetAsserted l s
  | .linkResetReleased l => Sys2Proof.Machine.execLinkResetReleased l s
  | .principalFrameStart => Sys2Proof.Machine.execPrincipalFrameStart s
  | .proxyFrameStart => Sys2Proof.Machine.execProxyFrameStart s
  | .frameSent l => Sys2Proof.Machine.execFrameSent l s
  | .reportStart => Sys2Proof.Machine.execReportStart s
  | .reportSent => Sys2Proof.Machine.execReportSent s
  | .frameAbortSent l => Sys2Proof.Machine.execFrameAbortSent l s
  | .sendFill l => Sys2Proof.Machine.execSendFill l s

end Sys2Proof.Machine
end

