-- ==== Sys2Proof/Safety.lean ====
section
/-! DEFINITION. What a good state of the part is, and the words the statements use. -/

namespace Sys2Proof.Machine

open Sys2Proof

/-! ### Laws of a good state -/

/-- The pages of every frame record that is not FREE (R40). -/
def Store.heldPages (s : Store) : Nat := ((s.table.toList.filter fun r => !r.isFree).map (·.pages)).sum

/-- The law of R40: the free page count plus the pages of every record that is not FREE is 65,536; and a FREE record,
which describes no frame (R42), holds no pages. -/
structure Store.PageLaw (s : Store) : Prop where
  total : s.freePages + s.heldPages = Config.storePages
  blank : ∀ i, (s.frame i).isFree = true → (s.frame i).pages = 0

/-- A gap list as R72 and R73 keep it: at most 16 runs, each of length 1 or more, in increasing order, none touching or
overlapping another. -/
structure GapsSound (gs : List GapRun) : Prop where
  few      : gs.length ≤ Config.gapRuns
  positive : ∀ g ∈ gs, 1 ≤ g.length
  apart    : gs.Pairwise fun a b => a.stop < b.first

/-- The law of R72 for a clip record: principal joined is proxy made less proxy evicted plus gap total, and the gap list is
sound. -/
structure ClipRecord.Law (c : ClipRecord) : Prop where
  balance : c.joined + c.evicted = c.made + c.gapTotal
  gaps    : GapsSound c.gaps

/-- Every clip record obeys the law of R72. -/
def Clips.Law (c : Clips) : Prop := ∀ r ∈ c.records, r.Law

/-- The ranges of the Time Base Unit: the mark of R20, the stages of R21, the counts of R24, the last subframe index of R31
and the interval count of R32. -/
structure TimeBase.Law (t : TimeBase) : Prop where
  mark     : t.df = true → t.rate.mayDrop = true
  stage1   : t.stage1 < t.rate.divisor
  stage2   : t.stage2 < t.rate.divisor2
  tod      : t.tod < t.perDay
  rr       : t.rr < t.perDay
  sub      : ∀ i ∈ t.lastSub, i ≤ 15
  interval : t.interval ≤ Config.intervalLimit

/-- The bounds of the Directive Unit: at most 16 directives (R148), at most 32 reports (R153), and at most one notice
marker queued or owed (R154). -/
structure DirectiveUnit.Law (d : DirectiveUnit) : Prop where
  queue   : d.queue.length ≤ Config.directiveQueueDepth
  reports : d.reports.length ≤ Config.reportQueueDepth
  marker  : d.reports.countP Report.isMarker + d.markerWaiting.toNat ≤ 1

/-- The active bank is either all EMPTY or all VALID (R125). -/
def Banks.Law (b : Banks) : Prop := (∀ i, (b.act.table i).state = .empty) ∨ b.act.valid = true

/-! ### Words the statements use -/

/-- A state with a report placed at the tail of a queue that has room: while the P-link is idle it begins a batch of the
entries then in the queue (R118, R153). -/
def State.withReport (r : Report) (s : State) : State :=
  { s with
    dir := { s.dir with reports := s.dir.reports ++ [r] }
    batch := if s.idleP then s.dir.reports.length + 1 else s.batch }

/-- The report queue has room for a number of reports (R153). -/
def State.hasRoom (n : Nat) (s : State) : Prop := s.dir.reports.length + n ≤ Config.reportQueueDepth

/-- The response to a directive (R151). -/
def Report.reply (tag : Byte) (c : DirCode) (o : DirOutcome) : Report := .response tag c.word o 0

/-- The command that is a directive being taken: its tag and the words of its payload. -/
def Directive.command (d : Directive) : Instr :=
  let w (i : Nat) : Word := d.payload.getD i 0
  match d.code with
  | .loadSegment => .loadSegment d.tag d.param d.payload
  | .copyBank => .copyBank d.tag
  | .switchBank => .switchBank d.tag (w 0)
  | .cacheOn => .cacheOn d.tag
  | .cacheOff => .cacheOff d.tag
  | .start => .start d.tag
  | .stop => .stop d.tag
  | .setCues => .setCues d.tag (w 0) (w 1) (w 2) (w 3) (w 4) (w 5)
  | .jamTimecode => .jamTimecode d.tag (w 0) (w 1) (w 2)
  | .runTimecode => .runTimecode d.tag
  | .setRate => .setRate d.tag (w 0) (w 1)
  | .clearFlags => .clearFlags d.tag (w 0)
  | .setNotices => .setNotices d.tag (w 0)
  | .queryStatus => .queryStatus d.tag
  | .armSnapshot => .armSnapshot d.tag (w 0)
  | .fetchSnapshot => .fetchSnapshot d.tag
  | .restart => .restart d.tag

/-- The queue entry of a command that is a directive being taken. -/
def entryOf : Instr → Option Directive
  | .loadSegment tag param payload => some ⟨.loadSegment, tag, param, payload⟩
  | .copyBank tag => some ⟨.copyBank, tag, 0, []⟩
  | .switchBank tag k => some ⟨.switchBank, tag, 0, [k]⟩
  | .cacheOn tag => some ⟨.cacheOn, tag, 0, []⟩
  | .cacheOff tag => some ⟨.cacheOff, tag, 0, []⟩
  | .start tag => some ⟨.start, tag, 0, []⟩
  | .stop tag => some ⟨.stop, tag, 0, []⟩
  | .setCues tag a b c d e f => some ⟨.setCues, tag, 0, [a, b, c, d, e, f]⟩
  | .jamTimecode tag a b c => some ⟨.jamTimecode, tag, 0, [a, b, c]⟩
  | .runTimecode tag => some ⟨.runTimecode, tag, 0, []⟩
  | .setRate tag a b => some ⟨.setRate, tag, 0, [a, b]⟩
  | .clearFlags tag a => some ⟨.clearFlags, tag, 0, [a]⟩
  | .setNotices tag a => some ⟨.setNotices, tag, 0, [a]⟩
  | .queryStatus tag => some ⟨.queryStatus, tag, 0, []⟩
  | .armSnapshot tag a => some ⟨.armSnapshot, tag, 0, [a]⟩
  | .fetchSnapshot tag => some ⟨.fetchSnapshot, tag, 0, []⟩
  | .restart tag => some ⟨.restart, tag, 0, []⟩
  | _ => none

/-- Every block but the Flag Unit, the report queue with its owed marker, and the batch count is the same in two states:
what setting a flag and placing a report may leave. -/
structure State.SameBlocks (s t : State) : Prop where
  ingress   : t.ingress = s.ingress
  time      : t.time = s.time
  store     : t.store = s.store
  clips     : t.clips = s.clips
  render    : t.render = s.render
  banks     : t.banks = s.banks
  queue     : t.dir.queue = s.dir.queue
  pLink     : t.pLink = s.pLink
  xLink     : t.xLink = s.xLink
  pace      : t.pace = s.pace
  lastProxy : t.lastProxy = s.lastProxy
  drawn     : t.drawn = s.drawn
  pending   : t.pending = s.pending

/-- `t` is `s` after a report other than a marker has been offered to the report queue: placed at the tail where there is
room, dropped from a full queue with REPORTS LOST set (R153), and no other block touched. -/
structure State.Offered (s : State) (r : Report) (t : State) : Prop where
  blocks : s.SameBlocks t
  placed : s.hasRoom 1 → t = s.withReport r
  lost   : ¬ s.hasRoom 1 → t = s.setFlag .reportsLost

/-- The clip whose frame completes on a link by the FRAME CLOSE that is leaving, when one is (R122). -/
def State.closingClip (l : LinkId) (s : State) : Option Nat :=
  match (s.link l).act with
  | .frame i _ done => if (s.store.frame i).height < done then (s.store.frame i).part.map (·.clip) else none
  | _ => none

/-- No frame is open (R5). -/
def FrameState.noneOpen : FrameState → Bool
  | .inFrame _ => false
  | _ => true

/-- A flag is set (R160). -/
def State.isSet (f : Flag) (s : State) : Prop := f.isIn s.flags.raised = true

/-- A clip is open (R66). -/
def Clips.hasOpen (c : Clips) : Bool := c.records.any (·.state == .isOpen)

/-! ### Closing, opening and completing a frame, as the statements say it -/

/-- The flaws with which an open frame completes, given its check count at the close: the lines not yet stored are counted
missing (R14 to R16). -/
def FrameInProgress.closingFlaws (truncated : Bool) (check : Nat) (f : FrameInProgress) : Flaws :=
  ⟨truncated, check, min 65535 (f.missing + (f.height - f.expected)), f.excess⟩

/-- The lines with which a close fills an open frame: copies of the stored line last received, or black ones
(R11, R14, R16). -/
def State.closingLines (f : FrameInProgress) (s : State) : List Samples :=
  List.replicate (f.height - f.expected)
    (match f.lastReceived with
      | some n => (s.store.frame f.principal).lines.getD n []
      | none => List.replicate (3 * f.width) 0)

/-- The pages of a record and of its twin, when it has one (R56). -/
def Store.pairPages (i : RecNo) (s : Store) : Nat :=
  (s.frame i).pages + (((s.frame i).twin.map fun q => (s.frame q).pages).getD 0)

/-- The records of an open frame agree with its frame-in-progress record: the principal names the twin, and what is being
rendered is not the principal (R50, R88). -/
structure State.HoldsPair (f : FrameInProgress) (s : State) : Prop where
  twin     : (s.store.frame f.principal).twin = f.twin
  distinct : f.twin ≠ some f.principal
  rendered : ∀ u ∈ s.render.setup, u.twin ≠ f.principal

/-- What a close leaves of the proxy rows of a twin being rendered: while its last crop line has not arrived, or every row
stands already, the rows from next row to Ho − 1 are written after the rows that stand (R89, R96, R106). -/
def State.RowsFormed (f : FrameInProgress) (q : RecNo) (s : State) (store : Store) : Prop :=
  ∀ u, s.render.setup = some u → u.twin = q → u.y0 + u.hc ≤ f.height → u.nextRow ≤ u.ho →
    u.nextRow = u.ho ∨ (0 < u.hc ∧ f.expected < u.y0 + u.hc) →
    (store.frame q).lines.length = (s.store.frame q).lines.length + (u.ho - u.nextRow)

/-- Both records of a completed frame are STORED with its flaws, the principal holds the lines filled at the close, and the
twin the rows they form (R11, R15, R51, R106). -/
structure State.Stored (fl : Flaws) (f : FrameInProgress) (s : State) (store : Store) : Prop where
  principal : store.frame f.principal =
    { s.store.frame f.principal with state := .stored, flaws := fl, lines := (store.frame f.principal).lines }
  lines : (∀ n ∈ f.lastReceived, n < (s.store.frame f.principal).lines.length) →
    (store.frame f.principal).lines = (s.store.frame f.principal).lines ++ s.closingLines f
  twin : ∀ q, f.twin = some q →
    store.frame q = { s.store.frame q with state := .stored, flaws := fl, lines := (store.frame q).lines }
  rows : ∀ q, f.twin = some q → s.RowsFormed f q store

/-- Where an open frame's completion with flaws puts it (R15, R51, R56, R63, R70, R71): a frame with a clip part goes onto
the send queues and its clip counts its flaws; any other enters the tail of the ring, a full ring giving up its oldest pair
first, and with a pre-roll depth of 0 its own pair is released. -/
structure State.Completed (fl : Flaws) (f : FrameInProgress) (s : State) (store : Store) (clips : Clips) : Prop where
  joined : ∀ part, (s.store.frame f.principal).part = some part → s.Stored fl f store ∧
    store.pq = s.store.pq ++ [f.principal] ∧ store.xq = s.store.xq ++ f.twin.toList ∧
    store.pFlawed = s.store.pFlawed + (if fl.clean then 0 else 1) ∧
    store.xFlawed = s.store.xFlawed + (if f.twin.isSome ∧ fl.clean = false then 1 else 0) ∧
    store.freePages = s.store.freePages ∧
    clips = { s.clips with records := s.clips.records.map fun r =>
      if r.number = part.clip then { r with flawed := r.flawed + (if fl.clean then 0 else 1) } else r }
  unjoined : (s.store.frame f.principal).part = none →
    store.pq = s.store.pq ∧ store.xq = s.store.xq ∧ store.pFlawed = s.store.pFlawed ∧
    store.xFlawed = s.store.xFlawed ∧
    clips = { s.clips with ring :=
      if s.banks.act.preRollDepth = 0 then s.clips.ring
      else if s.clips.ring.length < s.banks.act.preRollDepth then s.clips.ring ++ [f.principal]
      else s.clips.ring.tail ++ [f.principal] }
  released : (s.store.frame f.principal).part = none → s.banks.act.preRollDepth = 0 →
    (store.frame f.principal).state = .free ∧ (∀ q, f.twin = some q → (store.frame q).state = .free) ∧
    store.freePages = s.store.freePages + s.store.pairPages f.principal
  entered : (s.store.frame f.principal).part = none → s.banks.act.preRollDepth ≠ 0 →
    s.clips.ring.length < s.banks.act.preRollDepth → s.Stored fl f store ∧ store.freePages = s.store.freePages
  replaced : (s.store.frame f.principal).part = none → s.banks.act.preRollDepth ≠ 0 →
    s.banks.act.preRollDepth ≤ s.clips.ring.length → ∀ o, s.clips.ring.head? = some o → o ≠ f.principal →
    f.twin ≠ some o → (∀ q, f.twin = some q → (s.store.frame q).twin = some f.principal) →
    (∀ q, (s.store.frame o).twin = some q → q ≠ o ∧ q ≠ f.principal ∧ f.twin ≠ some q) →
    s.Stored fl f store ∧ (store.frame o).state = .free ∧
    (∀ q, (s.store.frame o).twin = some q → (store.frame q).state = .free) ∧
    store.freePages = s.store.freePages + s.store.pairPages o

/-- A taken FRAME OPEN of the active bank's input size, with no frame open and nothing waiting for its boundary
(R3, R6, R8). -/
structure State.OpensFrame (rest : List Word) (s : State) : Prop where
  link    : s.ingress.link ≠ .down
  verdict : goodVerdict (Kind.frameOpen.code :: rest) = true
  count   : rest.length = 5
  frame   : s.ingress.frame.noneOpen = true
  queue   : s.dir.queue = []
  actions : s.clips.actions = []
  valid   : s.banks.act.valid = true
  width   : (rest.getD 2 0).toNat = s.banks.act.wi
  height  : (rest.getD 3 0).toNat = s.banks.act.hi

/-- The capture index of a FRAME OPEN follows the last one, or there is no last one, so that it sets no CAPTURE SKIP
(R7). -/
def State.InSequence (rest : List Word) (s : State) : Prop :=
  ∀ last, s.ingress.lastCapture = some last → rest.getD 0 0 ++ rest.getD 1 0 = last + 1

/-- The store has room for a principal, and `p` is its lowest-numbered FREE record (R45, R49). -/
structure State.RoomAt (p : RecNo) (s : State) : Prop where
  pages  : s.banks.pagesP ≤ s.store.freePages
  free   : (s.store.frame p).state = .free
  lowest : ∀ j, j < p → (s.store.frame j).state ≠ .free

/-- A principal is short: fewer than P free pages, or no FREE record (R45). -/
def State.Short (s : State) : Prop := s.store.freePages < s.banks.pagesP ∨ ∀ j, (s.store.frame j).state ≠ .free

end Sys2Proof.Machine
end

