-- ==== Sys2Proof/WellFormed.lean ====
section
/-! DEFINITION. Which commands can stand for an event of the part. -/

namespace Sys2Proof

/-- A command is well formed when its operands are ones the event can carry: a packet with a kind holds at least one word
after its kind code (R3), an UNKNOWN_PACKET has no kind (R3), and the payload of a taken LOAD SEGMENT holds at most 256
words (R145, case 4). -/
def Instr.wellFormed : Instr → Bool
  | .frameOpen rest _ _ => !rest.isEmpty
  | .line rest => !rest.isEmpty
  | .frameClose rest => !rest.isEmpty
  | .fill rest => !rest.isEmpty
  | .directive rest => !rest.isEmpty
  | .unknownPacket p => (packetKind p).isNone
  | .loadSegment _ _ payload => payload.length ≤ 256
  | _ => true

end Sys2Proof
end

