-- ==== Sys2Proof/Certificates/Slice0/Obligations.lean ====
section
/-! DEFINITION. The statements for the provers. Each docstring names the rule of spec/ it formalises, or the log entry of
the model's choice it rests on. -/

open Sys2Proof Sys2Proof.Machine

/-! ### The step, reset, and the laws every step keeps -/

/-- A step takes the command at the front of the queue, with the queue's rest. The queue of waiting commands, first in,
first out, is the model's own (notes/assumptions/2.md). -/
def Obligations.StepTakesFrontCommand : Prop :=
  ∀ (c : Instr) (cs : List Instr) (s : State), s.pending = c :: cs → step s = exec c { s with pending := cs }

/-- With no command waiting, a step is one tick of the reference clock (the model's choice, notes/assumptions/5.md): inside
a lane period, the tick phase of R21 rises by 1, the interval count of R32 rises with saturation,
and besides them only the links' packets and the counter of the free values move. -/
def Obligations.EmptyQueueStepIsOneTick : Prop :=
  ∀ s : State, s.pending = [] → s.time.stage1 < s.time.rate.divisor →
    s.time.phase + 1 < s.time.rate.period →
    ∃ t, step s = .next t ∧ t.time.phase = s.time.phase + 1 ∧
      t.time = { s.time with
        stage1 := t.time.stage1, stage2 := t.time.stage2, interval := min 4294967295 (s.time.interval + 1) } ∧
      t.ingress = s.ingress ∧ t.store = s.store ∧ t.clips = s.clips ∧ t.render = s.render ∧ t.banks = s.banks ∧
      t.dir = s.dir ∧ t.flags = s.flags ∧ t.pLink.state = s.pLink.state ∧ t.xLink.state = s.xLink.state ∧
      t.pLink.readyLine = s.pLink.readyLine ∧ t.pLink.resetLine = s.pLink.resetLine ∧
      t.xLink.readyLine = s.xLink.readyLine ∧ t.xLink.resetLine = s.xLink.resetLine ∧
      t.batch = s.batch ∧ t.pace = s.pace ∧ t.lastProxy = s.lastProxy ∧ t.pending = []

/-- The state after power-on reset obeys every law the invariant statements are about. That the page field of a FREE record
is 0, a clause of the page law, is the model's choice (notes/assumptions/14.md). -/
def Obligations.ResetMeetsEveryLaw : Prop :=
  State.reset.store.PageLaw ∧ State.reset.clips.Law ∧ State.reset.time.Law ∧ State.reset.dir.Law ∧
    State.reset.banks.Law

/-- R40: in every state, free pages and held pages make up the store, and every step keeps it. The law's second clause, that
the page field of a FREE record is 0, is the model's choice (notes/assumptions/14.md). -/
def Obligations.EveryStepKeepsThePageTotal : Prop :=
  ∀ s t : State, s.store.PageLaw → step s = .next t → t.store.PageLaw

/-- R72, R73: for every clip, principal joined is proxy made less proxy evicted plus gap total, and its gap list is of at
most 16 runs, in order, none touching another. Every step keeps it. -/
def Obligations.EveryStepKeepsTheGapAccount : Prop :=
  ∀ s t : State, s.clips.Law → step s = .next t → t.clips.Law

/-- R20, R21, R24, R31, R32: the ranges of the Time Base Unit. Every step keeps them. -/
def Obligations.EveryStepKeepsTheTimeRanges : Prop :=
  ∀ s t : State, s.time.Law → step s = .next t → t.time.Law

/-- R148, R153, R154: at most 16 directives, at most 32 reports, at most one notice marker. Every step keeps them. -/
def Obligations.EveryStepKeepsTheQueueBounds : Prop :=
  ∀ s t : State, s.dir.Law → step s = .next t → t.dir.Law

/-- R125: the active bank is all EMPTY or all VALID. Every step keeps it. -/
def Obligations.EveryStepKeepsTheActiveBankWhole : Prop :=
  ∀ s t : State, s.banks.Law → step s = .next t → t.banks.Law

/-- Power-on reset (R19, R39, R59, R87, R108, R124, R144, R159, R169): from any state every block takes its power-on
values. The sinks' lines stay as the sinks drive them (notes/assumptions/1.md). -/
def Obligations.PowerOnResetRestoresEveryBlock : Prop :=
  ∀ s : State, ∃ t, exec .powerOnReset s = .next t ∧
    t.ingress.link = .down ∧ t.ingress.frame = .noFrame ∧ t.ingress.lossCount = 0 ∧ t.ingress.lastCapture = none ∧
    t.time.rate = .r25 ∧ t.time.df = false ∧ t.time.phase = 0 ∧ t.time.tod = 0 ∧ t.time.running = true ∧
    t.time.rr = 0 ∧ t.time.startCue = none ∧ t.time.stopCue = none ∧ t.time.lastSub = none ∧ t.time.interval = 0 ∧
    t.time.lastInterval = 0 ∧
    t.store.freePages = 65536 ∧ (∀ i, (t.store.frame i).state = .free) ∧ t.store.pq = [] ∧ t.store.xq = [] ∧
    t.store.pFlawed = 0 ∧ t.store.xFlawed = 0 ∧
    t.clips.recordState = .standby ∧ t.clips.cacheMark = false ∧ t.clips.ring = [] ∧ t.clips.records = [] ∧
    t.clips.nextNumber = 1 ∧ t.clips.actions = [] ∧ t.clips.splitPending = false ∧ t.clips.deferralReported = false ∧
    t.render.setup = none ∧ t.render.rampLength = 0 ∧ t.render.stepsLeft = 0 ∧
    t.banks.active = .a ∧
    (∀ k, (t.banks.get k).pages = none ∧ ∀ i, ((t.banks.get k).table i).state = .empty) ∧
    t.dir.queue = [] ∧ t.dir.reports = [] ∧ t.dir.markerWaiting = false ∧
    t.flags.raised = 0 ∧ t.flags.shown = 0 ∧ t.flags.enables = 0 ∧ t.flags.markerClass = .routine ∧
    t.flags.renotice = false ∧ t.flags.snapshot = .disarmed ∧
    t.batch = 0 ∧ t.pace = 8 ∧ t.lastProxy = none ∧
    (∀ l, (t.link l).act = .free ∧ (t.link l).readyLine = (s.link l).readyLine ∧
      (t.link l).resetLine = (s.link l).resetLine) ∧ t.pending = s.pending

/-! ### The input link (chapter 1) -/

/-- Commands of the input link that leave the part as it is: symbol lock gained moves a DOWN link to IDLE and nothing else
(R1); a FILL packet and a packet without a kind have no effect (R3, R4); and a FRAME CLOSE that is bad, or that finds no
frame open, changes nothing (R14). Three readings are the model's: lock gained on a link that has lock changes nothing
(notes/assumptions/13.md), a packet cannot arrive while the link is DOWN (deduced from R1 and section 1.1,
notes/assumptions/9.md), and a packet command that stands for no such packet, UNKNOWN_PACKET with words of any kind among
them, is discarded (notes/assumptions/20.md). -/
def Obligations.QuietInputCommands : Prop :=
  (∀ s : State, s.ingress.link = .down →
    exec .symbolLockGained s = .next { s with ingress := { s.ingress with link := .idle } }) ∧
  (∀ s : State, s.ingress.link ≠ .down → exec .symbolLockGained s = .next s) ∧
  (∀ rest (s : State), exec (.fill rest) s = .next s) ∧
  (∀ words (s : State), exec (.unknownPacket words) s = .next s) ∧
  (∀ rest (s : State), ¬ (goodVerdict (Kind.frameClose.code :: rest) = true ∧ rest.length = 2) →
    exec (.frameClose rest) s = .next s) ∧
  (∀ rest (s : State), s.ingress.frame.noneOpen = true → exec (.frameClose rest) s = .next s) ∧
  (∀ (c : Instr) (s : State), s.ingress.link = .down → (encodePacket c).isSome = true → exec c s = .next s)

/-- Loss of symbol lock (R2): the link is DOWN, no frame is open, the last capture index is absent, INPUT DOWN is set. No
clip closes, the picture-loss count and the output links are left; with no frame open the store, the clips and the renderer
are left too. An open frame is closed as truncated: its remaining lines are filled and counted missing, it completes with
TRUNCATED among its flaws and is placed, and FLAWED FRAME is set. -/
def Obligations.SymbolLockLostClosesNoClip : Prop :=
  ∀ s : State, s.ingress.link ≠ .down → ∃ t, exec .symbolLockLost s = .next t ∧
    t.ingress = { s.ingress with link := .down, frame := .noFrame, lastCapture := none } ∧ t.isSet .inputDown ∧
    t.clips.recordState = s.clips.recordState ∧
    t.clips.records.map (fun r => (r.number, r.state, r.joined)) =
      s.clips.records.map (fun r => (r.number, r.state, r.joined)) ∧
    t.pLink = s.pLink ∧ t.xLink = s.xLink ∧ t.time = s.time ∧ t.banks = s.banks ∧ t.dir.queue = s.dir.queue ∧
    t.pace = s.pace ∧ t.lastProxy = s.lastProxy ∧ t.pending = s.pending ∧
    (s.ingress.frame.noneOpen = true → t.store = s.store ∧ t.clips = s.clips ∧ t.render = s.render) ∧
    (∀ f, s.ingress.frame = .inFrame f → s.HoldsPair f →
      s.Completed (f.closingFlaws true f.check) f t.store t.clips ∧ t.isSet .flawedFrame ∧
      t.render = { s.render with setup := none })

/-- R13: a LINE that arrives while no frame is open is discarded; in NO FRAME it sets STRAY LINES, in SKIPPING it does
nothing. Neither changes the picture-loss count or the last capture index. -/
def Obligations.StrayLineIsDiscarded : Prop :=
  ∀ (rest : List Word) (s : State), s.ingress.link ≠ .down → rest ≠ [] → s.ingress.frame.noneOpen = true →
    ∃ t, exec (.line rest) s = .next t ∧
      (s.ingress.frame = .noFrame → t = s.setFlag .strayLines ∧ t.isSet .strayLines) ∧
      (s.ingress.frame = .skipping → t = s) ∧
      s.SameBlocks t ∧ t.ingress.lossCount = s.ingress.lossCount ∧ t.ingress.lastCapture = s.ingress.lastCapture

/-- R11, R12: a LINE of an open frame, placed by its line number. A damaged line is counted and still used. Below the
expected line, or at the height or above, it is excess and discarded; otherwise the lines skipped are filled with a copy
of the stored line last received, or with black, and the line is stored as the low 12 bits of its words. A LINE of two
words holds no line number: it is counted as damaged and discarded. R89, R96: a line stored in order reaches the renderer;
a crop line is scaled and held, and every row from next row on whose last needed line has arrived is formed into the
twin's pages, in order; held lines no later row takes are dropped; a line outside the crop is not used. A filled line does
as a LINE that carries the copy would, in the principal, in the renderer and in the twin (R89), and adds one to the
missing count: one fill at a time, ahead of a LINE or at each kind of close. -/
def Obligations.LineIsPlacedByItsNumber : Prop :=
  (∀ (rest : List Word) (f : FrameInProgress) (u : FrameSetup) (line : Samples) (last : Nat → Nat)
    (takes : Nat → Nat → Prop) (s : State), s.ingress.link ≠ .down → s.ingress.frame = .inFrame f → 2 ≤ rest.length →
    s.render.setup = some u → u.twin ≠ f.principal → (rest.getD 0 0).toNat = f.expected → f.expected < f.height →
    line = ((List.range (3 * f.width)).map fun i =>
      if i + 2 < rest.length then (rest.getD (i + 1) 0).toNat % 4096 else 0) →
    (∀ r, last r = min ((u.oy + r * u.sy) / 65536 + 3) (u.hc - 1)) →
    (∀ r row, takes r row ↔ ∃ k : Nat, k < 6 ∧ row = (max 0 (min ((u.hc : Int) - 1)
      (((u.oy + r * u.sy) / 65536 : Nat) + (k : Int) - 2))).toNat) →
    ∃ t, exec (.line rest) s = .next t ∧
      (f.expected < u.y0 ∨ u.y0 + u.hc ≤ f.expected →
        t.render = s.render ∧ t.store.frame u.twin = s.store.frame u.twin) ∧
      (u.y0 ≤ f.expected → f.expected < u.y0 + u.hc → ∃ v w : FrameSetup,
        v = { u with held := u.held ++
          [(f.expected - u.y0, hLine u (s.banks.get u.bank).hkernel line)] } ∧
        t.render = { s.render with setup := some w } ∧ w = { v with nextRow := w.nextRow, held := w.held } ∧
        u.nextRow ≤ w.nextRow ∧
        (∀ r, u.nextRow ≤ r → r < w.nextRow → r < u.ho ∧ last r ≤ f.expected - u.y0) ∧
        (w.nextRow < u.ho → f.expected - u.y0 < last w.nextRow) ∧
        w.held.Sublist v.held ∧
        (∀ h, h ∈ w.held ↔ h ∈ v.held ∧ ∃ r, w.nextRow ≤ r ∧ r < u.ho ∧ takes r h.1) ∧
        t.store.frame u.twin = { s.store.frame u.twin with lines := (s.store.frame u.twin).lines ++
          ((List.range (w.nextRow - u.nextRow)).map fun k => proxyRow s.banks v (u.nextRow + k)) })) ∧
  (∀ (c : Instr) (carrier : List Word) (f : FrameInProgress) (a b s : State), s.ingress.link ≠ .down →
    s.ingress.frame = .inFrame f → f.expected < f.height → 2 ≤ carrier.length →
    (carrier.getD 0 0).toNat = f.expected →
    ((List.range (3 * f.width)).map fun i =>
      if i + 2 < carrier.length then (carrier.getD (i + 1) 0).toNat % 4096 else 0) =
      (match f.lastReceived with
        | some n => (s.store.frame f.principal).lines.getD n []
        | none => List.replicate (3 * f.width) 0) →
    exec (.line carrier) s = .next a →
    b = { a with ingress := { s.ingress with frame := .inFrame { f with
      expected := f.expected + 1, missing := min 65535 (f.missing + 1) } } } →
    (∃ rest, c = .line rest ∧ 2 ≤ rest.length ∧ f.expected < (rest.getD 0 0).toNat ∧
        (rest.getD 0 0).toNat < f.height) ∨
      (∃ rest, c = .frameClose rest ∧ goodVerdict (Kind.frameClose.code :: rest) = true ∧ rest.length = 2) ∨
      (∃ rest o d, c = .frameOpen rest o d ∧ rest ≠ []) ∨ c = .symbolLockLost ∨
      (c = .pictureLossExpiry ∧ s.lossExpired = true) →
    exec c s = exec c b) ∧
  (∀ (rest : List Word) (f : FrameInProgress) (s : State), s.ingress.link ≠ .down → s.ingress.frame = .inFrame f →
    rest.length = 1 →
    exec (.line rest) s = .next { s with ingress := { s.ingress with frame := .inFrame { f with
      linesReceived := min 65535 (f.linesReceived + 1), check := min 65535 (f.check + 1) } } }) ∧
  ∀ (rest : List Word) (f : FrameInProgress) (s : State), s.ingress.link ≠ .down → s.ingress.frame = .inFrame f →
    2 ≤ rest.length → (∀ n ∈ f.lastReceived, n < (s.store.frame f.principal).lines.length) →
    (∀ u ∈ s.render.setup, u.twin ≠ f.principal) →
    ∃ t g, exec (.line rest) s = .next t ∧ t.ingress = { s.ingress with frame := .inFrame g } ∧
      g.principal = f.principal ∧ g.twin = f.twin ∧ g.width = f.width ∧ g.height = f.height ∧
      g.linesReceived = min 65535 (f.linesReceived + 1) ∧
      g.check = (if goodVerdict (Kind.line.code :: rest) = true ∧ rest.length = 3 * f.width + 2 then f.check
        else min 65535 (f.check + 1)) ∧
      (if f.height ≤ (rest.getD 0 0).toNat ∨ (rest.getD 0 0).toNat < f.expected then
        g.excess = min 65535 (f.excess + 1) ∧ g.missing = f.missing ∧ g.expected = f.expected ∧
        g.lastReceived = f.lastReceived ∧ t.store = s.store ∧ t.render = s.render
      else
        g.excess = f.excess ∧
        g.missing = (if f.expected < (rest.getD 0 0).toNat
          then min 65535 (f.missing + ((rest.getD 0 0).toNat - f.expected)) else f.missing) ∧
        g.expected = (rest.getD 0 0).toNat + 1 ∧ g.lastReceived = some (rest.getD 0 0).toNat ∧
        (t.store.frame f.principal).lines = (s.store.frame f.principal).lines ++
          List.replicate ((rest.getD 0 0).toNat - f.expected)
            (match f.lastReceived with
              | some n => (s.store.frame f.principal).lines.getD n []
              | none => List.replicate (3 * f.width) 0) ++
          [(List.range (3 * f.width)).map fun i =>
            if i + 2 < rest.length then (rest.getD (i + 1) 0).toNat % 4096 else 0] ∧
        t.store.freePages = s.store.freePages ∧ t.store.pq = s.store.pq ∧ t.store.xq = s.store.xq ∧
        (∀ j, j ≠ f.principal → (∀ u ∈ s.render.setup, u.twin ≠ j) → t.store.frame j = s.store.frame j)) ∧
      t.time = s.time ∧ t.clips = s.clips ∧ t.banks = s.banks ∧ t.dir = s.dir ∧ t.flags = s.flags ∧
      t.pLink = s.pLink ∧ t.xLink = s.xLink ∧ t.batch = s.batch ∧ t.pace = s.pace ∧ t.lastProxy = s.lastProxy ∧
      t.pending = s.pending

/-- R14, R15, R51, R70, R71: a good FRAME CLOSE of a frame whose principal has a clip part. The lines not yet stored are
filled and counted missing, a lines-sent value that differs adds one check, both records become STORED with the flaws, the
twin's rows not yet formed are written up to row Ho − 1 (R106), and the pair goes onto the send queues; FLAWED FRAME is
set when the flaw set is not empty. -/
def Obligations.FrameCloseQueuesAJoinedFrame : Prop :=
  ∀ (rest : List Word) (f : FrameInProgress) (part : ClipPart) (check missing flawed : Nat) (s : State),
    s.ingress.link ≠ .down → s.ingress.frame = .inFrame f →
    goodVerdict (Kind.frameClose.code :: rest) = true → rest.length = 2 →
    (s.store.frame f.principal).part = some part → (s.store.frame f.principal).twin = f.twin →
    f.twin ≠ some f.principal → (∀ u ∈ s.render.setup, u.twin ≠ f.principal) →
    (∀ n ∈ f.lastReceived, n < (s.store.frame f.principal).lines.length) →
    check = (if (rest.getD 0 0).toNat = f.linesReceived then f.check else min 65535 (f.check + 1)) →
    missing = min 65535 (f.missing + (f.height - f.expected)) →
    flawed = (if check = 0 ∧ missing = 0 ∧ f.excess = 0 then 0 else 1) →
    ∃ t, exec (.frameClose rest) s = .next t ∧ t.ingress = { s.ingress with frame := .noFrame } ∧
      t.render = { s.render with setup := none } ∧
      t.store.frame f.principal = { s.store.frame f.principal with
        state := .stored, flaws := ⟨false, check, missing, f.excess⟩,
        lines := (s.store.frame f.principal).lines ++ List.replicate (f.height - f.expected)
          (match f.lastReceived with
            | some n => (s.store.frame f.principal).lines.getD n []
            | none => List.replicate (3 * f.width) 0) } ∧
      (∀ q, f.twin = some q → (t.store.frame q).state = .stored ∧
        (t.store.frame q).flaws = ⟨false, check, missing, f.excess⟩ ∧ s.RowsFormed f q t.store) ∧
      t.store.pq = s.store.pq ++ [f.principal] ∧ t.store.xq = s.store.xq ++ f.twin.toList ∧
      t.store.pFlawed = s.store.pFlawed + flawed ∧
      t.store.xFlawed = s.store.xFlawed + (if f.twin.isSome then flawed else 0) ∧
      t.store.freePages = s.store.freePages ∧
      t.clips = { s.clips with records := s.clips.records.map fun r =>
        if r.number = part.clip then { r with flawed := r.flawed + flawed } else r } ∧
      (flawed = 1 → t.isSet .flawedFrame) ∧ (flawed = 0 → t.flags = s.flags ∧ t.dir = s.dir) ∧
      t.time = s.time ∧ t.banks = s.banks ∧ t.dir.queue = s.dir.queue ∧ t.pLink = s.pLink ∧ t.xLink = s.xLink ∧
      t.pace = s.pace ∧ t.lastProxy = s.lastProxy ∧ t.pending = s.pending

/-- R14, R15, R51, R56, R63, R64, R70: a good FRAME CLOSE of a frame without a clip part. Both records become STORED with
the flaws, the twin's rows not yet formed are written up to row Ho − 1 (R106), FLAWED FRAME is set when there are any, and
the frame enters the tail of the pre-roll ring; a full ring gives up its oldest pair first, whose two records are FREE and whose pages return, and with
a pre-roll depth of 0 the frame's own pair is released. -/
def Obligations.FrameCloseEntersTheRing : Prop :=
  ∀ (rest : List Word) (f : FrameInProgress) (check : Nat) (flaws : Flaws) (s : State),
    s.ingress.link ≠ .down → s.ingress.frame = .inFrame f →
    goodVerdict (Kind.frameClose.code :: rest) = true → rest.length = 2 →
    (s.store.frame f.principal).part = none → (s.store.frame f.principal).twin = f.twin →
    f.twin ≠ some f.principal → (∀ u ∈ s.render.setup, u.twin ≠ f.principal) →
    check = (if (rest.getD 0 0).toNat = f.linesReceived then f.check else min 65535 (f.check + 1)) →
    flaws = f.closingFlaws false check →
    ∃ t, exec (.frameClose rest) s = .next t ∧ t.ingress = { s.ingress with frame := .noFrame } ∧
      s.Completed flaws f t.store t.clips ∧ (flaws ≠ ⟨false, 0, 0, 0⟩ → t.isSet .flawedFrame) ∧
      (flaws = ⟨false, 0, 0, 0⟩ → t.flags = s.flags ∧ t.dir = s.dir) ∧
      t.render = { s.render with setup := none } ∧ t.store.pq = s.store.pq ∧ t.store.xq = s.store.xq ∧
      t.clips = { s.clips with ring :=
        if s.banks.act.preRollDepth = 0 then s.clips.ring
        else if s.clips.ring.length < s.banks.act.preRollDepth then s.clips.ring ++ [f.principal]
        else s.clips.ring.tail ++ [f.principal] } ∧
      (s.banks.act.preRollDepth = 0 → (t.store.frame f.principal).state = .free ∧
        t.store.freePages = s.store.freePages + (s.store.frame f.principal).pages +
          ((f.twin.map fun q => (s.store.frame q).pages).getD 0)) ∧
      (s.banks.act.preRollDepth ≠ 0 → s.clips.ring.length < s.banks.act.preRollDepth →
        (t.store.frame f.principal).state = .stored ∧ t.store.freePages = s.store.freePages) ∧
      (s.banks.act.preRollDepth ≠ 0 → s.banks.act.preRollDepth ≤ s.clips.ring.length →
        ∀ o, s.clips.ring.head? = some o → (t.store.frame o).state = .free) ∧
      t.time = s.time ∧ t.banks = s.banks ∧ t.dir.queue = s.dir.queue ∧ t.pLink = s.pLink ∧ t.xLink = s.xLink ∧
      t.pace = s.pace ∧ t.lastProxy = s.lastProxy ∧ t.pending = s.pending

/-- R10, R16: a corrupt FRAME OPEN closes an open frame implicitly and puts the port in SKIPPING. It is no boundary, and the
link state, the picture-loss count, the last capture index and the Time Base Unit do not change. The implicit close fills the
remaining lines and counts them missing, compares no lines-sent value, adds no TRUNCATED, and the frame completes and is
placed, with FLAWED FRAME set when it has flaws. -/
def Obligations.CorruptFrameOpenSkips : Prop :=
  ∀ (rest : List Word) (o : BoundaryOrder) (d : List (List LinkEvent)) (s : State),
    s.ingress.link ≠ .down → rest ≠ [] →
    ¬ (goodVerdict (Kind.frameOpen.code :: rest) = true ∧ rest.length = 5) →
    ∃ t, exec (.frameOpen rest o d) s = .next t ∧ t.ingress = { s.ingress with frame := .skipping } ∧
      (s.ingress.frame.noneOpen = true → t = { s with ingress := { s.ingress with frame := .skipping } }) ∧
      (∀ f, s.ingress.frame = .inFrame f →
        t.render.setup = none ∧ (t.store.frame f.principal).state ≠ .filling) ∧
      (∀ f, s.ingress.frame = .inFrame f → s.HoldsPair f →
        s.Completed (f.closingFlaws false f.check) f t.store t.clips ∧
        (f.closingFlaws false f.check ≠ ⟨false, 0, 0, 0⟩ → t.isSet .flawedFrame) ∧
        (f.closingFlaws false f.check = ⟨false, 0, 0, 0⟩ → t.flags = s.flags ∧ t.dir = s.dir)) ∧
      t.clips.recordState = s.clips.recordState ∧ t.clips.actions = s.clips.actions ∧
      t.time = s.time ∧ t.banks = s.banks ∧ t.dir.queue = s.dir.queue ∧ t.pLink = s.pLink ∧ t.xLink = s.xLink ∧
      t.pace = s.pace ∧ t.lastProxy = s.lastProxy ∧ t.pending = s.pending

/-- R6, R7, R9, R30, R31, R32: every taken FRAME OPEN, from any state with the link up, whatever link requests are taken
during its admission. The link is STREAMING, the picture-loss count is 0, its boundary has emptied the directive queue and
the pending cue actions, its capture index is the last one, its stamp and interval are latched, and it leaves a new frame
open or the port in SKIPPING. Its steps are in the order of R6: an open frame is closed implicitly, the link is STREAMING
and the count 0, the boundary is taken, and the rest acts on the state that leaves as the same FRAME OPEN acts where no
frame is open and nothing waits for the boundary. The stamp takes the next subframe index, which becomes the last one,
latches the interval count and sets it to 0; a join moves the RR count besides. -/
def Obligations.TakenFrameOpenRunsEveryStep : Prop :=
  ∀ (rest : List Word) (o : BoundaryOrder) (d : List (List LinkEvent)) (s : State),
    s.ingress.link ≠ .down → goodVerdict (Kind.frameOpen.code :: rest) = true → rest.length = 5 →
    ∃ t, exec (.frameOpen rest o d) s = .next t ∧ t.ingress.link = .streaming ∧ t.ingress.lossCount = 0 ∧
      t.ingress.lastCapture = some (rest.getD 0 0 ++ rest.getD 1 0) ∧ t.time.interval = 0 ∧
      t.time.lastSub.isSome = true ∧ t.dir.queue = [] ∧ t.clips.actions = [] ∧
      (t.ingress.frame = .skipping ∨
        ∃ f, t.ingress.frame = .inFrame f ∧ f.width = (rest.getD 2 0).toNat ∧ f.height = (rest.getD 3 0).toNat ∧
          f.expected = 0 ∧ f.lastReceived = none ∧ f.linesReceived = 0 ∧ f.check = 0 ∧ f.missing = 0 ∧ f.excess = 0) ∧
      ∃ u w : State,
        (s.ingress.frame.noneOpen = true → u = s) ∧
        (∀ f, s.ingress.frame = .inFrame f → u.ingress = { s.ingress with frame := .noFrame } ∧
          u.time = s.time ∧ u.banks = s.banks ∧ u.dir.queue = s.dir.queue ∧ u.clips.actions = s.clips.actions ∧
          u.clips.recordState = s.clips.recordState ∧ u.pLink = s.pLink ∧ u.xLink = s.xLink ∧
          (s.HoldsPair f → s.Completed (f.closingFlaws false f.check) f u.store u.clips ∧
            (f.closingFlaws false f.check ≠ ⟨false, 0, 0, 0⟩ → u.isSet .flawedFrame))) ∧
        w = State.boundary o { u with ingress := { u.ingress with link := .streaming, lossCount := 0 } } ∧
        w.ingress.frame.noneOpen = true ∧ w.ingress.link = .streaming ∧ w.ingress.lossCount = 0 ∧ w.dir.queue = [] ∧
        w.clips.actions = [] ∧ exec (.frameOpen rest o d) w = .next t ∧
        t.time = { w.time with
          rr := t.time.rr
          lastSub := some (match w.time.lastSub with
            | none => 0
            | some i => min 15 (i + 1))
          lastInterval := w.time.interval, interval := 0 }

/-- R6, R7, R8, R31, R32, R45, R78, R79, R84: a taken FRAME OPEN that is not admitted, with nothing waiting for its
boundary and no frame open: in STANDBY, under an active bank that is not valid, or of the wrong size. It is stamped and
its index is checked, and the port skips. A wrong size under a valid bank sets GEOMETRY MISMATCH and closes the clip that
is recording with end cause GEOMETRY: it is CLOSING, or settles when its frames have all left. -/
def Obligations.FrameOpenNotAdmitted : Prop :=
  ∀ (rest : List Word) (o : BoundaryOrder) (d : List (List LinkEvent)) (match' : Bool) (s : State),
    s.ingress.link ≠ .down → goodVerdict (Kind.frameOpen.code :: rest) = true → rest.length = 5 →
    s.ingress.frame.noneOpen = true → s.dir.queue = [] → s.clips.actions = [] →
    match' = decide ((rest.getD 2 0).toNat = s.banks.act.wi ∧ (rest.getD 3 0).toNat = s.banks.act.hi) →
    (s.banks.act.valid = false ∨ match' = false ∨ s.clips.recordState = .standby) →
    ∃ t, exec (.frameOpen rest o d) s = .next t ∧
      t.ingress = {
        link := .streaming, frame := .skipping, lossCount := 0,
        lastCapture := some (rest.getD 0 0 ++ rest.getD 1 0) } ∧
      t.time = { s.time with
        lastSub := some (match s.time.lastSub with
          | none => 0
          | some i => min 15 (i + 1)),
        lastInterval := s.time.interval, interval := 0 } ∧
      (∀ last, s.ingress.lastCapture = some last → rest.getD 0 0 ++ rest.getD 1 0 ≠ last + 1 → t.isSet .captureSkip) ∧
      (s.banks.act.valid = true → match' = false → t.isSet .geometryMismatch) ∧
      (s.banks.act.valid = true → match' = false → s.clips.recordState = .recording → s.clips.hasOpen = true →
        t.clips.hasOpen = false ∧ t.clips.recordState = if s.clips.cacheMark then .caching else .standby) ∧
      (∀ (c : ClipRecord) (closed : Clips), s.banks.act.valid = true → match' = false →
        s.clips.recordState = .recording → s.clips.openClip = some c →
        (∀ r ∈ s.clips.records, r.number = c.number ∨ r.state = .isOpen → r = c) →
        closed = { s.clips with
          records := s.clips.records.map (fun r =>
            if r.number = c.number then { c with state := .closing, cause := some .geometry } else r)
          splitPending := false, deferralReported := false
          recordState := if s.clips.cacheMark then .caching else .standby } →
        (¬ (c.sent = c.joined ∧ c.proxySent + c.evicted = c.made) → t.clips = closed) ∧
        (c.sent = c.joined → c.proxySent + c.evicted = c.made → t.isSet .clipSettled ∧
          t.clips = { closed with records := closed.records.eraseP fun r => r.number == c.number })) ∧
      (s.banks.act.valid = false ∨ match' = true ∨ s.clips.recordState ≠ .recording → t.clips = s.clips) ∧
      (s.banks.act.valid = false ∨ match' = true →
        (∀ last, s.ingress.lastCapture = some last → rest.getD 0 0 ++ rest.getD 1 0 = last + 1) →
        t.flags = s.flags ∧ t.dir = s.dir) ∧
      t.store = s.store ∧ t.render = s.render ∧ t.banks = s.banks ∧ t.dir.queue = [] ∧ t.pLink = s.pLink ∧
      t.xLink = s.xLink ∧ t.pace = s.pace ∧ t.lastProxy = s.lastProxy ∧ t.pending = s.pending

/-- R9, R42, R46, R49, R50, R56, R57, R88, R92, R95, R99, R102: a taken FRAME OPEN admitted while CACHING, where the store
has room and no link request is taken meanwhile. The lowest-numbered FREE record is the principal, FILLING, with P pages,
the capture index and the stamp; the twin, the lowest-numbered FREE record left, is made exactly when proxies are enabled,
the floor stays free and another record is FREE. With a twin the renderer holds the frame setup of the active bank and the
ramp step, and the sixteen cells of the overlay string when the overlay is enabled; a running ramp takes one step either
way. The subframe index and the interval are latched. A reservation that takes the free page count below the low mark sets
STORE LOW. While the principal is short, the oldest pair of the ring is released, one pair at a time: the FRAME OPEN then
goes on as it would on the state with that pair released. -/
def Obligations.FrameOpenAdmittedWhileCaching : Prop :=
  (∀ (rest : List Word) (o : BoundaryOrder) (oldest : RecNo) (ring : List RecNo) (s : State), s.OpensFrame rest →
    s.InSequence rest → s.clips.recordState = .caching → s.Short → s.clips.ring = oldest :: ring →
    (s.store.frame oldest).twin ≠ some oldest →
    ∃ store : Store, exec (.frameOpen rest o []) s =
        exec (.frameOpen rest o []) { s with store := store, clips := { s.clips with ring := ring } } ∧
      (store.frame oldest).state = .free ∧
      (∀ q, (s.store.frame oldest).twin = some q → (store.frame q).state = .free) ∧
      store.freePages = s.store.freePages + s.store.pairPages oldest ∧
      (∀ j, j ≠ oldest → (s.store.frame oldest).twin ≠ some j → (store.frame j).state = (s.store.frame j).state ∧
        (store.frame j).pages = (s.store.frame j).pages ∧ (store.frame j).part = (s.store.frame j).part) ∧
      store.pq = s.store.pq ∧ store.xq = s.store.xq ∧ store.pFlawed = s.store.pFlawed ∧
      store.xFlawed = s.store.xFlawed) ∧
  ∀ (rest : List Word) (o : BoundaryOrder) (p : RecNo) (stamp : Stamp) (s : State),
    s.ingress.link ≠ .down → goodVerdict (Kind.frameOpen.code :: rest) = true → rest.length = 5 →
    s.ingress.frame.noneOpen = true → s.dir.queue = [] → s.clips.actions = [] →
    s.clips.recordState = .caching → s.banks.act.valid = true →
    (rest.getD 2 0).toNat = s.banks.act.wi → (rest.getD 3 0).toNat = s.banks.act.hi →
    s.banks.pagesP ≤ s.store.freePages → (s.store.frame p).state = .free →
    (∀ j, j < p → (s.store.frame j).state ≠ .free) →
    stamp = ⟨s.time.tod, s.time.phase, match s.time.lastSub with
      | none => 0
      | some i => min 15 (i + 1)⟩ →
    ∃ t twin, exec (.frameOpen rest o []) s = .next t ∧
      t.ingress.frame = .inFrame {
        principal := p, twin := twin, width := s.banks.act.wi, height := s.banks.act.hi,
        expected := 0, lastReceived := none, linesReceived := 0, check := 0, missing := 0, excess := 0 } ∧
      t.store.frame p = {
        kind := .principal, state := .filling, pages := s.banks.pagesP, width := s.banks.act.wi,
        height := s.banks.act.hi, capture := rest.getD 0 0 ++ rest.getD 1 0, stamp := stamp, flaws := ⟨false, 0, 0, 0⟩,
        twin := twin, part := none, started := false, rampNote := none, lines := [] } ∧
      (twin.isSome = true ↔ s.banks.act.proxyEnable = true ∧
        s.banks.act.proxyFloor + s.banks.pagesX + s.banks.pagesP ≤ s.store.freePages ∧
        ∃ j, j ≠ p ∧ (s.store.frame j).state = .free) ∧
      (∀ q, twin = some q → q ≠ p ∧ (s.store.frame q).state = .free ∧
        (∀ j, j ≠ p → j < q → (s.store.frame j).state ≠ .free) ∧
        t.store.frame q = {
          kind := .proxy, state := .filling, pages := s.banks.pagesX, width := s.banks.act.wo,
          height := s.banks.act.ho, capture := rest.getD 0 0 ++ rest.getD 1 0, stamp := stamp,
          flaws := ⟨false, 0, 0, 0⟩, twin := some p, part := none, started := false,
          rampNote := if 0 < s.render.stepsLeft then some (s.render.rampLength - s.render.stepsLeft + 1) else none,
          lines := [] } ∧
        t.store.freePages = s.store.freePages - s.banks.pagesP - s.banks.pagesX) ∧
      (twin = none → t.store.freePages = s.store.freePages - s.banks.pagesP) ∧
      (∀ j, j ≠ p → twin ≠ some j → t.store.frame j = s.store.frame j) ∧
      (s.banks.act.lowMark ≤ s.store.freePages → t.store.freePages < s.banks.act.lowMark → t.isSet .storeLow) ∧
      (s.InSequence rest → s.banks.act.lowMark ≤ t.store.freePages ∨ s.store.freePages < s.banks.act.lowMark →
        t.flags = s.flags ∧ t.dir = s.dir) ∧
      t.store.pq = s.store.pq ∧ t.store.xq = s.store.xq ∧ t.clips = s.clips ∧
      t.render.rampLength = s.render.rampLength ∧ t.render.stepsLeft = s.render.stepsLeft - 1 ∧
      (twin = none → t.render.setup = s.render.setup) ∧
      (∀ q, twin = some q → ∃ u, t.render.setup = some u ∧ u.twin = q ∧ u.bank = s.banks.active ∧
        u.x0 = s.banks.act.x0 ∧ u.y0 = s.banks.act.y0 ∧ u.wc = s.banks.act.wc ∧ u.hc = s.banks.act.hc ∧
        u.wi = s.banks.act.wi ∧ u.wo = s.banks.act.wo ∧ u.ho = s.banks.act.ho ∧
        u.sx = u.wc * 65536 / u.wo ∧ u.ox = (u.sx - 65536) / 2 ∧ u.sy = u.hc * 65536 / u.ho ∧
        u.oy = (u.sy - 65536) / 2 ∧
        u.ramp = (if 0 < s.render.stepsLeft
          then some ⟨s.render.rampLength - s.render.stepsLeft + 1, s.render.rampLength⟩ else none) ∧
        (s.banks.act.overlayOn = false → u.overlay = none) ∧
        (∀ l : Label, s.banks.act.overlayOn = true → l = countToLabel s.time.rate s.time.df s.time.tod →
          u.overlay = some (s.banks.act.reel ++ [40, l.hh / 10 % 10, l.hh % 10, 36, l.mm / 10 % 10, l.mm % 10, 36,
            l.ss / 10 % 10, l.ss % 10, if s.time.df then 37 else 36, l.ff / 10 % 10, l.ff % 10])) ∧
        u.nextRow = 0 ∧ u.held = []) ∧
      t.time = { s.time with lastSub := some stamp.sub, lastInterval := s.time.interval, interval := 0 } ∧
      t.banks = s.banks ∧ t.dir.queue = [] ∧ t.pLink = s.pLink ∧
      t.xLink = s.xLink ∧ t.pace = s.pace ∧ t.lastProxy = s.lastProxy ∧ t.pending = s.pending

/-- R25, R26, R31, R32, R60, R66, R68, R69, R72, R78, R81 to R83: a frame admitted while RECORDING, with no split pending
and the ceiling not reached, joins the open clip: it takes the next clip frame number, its timecode by the clip's mode,
and the RR count, which moves on; without a twin it is a gap and sets PROXY GAP. With a split pending and a record free,
the open clip closes with cause SPLIT, a clip that continues it opens, and the frame is its frame 0; with four records the
split is deferred, SPLIT DEFERRED is set once, and the frame joins the clip. The frame that brings the joined count to
16,777,215 closes the clip with cause LIMIT. -/
def Obligations.FrameOpenJoinsTheOpenClip : Prop :=
  (∀ (rest : List Word) (o : BoundaryOrder) (p : RecNo) (c : ClipRecord) (timecode : Nat) (s : State),
    s.OpensFrame rest → s.RoomAt p → s.clips.recordState = .recording → s.clips.openClip = some c →
    (∀ r ∈ s.clips.records, r.number = c.number ∨ r.state = .isOpen → r = c) → s.clips.records.Nodup →
    timecode = (match c.mode with
      | .freeRun => s.time.tod
      | .recordRun => s.time.rr) →
    ∃ t f, exec (.frameOpen rest o []) s = .next t ∧ t.ingress.frame = .inFrame f ∧ f.principal = p ∧
      (s.clips.splitPending = true → s.clips.records.length < 4 →
        (∀ r ∈ s.clips.records, r.number ≠ s.clips.nextNumber) → ∃ new, t.clips.openClip = some new ∧
        new.number = s.clips.nextNumber ∧ new.take = c.take ∧ new.part = min 255 (c.part + 1) ∧ new.reel = c.reel ∧
        new.mode = c.mode ∧ new.rate = s.time.rate ∧ new.df = s.time.df ∧ new.joined = 1 ∧
        new.startTc = some timecode ∧ new.firstCapture = some (rest.getD 0 0 ++ rest.getD 1 0) ∧
        (t.store.frame p).part = some ⟨new.number, 0, timecode⟩ ∧ t.clips.recordState = .recording ∧
        t.ingress.lossCount = 0 ∧
        (¬ (c.sent = c.joined ∧ c.proxySent + c.evicted = c.made) →
          { c with state := .closing, cause := some .split } ∈ t.clips.records) ∧
        (c.sent = c.joined → c.proxySent + c.evicted = c.made → t.isSet .clipSettled ∧
          ∀ r ∈ t.clips.records, r = new ∨ r ∈ s.clips.records)) ∧
      (s.clips.splitPending = true → 4 ≤ s.clips.records.length → c.joined + 1 ≠ 16777215 →
        (t.store.frame p).part = some ⟨c.number, c.joined, timecode⟩ ∧
        (∃ c', t.clips.openClip = some c' ∧ c'.number = c.number ∧ c'.joined = c.joined + 1) ∧
        (s.clips.deferralReported = false → t.isSet .splitDeferred) ∧
        (s.clips.deferralReported = true → s.InSequence rest → s.banks.act.lowMark ≤ t.store.freePages →
          f.twin ≠ none → t.flags = s.flags ∧ t.dir = s.dir) ∧
        t.clips.splitPending = (s.banks.act.clipLimit != 0 && decide (s.banks.act.clipLimit ≤ c.joined + 1)) ∧
        t.clips.deferralReported = t.clips.splitPending) ∧
      (c.joined + 1 = 16777215 → s.clips.splitPending = false ∨ 4 ≤ s.clips.records.length →
        (t.store.frame p).part = some ⟨c.number, c.joined, timecode⟩ ∧ t.clips.hasOpen = false ∧
        t.clips.recordState = (if s.clips.cacheMark then .caching else .standby) ∧
        t.clips.splitPending = false ∧
        (c.sent ≤ c.joined → ∃ c' ∈ t.clips.records, c'.number = c.number ∧ c'.joined = 16777215 ∧
          c'.state = .closing ∧ c'.cause = some .limit))) ∧
  ∀ (rest : List Word) (o : BoundaryOrder) (p : RecNo) (c : ClipRecord) (s : State),
    s.ingress.link ≠ .down → goodVerdict (Kind.frameOpen.code :: rest) = true → rest.length = 5 →
    s.ingress.frame.noneOpen = true → s.dir.queue = [] → s.clips.actions = [] →
    s.clips.recordState = .recording → s.clips.openClip = some c → s.clips.splitPending = false →
    c.joined + 1 ≠ 16777215 → s.banks.act.valid = true →
    (rest.getD 2 0).toNat = s.banks.act.wi → (rest.getD 3 0).toNat = s.banks.act.hi →
    s.banks.pagesP ≤ s.store.freePages → (s.store.frame p).state = .free →
    (∀ j, j < p → (s.store.frame j).state ≠ .free) →
    ∃ t f c', exec (.frameOpen rest o []) s = .next t ∧ t.ingress.frame = .inFrame f ∧ f.principal = p ∧
      (t.store.frame p).part = some ⟨c.number, c.joined,
        match c.mode with
        | .freeRun => s.time.tod
        | .recordRun => s.time.rr⟩ ∧
      (∀ q, f.twin = some q → (t.store.frame q).part = (t.store.frame p).part) ∧
      t.clips.openClip = some c' ∧ c'.number = c.number ∧ c'.joined = c.joined + 1 ∧
      c'.made = c.made + (if f.twin.isSome then 1 else 0) ∧
      c'.gapTotal = c.gapTotal + (if f.twin.isSome then 0 else 1) ∧
      (f.twin = none → t.isSet .proxyGap) ∧
      t.time = { s.time with
        rr := if s.time.rr + 1 ≥ s.time.perDay then 0 else s.time.rr + 1
        lastSub := some (match s.time.lastSub with
          | none => 0
          | some i => min 15 (i + 1))
        lastInterval := s.time.interval, interval := 0 } ∧
      t.clips.splitPending = (s.banks.act.clipLimit != 0 && decide (s.banks.act.clipLimit ≤ c.joined + 1)) ∧
      t.clips.recordState = .recording ∧ t.store.pq = s.store.pq ∧ t.store.xq = s.store.xq

/-! ### The timecode lane (chapter 2) -/

/-- R17, R22, R23, R24, R31, R37, R113: a TOD pulse while STREAMING that brings no cue and no expiry. The lane starts a new
period, the TOD count advances while RUNNING and wraps at the frames per day, the picture-loss and pace counts rise with
saturation, and no boundary is made. That the ticks left of the period have passed for the interval count is the model's
choice (notes/assumptions/6.md). -/
def Obligations.PulseWhileStreaming : Prop :=
  ∀ (o : PulseOrder) (n : Nat) (s : State), s.ingress.link = .streaming →
    n = (if s.time.running = true then (if s.time.tod + 1 ≥ s.time.perDay then 0 else s.time.tod + 1) else s.time.tod) →
    (s.time.running = true → s.time.startCue ≠ some n ∧ s.time.stopCue ≠ some n) →
    min 255 (s.ingress.lossCount + 1) < s.banks.lossWindow →
    exec (.todPulse o) s = .next { s with
      time := { s.time with
        stage1 := 0, stage2 := 0, lastSub := none, tod := n
        interval := min 4294967295 (s.time.interval + (s.time.rate.period - s.time.phase)) }
      pace := min 8 (s.pace + 1)
      ingress := { s.ingress with lossCount := min 255 (s.ingress.lossCount + 1) } }

/-- R37, R38, R74: a pulse that advances a RUNNING count onto a cue removes the cue, sets CUE FIRED and hands its action
to the Clip Controller, the start action before the stop action, an action already pending being merged. While the link is
not STREAMING the pulse is a boundary (R23), before or after its count and expiry test (R17, R18): an action handed over
first is taken there, one handed over after it waits. That the ticks left of the period count into the interval is the
model's choice (notes/assumptions/6.md), and so is PICTURE_LOSS_EXPIRY as the test on the count as it stands
(notes/assumptions/10.md). -/
def Obligations.PulseFiresTheCues : Prop :=
  (∀ (o : PulseOrder) (n : Nat) (fired : List CueAction) (s : State), s.ingress.link ≠ .streaming →
    s.time.running = true → n = (if s.time.tod + 1 ≥ s.time.perDay then 0 else s.time.tod + 1) →
    fired = (if s.time.startCue = some n then [.start] else []) ++ (if s.time.stopCue = some n then [.stop] else []) →
    ∃ (t u : State) (test : State → State), exec (.todPulse o) s = .next t ∧
      (∀ x, exec .pictureLossExpiry { x with ingress := { x.ingress with
        lossCount := min 255 (x.ingress.lossCount + 1) } } = .next (test x)) ∧
      (∀ hand bound : State → State,
        (∀ x, hand x = { x with clips := { x.clips with
          actions := x.clips.actions ++ fired.filter fun a => a ∉ x.clips.actions } }) →
        (∀ x, bound x = if o.handOverFirst then State.boundary o.boundary (hand x)
          else hand (State.boundary o.boundary x)) →
        t = if o.lossFirst then bound (test u) else test (bound u)) ∧
      u.time = { s.time with
        stage1 := 0, stage2 := 0, lastSub := none, tod := n
        interval := min 4294967295 (s.time.interval + (s.time.rate.period - s.time.phase))
        startCue := if s.time.startCue = some n then none else s.time.startCue
        stopCue := if s.time.stopCue = some n then none else s.time.stopCue } ∧
      (fired ≠ [] → u.isSet .cueFired) ∧ (fired = [] → u.flags = s.flags ∧ u.dir = s.dir) ∧
      u.pace = min 8 (s.pace + 1) ∧ u.clips = s.clips ∧ u.ingress = s.ingress ∧ u.store = s.store ∧
      u.render = s.render ∧ u.banks = s.banks ∧ u.dir.queue = s.dir.queue ∧ u.pLink = s.pLink ∧ u.xLink = s.xLink ∧
      u.lastProxy = s.lastProxy ∧ u.pending = s.pending ∧
      t.clips.actions = (if o.handOverFirst then [] else fired) ∧ t.dir.queue = []) ∧
  ∀ (o : PulseOrder) (n : Nat) (acts : List CueAction) (s : State), s.ingress.link = .streaming → s.time.running = true →
    n = (if s.time.tod + 1 ≥ s.time.perDay then 0 else s.time.tod + 1) →
    s.time.startCue = some n ∨ s.time.stopCue = some n →
    min 255 (s.ingress.lossCount + 1) < s.banks.lossWindow →
    acts = (if s.time.startCue = some n ∧ CueAction.start ∉ s.clips.actions then s.clips.actions ++ [.start]
      else s.clips.actions) →
    ∃ t, exec (.todPulse o) s = .next t ∧ t.isSet .cueFired ∧
      t.time.tod = n ∧ t.time.startCue = (if s.time.startCue = some n then none else s.time.startCue) ∧
      t.time.stopCue = (if s.time.stopCue = some n then none else s.time.stopCue) ∧
      t.clips = { s.clips with
        actions := if s.time.stopCue = some n ∧ CueAction.stop ∉ acts then acts ++ [.stop] else acts } ∧
      t.store = s.store ∧ t.banks = s.banks ∧ t.render = s.render ∧ t.dir.queue = s.dir.queue ∧ t.pLink = s.pLink ∧
      t.xLink = s.xLink ∧ t.lastProxy = s.lastProxy ∧ t.pending = s.pending

/-- R17, R18, R22, R23, R76, R149: a pulse while the link is DOWN or IDLE, that fires no cue, is a frame boundary. The
Time Base Unit and the pace count move first; then the pulse is counted, tested for expiry, and the boundary is taken, or
the boundary is taken first and the count and the test follow it. Whatever the order, no directive is left queued and no
action pending, and the link does not become STREAMING. That the ticks left of the period count into the interval is the
model's choice (notes/assumptions/6.md), and so is PICTURE_LOSS_EXPIRY as the test on the count as it stands
(notes/assumptions/10.md). -/
def Obligations.PulseBoundaryEmptiesBothLists : Prop :=
  ∀ (o : PulseOrder) (n : Nat) (s u : State), s.ingress.link ≠ .streaming →
    n = (if s.time.running = true then (if s.time.tod + 1 ≥ s.time.perDay then 0 else s.time.tod + 1) else s.time.tod) →
    (s.time.running = true → s.time.startCue ≠ some n ∧ s.time.stopCue ≠ some n) →
    u = { s with
      time := { s.time with
        stage1 := 0, stage2 := 0, lastSub := none, tod := n
        interval := min 4294967295 (s.time.interval + (s.time.rate.period - s.time.phase)) }
      pace := min 8 (s.pace + 1) } →
    ∃ t, exec (.todPulse o) s = .next t ∧
      (o.lossFirst = true → ∃ v, exec .pictureLossExpiry { u with ingress := { u.ingress with
          lossCount := min 255 (u.ingress.lossCount + 1) } } = .next v ∧ t = v.boundary o.boundary) ∧
      (o.lossFirst = false → ∃ v, v = u.boundary o.boundary ∧ exec .pictureLossExpiry { v with ingress := { v.ingress with
          lossCount := min 255 (v.ingress.lossCount + 1) } } = .next t) ∧
      t.dir.queue = [] ∧ t.clips.actions = [] ∧ t.ingress.link = s.ingress.link ∧ t.pending = s.pending

/-- R16, R17, R18, R23: a pulse at which the window expires while STREAMING, with no cue. Taken first, the expiry leaves
the link IDLE and the pulse's boundary acts on what it leaves; otherwise the boundary test finds the link STREAMING, the
pulse is no boundary, and the expiry is taken all the same. An expiry closes the open frame as truncated (lines filled and
counted missing, TRUNCATED, both records placed, FLAWED FRAME), makes a STREAMING link IDLE, sets PICTURE LOST and closes
the recording clip with cause PICTURE LOST. That PICTURE_LOSS_EXPIRY alone makes the test on the count as it stands is the
model's choice (notes/assumptions/10.md), and so are the ticks left of the period that a pulse adds to the interval count
(notes/assumptions/6.md). -/
def Obligations.PictureLossExpires : Prop :=
  (∀ (o : PulseOrder) (n : Nat) (s u : State), s.ingress.link = .streaming →
    n = (if s.time.running = true then (if s.time.tod + 1 ≥ s.time.perDay then 0 else s.time.tod + 1) else s.time.tod) →
    (s.time.running = true → s.time.startCue ≠ some n ∧ s.time.stopCue ≠ some n) →
    s.banks.lossWindow ≤ min 255 (s.ingress.lossCount + 1) →
    u = { s with
      time := { s.time with
        stage1 := 0, stage2 := 0, lastSub := none, tod := n
        interval := min 4294967295 (s.time.interval + (s.time.rate.period - s.time.phase)) }
      pace := min 8 (s.pace + 1)
      ingress := { s.ingress with lossCount := min 255 (s.ingress.lossCount + 1) } } →
    ∃ t v, exec (.todPulse o) s = .next t ∧ exec .pictureLossExpiry u = .next v ∧ v.ingress.link = .idle ∧
      (o.lossFirst = true → t = v.boundary o.boundary) ∧ (o.lossFirst = false → t = v)) ∧
  (∀ s : State, (s.ingress.link ≠ .streaming ∧ s.clips.recordState ≠ .recording) ∨
    s.ingress.lossCount < s.banks.lossWindow → exec .pictureLossExpiry s = .next s) ∧
  (∀ s : State, s.ingress.link = .streaming ∨ s.clips.recordState = .recording →
    s.banks.lossWindow ≤ s.ingress.lossCount → ∃ (t : State) (clips : Clips), exec .pictureLossExpiry s = .next t ∧
    t.ingress = { s.ingress with
      link := if s.ingress.link = .streaming then .idle else s.ingress.link, frame := .noFrame } ∧
    t.isSet .pictureLost ∧
    (s.ingress.frame.noneOpen = true → t.store = s.store ∧ t.render = s.render ∧ clips = s.clips) ∧
    (∀ f, s.ingress.frame = .inFrame f → s.HoldsPair f →
      s.Completed (f.closingFlaws true f.check) f t.store clips ∧ t.isSet .flawedFrame ∧
      t.render = { s.render with setup := none }) ∧
    (s.clips.recordState ≠ .recording → t.clips = clips ∧ t.clips.recordState = s.clips.recordState) ∧
    (s.clips.recordState = .recording → s.clips.hasOpen = true →
      t.clips.hasOpen = false ∧ t.clips.recordState = if s.clips.cacheMark then .caching else .standby) ∧
    (∀ c, s.clips.recordState = .recording → clips.openClip = some c →
      (∀ r ∈ clips.records, r.number = c.number ∨ r.state = .isOpen → r = c) →
      (¬ (c.sent = c.joined ∧ c.proxySent + c.evicted = c.made) →
        t.clips.records = clips.records.map (fun r =>
          if r.number = c.number then { c with state := .closing, cause := some .pictureLost } else r)) ∧
      (c.sent = c.joined → c.proxySent + c.evicted = c.made → t.isSet .clipSettled ∧
        t.clips.records = (clips.records.map (fun r =>
          if r.number = c.number then { c with state := .closing, cause := some .pictureLost } else r)).eraseP
            fun r => r.number == c.number)) ∧
    t.time = s.time ∧ t.banks = s.banks ∧ t.dir.queue = s.dir.queue ∧ t.pLink = s.pLink ∧ t.xLink = s.xLink ∧
    t.pace = s.pace ∧ t.lastProxy = s.lastProxy ∧ t.pending = s.pending)

/-- R27, R28, R33: JAM TIMECODE. A label out of range refuses it; otherwise a dropped label is moved up, the TOD count takes
the label's count, the lane starts a new period, and the hold option holds or runs the counter. -/
def Obligations.JamSetsTheCount : Prop :=
  ∀ (tag : Byte) (hi lo hold : Word) (l m : Label) (s : State),
    l = ⟨hi.toNat / 256, hi.toNat % 256, lo.toNat / 256, lo.toNat % 256⟩ →
    m = (if l.ss = 0 ∧ l.mm % 10 ≠ 0 ∧ l.ff < dropCount s.time.rate s.time.df
      then { l with ff := dropCount s.time.rate s.time.df } else l) →
    ∃ t, exec (.jamTimecode tag hi lo hold) s = .next t ∧
      (if l.hh < 24 ∧ l.mm < 60 ∧ l.ss < 60 ∧ l.ff < s.time.rate.nominal then
        State.Offered { s with time := { s.time with
            tod := labelToCount s.time.rate s.time.df m, stage1 := 0, stage2 := 0, lastSub := none
            running := decide (hold.toNat % 2 = 0) } }
          (.reply tag .jamTimecode (if m = l then .done else .doneClamped)) t
      else s.Offered (.reply tag .jamTimecode .refBadValue) t)

/-- R34: RUN TIMECODE makes the TOD counter RUNNING, moves nothing else, and its outcome is DONE in both states. -/
def Obligations.RunMakesTheCounterRun : Prop :=
  ∀ (tag : Byte) (s : State), ∃ t, exec (.runTimecode tag) s = .next t ∧
    State.Offered { s with time := { s.time with running := true } } (.reply tag .runTimecode .done) t

/-- R20, R27, R28, R29, R35, R86: SET RATE, judged in the rule's order. Accepted, it carries the TOD and RR counts over by
their labels, clamped and moved up, removes both cues and starts the lane at phase 0. -/
def Obligations.SetRateCarriesTheLabels : Prop :=
  ∀ (tag : Byte) (code mark : Word) (s : State), ∃ t, exec (.setRate tag code mark) s = .next t ∧
    ((rateOfCode code.toNat = none ∨
        (mark.toNat % 2 = 1 ∧ rateOfCode code.toNat ≠ some .r2997 ∧ rateOfCode code.toNat ≠ some .r5994)) →
      s.Offered (.reply tag .setRate .refBadValue) t) ∧
    (∀ r, rateOfCode code.toNat = some r → (mark.toNat % 2 = 1 → r = .r2997 ∨ r = .r5994) →
      (s.clips.recordState ≠ .standby ∨ s.clips.records ≠ [] → s.Offered (.reply tag .setRate .refNotNow) t) ∧
      (s.clips.recordState = .standby → s.clips.records = [] →
        ∀ (df : Bool) (carried : Nat → Label), df = decide (mark.toNat % 2 = 1) →
        (∀ n, carried n = Label.movedUp r df { countToLabel s.time.rate s.time.df n with
          ff := min (countToLabel s.time.rate s.time.df n).ff (r.nominal - 1) }) →
        State.Offered { s with time := { s.time with
            rate := r, df := df, tod := labelToCount r df (carried s.time.tod)
            rr := labelToCount r df (carried s.time.rr), startCue := none, stopCue := none, stage1 := 0, stage2 := 0
            lastSub := none } }
          (.reply tag .setRate
            (if carried s.time.tod = countToLabel s.time.rate s.time.df s.time.tod ∧
                carried s.time.rr = countToLabel s.time.rate s.time.df s.time.rr then .done else .doneClamped)) t))

/-- R27, R28, R36, R172: SET CUES. Each field leaves its cue, sets it to the count of its label, moved up when dropped, or
clears it. A field code that names nothing, or a SET label out of range, refuses the directive, and neither cue changes. -/
def Obligations.SetCuesHandlesEachField : Prop :=
  ∀ (tag : Byte) (a1 h1 l1 a2 h2 l2 : Word) (lab : Word → Word → Label) (s : State),
    (∀ h l, lab h l = ⟨h.toNat / 256, h.toNat % 256, l.toNat / 256, l.toNat % 256⟩) →
    ∃ t, exec (.setCues tag a1 h1 l1 a2 h2 l2) s = .next t ∧
      (a1.toNat > 2 ∨ a2.toNat > 2 ∨ (a1 = 1 ∧ (lab h1 l1).inRange s.time.rate = false) ∨
          (a2 = 1 ∧ (lab h2 l2).inRange s.time.rate = false) →
        s.Offered (.reply tag .setCues .refBadValue) t) ∧
      (a1.toNat ≤ 2 → a2.toNat ≤ 2 → (a1 = 1 → (lab h1 l1).inRange s.time.rate = true) →
          (a2 = 1 → (lab h2 l2).inRange s.time.rate = true) →
        State.Offered { s with time := { s.time with
            startCue := if a1 = 0 then s.time.startCue else if a1 = 1
              then some (labelToCount s.time.rate s.time.df ((lab h1 l1).movedUp s.time.rate s.time.df)) else none
            stopCue := if a2 = 0 then s.time.stopCue else if a2 = 1
              then some (labelToCount s.time.rate s.time.df ((lab h2 l2).movedUp s.time.rate s.time.df)) else none } }
          (.reply tag .setCues
            (if (a1 = 1 ∧ (lab h1 l1).dropped s.time.rate s.time.df = true) ∨
                (a2 = 1 ∧ (lab h2 l2).dropped s.time.rate s.time.df = true) then .doneClamped else .done)) t)

/-- R28, R29: the conversion between counts and labels is exact in both directions, at every rate and mark: a count below
the frames per day becomes a label in range that is not dropped, and comes back; and such a label comes back from its
count, which is below the frames per day. -/
def Obligations.LabelsAndCountsAreExact : Prop :=
  ∀ (r : Rate) (df : Bool), (df = true → r = .r2997 ∨ r = .r5994) →
    (∀ n, n < framesPerDay r df → (countToLabel r df n).inRange r = true ∧
      (countToLabel r df n).dropped r df = false ∧ labelToCount r df (countToLabel r df n) = n) ∧
    (∀ l : Label, l.inRange r = true → l.dropped r df = false →
      labelToCount r df l < framesPerDay r df ∧ countToLabel r df (labelToCount r df l) = l)


/-! ### Directives and boundaries (chapter 8, R74 to R76) -/

/-- R145, R146, R148, section 10.4: the arrival of a DIRECTIVE, by the first case that holds. A bad verdict or a packet
shorter than its header is discarded and sets DIRECTIVE CORRUPT; an unknown code, a wrong length and a bad timing value are
refused; a sound directive is taken at once, or queued at the tail of a queue of at most 16. That a sound RESTART to be
queued is refused by a full queue like any other directive, where R157 says that it is never refused, is the model's
choice (notes/assumptions/35.md). -/
def Obligations.DirectiveArrivalIsJudgedInOrder : Prop :=
  ∀ (rest : List Word) (code : Word) (tag : Byte) (timing length : Nat) (s : State),
    s.ingress.link ≠ .down → rest ≠ [] →
    code = rest.getD 0 0 → tag = (rest.getD 1 0).setWidth 8 → timing = (rest.getD 1 0).toNat / 256 →
    length = (rest.getD 2 0).toNat →
    ∃ t, exec (.directive rest) s = .next t ∧
      (goodVerdict (0x0D04#16 :: rest) = false ∨ rest.length < 5 →
        t = s.setFlag .directiveCorrupt ∧ t.isSet .directiveCorrupt ∧ s.SameBlocks t) ∧
      (goodVerdict (0x0D04#16 :: rest) = true → 5 ≤ rest.length →
        (code.toNat = 0 ∨ 17 < code.toNat → s.Offered (.response tag code .refUnknown 0) t) ∧
        (∀ c : DirCode, c.word = code →
          (256 < length ∨ rest.length ≠ length + 5 ∨ (∃ n, c.payloadLength = some n ∧ length ≠ n) →
            s.Offered (.response tag code .refBadLength 0) t) ∧
          (length ≤ 256 → rest.length = length + 5 → (∀ n, c.payloadLength = some n → length = n) →
            (1 < timing → s.Offered (.response tag code .refBadValue 0) t) ∧
            (∀ d : Directive, d = ⟨c, tag, rest.getD 3 0, (rest.drop 4).take length⟩ →
              (timing = 0 → c ∉ [DirCode.switchBank, .cacheOn, .cacheOff, .start, .stop] →
                exec d.command s = .next t) ∧
              (timing = 1 ∨ (timing = 0 ∧ c ∈ [DirCode.switchBank, .cacheOn, .cacheOff, .start, .stop]) →
                (s.dir.queue.length < 16 → t = { s with dir := { s.dir with queue := s.dir.queue ++ [d] } }) ∧
                (16 ≤ s.dir.queue.length → s.Offered (.response tag code .refQueueFull 0) t))))))

/-- R75, R76, R149: a boundary takes the queued directives from the head, one after another, each on the state that the
ones before it have left, and the pending cue actions in list order, each removed as it is taken: all actions before the
first directive, or all directives before the first action, as the order given with the boundary says. A start action
opens a clip where a START would be accepted, a stop action closes the clip that is recording with cause CUE, and either
is dropped otherwise. A boundary with nothing queued and no pending action changes nothing. -/
def Obligations.BoundaryTakesBothListsInOrder : Prop :=
  (∀ (o : BoundaryOrder) (s : State), s.dir.queue = [] → s.clips.actions = [] → s.boundary o = s) ∧
  (∀ (o : BoundaryOrder) (d : Directive) (ds : List Directive) (s : State),
    o = .directivesFirst ∨ s.clips.actions = [] → s.dir.queue = d :: ds →
    ∃ u, exec d.command { s with dir := { s.dir with queue := ds } } = .next u ∧ s.boundary o = u.boundary o) ∧
  (∀ (o : BoundaryOrder) (a : CueAction) (as : List CueAction) (s u : State),
    o = .actionsFirst ∨ s.dir.queue = [] → s.clips.actions = a :: as → u = { s with clips := { s.clips with actions := as } } →
    (a = .start →
      (s.clips.recordState ≠ .recording → s.banks.act.valid = true → s.clips.records.length < 4 →
        s.boundary o = u.startClip.boundary o) ∧
      (s.clips.recordState = .recording ∨ s.banks.act.valid = false ∨ 4 ≤ s.clips.records.length →
        s.boundary o = u.boundary o)) ∧
    (a = .stop →
      (s.clips.recordState = .recording → s.boundary o = (u.closeOpen .cue).boundary o) ∧
      (s.clips.recordState ≠ .recording → s.boundary o = u.boundary o)))

/-! ### Table banks (chapter 7) -/

/-- R127: the refusals of a LOAD SEGMENT, in the rule's order. A refusal changes no table. -/
def Obligations.LoadSegmentRefusals : Prop :=
  ∀ (tag : Byte) (param : Word) (payload : List Word) (id segment : Nat) (s : State),
    id = param.toNat / 256 → segment = param.toNat % 256 →
    ∃ t, exec (.loadSegment tag param payload) s = .next t ∧
      (id = 0 ∨ 6 < id ∨ (if id = 4 ∨ id = 5 then 4 else 1) ≤ segment →
        s.Offered (.reply tag .loadSegment .refBadValue) t) ∧
      (∀ i, tableOfId id = some i → segment < (if id = 4 ∨ id = 5 then 4 else 1) →
        (i = .tone → 0 < s.render.stepsLeft → s.Offered (.reply tag .loadSegment .refBusy) t) ∧
        (i ≠ .tone ∨ s.render.stepsLeft = 0 → segment ≠ 0 →
          (s.banks.standby.table i).state ≠ .incomplete segment →
          s.Offered (.reply tag .loadSegment .refBadSegment) t) ∧
        (i ≠ .tone ∨ s.render.stepsLeft = 0 →
          segment = 0 ∨ (s.banks.standby.table i).state = .incomplete segment →
          payload.length ≠ i.segments.getD segment 0 → s.Offered (.reply tag .loadSegment .refBadLength) t))

/-- R126, R128, R129: an accepted segment writes the standby table alone. Segment 0 of four starts the table anew as PARTIAL,
a later one follows the words loaded; the last one completes the table, which is then VALID, or INVALID with the reason of
its first fault and TABLE INVALID set. A VALID INPUT table keeps its page counts. -/
def Obligations.LoadSegmentWritesTheStandbyTable : Prop :=
  ∀ (tag : Byte) (param : Word) (payload words : List Word) (i : TableId) (segment : Nat) (loaded : Bank) (s : State),
    tableOfId (param.toNat / 256) = some i → segment = param.toNat % 256 →
    i.segments[segment]? = some payload.length → i ≠ .tone ∨ s.render.stepsLeft = 0 →
    segment = 0 ∨ (s.banks.standby.table i).state = .incomplete segment →
    words = (if segment = 0 then [] else (s.banks.standby.table i).words.take (256 * segment)) ++ payload →
    loaded = s.banks.standby.setTable ⟨words, .incomplete (segment + 1)⟩ i →
    ∃ t b, exec (.loadSegment tag param payload) s = .next t ∧ t.banks = s.banks.setStandby b ∧
      t.banks.act = s.banks.act ∧ t.banks.standby = b ∧
      (∀ j, j ≠ i → b.table j = s.banks.standby.table j) ∧ (i ≠ .input → b.pages = s.banks.standby.pages) ∧
      (segment + 1 < i.segments.length → b.table i = ⟨words, .incomplete (segment + 1)⟩ ∧
        State.Offered { s with banks := s.banks.setStandby b } (.reply tag .loadSegment .done) t) ∧
      (segment + 1 = i.segments.length →
        (∀ reason, tableFault loaded i = some reason → b.table i = ⟨words, .invalid reason⟩ ∧
          (i = .input → b.pages = none) ∧ t.isSet .tableInvalid ∧
          State.Offered (({ s with banks := s.banks.setStandby b }).setFlag .tableInvalid)
            (.reply tag .loadSegment .refBadTable) t) ∧
        (tableFault loaded i = none → (b.table i).state = .valid ∧
          (i ≠ .record → (b.table i).words = words) ∧
          (i = .record → (b.table i).words = clampRecord ⟨words, .valid⟩) ∧
          (i = .input → b.pages = some ((b.wi * b.hi * 9 / 2 + 65535) / 65536, (b.wo * b.ho * 4 + 65535) / 65536)) ∧
          State.Offered { s with banks := s.banks.setStandby b }
            (.reply tag .loadSegment (if (b.table i).words = words then .done else .doneClamped)) t))

/-- R130 to R134: the first fault that validation finds in each table, and the values that the numeric fields of a RECORD
table are clamped to. -/
def Obligations.ValidationFollowsTheTables : Prop :=
  (∀ b : Bank, ∀ geometry crop scale : Prop,
    (geometry ↔ b.wi % 2 = 1 ∨ b.wi < 64 ∨ 4096 < b.wi ∨ b.hi < 16 ∨ 2304 < b.hi) →
    (crop ↔ b.wi < b.x0 + b.wc ∨ b.hi < b.y0 + b.hc) →
    (scale ↔ b.wo % 2 = 1 ∨ b.wo < 64 ∨ 2048 < b.wo ∨ b.ho % 2 = 1 ∨ b.ho < 36 ∨ 1152 < b.ho ∨
      b.wc < b.wo ∨ 8 * b.wo < b.wc ∨ b.hc < b.ho ∨ 8 * b.ho < b.hc) →
    (tableFault b .input = some .geometry ↔ geometry) ∧ (tableFault b .input = some .crop ↔ ¬ geometry ∧ crop) ∧
    (tableFault b .input = some .scale ↔ ¬ geometry ∧ ¬ crop ∧ scale) ∧
    (tableFault b .input = none ↔ ¬ geometry ∧ ¬ crop ∧ ¬ scale)) ∧
  (∀ (b : Bank) (i : TableId), i = .hkernel ∨ i = .vkernel →
    ∀ c : Nat → Nat → Int, (∀ p k, c p k = ((b.table i).words.getD (6 * p + k) 0).toInt) →
    (tableFault b i = none ↔ ∀ p < 32, (∀ k < 6, -512 ≤ c p k ∧ c p k ≤ 511) ∧
      c p 0 + c p 1 + c p 2 + c p 3 + c p 4 + c p 5 = 256) ∧
    (tableFault b i ≠ none → tableFault b i = some .kernelSum)) ∧
  (∀ b : Bank, (tableFault b .tone = none ↔ ∀ n < 771, (b.tone.words.getD n 0).toNat ≤ 1023) ∧
    (tableFault b .tone ≠ none → tableFault b .tone = some .curveRange)) ∧
  (∀ b : Bank, tableFault b .overlay = none) ∧
  (∀ b : Bank, tableFault b .record =
    if b.record.nat 7 ≠ 1 ∧ b.record.nat 7 ≠ 2 then some .timecodeMode
    else if 41 < b.record.nat 8 ∨ 41 < b.record.nat 9 ∨ 41 < b.record.nat 10 ∨ 41 < b.record.nat 11
      then some .glyphCode else none) ∧
  (∀ (t u : Table) (limit : Nat), u.words = clampRecord t → limit = min (t.nat 1 * 65536 + t.nat 2) 1048575 →
    u.words.length = 12 ∧ u.nat 0 = min (t.nat 0) 120 ∧ u.nat 1 * 65536 + u.nat 2 = limit ∧
    u.nat 3 = min (t.nat 3) 8192 ∧ u.nat 4 = t.nat 4 ∧ u.nat 5 = max 1 (min (t.nat 5) 255) ∧
    u.nat 6 = min (t.nat 6) 8 ∧ ∀ n, 7 ≤ n → n < 12 → u.nat n = t.nat n)

/-- R135: COPY BANK is refused while the ramp is running, and otherwise makes the standby bank equal to the active one:
words, states and page counts. -/
def Obligations.CopyBankCopiesTheActiveBank : Prop :=
  ∀ (tag : Byte) (s : State), ∃ t, exec (.copyBank tag) s = .next t ∧
    (0 < s.render.stepsLeft → s.Offered (.reply tag .copyBank .refBusy) t) ∧
    (s.render.stepsLeft = 0 →
      State.Offered { s with banks := { a := s.banks.act, b := s.banks.act, active := s.banks.active } }
        (.reply tag .copyBank .done) t)

/-- R136: the refusals of a SWITCH BANK, in the rule's order. A refused switch leaves the banks and the ramp as they
stood. -/
def Obligations.SwitchBankRefusals : Prop :=
  ∀ (tag : Byte) (k : Word) (s : State), ∃ t, exec (.switchBank tag k) s = .next t ∧
    (16 < k.toNat → s.Offered (.reply tag .switchBank .refBadValue) t) ∧
    (k.toNat ≤ 16 →
      (∀ i, (s.banks.standby.table i).state ≠ .valid → s.Offered (.reply tag .switchBank .refNotReady) t) ∧
      ((∀ i, (s.banks.standby.table i).state = .valid) →
        (0 < s.render.stepsLeft → s.Offered (.reply tag .switchBank .refBusy) t) ∧
        (s.render.stepsLeft = 0 → s.clips.recordState = .recording → s.banks.standby.geometry ≠ s.banks.act.geometry →
          s.Offered (.reply tag .switchBank .refGeometryLocked) t)))

/-- R82, R98, R137 to R140: an accepted SWITCH BANK. The roles are exchanged, a ramp starts when the old active bank is
valid, the ring is flushed, loses its twins or is trimmed, a changed clip limit sets or clears the split-pending mark of
an open clip, the deferral-reported mark going with a mark cleared, and a count that the new low mark alone finds low sets
STORE LOW. That the count is tested after the ring's releases is the model's choice (notes/assumptions/15.md). -/
def Obligations.SwitchBankExchangesTheRoles : Prop :=
  ∀ (tag : Byte) (k : Word) (old new : Bank) (n : Nat) (resized reframed : Prop) (s : State), k.toNat ≤ 16 →
    old = s.banks.act → new = s.banks.standby → new.valid = true → s.render.stepsLeft = 0 →
    (s.clips.recordState = .recording → new.geometry = old.geometry) →
    n = (if old.valid = true then k.toNat else 0) →
    (resized ↔ new.wi ≠ old.wi ∨ new.hi ≠ old.hi) → (reframed ↔ new.geometry ≠ old.geometry) →
    ∃ (t u : State), exec (.switchBank tag k) s = .next t ∧
      State.Offered u (.reply tag .switchBank (if old.valid = false ∧ 0 < k.toNat then .doneClamped else .done)) t ∧
      u.banks = { s.banks with active := s.banks.active.other } ∧ u.banks.act = new ∧ u.banks.standby = old ∧
      u.render = { s.render with rampLength := n, stepsLeft := n } ∧
      (resized → u.clips.ring = [] ∧ ∀ p ∈ s.clips.ring, (u.store.frame p).state = .free) ∧
      (¬ resized → u.clips.ring = s.clips.ring.drop (s.clips.ring.length - new.preRollDepth) ∧
        ∀ p ∈ s.clips.ring.take (s.clips.ring.length - new.preRollDepth), (u.store.frame p).state = .free) ∧
      (¬ resized → reframed →
        (∀ p ∈ s.clips.ring, ∀ q, (s.store.frame p).twin = some q → q ∉ s.clips.ring) →
        ∀ p ∈ s.clips.ring, ∀ q, (s.store.frame p).twin = some q → (u.store.frame q).state = .free) ∧
      (¬ reframed → s.clips.ring.length ≤ new.preRollDepth → u.store = s.store) ∧
      u.clips.splitPending = (match s.clips.openClip with
        | some c =>
          if s.clips.recordState = .recording ∧ new.clipLimit ≠ old.clipLimit
          then new.clipLimit != 0 && decide (new.clipLimit ≤ c.joined) else s.clips.splitPending
        | none => s.clips.splitPending) ∧
      u.clips.deferralReported = (if s.clips.recordState = .recording ∧ new.clipLimit ≠ old.clipLimit ∧
        s.clips.openClip ≠ none ∧ u.clips.splitPending = false then false else s.clips.deferralReported) ∧
      (u.store.freePages < new.lowMark → old.lowMark ≤ u.store.freePages → u.isSet .storeLow) ∧
      (new.lowMark ≤ u.store.freePages ∨ u.store.freePages < old.lowMark → u.flags = s.flags ∧ u.dir = s.dir) ∧
      u.clips.records = s.clips.records ∧ u.clips.recordState = s.clips.recordState ∧
      u.clips.cacheMark = s.clips.cacheMark ∧ u.clips.nextNumber = s.clips.nextNumber ∧
      u.clips.actions = s.clips.actions ∧ u.store.pq = s.store.pq ∧ u.store.xq = s.store.xq ∧
      u.ingress = s.ingress ∧ u.time = s.time ∧ u.dir.queue = s.dir.queue ∧ u.pLink = s.pLink ∧ u.xLink = s.xLink ∧
      u.pace = s.pace ∧ u.lastProxy = s.lastProxy ∧ u.pending = s.pending

/-! ### The record state, clips (chapter 4) -/

/-- R60, R61, R62, R64: CACHE ON and CACHE OFF. CACHE OFF while CACHING moves to STANDBY and releases every pair of the
ring; in the other states it clears the cache mark alone. That it clears a mark set in STANDBY, where R62 also says that
nothing changes, is the model's choice (notes/assumptions/33.md). -/
def Obligations.CacheOnAndCacheOff : Prop :=
  (∀ (tag : Byte) (s : State), ∃ t, exec (.cacheOn tag) s = .next t ∧
    (s.banks.act.valid = false → s.Offered (.reply tag .cacheOn .refNotReady) t) ∧
    (s.banks.act.valid = true →
      State.Offered { s with clips := { s.clips with
          cacheMark := true
          recordState := if s.clips.recordState = .standby then .caching else s.clips.recordState } }
        (.reply tag .cacheOn .done) t)) ∧
  (∀ (tag : Byte) (s : State), ∃ t, exec (.cacheOff tag) s = .next t ∧
    (s.clips.recordState ≠ .caching →
      State.Offered { s with clips := { s.clips with cacheMark := false } } (.reply tag .cacheOff .done) t) ∧
    (s.clips.recordState = .caching →
      ∃ store : Store, State.Offered { s with
          clips := { s.clips with cacheMark := false, recordState := .standby, ring := [] }, store := store }
          (.reply tag .cacheOff .done) t ∧
        (∀ p ∈ s.clips.ring, (store.frame p).state = .free) ∧
        ((∀ p ∈ s.clips.ring, ∀ q, (s.store.frame p).twin = some q → q ∉ s.clips.ring) →
          ∀ p ∈ s.clips.ring, ∀ q, (s.store.frame p).twin = some q → (store.frame q).state = .free) ∧
        (∀ j, j ∉ s.clips.ring → (∀ p ∈ s.clips.ring, (s.store.frame p).twin ≠ some j) →
          (store.frame j).state = (s.store.frame j).state ∧ (store.frame j).pages = (s.store.frame j).pages) ∧
        store.pq = s.store.pq ∧ store.xq = s.store.xq ∧ store.pFlawed = s.store.pFlawed ∧
        store.xFlawed = s.store.xFlawed))

/-- R17, R25, R65 to R68, R72, R80: START. It is refused while RECORDING, under an active bank that is not valid, and when
four clip records exist, in that order. Otherwise a clip opens under the counter's number, and every entry of the ring,
oldest first, joins it with the next clip frame number and the next RR count and goes onto the send queues. -/
def Obligations.StartOpensAClipAndCommitsTheRing : Prop :=
  (∀ (tag : Byte) (s : State), ∃ t, exec (.start tag) s = .next t ∧
    (s.clips.recordState = .recording → s.Offered (.reply tag .start .refNotNow) t) ∧
    (s.clips.recordState ≠ .recording →
      (s.banks.act.valid = false → s.Offered (.reply tag .start .refNotReady) t) ∧
      (s.banks.act.valid = true → 4 ≤ s.clips.records.length → s.Offered (.reply tag .start .refBusy) t))) ∧
  (∀ (tag : Byte) (s : State), s.clips.recordState ≠ .recording → s.banks.act.valid = true →
    s.clips.records.length < 4 → s.clips.hasOpen = false → s.time.rr < s.time.perDay → s.clips.ring.Nodup →
    (∀ r ∈ s.clips.records, r.number ≠ s.clips.nextNumber) →
    (∀ p ∈ s.clips.ring, ∀ q, (s.store.frame p).twin = some q → q ∉ s.clips.ring ∧ (s.store.frame q).twin = some p) →
    ∃ (t u : State) (c : ClipRecord), exec (.start tag) s = .next t ∧ u.Offered (.reply tag .start .done) t ∧
      u.clips.records = s.clips.records ++ [c] ∧ c.state = .isOpen ∧ c.number = s.clips.nextNumber ∧
      c.take = s.clips.nextNumber ∧ c.part = 0 ∧ c.reel = s.banks.act.reel ∧ c.mode = s.banks.act.mode ∧
      c.rate = s.time.rate ∧ c.df = s.time.df ∧ c.joined = s.clips.ring.length ∧ c.sent = 0 ∧ c.proxySent = 0 ∧
      c.evicted = 0 ∧ c.cause = none ∧
      c.made = s.clips.ring.countP (fun p => (s.store.frame p).twin.isSome) ∧
      c.gapTotal = s.clips.ring.countP (fun p => (s.store.frame p).twin.isNone) ∧
      c.flawed = s.clips.ring.countP (fun p => !(s.store.frame p).flaws.clean) ∧
      c.firstCapture = s.clips.ring.head?.map (fun p => (s.store.frame p).capture) ∧
      c.startTc = s.clips.ring.head?.map (fun p => match s.banks.act.mode with
        | .freeRun => (s.store.frame p).stamp.tod
        | .recordRun => s.time.rr) ∧
      (∀ (n : Nat) (h : n < s.clips.ring.length),
        (u.store.frame s.clips.ring[n]).part = some ⟨c.number, n, match s.banks.act.mode with
          | .freeRun => (s.store.frame s.clips.ring[n]).stamp.tod
          | .recordRun => (s.time.rr + n) % s.time.perDay⟩ ∧
        ∀ q, (s.store.frame s.clips.ring[n]).twin = some q →
          (u.store.frame q).part = (u.store.frame s.clips.ring[n]).part) ∧
      u.time = { s.time with rr := (s.time.rr + s.clips.ring.length) % s.time.perDay } ∧
      u.store.pq = s.store.pq ++ s.clips.ring ∧
      u.store.xq = s.store.xq ++ s.clips.ring.filterMap (fun p => (s.store.frame p).twin) ∧
      u.store.freePages = s.store.freePages ∧ u.clips.ring = [] ∧ u.clips.recordState = .recording ∧
      u.clips.splitPending = (s.banks.act.clipLimit != 0 && decide (s.banks.act.clipLimit ≤ s.clips.ring.length)) ∧
      (∀ r ∈ u.clips.records, r.number ≠ u.clips.nextNumber) ∧
      (1 ≤ s.clips.nextNumber → s.clips.nextNumber ≤ 9999 → 1 ≤ u.clips.nextNumber ∧ u.clips.nextNumber ≤ 9999) ∧
      ((∃ p ∈ s.clips.ring, (s.store.frame p).twin = none) → u.isSet .proxyGap) ∧
      ((∀ p ∈ s.clips.ring, (s.store.frame p).twin ≠ none) → u.flags = s.flags ∧ u.dir = s.dir) ∧
      u.ingress = { s.ingress with lossCount := 0 } ∧ u.clips.cacheMark = s.clips.cacheMark ∧
      u.clips.actions = s.clips.actions ∧ u.render = s.render ∧ u.banks = s.banks ∧ u.dir.queue = s.dir.queue ∧
      u.pLink = s.pLink ∧ u.xLink = s.xLink ∧ u.pace = s.pace ∧ u.lastProxy = s.lastProxy ∧ u.pending = s.pending)

/-- R77, R78, R84, R85: STOP. Refused outside RECORDING. Otherwise the open clip is CLOSING with cause STOP, the split marks
are cleared and the record state falls back by the cache mark; and a clip whose frames have all left settles: its summary is
queued, CLIP SETTLED is set and its record is freed. -/
def Obligations.StopClosesTheOpenClip : Prop :=
  (∀ (tag : Byte) (s : State), s.clips.recordState ≠ .recording →
    ∃ t, exec (.stop tag) s = .next t ∧ s.Offered (.reply tag .stop .refNotNow) t) ∧
  (∀ (tag : Byte) (c d : ClipRecord) (closed : Clips) (s : State), s.clips.recordState = .recording →
    s.clips.openClip = some c → (∀ r ∈ s.clips.records, r.number = c.number ∨ r.state = .isOpen → r = c) →
    d = { c with state := .closing, cause := some .stop } →
    closed = { s.clips with
      records := s.clips.records.map (fun r => if r.number = c.number then d else r)
      splitPending := false, deferralReported := false
      recordState := if s.clips.cacheMark then .caching else .standby } →
    ∃ t, exec (.stop tag) s = .next t ∧
      (¬ (c.sent = c.joined ∧ c.proxySent + c.evicted = c.made) →
        State.Offered { s with clips := closed } (.reply tag .stop .done) t) ∧
      (c.sent = c.joined → c.proxySent + c.evicted = c.made →
        ∃ u : State, u.Offered (.reply tag .stop .done) t ∧ u.isSet .clipSettled ∧
          u.clips = { closed with records := closed.records.eraseP fun r => r.number == c.number } ∧
          (s.hasRoom 1 → .clipSummary d.summary ∈ u.dir.reports) ∧
          u.ingress = s.ingress ∧ u.time = s.time ∧ u.store = s.store ∧ u.render = s.render ∧ u.banks = s.banks ∧
          u.dir.queue = s.dir.queue ∧ u.pLink = s.pLink ∧ u.xLink = s.xLink ∧ u.pace = s.pace ∧
          u.lastProxy = s.lastProxy ∧ u.pending = s.pending))

/-! ### Flags, notices, snapshot and status (chapters 8 and 9) -/

/-- R166: CLEAR FLAGS clears each listed flag that is set and shown, with its shown mark, and no other; its outcome is DONE
and its response lists the flags cleared. -/
def Obligations.ClearFlagsClearsOnlyShownFlags : Prop :=
  ∀ (tag : Byte) (list gone : FlagSet) (s : State), gone = list &&& s.flags.raised &&& s.flags.shown →
    ∃ t, exec (.clearFlags tag list) s = .next t ∧
      State.Offered { s with flags := { s.flags with
          raised := s.flags.raised &&& ~~~gone, shown := s.flags.shown &&& ~~~gone } }
        (.response tag 0x000C#16 .done gone) t ∧
      (∀ f : Flag, f ≠ .reportsLost → f ≠ .snapshotTaken →
        (f.isIn t.flags.raised = true ↔
          f.isIn s.flags.raised = true ∧ ¬ (f.isIn list = true ∧ f.isIn s.flags.shown = true)))

/-- R162: SET NOTICES gives every enable the value carried, changes no flag and no marker, and its outcome is DONE. -/
def Obligations.SetNoticesSetsEveryEnable : Prop :=
  ∀ (tag : Byte) (enables : FlagSet) (s : State), ∃ t, exec (.setNotices tag enables) s = .next t ∧
    State.Offered { s with flags := { s.flags with enables := enables } } (.reply tag .setNotices .done) t

/-- R155, R156, R173, section 10.5: QUERY STATUS places the response and then a STATUS report of the state as it stands,
whose 92 words stand in the places of the layout. -/
def Obligations.QueryStatusPlacesAStatusReport : Prop :=
  ∀ (tag : Byte) (body : List Word) (s : State), body = s.statusBody →
    (∃ t u : State, exec (.queryStatus tag) s = .next t ∧ s.Offered (.reply tag .queryStatus .done) u ∧
      u.Offered (.status body ⟨s.flags.raised, 0⟩) t) ∧
    body.length = 92 ∧
    body.getD 0 0 = (match s.ingress.link with
      | .down => 0#16
      | .idle => 1#16
      | .streaming => 2#16) ∧
    body.getD 1 0 = (match s.clips.recordState with
      | .standby => 0#16
      | .caching => 1#16
      | .recording => 2#16) + (if s.clips.cacheMark then 256#16 else 0#16) ∧
    body.getD 2 0 = (if s.banks.active = .a then 0#16 else 1#16) ∧
    body.getD 3 0 = s.banks.standby.input.state.word ∧ body.getD 4 0 = s.banks.standby.hkernel.state.word ∧
    body.getD 5 0 = s.banks.standby.vkernel.state.word ∧ body.getD 6 0 = s.banks.standby.tone.state.word ∧
    body.getD 7 0 = s.banks.standby.overlay.state.word ∧ body.getD 8 0 = s.banks.standby.record.state.word ∧
    body.getD 9 0 = word s.render.stepsLeft ∧ body.getD 10 0 = word (s.store.freePages / 65536) ∧
    body.getD 11 0 = word s.store.freePages ∧ body.getD 12 0 = word s.store.freeRecords ∧
    body.getD 13 0 = word s.store.pq.length ∧ body.getD 14 0 = word s.store.pFlawed ∧
    body.getD 15 0 = word s.store.xq.length ∧ body.getD 16 0 = word s.store.xFlawed ∧
    body.getD 17 0 = word s.clips.ring.length ∧
    [body.getD 18 0, body.getD 19 0] = labelWords (countToLabel s.time.rate s.time.df s.time.tod) ∧
    body.getD 20 0 =
      word ((if s.time.df then 1 else 0) + 2 * s.time.rate.code + if s.time.running then 0 else 16) ∧
    [body.getD 21 0, body.getD 22 0] = labelWords (countToLabel s.time.rate s.time.df s.time.rr) ∧
    [body.getD 23 0, body.getD 24 0] = words2 s.time.lastInterval ∧ body.getD 25 0 = word s.pLink.state.code ∧
    body.getD 26 0 = word s.xLink.state.code ∧ body.getD 27 0 = s.flags.raised ∧
    (∀ n < 4, s.clips.records[n]? = none → ∀ w < 16, body.getD (28 + 16 * n + w) 0 = 0) ∧
    (∀ n < 4, ∀ c, s.clips.records[n]? = some c → body.getD (28 + 16 * n) 0 = word c.number ∧
      body.getD (28 + 16 * n + 1) 0 =
        (if c.state = .closing then 1#16 else 0#16) + (if c.overflow then 256#16 else 0#16) ∧
      ∀ k count, (k, count) ∈ [(2, c.joined), (4, c.sent), (6, c.made), (8, c.evicted), (10, c.proxySent),
        (12, c.gapTotal), (14, c.flawed)] →
        body.getD (28 + 16 * n + k) 0 = word (count / 65536) ∧ body.getD (28 + 16 * n + k + 1) 0 = word count)

/-- R167, R168: ARM SNAPSHOT and FETCH SNAPSHOT in each snapshot state. -/
def Obligations.SnapshotIsArmedAndFetched : Prop :=
  (∀ (tag : Byte) (triggers : FlagSet) (s : State), ∃ t, exec (.armSnapshot tag triggers) s = .next t ∧
    ((∃ r, s.flags.snapshot = .captured r) → s.Offered (.reply tag .armSnapshot .refNotNow) t) ∧
    ((∀ r, s.flags.snapshot ≠ .captured r) →
      State.Offered { s with flags := { s.flags with
          snapshot := if triggers = 0 then .disarmed else .armed triggers } } (.reply tag .armSnapshot .done) t)) ∧
  (∀ (tag : Byte) (s : State), ∃ t : State, exec (.fetchSnapshot tag) s = .next t ∧
    ((∀ r, s.flags.snapshot ≠ .captured r) → s.Offered (.reply tag .fetchSnapshot .refNotNow) t) ∧
    (∀ r, s.flags.snapshot = .captured r → ∃ u v : State, s.Offered (.reply tag .fetchSnapshot .done) u ∧
      u.Offered (.snapshot (r.status ++ [word r.trigger.number] ++ labelWords r.tod)) v ∧
      t = { v with flags := { v.flags with snapshot := .disarmed } }))

/-- R161, R165, R167: a setting event. The flag is set and unshown, and joins the later-settings set of every report that
holds one. A trigger of an ARMED snapshot captures it, with the flag already set in the record, and sets SNAPSHOT TAKEN; any
other event leaves the snapshot and the other flags. No other block changes. -/
def Obligations.SettingEventSetsTheFlag : Prop :=
  ∀ (f : Flag) (t s : State), t = s.setFlag f →
    t.isSet f ∧ f.isIn t.flags.shown = false ∧ t.flags.enables = s.flags.enables ∧ s.SameBlocks t ∧
    (∀ triggers, s.flags.snapshot = .armed triggers → f.isIn triggers = true →
      t.isSet .snapshotTaken ∧ ∃ r, t.flags.snapshot = .captured r ∧ r.trigger = f ∧
        r.tod = countToLabel s.time.rate s.time.df s.time.tod ∧ f.isIn (r.status.getD 27 0) = true ∧
        ∀ g : Flag, g ≠ .snapshotTaken → g ≠ f → g.isIn t.flags.raised = g.isIn s.flags.raised) ∧
    ((∀ triggers, s.flags.snapshot = .armed triggers → f.isIn triggers = false) →
      t.flags.snapshot = s.flags.snapshot ∧ t.flags.raised = s.flags.raised ||| f.bit ∧
      t.flags.shown = s.flags.shown &&& ~~~f.bit ∧
      (f.isIn s.flags.raised = true ∨ f.isIn s.flags.enables = false →
        t.dir = { s.dir with reports := s.dir.reports.map (Report.addLater f.bit) } ∧ t.batch = s.batch ∧
          t.flags.markerClass = s.flags.markerClass ∧ t.flags.renotice = s.flags.renotice))

/-- R154, R163, R164: a flag whose notice is enabled, going from clear to set with no snapshot armed. With no marker
queued or owed a marker is placed, at the head for an urgent flag and at the tail for a routine one, or owed when the
queue is full. A queued routine marker is moved to the head by an urgent flag, behind a report in flight; behind a marker
in flight the renotice mark is set. An urgent flag makes the class of an owed marker urgent, and a call met by an urgent
marker changes nothing. That an urgent marker goes ahead of a report that LINK RESET has abandoned is the model's choice
(notes/assumptions/32.md). -/
def Obligations.NoticeMarkerIsPlaced : Prop :=
  ∀ (f : Flag) (t s : State) (later : List Report), t = s.setFlag f → later = s.dir.reports.map (Report.addLater f.bit) →
    f.isIn s.flags.raised = false → f.isIn s.flags.enables = true → s.flags.snapshot = .disarmed →
    ((∀ r ∈ s.dir.reports, r.isMarker = false) → s.dir.markerWaiting = false → s.dir.reports.length < 32 →
      s.flags.markerClass = .routine →
      (f.noticeClass = .urgent → t.flags.markerClass = .urgent ∧
        (s.pLink.sendingReport = false → t.dir.reports = .marker none :: later) ∧
        (s.pLink.sendingReport = true → later ≠ [] →
          t.dir.reports = later.take 1 ++ [.marker none] ++ later.drop 1)) ∧
      (f.noticeClass = .routine → t.flags.markerClass = .routine ∧ t.dir.reports = later ++ [.marker none])) ∧
    ((∀ r ∈ s.dir.reports, r.isMarker = false) → s.dir.markerWaiting = false → 32 ≤ s.dir.reports.length →
      t.dir.reports = later ∧ t.dir.markerWaiting = true) ∧
    (∀ m before after, later = before ++ m :: after → m.isMarker = true → (∀ r ∈ before, r.isMarker = false) →
      s.pLink.sendingReport = false → s.flags.markerClass = .routine →
      t.dir.reports = (if f.noticeClass = .urgent then m :: (before ++ after) else later) ∧
        t.flags.markerClass = f.noticeClass) ∧
    (∀ m first before after, later = first :: before ++ m :: after → m.isMarker = true → first.isMarker = false →
      (∀ r ∈ before, r.isMarker = false) → s.pLink.sendingReport = true → s.flags.markerClass = .routine →
      t.dir.reports = (if f.noticeClass = .urgent then first :: m :: (before ++ after) else later) ∧
        t.flags.markerClass = f.noticeClass) ∧
    ((∀ r ∈ s.dir.reports, r.isMarker = false) → s.dir.markerWaiting = true →
      t.dir.reports = later ∧ t.dir.markerWaiting = true ∧
        t.flags.markerClass = (if f.noticeClass = .urgent then .urgent else s.flags.markerClass)) ∧
    (∀ m ∈ s.dir.reports, m.isMarker = true → s.flags.markerClass = .urgent →
      s.pLink.sendingReport = false ∨ (∀ r ∈ s.dir.reports.head?, r.isMarker = false) →
      t.dir.reports = later ∧ t.dir.markerWaiting = s.dir.markerWaiting ∧ t.flags.markerClass = .urgent ∧
        t.flags.renotice = s.flags.renotice) ∧
    (∀ m after, later = m :: after → m.isMarker = true → s.pLink.sendingReport = true →
      t.dir.reports = later ∧ t.flags.renotice = true ∧
        (f.noticeClass = .urgent → t.flags.markerClass = .urgent))

/-- R154: with an owed marker and room in the queue the marker is placed, at the head for an urgent marker class and at
the tail for a routine one, and the mark is cleared. Without either, the event has nothing to take and changes nothing
(the model's choice, notes/assumptions/8.md). That an urgent marker goes ahead of a report that LINK RESET has abandoned
is the model's choice too (notes/assumptions/32.md). -/
def Obligations.OwedMarkerIsPlaced : Prop :=
  (∀ s : State, s.dir.markerWaiting = true → s.dir.reports.length < 32 → ∃ t, exec .owedMarkerPlaced s = .next t ∧
    t.dir.markerWaiting = false ∧ s.SameBlocks t ∧ t.flags = s.flags ∧
    (s.flags.markerClass = .routine → t.dir.reports = s.dir.reports ++ [.marker none]) ∧
    (s.flags.markerClass = .urgent → s.pLink.sendingReport = false → t.dir.reports = .marker none :: s.dir.reports) ∧
    (s.flags.markerClass = .urgent → s.pLink.sendingReport = true → s.dir.reports ≠ [] →
      t.dir.reports = s.dir.reports.take 1 ++ [.marker none] ++ s.dir.reports.drop 1)) ∧
  (∀ s : State, s.dir.markerWaiting = false ∨ 32 ≤ s.dir.reports.length → exec .owedMarkerPlaced s = .next s)

/-- R19, R39, R59, R87, R108, R122, R144, R157 to R159, R169: RESTART, on every block. The report in flight stays at the
head; behind it come the response, one cancellation for each queued directive, and the summary of each clip, closed with
cause RESTART. A frame whose FRAME CLOSE is leaving counts as sent; any other frame in flight is ended by a FRAME ABORT.
That the packet leaving is recorded as sent in this step, and that a link whose FRAME CLOSE leaves is in the model's
activity closing, are deduced (notes/assumptions/16.md), and so is the mark on a report that a RESTART crosses
(notes/assumptions/17.md). -/
def Obligations.RestartReachesEveryBlock : Prop :=
  ∀ (tag : Byte) (kept : List Report) (n : LinkId → Nat → Nat) (s : State),
    s.dir.queue.length ≤ 16 → s.clips.records.length ≤ 4 →
    kept = (if s.pLink.sendingReport = true then s.dir.reports.take 1 else []) →
    (∀ l clip, n l clip = if s.closingClip l = some clip then 1 else 0) →
    ∃ t, exec (.restart tag) s = .next t ∧
      t.ingress = { s.ingress with frame := .skipping, lossCount := 0, lastCapture := none } ∧
      t.time = s.time ∧ t.banks = s.banks ∧ t.store.freePages = 65536 ∧ (∀ i, (t.store.frame i).state = .free) ∧
      t.store.pq = [] ∧ t.store.xq = [] ∧ t.store.pFlawed = 0 ∧ t.store.xFlawed = 0 ∧
      t.clips = { s.clips with
        recordState := .standby, ring := [], records := [], actions := [], splitPending := false
        deferralReported := false } ∧
      t.render.setup = none ∧ t.render.rampLength = 0 ∧ t.render.stepsLeft = 0 ∧
      t.flags.raised = 0 ∧ t.flags.shown = 0 ∧ t.flags.enables = s.flags.enables ∧ t.flags.markerClass = .routine ∧
      t.flags.renotice = false ∧ t.flags.snapshot = .disarmed ∧ t.pace = 8 ∧ t.lastProxy = none ∧
      t.dir.queue = [] ∧ t.dir.markerWaiting = false ∧
      t.dir.reports = kept ++ [.reply tag .restart .done] ++
        s.dir.queue.map (fun d => .reply d.tag d.code .refCancelled) ++
        s.clips.records.map (fun c => .clipSummary { c with
          sent := c.sent + n .p c.number, proxySent := c.proxySent + n .x c.number, cause := some .restart }.summary) ∧
      (∀ l, (t.link l).readyLine = (s.link l).readyLine ∧ (t.link l).resetLine = (s.link l).resetLine ∧
        (∀ i header done, (s.link l).act = .frame i header done → done ≤ (s.store.frame i).height →
          (t.link l).sent = (s.link l).sent ++ [framePacket header (s.store.frame i) done] ∧
          (t.link l).act = .aborting (abortPacket (s.store.frame i) done)) ∧
        (∀ i header done, (s.link l).act = .frame i header done → (s.store.frame i).height < done →
          (t.link l).act = .closing (framePacket header (s.store.frame i) done)) ∧
        (∀ b, (s.link l).act = .report b → (t.link l).act = .report true) ∧
        ((s.link l).act = .free ∨ (∃ p, (s.link l).act = .closing p ∨ (s.link l).act = .aborting p) →
          t.link l = s.link l)) ∧
      t.pending = s.pending

/-! ### Output links (chapter 6) -/

/-- R109 to R112, R118, R122: the READY line takes its level and nothing else moves; a free link that may start nothing,
READY high or low, sends a FILL packet, and one that may start a frame or a report, or is not free, sends none; and a
FRAME ABORT sent frees its link, with a batch of the reports then queued on the P-link. Where the last two have nothing to
take the state is left (the model's choice, notes/assumptions/8.md). -/
def Obligations.LinkLinesFillAndAbort : Prop :=
  (∀ (l : LinkId) (level : Bool) (s : State),
    exec (.sinkReadyChange l level) s = .next (s.setLink l { s.link l with readyLine := level })) ∧
  (∀ (s : State) (o : OutLink), s.pLink.act = .free →
    (o = { s.pLink with readyLine := true } → (o.state = .ready ↔ s.pLink.resetLine = false)) ∧
    (o = { s.pLink with readyLine := false } → o.state = .notReady)) ∧
  (∀ (l : LinkId) (s : State), (s.link l).act = .free → (s.link l).resetLine = false → (s.link l).readyLine = false →
    s.dir.reports = [] → exec (.sendFill l) s = .next (s.emit l [[0x0D00#16, crc [0x0D00#16]]])) ∧
  (∀ s : State, s.pLink.act = .free → s.pLink.resetLine = false →
    (s.dir.reports = [] → s.pLink.readyLine = false ∨ s.store.pq = [] →
      exec (.sendFill .p) s = .next { s with
        pLink := { s.pLink with sent := s.pLink.sent ++ [[0x0D00#16, crc [0x0D00#16]]] } }) ∧
    (s.dir.reports ≠ [] ∨ (s.pLink.readyLine = true ∧ s.batch = 0 ∧ s.store.pq ≠ []) →
      exec (.sendFill .p) s = .next s)) ∧
  (∀ s : State, s.xLink.act = .free → s.xLink.resetLine = false →
    (s.xLink.readyLine = false ∨ s.store.xq = [] ∨
        (s.banks.act.valid = true ∧ s.pace < s.banks.act.record.nat 6) →
      exec (.sendFill .x) s = .next { s with
        xLink := { s.xLink with sent := s.xLink.sent ++ [[0x0D00#16, crc [0x0D00#16]]] } }) ∧
    (s.xLink.readyLine = true → s.store.xq ≠ [] → (s.banks.act.valid = true → s.banks.act.record.nat 6 ≤ s.pace) →
      exec (.sendFill .x) s = .next s)) ∧
  (∀ (l : LinkId) (s : State), (s.link l).resetLine = true ∨ (s.link l).act ≠ .free → exec (.sendFill l) s = .next s) ∧
  (∀ (l : LinkId) (p : Packet) (s : State), (s.link l).act = .aborting p → ∃ t, exec (.frameAbortSent l) s = .next t ∧
    t.link l = { s.link l with act := .free, sent := (s.link l).sent ++ [p] } ∧
    t.batch = (if l = .p then s.dir.reports.length else s.batch) ∧
    t.store = s.store ∧ t.clips = s.clips ∧ t.dir = s.dir ∧ t.flags = s.flags ∧ (∀ m, m ≠ l → t.link m = s.link m)) ∧
  (∀ (l : LinkId) (s : State), (∀ p, (s.link l).act ≠ .aborting p) → exec (.frameAbortSent l) s = .next s)

/-- R53, R120, R121: LINK RESET asserted abandons what is in flight, whose record returns to STORED at the head of its queue
with its fields, and on the P-link sets the batch count to 0. Released, it makes the P-link free with a batch of the reports
then queued. Neither touches the other link. That a release of a line already released changes nothing is the model's choice
(notes/assumptions/21.md), and so is what an assertion leaves of a FRAME CLOSE that a RESTART has counted
(notes/assumptions/31.md). -/
def Obligations.LinkResetAbandonsWhatIsInFlight : Prop :=
  (∀ (l : LinkId) (s : State), ∃ t, exec (.linkResetAsserted l) s = .next t ∧
    t.link l = { s.link l with act := .free, resetLine := true } ∧ (t.link l).state = .notReady ∧
    t.batch = (if l = .p then 0 else s.batch) ∧
    (∀ i header done, (s.link l).act = .frame i header done →
      t.store.frame i = { s.store.frame i with state := .stored } ∧ (∀ j, j ≠ i → t.store.frame j = s.store.frame j) ∧
      t.store.freePages = s.store.freePages ∧ t.store.pq = s.store.pq ∧ t.store.xq = s.store.xq) ∧
    ((∀ i header done, (s.link l).act ≠ .frame i header done) → t.store = s.store) ∧
    (∀ m, m ≠ l → t.link m = s.link m) ∧ t.dir = s.dir ∧ t.flags = s.flags ∧ t.clips = s.clips ∧ t.pace = s.pace ∧
    t.lastProxy = s.lastProxy ∧ t.time = s.time ∧ t.ingress = s.ingress ∧ t.banks = s.banks) ∧
  (∀ (l : LinkId) (s : State), (s.link l).resetLine = true → ∃ t, exec (.linkResetReleased l) s = .next t ∧
    t.link l = { s.link l with act := .free, resetLine := false } ∧
    t.batch = (if l = .p then s.dir.reports.length else s.batch) ∧
    (∀ m, m ≠ l → t.link m = s.link m) ∧ t.store = s.store ∧ t.dir = s.dir ∧ t.flags = s.flags ∧ t.clips = s.clips ∧
    t.pace = s.pace ∧ t.lastProxy = s.lastProxy ∧ t.time = s.time ∧ t.ingress = s.ingress ∧ t.banks = s.banks) ∧
  (∀ (l : LinkId) (s : State), (s.link l).resetLine = false → exec (.linkResetReleased l) s = .next s)

/-- R53, R111, R114, R115: the P-link starts the head principal exactly when it is READY, no report is owed to the batch and
the queue is not empty. The record goes from STORED to SENDING, and the link begins the output FRAME OPEN. Otherwise the
event has nothing to take (the model's choice, notes/assumptions/8.md). -/
def Obligations.PrincipalFrameStarts : Prop :=
  (∀ (i : RecNo) (rest : List RecNo) (r : FrameRecord) (part : ClipPart) (c : ClipRecord) (body : List Word)
    (s : State), s.pLink.act = .free → s.pLink.readyLine = true → s.pLink.resetLine = false → s.batch = 0 →
    s.store.pq = i :: rest → s.store.frame i = r → r.kind = .principal → r.part = some part →
    s.clips.records.find? (fun d => d.number == part.clip) = some c →
    body = [0x0D01#16, 1#16, word part.clip, word c.take, word c.part] ++ reelWords c.reel ++ words2 part.number ++
      labelWords (countToLabel c.rate c.df part.timecode) ++ [word (timecodeNat c.rate c.df)] ++
      labelWords (countToLabel c.rate c.df r.stamp.tod) ++ words2 r.stamp.phase ++ [word r.stamp.sub] ++
      words2 r.capture.toNat ++ [word r.flaws.setNat, word r.flaws.check, word r.flaws.missing, word r.flaws.excess,
        word r.width, word r.height, 0#16, 0#16, 0#16] →
    body.length = 28 ∧ exec .principalFrameStart s = .next
      { s with
        store := s.store.modify i (fun r => { r with state := .sending })
        pLink := { s.pLink with act := .frame i (body ++ [crc body]) 0 } }) ∧
  (∀ s : State, s.pLink.act ≠ .free ∨ s.pLink.readyLine = false ∨ s.pLink.resetLine = true ∨ s.batch ≠ 0 ∨
    s.store.pq = [] → exec .principalFrameStart s = .next s)

/-- R53, R112, R113, R115, R116: the X-link starts the head proxy exactly when it is READY, the pace count is at least the
pace interval and the queue is not empty. The record is SENDING with its started mark set, the pace count is 0, and the
output FRAME OPEN carries the skip count and the ramp step. Otherwise nothing is taken (notes/assumptions/8.md). -/
def Obligations.ProxyFrameStarts : Prop :=
  (∀ (i : RecNo) (rest : List RecNo) (r : FrameRecord) (part : ClipPart) (c : ClipRecord) (skip : Nat) (body : List Word)
    (s : State), s.xLink.act = .free → s.xLink.readyLine = true → s.xLink.resetLine = false →
    (s.banks.act.valid = true → s.banks.act.record.nat 6 ≤ s.pace) →
    s.store.xq = i :: rest → s.store.frame i = r → r.kind = .proxy → r.part = some part →
    s.clips.records.find? (fun d => d.number == part.clip) = some c →
    (c.proxySent = 0 → skip = part.number) →
    (∀ h, c.proxySent ≠ 0 → s.lastProxy = some h → skip = part.number - h - 1) →
    (c.proxySent ≠ 0 → s.lastProxy ≠ none) →
    body = [0x0D01#16, 2#16, word part.clip, word c.take, word c.part] ++ reelWords c.reel ++ words2 part.number ++
      labelWords (countToLabel c.rate c.df part.timecode) ++ [word (timecodeNat c.rate c.df)] ++
      labelWords (countToLabel c.rate c.df r.stamp.tod) ++ words2 r.stamp.phase ++ [word r.stamp.sub] ++
      words2 r.capture.toNat ++ [word r.flaws.setNat, word r.flaws.check, word r.flaws.missing, word r.flaws.excess,
        word r.width, word r.height] ++ words2 skip ++ [word (r.rampNote.getD 0)] →
    body.length = 28 ∧ exec .proxyFrameStart s = .next
      { s with
        store := s.store.modify i (fun r => { r with state := .sending, started := true })
        pace := 0
        xLink := { s.xLink with act := .frame i (body ++ [crc body]) 0 } }) ∧
  (∀ s : State, s.xLink.act ≠ .free ∨ s.xLink.readyLine = false ∨ s.xLink.resetLine = true ∨
    (s.banks.act.valid = true ∧ s.pace < s.banks.act.record.nat 6) ∨ s.store.xq = [] →
    exec .proxyFrameStart s = .next s)

/-- R54, R84, R114, R117, R118: the FRAME CLOSE of the frame in flight has been sent. The link has sent the rest of the
frame's packets and is free (that those not yet counted as sent are sent now is the model's choice,
notes/assumptions/3.md); the record leaves the head of its queue, whose flawed count falls by a flawed frame, and is FREE
with its pages returned; its clip counts the send, and settles when it was the last frame owed. R122: after a RESTART that
has counted it, a FRAME CLOSE sent frees its link alone, and the last proxy sent stays absent (deduced,
notes/assumptions/16.md). With no frame in flight nothing happens (notes/assumptions/8.md). -/
def Obligations.FrameSentFreesTheRecord : Prop :=
  (∀ (l : LinkId) (i : RecNo) (header : Packet) (done : Nat) (part : ClipPart) (c d : ClipRecord) (counted : Clips)
    (s : State),
    (s.link l).act = .frame i header done → (s.store.frame i).part = some part → c ∈ s.clips.records →
    c.number = part.clip → (∀ r ∈ s.clips.records, r.number = part.clip → r = c) →
    d = (match l with
      | .p => { c with sent := c.sent + 1 }
      | .x => { c with proxySent := c.proxySent + 1 }) →
    counted = { s.clips with records := s.clips.records.map fun r => if r.number = part.clip then d else r } →
    ∃ t, exec (.frameSent l) s = .next t ∧
      t.link l = { s.link l with
        act := .free
        sent := (s.link l).sent ++ ((List.range ((s.store.frame i).height + 2)).drop done).map
          (framePacket header (s.store.frame i)) } ∧
      (∀ m, m ≠ l → t.link m = s.link m) ∧ (t.store.frame i).state = .free ∧
      t.store.freePages = s.store.freePages + (s.store.frame i).pages ∧
      (∀ j, j ≠ i → t.store.frame j = { s.store.frame j with
        twin := if (s.store.frame j).twin = some i then none else (s.store.frame j).twin }) ∧
      t.store.pq = (if l = .p then s.store.pq.tail else s.store.pq) ∧
      t.store.xq = (if l = .x then s.store.xq.tail else s.store.xq) ∧
      t.store.pFlawed = s.store.pFlawed -
        (if l = .p ∧ (s.store.frame i).flaws ≠ ⟨false, 0, 0, 0⟩ then 1 else 0) ∧
      t.store.xFlawed = s.store.xFlawed -
        (if l = .x ∧ (s.store.frame i).flaws ≠ ⟨false, 0, 0, 0⟩ then 1 else 0) ∧
      t.lastProxy = (if l = .x then some part.number else s.lastProxy) ∧
      (l = .p → t.batch = t.dir.reports.length) ∧
      (¬ (c.state = .closing ∧ d.sent = c.joined ∧ d.proxySent + c.evicted = c.made) →
        t.clips = counted ∧ t.dir = s.dir ∧ t.flags = s.flags) ∧
      (c.state = .closing → d.sent = c.joined → d.proxySent + c.evicted = c.made →
        t.clips = { counted with records := counted.records.eraseP fun r => r.number == part.clip } ∧
        t.isSet .clipSettled ∧ (s.hasRoom 1 → .clipSummary d.summary ∈ t.dir.reports)) ∧
      t.ingress = s.ingress ∧ t.time = s.time ∧ t.render = s.render ∧ t.banks = s.banks ∧
      t.dir.queue = s.dir.queue ∧ t.pace = s.pace ∧ t.pending = s.pending) ∧
  (∀ (l : LinkId) (p : Packet) (s : State), (s.link l).act = .closing p → ∃ t, exec (.frameSent l) s = .next t ∧
    t.link l = { s.link l with act := .free, sent := (s.link l).sent ++ [p] } ∧ (∀ m, m ≠ l → t.link m = s.link m) ∧
    t.batch = (if l = .p then s.dir.reports.length else s.batch) ∧ t.store = s.store ∧ t.clips = s.clips ∧
    t.lastProxy = s.lastProxy ∧ t.dir = s.dir ∧ t.flags = s.flags ∧ t.ingress = s.ingress ∧ t.time = s.time ∧
    t.render = s.render ∧ t.banks = s.banks ∧ t.pace = s.pace ∧ t.pending = s.pending) ∧
  (∀ (l : LinkId) (s : State), (s.link l).act = .free ∨ (∃ b, (s.link l).act = .report b) →
    exec (.frameSent l) s = .next s)

/-- R118, R119, R163, R164: the P-link begins to send the head report, READY high or low, when it is free, LINK RESET is
released, and a batch is outstanding or no frame may start. A notice marker is filled with the flags as they stand, its
class returns to routine and the renotice mark is cleared; any other report is sent as it was made. That the mark is
cleared at a first start too (notes/assumptions/19.md), that this event begins a batch when none is outstanding
(notes/assumptions/18.md), and that it takes nothing where no report may start (notes/assumptions/8.md) are the model's
readings. -/
def Obligations.ReportStartFillsAMarker : Prop :=
  (∀ (r : Report) (rs : List Report) (s : State), s.pLink.act = .free → s.pLink.resetLine = false →
    s.dir.reports = r :: rs → s.batch ≠ 0 ∨ s.pLink.readyLine = false ∨ s.store.pq = [] →
    ∃ t, exec .reportStart s = .next t ∧ t.pLink = { s.pLink with act := .report false } ∧
      t.pLink.state = .sendingReport ∧ t.batch = (if s.batch = 0 then rs.length + 1 else s.batch) ∧
      (r.isMarker = true → t.dir = { s.dir with reports := .marker (some ⟨s.flags.raised, 0⟩) :: rs } ∧
        t.flags = { s.flags with markerClass := .routine, renotice := false }) ∧
      (r.isMarker = false → t.dir = s.dir ∧ t.flags = s.flags) ∧
      t.store = s.store ∧ t.clips = s.clips ∧ t.xLink = s.xLink ∧ t.pace = s.pace) ∧
  (∀ s : State, s.pLink.act ≠ .free ∨ s.pLink.resetLine = true ∨ s.dir.reports = [] ∨
    (s.batch = 0 ∧ s.pLink.readyLine = true ∧ s.store.pq ≠ []) → exec .reportStart s = .next s)

/-- R118, R119, R122, R164, R165: the last word of the report in flight has been sent. It leaves the queue, the link is
free, and each flag it listed with no setting event since is marked shown. The batch falls by 1, is 0 on an empty queue,
and is counted anew after a RESTART. After a NOTICE, the renotice mark places a marker. The mark of a report that a
RESTART has crossed is the model's (notes/assumptions/17.md), and with no report in flight the event takes nothing
(notes/assumptions/8.md). -/
def Obligations.ReportSentMarksFlagsShown : Prop :=
  (∀ (across : Bool) (r : Report) (rs : List Report) (s : State), s.pLink.act = .report across →
    s.dir.reports = r :: rs → ∃ t, exec .reportSent s = .next t ∧
      t.pLink = { s.pLink with act := .free, sent := s.pLink.sent ++ [r.packet] } ∧
      t.flags.shown = (match r with
        | .status _ c => s.flags.shown ||| (c.listed &&& ~~~c.later)
        | .marker (some c) => s.flags.shown ||| (c.listed &&& ~~~c.later)
        | _ => s.flags.shown) ∧
      t.flags.raised = s.flags.raised ∧
      (r.isMarker = false ∨ s.flags.renotice = false → t.dir = { s.dir with reports := rs } ∧
        t.batch = (if across then rs.length else if rs = [] then 0 else s.batch - 1) ∧
        t.flags.renotice = s.flags.renotice) ∧
      (r.isMarker = true → s.flags.renotice = true → rs.length < 32 → t.flags.renotice = false ∧
        t.dir.reports = (if s.flags.markerClass = .urgent then .marker none :: rs else rs ++ [.marker none])) ∧
      t.store = s.store ∧ t.clips = s.clips ∧ t.xLink = s.xLink ∧ t.pace = s.pace) ∧
  (∀ s : State, (∀ b, s.pLink.act ≠ .report b) ∨ s.dir.reports = [] → exec .reportSent s = .next s)

/-! ### Packets, gap lists and the store -/

/-- R3, R170: a packet sealed with its CRC has a good verdict, and it and its CRC, run together through the computation,
leave the register at 0. -/
def Obligations.SealedPacketsHaveAGoodVerdict : Prop :=
  ∀ ws : List Word, goodVerdict (ws ++ [crc ws]) = true ∧ crc (ws ++ [crc ws]) = 0#16

/-- R3, sections 10.1 and 10.2: decode and encode of the input packets agree, with every operand: a well-formed command that
is a packet of the input link comes back from its words, and every packet comes back from the command it spells. -/
def Obligations.PacketsDecodeToTheirCommands : Prop :=
  (∀ (c : Instr) (p : Packet) (o : BoundaryOrder) (d : List (List LinkEvent)), c.wellFormed = true →
    encodePacket c = some p → decodePacket o d p = (match c with
      | .frameOpen rest _ _ => .frameOpen rest o d
      | c => c)) ∧
  (∀ (p : Packet) (o : BoundaryOrder) (d : List (List LinkEvent)),
    encodePacket (decodePacket o d p) = some p ∧ (decodePacket o d p).wellFormed = true)

/-- R73: a gap entered in a sound gap list makes it cover exactly the numbers it covered and the gap. One that touches no run
of a list of 16 is not entered. -/
def Obligations.GapListCoversExactlyItsGaps : Prop :=
  ∀ (g : Nat) (gs : List GapRun) (covers : List GapRun → Nat → Prop), GapsSound gs →
    (∀ l n, covers l n ↔ ∃ r ∈ l, r.first ≤ n ∧ n < r.first + r.length) → ¬ covers gs g →
    (∀ hs, enterGap g (decide (gs.length < 16)) gs = some hs → GapsSound hs ∧ ∀ n, covers hs n ↔ covers gs n ∨ n = g) ∧
    (enterGap g (decide (gs.length < 16)) gs = none ↔
      gs.length = 16 ∧ ¬ covers gs (g + 1) ∧ ∀ n, n + 1 = g → ¬ covers gs n)

/-- R47, R72: while a principal is short with no ring pair to release, a FRAME OPEN evicts the newest proxy that is STORED
and was never started, one at a time, and goes on as on the state that leaves: the record is FREE and its pages return,
its clip counts the eviction and a gap and may settle, PROXY GAP is set. R46, R47, R48: while CACHING, a principal still
short with an empty ring and nothing to evict is not admitted: the port skips, no flag is set and no clip changes. A taken
FRAME OPEN whose principal is short while RECORDING, with nothing to evict and no link request taken meanwhile. It is not
admitted, the clip closes with cause STORE FULL, STORE FULL CUT is set, and the store keeps what it holds. -/
def Obligations.StoreFullCutsTheClip : Prop :=
  (∀ (rest : List Word) (o : BoundaryOrder) (i : RecNo) (before : List RecNo) (part : ClipPart) (c d : ClipRecord)
    (s : State), s.OpensFrame rest → s.InSequence rest → (∀ triggers, s.flags.snapshot ≠ .armed triggers) →
    s.clips.recordState = .recording ∨ (s.clips.recordState = .caching ∧ s.clips.ring = []) → s.Short →
    s.store.xq = before ++ [i] → (s.store.frame i).state = .stored → (s.store.frame i).started = false →
    (s.store.frame i).part = some part → c ∈ s.clips.records → c.number = part.clip →
    (∀ r ∈ s.clips.records, r.number = part.clip → r = c) →
    (∀ gaps, enterGap part.number (decide (c.gaps.length < 16)) c.gaps = some gaps →
      d = { c with evicted := c.evicted + 1, gapTotal := c.gapTotal + 1, gaps := gaps }) →
    (enterGap part.number (decide (c.gaps.length < 16)) c.gaps = none →
      d = { c with evicted := c.evicted + 1, gapTotal := c.gapTotal + 1, overflow := true }) →
    ∃ v, exec (.frameOpen rest o []) s = exec (.frameOpen rest o []) v ∧ (v.store.frame i).state = .free ∧
      v.store.freePages = s.store.freePages + (s.store.frame i).pages ∧ v.store.xq = before ∧
      v.store.pq = s.store.pq ∧ v.store.pFlawed = s.store.pFlawed ∧
      v.store.xFlawed = s.store.xFlawed - (if (s.store.frame i).flaws = ⟨false, 0, 0, 0⟩ then 0 else 1) ∧
      (∀ j, j ≠ i → v.store.frame j = { s.store.frame j with
        twin := if (s.store.frame j).twin = some i then none else (s.store.frame j).twin }) ∧
      v.isSet .proxyGap ∧
      (¬ (c.state = .closing ∧ c.sent = c.joined ∧ c.proxySent + d.evicted = c.made) →
        v.clips = { s.clips with records := s.clips.records.map fun r => if r.number = part.clip then d else r }) ∧
      (c.state = .closing → c.sent = c.joined → c.proxySent + d.evicted = c.made → v.isSet .clipSettled ∧
        v.clips = { s.clips with records := (s.clips.records.map fun r =>
          if r.number = part.clip then d else r).eraseP fun r => r.number == part.clip }) ∧
      v.ingress = s.ingress ∧ v.time = s.time ∧ v.render = s.render ∧ v.banks = s.banks ∧ v.dir.queue = s.dir.queue ∧
      v.pLink = s.pLink ∧ v.xLink = s.xLink ∧ v.pace = s.pace ∧ v.lastProxy = s.lastProxy ∧ v.pending = s.pending) ∧
  (∀ (rest : List Word) (o : BoundaryOrder) (s : State), s.OpensFrame rest → s.InSequence rest →
    s.clips.recordState = .caching → s.clips.ring = [] → s.Short → s.store.evictable = none →
    exec (.frameOpen rest o []) s = .next { s with
      ingress := {
        link := .streaming, frame := .skipping, lossCount := 0
        lastCapture := some (rest.getD 0 0 ++ rest.getD 1 0) }
      time := { s.time with
        lastSub := some (match s.time.lastSub with
          | none => 0
          | some i => min 15 (i + 1))
        lastInterval := s.time.interval, interval := 0 } }) ∧
  ∀ (rest : List Word) (o : BoundaryOrder) (c : ClipRecord) (s : State),
    s.ingress.link ≠ .down → goodVerdict (Kind.frameOpen.code :: rest) = true → rest.length = 5 →
    s.ingress.frame.noneOpen = true → s.dir.queue = [] → s.clips.actions = [] →
    s.clips.recordState = .recording → s.clips.openClip = some c →
    (∀ r ∈ s.clips.records, r.number = c.number ∨ r.state = .isOpen → r = c) →
    s.banks.act.valid = true →
    (rest.getD 2 0).toNat = s.banks.act.wi → (rest.getD 3 0).toNat = s.banks.act.hi →
    s.store.freePages < s.banks.pagesP ∨ (∀ j, (s.store.frame j).state ≠ .free) → s.store.evictable = none →
    ∃ t, exec (.frameOpen rest o []) s = .next t ∧ t.ingress.frame = .skipping ∧ t.isSet .storeFullCut ∧
      t.clips.hasOpen = false ∧ t.clips.recordState = (if s.clips.cacheMark then .caching else .standby) ∧
      (¬ (c.sent = c.joined ∧ c.proxySent + c.evicted = c.made) →
        { c with state := .closing, cause := some .storeFull } ∈ t.clips.records) ∧
      t.store = s.store ∧ t.render = s.render ∧ t.banks = s.banks ∧ t.pLink = s.pLink ∧ t.xLink = s.xLink

/-! ### Rendering (chapter 5) -/

/-- R91 to R95, R97, R100, R103, R104: the arithmetic of the renderer. A scaled sample is the sum of six taps, each
clamped into the crop, horizontally and vertically; a proxy row's samples go through tone, blend and overlay. Every output
position has its base inside the crop and one of 32 phases; a scaler sum is rounded toward minus infinity and clamped into
0 to 4095; a phase that sums to 256 returns a flat line unchanged; the tone output is the weighted average of two entries,
within 0 to 1023 for a valid curve; a blend lies between old and new and ends on the new curve; and the burn-in inks the
lit pixels of cell c, darkens or leaves its unlit ones, and leaves every pixel outside the boxes. -/
def Obligations.RenderArithmeticIsExact : Prop :=
  (∀ (u : FrameSetup) (kernel : Table) (line : Samples) (i p : Nat) (coeff : Nat → Int) (tap : Nat → Nat),
    i < 3 * u.wo → p = u.ox + i / 3 * u.sx →
    (∀ k, coeff k = (kernel.words.getD (6 * (p % 65536 / 2048) + k) 0).toInt) →
    (∀ k, tap k = line.getD (3 * (u.x0 + (max 0 (min ((u.wc : Int) - 1) ((p / 65536 : Nat) + (k : Int) - 2))).toNat) +
      i % 3) 0) →
    (hLine u kernel line).length = 3 * u.wo ∧ (hLine u kernel line).getD i 0 =
      scalerResult (coeff 0 * tap 0 + coeff 1 * tap 1 + coeff 2 * tap 2 + coeff 3 * tap 3 + coeff 4 * tap 4 +
        coeff 5 * tap 5)) ∧
  (∀ (banks : Banks) (b other : Bank) (u : FrameSetup) (r i p v : Nat) (coeff : Nat → Int) (tap : Nat → Nat),
    i < 3 * u.wo → b = banks.get u.bank → other = banks.get u.bank.other → p = u.oy + r * u.sy →
    (∀ k, coeff k = (b.vkernel.words.getD (6 * (p % 65536 / 2048) + k) 0).toInt) →
    (∀ k, tap k = ((u.held.lookup (max 0 (min ((u.hc : Int) - 1) ((p / 65536 : Nat) + (k : Int) - 2))).toNat).getD
      []).getD i 0) →
    v = scalerResult (coeff 0 * tap 0 + coeff 1 * tap 1 + coeff 2 * tap 2 + coeff 3 * tap 3 + coeff 4 * tap 4 +
      coeff 5 * tap 5) →
    (proxyRow banks u r).length = 3 * u.wo ∧ (proxyRow banks u r).getD i 0 =
      overlayStage b u.overlay (i / 3) r (match u.ramp with
        | none => toneOut b.tone (i % 3) v
        | some st => blend st (toneOut other.tone (i % 3) v) (toneOut b.tone (i % 3) v))) ∧
  (∀ crop proxy j sx ox p : Nat, proxy ≤ crop → j < proxy → sx = crop * 65536 / proxy → ox = (sx - 65536) / 2 →
    p = ox + j * sx → scalePosition (scaleStep crop proxy) (scaleOffset (scaleStep crop proxy)) j = p ∧
      basePosition p = p / 65536 ∧ basePosition p < crop ∧ phasePosition p = p % 65536 / 2048 ∧ phasePosition p < 32) ∧
  (∀ (b : Bank) (cells : List Nat) (x y c v scale : Nat), scale = b.overlayScale → c < 16 →
    b.originColumn + 12 * scale * c ≤ x → x < b.originColumn + 12 * scale * c + 12 * scale → b.originRow ≤ y →
    y < b.originRow + 20 * scale →
    overlayStage b (some cells) x y v =
      if (b.glyphRow (cells.getD c 0) ((y - b.originRow) / scale)).getLsbD
          (11 - (x - b.originColumn - 12 * scale * c) / scale) then b.ink
      else if b.darken then v / 4 else v) ∧
  (∀ (b : Bank) (cells : List Nat) (x y v : Nat), x < b.originColumn ∨ b.originColumn + 192 * b.overlayScale ≤ x ∨
    y < b.originRow ∨ b.originRow + 20 * b.overlayScale ≤ y → overlayStage b (some cells) x y v = v) ∧
  (∀ (b : Bank) (x y v : Nat), overlayStage b none x y v = v) ∧
  (∀ s : Int, scalerResult s = (max 0 (min 4095 (Int.fdiv (s + 128) 256))).toNat) ∧
  (∀ (cs : List Int) (v : Nat), cs.sum = 256 → v ≤ 4095 → scalerResult (scalerSum cs (List.replicate cs.length v)) = v) ∧
  (∀ (tone : Table) (t x : Nat), toneOut tone t x =
      (tone.curve t (x / 16) * (16 - x % 16) + tone.curve t (x / 16 + 1) * (x % 16) + 8) / 16 ∧
    (tone.curve t (x / 16) ≤ 1023 → tone.curve t (x / 16 + 1) ≤ 1023 → toneOut tone t x ≤ 1023)) ∧
  (∀ (k i old new : Nat), 1 ≤ i → i ≤ k →
    blend ⟨i, k⟩ old new = (old * (k - i) + new * i + k / 2) / k ∧
    min old new ≤ blend ⟨i, k⟩ old new ∧ blend ⟨i, k⟩ old new ≤ max old new ∧ blend ⟨k, k⟩ old new = new)
end

