-- ==== Sys2Proof/Laws/State.lean ====
section
/-! SUPPORT. Small laws of the state's updates: one lemma per field per update, true by rfl. -/

namespace Sys2Proof.Machine

open Sys2Proof

/-! ### Same blocks -/

theorem State.SameBlocks.refl (s : State) : s.SameBlocks s := by constructor <;> rfl

theorem State.SameBlocks.trans {s t u : State} (h : s.SameBlocks t) (k : t.SameBlocks u) : s.SameBlocks u := by
  constructor
  · exact k.ingress.trans h.ingress
  · exact k.time.trans h.time
  · exact k.store.trans h.store
  · exact k.clips.trans h.clips
  · exact k.render.trans h.render
  · exact k.banks.trans h.banks
  · exact k.queue.trans h.queue
  · exact k.pLink.trans h.pLink
  · exact k.xLink.trans h.xLink
  · exact k.pace.trans h.pace
  · exact k.lastProxy.trans h.lastProxy
  · exact k.drawn.trans h.drawn
  · exact k.pending.trans h.pending

/-! ### Links -/

variable (s : State) (l : LinkId) (o : OutLink) (a : Activity) (ps : List Packet)

@[simp] theorem State.setLink_ingress : (s.setLink l o).ingress = s.ingress := by cases l <;> rfl
@[simp] theorem State.setLink_time : (s.setLink l o).time = s.time := by cases l <;> rfl
@[simp] theorem State.setLink_store : (s.setLink l o).store = s.store := by cases l <;> rfl
@[simp] theorem State.setLink_clips : (s.setLink l o).clips = s.clips := by cases l <;> rfl
@[simp] theorem State.setLink_render : (s.setLink l o).render = s.render := by cases l <;> rfl
@[simp] theorem State.setLink_banks : (s.setLink l o).banks = s.banks := by cases l <;> rfl
@[simp] theorem State.setLink_dir : (s.setLink l o).dir = s.dir := by cases l <;> rfl
@[simp] theorem State.setLink_flags : (s.setLink l o).flags = s.flags := by cases l <;> rfl
@[simp] theorem State.setLink_batch : (s.setLink l o).batch = s.batch := by cases l <;> rfl
@[simp] theorem State.setLink_pace : (s.setLink l o).pace = s.pace := by cases l <;> rfl
@[simp] theorem State.setLink_lastProxy : (s.setLink l o).lastProxy = s.lastProxy := by cases l <;> rfl
@[simp] theorem State.setLink_drawn : (s.setLink l o).drawn = s.drawn := by cases l <;> rfl
@[simp] theorem State.setLink_pending : (s.setLink l o).pending = s.pending := by cases l <;> rfl
@[simp] theorem State.setLink_link : (s.setLink l o).link l = o := by cases l <;> rfl

@[simp] theorem State.setAct_ingress : (s.setAct l a).ingress = s.ingress := by cases l <;> rfl
@[simp] theorem State.setAct_time : (s.setAct l a).time = s.time := by cases l <;> rfl
@[simp] theorem State.setAct_store : (s.setAct l a).store = s.store := by cases l <;> rfl
@[simp] theorem State.setAct_clips : (s.setAct l a).clips = s.clips := by cases l <;> rfl
@[simp] theorem State.setAct_render : (s.setAct l a).render = s.render := by cases l <;> rfl
@[simp] theorem State.setAct_banks : (s.setAct l a).banks = s.banks := by cases l <;> rfl
@[simp] theorem State.setAct_dir : (s.setAct l a).dir = s.dir := by cases l <;> rfl
@[simp] theorem State.setAct_flags : (s.setAct l a).flags = s.flags := by cases l <;> rfl
@[simp] theorem State.setAct_batch : (s.setAct l a).batch = s.batch := by cases l <;> rfl
@[simp] theorem State.setAct_pace : (s.setAct l a).pace = s.pace := by cases l <;> rfl
@[simp] theorem State.setAct_lastProxy : (s.setAct l a).lastProxy = s.lastProxy := by cases l <;> rfl
@[simp] theorem State.setAct_drawn : (s.setAct l a).drawn = s.drawn := by cases l <;> rfl
@[simp] theorem State.setAct_pending : (s.setAct l a).pending = s.pending := by cases l <;> rfl

@[simp] theorem State.emit_ingress : (s.emit l ps).ingress = s.ingress := by cases l <;> rfl
@[simp] theorem State.emit_time : (s.emit l ps).time = s.time := by cases l <;> rfl
@[simp] theorem State.emit_store : (s.emit l ps).store = s.store := by cases l <;> rfl
@[simp] theorem State.emit_clips : (s.emit l ps).clips = s.clips := by cases l <;> rfl
@[simp] theorem State.emit_render : (s.emit l ps).render = s.render := by cases l <;> rfl
@[simp] theorem State.emit_banks : (s.emit l ps).banks = s.banks := by cases l <;> rfl
@[simp] theorem State.emit_dir : (s.emit l ps).dir = s.dir := by cases l <;> rfl
@[simp] theorem State.emit_flags : (s.emit l ps).flags = s.flags := by cases l <;> rfl
@[simp] theorem State.emit_batch : (s.emit l ps).batch = s.batch := by cases l <;> rfl
@[simp] theorem State.emit_pace : (s.emit l ps).pace = s.pace := by cases l <;> rfl
@[simp] theorem State.emit_lastProxy : (s.emit l ps).lastProxy = s.lastProxy := by cases l <;> rfl
@[simp] theorem State.emit_drawn : (s.emit l ps).drawn = s.drawn := by cases l <;> rfl
@[simp] theorem State.emit_pending : (s.emit l ps).pending = s.pending := by cases l <;> rfl

@[simp] theorem State.freeLink_ingress : (s.freeLink l).ingress = s.ingress := by cases l <;> rfl
@[simp] theorem State.freeLink_time : (s.freeLink l).time = s.time := by cases l <;> rfl
@[simp] theorem State.freeLink_store : (s.freeLink l).store = s.store := by cases l <;> rfl
@[simp] theorem State.freeLink_clips : (s.freeLink l).clips = s.clips := by cases l <;> rfl
@[simp] theorem State.freeLink_render : (s.freeLink l).render = s.render := by cases l <;> rfl
@[simp] theorem State.freeLink_banks : (s.freeLink l).banks = s.banks := by cases l <;> rfl
@[simp] theorem State.freeLink_dir : (s.freeLink l).dir = s.dir := by cases l <;> rfl
@[simp] theorem State.freeLink_flags : (s.freeLink l).flags = s.flags := by cases l <;> rfl
@[simp] theorem State.freeLink_pace : (s.freeLink l).pace = s.pace := by cases l <;> rfl
@[simp] theorem State.freeLink_lastProxy : (s.freeLink l).lastProxy = s.lastProxy := by cases l <;> rfl
@[simp] theorem State.freeLink_drawn : (s.freeLink l).drawn = s.drawn := by cases l <;> rfl
@[simp] theorem State.freeLink_pending : (s.freeLink l).pending = s.pending := by cases l <;> rfl

/-! ### The frame-in-progress state -/

variable (f : FrameState)

@[simp] theorem State.setFrame_ingress : (s.setFrame f).ingress = { s.ingress with frame := f } := rfl
@[simp] theorem State.setFrame_time : (s.setFrame f).time = s.time := rfl
@[simp] theorem State.setFrame_store : (s.setFrame f).store = s.store := rfl
@[simp] theorem State.setFrame_clips : (s.setFrame f).clips = s.clips := rfl
@[simp] theorem State.setFrame_render : (s.setFrame f).render = s.render := rfl
@[simp] theorem State.setFrame_banks : (s.setFrame f).banks = s.banks := rfl
@[simp] theorem State.setFrame_dir : (s.setFrame f).dir = s.dir := rfl
@[simp] theorem State.setFrame_flags : (s.setFrame f).flags = s.flags := rfl
@[simp] theorem State.setFrame_pLink : (s.setFrame f).pLink = s.pLink := rfl
@[simp] theorem State.setFrame_xLink : (s.setFrame f).xLink = s.xLink := rfl
@[simp] theorem State.setFrame_batch : (s.setFrame f).batch = s.batch := rfl
@[simp] theorem State.setFrame_pace : (s.setFrame f).pace = s.pace := rfl
@[simp] theorem State.setFrame_lastProxy : (s.setFrame f).lastProxy = s.lastProxy := rfl
@[simp] theorem State.setFrame_drawn : (s.setFrame f).drawn = s.drawn := rfl
@[simp] theorem State.setFrame_pending : (s.setFrame f).pending = s.pending := rfl

/-! ### The split-pending mark -/

@[simp] theorem Clips.setSplit_records (c : Clips) (m : Bool) : (c.setSplit m).records = c.records := rfl
@[simp] theorem Clips.setSplit_ring (c : Clips) (m : Bool) : (c.setSplit m).ring = c.ring := rfl
@[simp] theorem Clips.setSplit_recordState (c : Clips) (m : Bool) : (c.setSplit m).recordState = c.recordState := rfl
@[simp] theorem Clips.setSplit_cacheMark (c : Clips) (m : Bool) : (c.setSplit m).cacheMark = c.cacheMark := rfl
@[simp] theorem Clips.setSplit_actions (c : Clips) (m : Bool) : (c.setSplit m).actions = c.actions := rfl
@[simp] theorem Clips.setSplit_nextNumber (c : Clips) (m : Bool) : (c.setSplit m).nextNumber = c.nextNumber := rfl
@[simp] theorem Clips.fallback_records (c : Clips) : c.fallback.records = c.records := rfl
@[simp] theorem Clips.fallback_ring (c : Clips) : c.fallback.ring = c.ring := rfl
@[simp] theorem Clips.fallback_actions (c : Clips) : c.fallback.actions = c.actions := rfl
@[simp] theorem Clips.fallback_cacheMark (c : Clips) : c.fallback.cacheMark = c.cacheMark := rfl

end Sys2Proof.Machine
end

