-- ==== Sys2Proof/Laws/Flags.lean ====
section
/-! SUPPORT. What setting a flag, calling for a notice and placing a report can change: each leaves every other block as
it is, and keeps the bounds of the Directive Unit. -/

namespace Sys2Proof.Machine

open Sys2Proof

/-! ### Every other block is left -/

theorem State.placed_same (rs : List Report) (s : State) : s.SameBlocks (s.placed rs) := by constructor <;> rfl

theorem State.placeMarker_same (s : State) : s.SameBlocks s.placeMarker := by
  unfold State.placeMarker
  split
  · split <;> exact placed_same _ _
  · constructor <;> rfl

theorem State.raiseClass_same (c : NoticeClass) (s : State) : s.SameBlocks (s.raiseClass c) := by
  cases c <;> constructor <;> rfl

theorem State.promoteMarker_same (s : State) : s.SameBlocks s.promoteMarker := by
  unfold State.promoteMarker
  split
  · constructor <;> rfl
  · exact .refl s

theorem State.callNotice_same (c : NoticeClass) (s : State) : s.SameBlocks (s.callNotice c) := by
  unfold State.callNotice
  split
  · exact (raiseClass_same c s).trans (placeMarker_same _)
  · split
    · exact (raiseClass_same _ s).trans (promoteMarker_same _)
    · exact .refl s
  · exact raiseClass_same c s
  · refine (raiseClass_same c s).trans ?_
    constructor <;> rfl

theorem State.markSet_same (f : Flag) (s : State) : s.SameBlocks (s.markSet f) := by constructor <;> rfl

theorem State.setFlagNotice_same (f : Flag) (s : State) : s.SameBlocks (s.setFlagNotice f) := by
  unfold State.setFlagNotice
  split
  · exact (markSet_same f s).trans (callNotice_same _ _)
  · exact markSet_same f s

theorem State.capture_same (f : Flag) (s : State) : s.SameBlocks (s.capture f) := by
  unfold State.capture
  refine State.SameBlocks.trans ?_ (setFlagNotice_same _ _)
  constructor <;> rfl

/-- A setting event changes the Flag Unit, the report queue and the batch count alone (R161). -/
theorem State.setFlag_same (f : Flag) (s : State) : s.SameBlocks (s.setFlag f) := by
  unfold State.setFlag
  refine (setFlagNotice_same f s).trans ?_
  dsimp only
  split
  · split
    · exact capture_same _ _
    · exact .refl _
  · exact .refl _

/-- Placing a report changes the Flag Unit, the report queue and the batch count alone (R153). -/
theorem State.placeReport_same (r : Report) (s : State) : s.SameBlocks (s.placeReport r) := by
  unfold State.placeReport
  split
  · exact placed_same _ _
  · exact setFlag_same _ _

theorem State.respond_same (tag : Byte) (code : Word) (o : DirOutcome) (c : FlagSet) (s : State) :
    s.SameBlocks (s.respond tag code o c) := placeReport_same _ _

theorem State.renotice_same (s : State) : s.SameBlocks s.renotice := by
  unfold State.renotice
  split
  · refine State.SameBlocks.trans ?_ (placeMarker_same _)
    constructor <;> rfl
  · exact .refl s

theorem State.reportShown_same (r : Report) (s : State) : s.SameBlocks (s.reportShown r) := by
  have h : ∀ u : FlagUnit, s.SameBlocks { s with flags := u } := fun u => by constructor <;> rfl
  unfold State.reportShown
  cases r.content <;> dsimp only <;> split
  · exact renotice_same s
  · exact .refl s
  · exact (h _).trans (renotice_same _)
  · exact h _

/-! ### The same, field by field -/

section
variable (f : Flag) (s : State) (r : Report)

@[simp] theorem State.setFlag_ingress : (s.setFlag f).ingress = s.ingress := (setFlag_same f s).ingress
@[simp] theorem State.setFlag_time : (s.setFlag f).time = s.time := (setFlag_same f s).time
@[simp] theorem State.setFlag_store : (s.setFlag f).store = s.store := (setFlag_same f s).store
@[simp] theorem State.setFlag_clips : (s.setFlag f).clips = s.clips := (setFlag_same f s).clips
@[simp] theorem State.setFlag_render : (s.setFlag f).render = s.render := (setFlag_same f s).render
@[simp] theorem State.setFlag_banks : (s.setFlag f).banks = s.banks := (setFlag_same f s).banks
@[simp] theorem State.setFlag_queue : (s.setFlag f).dir.queue = s.dir.queue := (setFlag_same f s).queue
@[simp] theorem State.setFlag_pLink : (s.setFlag f).pLink = s.pLink := (setFlag_same f s).pLink
@[simp] theorem State.setFlag_xLink : (s.setFlag f).xLink = s.xLink := (setFlag_same f s).xLink
@[simp] theorem State.setFlag_pace : (s.setFlag f).pace = s.pace := (setFlag_same f s).pace
@[simp] theorem State.setFlag_lastProxy : (s.setFlag f).lastProxy = s.lastProxy := (setFlag_same f s).lastProxy
@[simp] theorem State.setFlag_drawn : (s.setFlag f).drawn = s.drawn := (setFlag_same f s).drawn
@[simp] theorem State.setFlag_pending : (s.setFlag f).pending = s.pending := (setFlag_same f s).pending

@[simp] theorem State.placeReport_ingress : (s.placeReport r).ingress = s.ingress := (placeReport_same r s).ingress
@[simp] theorem State.placeReport_time : (s.placeReport r).time = s.time := (placeReport_same r s).time
@[simp] theorem State.placeReport_store : (s.placeReport r).store = s.store := (placeReport_same r s).store
@[simp] theorem State.placeReport_clips : (s.placeReport r).clips = s.clips := (placeReport_same r s).clips
@[simp] theorem State.placeReport_render : (s.placeReport r).render = s.render := (placeReport_same r s).render
@[simp] theorem State.placeReport_banks : (s.placeReport r).banks = s.banks := (placeReport_same r s).banks
@[simp] theorem State.placeReport_queue : (s.placeReport r).dir.queue = s.dir.queue := (placeReport_same r s).queue
@[simp] theorem State.placeReport_pLink : (s.placeReport r).pLink = s.pLink := (placeReport_same r s).pLink
@[simp] theorem State.placeReport_xLink : (s.placeReport r).xLink = s.xLink := (placeReport_same r s).xLink
@[simp] theorem State.placeReport_pace : (s.placeReport r).pace = s.pace := (placeReport_same r s).pace
@[simp] theorem State.placeReport_lastProxy : (s.placeReport r).lastProxy = s.lastProxy :=
  (placeReport_same r s).lastProxy
@[simp] theorem State.placeReport_drawn : (s.placeReport r).drawn = s.drawn := (placeReport_same r s).drawn
@[simp] theorem State.placeReport_pending : (s.placeReport r).pending = s.pending := (placeReport_same r s).pending

variable (tag : Byte) (code : Word) (o : DirOutcome) (c : FlagSet)

@[simp] theorem State.respond_ingress : (s.respond tag code o c).ingress = s.ingress := placeReport_ingress _ _
@[simp] theorem State.respond_time : (s.respond tag code o c).time = s.time := placeReport_time _ _
@[simp] theorem State.respond_store : (s.respond tag code o c).store = s.store := placeReport_store _ _
@[simp] theorem State.respond_clips : (s.respond tag code o c).clips = s.clips := placeReport_clips _ _
@[simp] theorem State.respond_render : (s.respond tag code o c).render = s.render := placeReport_render _ _
@[simp] theorem State.respond_banks : (s.respond tag code o c).banks = s.banks := placeReport_banks _ _
@[simp] theorem State.respond_queue : (s.respond tag code o c).dir.queue = s.dir.queue := placeReport_queue _ _
@[simp] theorem State.respond_pLink : (s.respond tag code o c).pLink = s.pLink := placeReport_pLink _ _
@[simp] theorem State.respond_xLink : (s.respond tag code o c).xLink = s.xLink := placeReport_xLink _ _
@[simp] theorem State.respond_pace : (s.respond tag code o c).pace = s.pace := placeReport_pace _ _
@[simp] theorem State.respond_lastProxy : (s.respond tag code o c).lastProxy = s.lastProxy := placeReport_lastProxy _ _
@[simp] theorem State.respond_drawn : (s.respond tag code o c).drawn = s.drawn := placeReport_drawn _ _
@[simp] theorem State.respond_pending : (s.respond tag code o c).pending = s.pending := placeReport_pending _ _
end

/-! ### Which flags are set -/

theorem Flag.isIn_bit (f : Flag) : f.isIn f.bit = true := by cases f <;> decide

theorem Flag.isIn_or (f : Flag) (a b : FlagSet) : f.isIn (a ||| b) = (f.isIn a || f.isIn b) := by
  simp [Flag.isIn, BitVec.getLsbD_or]

theorem State.callNotice_raised (c : NoticeClass) (s : State) : (s.callNotice c).flags.raised = s.flags.raised := by
  have hr : ∀ c (s : State), (s.raiseClass c).flags.raised = s.flags.raised := by intro c s; cases c <;> rfl
  have hp : ∀ s : State, s.placeMarker.flags = s.flags := by
    intro s; unfold State.placeMarker; split
    · split <;> rfl
    · rfl
  have hm : ∀ s : State, s.promoteMarker.flags = s.flags := by
    intro s; unfold State.promoteMarker; split <;> rfl
  unfold State.callNotice
  split
  · rw [hp, hr]
  · split
    · rw [hm, hr]
    · rfl
  · exact hr _ _
  · exact hr _ _

theorem State.setFlagNotice_raised (f : Flag) (s : State) :
    (s.setFlagNotice f).flags.raised = s.flags.raised ||| f.bit := by
  unfold State.setFlagNotice; split
  · rw [callNotice_raised]; rfl
  · rfl

/-- Which flags are set after a setting event: the flag, and SNAPSHOT TAKEN when it triggered a capture (R161, R167). -/
theorem State.setFlag_raised (f : Flag) (s : State) :
    (s.setFlag f).flags.raised = s.flags.raised ||| f.bit ∨
      (s.setFlag f).flags.raised = s.flags.raised ||| f.bit ||| Flag.snapshotTaken.bit := by
  unfold State.setFlag
  dsimp only
  split
  · split
    · right; unfold State.capture; rw [setFlagNotice_raised]; exact congrArg (· ||| _) (setFlagNotice_raised f s)
    · left; exact setFlagNotice_raised f s
  · left; exact setFlagNotice_raised f s

theorem State.setFlag_isSet (f : Flag) (s : State) : (s.setFlag f).isSet f := by
  unfold State.isSet
  rcases setFlag_raised f s with h | h <;> rw [h] <;> simp [Flag.isIn_or, Flag.isIn_bit]

/-- A setting event clears no flag. -/
theorem State.setFlag_mono (f g : Flag) {s : State} (h : s.isSet g) : (s.setFlag f).isSet g := by
  unfold State.isSet at *
  rcases setFlag_raised f s with e | e <;> rw [e] <;> simp [Flag.isIn_or, h]

theorem State.placeReport_mono (r : Report) (g : Flag) {s : State} (h : s.isSet g) : (s.placeReport r).isSet g := by
  unfold State.placeReport
  split
  · exact h
  · exact setFlag_mono _ _ h

/-! ### Placing a report where there is room -/

/-- A report offered to a queue with room is placed at its tail (R153). -/
theorem State.placeReport_room {s : State} (r : Report) (h : s.hasRoom 1) : s.placeReport r = s.withReport r := by
  have : s.dir.reports.length < Config.reportQueueDepth := h
  simp [State.placeReport, this, State.placed, State.withReport]

/-- The response to a directive, where there is room. -/
theorem State.respond_room {s : State} (tag : Byte) (c : DirCode) (o : DirOutcome) (h : s.hasRoom 1) :
    s.respond tag c.word o 0 = s.withReport (.reply tag c o) := placeReport_room _ h

/-- All that placing a report can do. -/
theorem State.placeReport_offered (r : Report) (s : State) : s.Offered r (s.placeReport r) := by
  refine ⟨placeReport_same _ _, placeReport_room r, fun h => ?_⟩
  have : ¬ s.dir.reports.length < Config.reportQueueDepth := h
  simp [placeReport, this]

/-- All that placing a response can do. -/
theorem State.respond_offered (tag : Byte) (code : Word) (o : DirOutcome) (c : FlagSet) (s : State) :
    s.Offered (.response tag code o c) (s.respond tag code o c) := placeReport_offered _ s

/-! ### The bounds of the Directive Unit are kept -/

/-- How many markers are queued, in flight or owed: at most one in a good state (R154). -/
def DirectiveUnit.markers (d : DirectiveUnit) : Nat := d.reports.countP Report.isMarker + d.markerWaiting.toNat

theorem Report.isMarker_addLater (f : FlagSet) (r : Report) : (r.addLater f).isMarker = r.isMarker := by
  cases r with
  | marker c => cases c <;> rfl
  | _ => rfl

theorem Report.isMarker_filled (f : FlagSet) (r : Report) : (r.filled f).isMarker = r.isMarker := by cases r <;> rfl

theorem DirectiveUnit.Law.placeMarker {s : State} (h : s.dir.Law) (none : s.dir.markers = 0) :
    s.placeMarker.dir.Law := by
  obtain ⟨hq, hr, -⟩ := h
  simp only [DirectiveUnit.markers, Nat.add_eq_zero_iff] at none
  unfold State.placeMarker
  split
  case isTrue hlt =>
    split
    all_goals refine ⟨hq, ?_, ?_⟩
    · simp only [State.placed, State.atHead]
      split <;> simp_all
    · simp only [State.placed, State.atHead]
      split <;> simp_all [List.countP_cons, Report.isMarker]
    · simp only [State.placed, List.length_append, List.length_singleton]; omega
    · simp [State.placed, List.countP_append, List.countP_cons, Report.isMarker, none]
  case isFalse hlt => exact ⟨hq, hr, by simp [none.1]⟩

theorem DirectiveUnit.Law.raiseClass {s : State} (h : s.dir.Law) (c : NoticeClass) : (s.raiseClass c).dir.Law := by
  cases c <;> exact h

theorem State.raiseClass_dir (c : NoticeClass) (s : State) : (s.raiseClass c).dir = s.dir := by cases c <;> rfl

theorem DirectiveUnit.Law.promoteMarker {s : State} (h : s.dir.Law) : s.promoteMarker.dir.Law := by
  unfold State.promoteMarker
  split
  case h_1 m hm =>
    obtain ⟨hq, hr, hm1⟩ := h
    have hmem := List.mem_of_find?_eq_some hm
    have hmk : m.isMarker = true := List.find?_some hm
    have hlen := List.length_eraseP_of_mem hmem hmk
    have hpos : 0 < s.dir.reports.length := List.length_pos_of_mem hmem
    have hperm : ∀ rs, (s.atHead m rs).Perm (m :: rs) := by
      intro rs
      unfold State.atHead
      split
      · exact List.Perm.swap _ _ _
      · exact .refl _
    have hc : s.dir.reports.countP Report.isMarker
        = (s.dir.reports.eraseP Report.isMarker).countP Report.isMarker + 1 := by
      obtain ⟨a, l₁, l₂, -, ha, hl, he⟩ := List.exists_of_eraseP hmem hmk
      rw [he, hl]
      simp [List.countP_append, ha]
      omega
    refine ⟨hq, ?_, ?_⟩
    · show (s.atHead m _).length ≤ _
      rw [(hperm _).length_eq, List.length_cons, hlen]; omega
    · show (s.atHead m _).countP _ + _ ≤ 1
      rw [(hperm _).countP_eq, List.countP_cons]
      simp only [hmk, if_true]
      show _ + s.dir.markerWaiting.toNat ≤ 1
      omega
  case h_2 => exact h

theorem State.markers_of_nowhere {s : State} (h : s.markerPlace = .nowhere) : s.dir.markers = 0 := by
  unfold State.markerPlace at h
  split at h <;> try contradiction
  split at h <;> try contradiction
  split at h <;> try contradiction
  rename_i h1 h2
  have h1 : ∀ r ∈ s.dir.reports, ¬ r.isMarker = true := by simpa using h1
  simp [DirectiveUnit.markers, List.countP_eq_zero.mpr h1, h2]

theorem DirectiveUnit.Law.callNotice {s : State} (h : s.dir.Law) (c : NoticeClass) : (s.callNotice c).dir.Law := by
  unfold State.callNotice
  split
  case h_1 hp =>
    apply DirectiveUnit.Law.placeMarker (h.raiseClass c)
    rw [State.raiseClass_dir]
    exact State.markers_of_nowhere hp
  case h_2 =>
    split
    · exact (h.raiseClass _).promoteMarker
    · exact h
  case h_3 => exact h.raiseClass c
  case h_4 => exact h.raiseClass c

theorem DirectiveUnit.Law.markSet {s : State} (h : s.dir.Law) (f : Flag) : (s.markSet f).dir.Law := by
  obtain ⟨hq, hr, hm⟩ := h
  refine ⟨hq, by simpa [State.markSet] using hr, ?_⟩
  have : (Report.isMarker ∘ Report.addLater f.bit) = Report.isMarker := by
    funext r; exact Report.isMarker_addLater _ r
  simpa [State.markSet, List.countP_map, this] using hm

theorem DirectiveUnit.Law.setFlagNotice {s : State} (h : s.dir.Law) (f : Flag) : (s.setFlagNotice f).dir.Law := by
  unfold State.setFlagNotice
  split
  · exact (h.markSet f).callNotice _
  · exact h.markSet f

theorem DirectiveUnit.Law.setFlag {s : State} (h : s.dir.Law) (f : Flag) : (s.setFlag f).dir.Law := by
  unfold State.setFlag
  have h' := h.setFlagNotice f
  dsimp only
  split
  · split
    · unfold State.capture
      exact DirectiveUnit.Law.setFlagNotice
        (s := { s.setFlagNotice f with
          flags := { (s.setFlagNotice f).flags with
            snapshot := .captured ((s.setFlagNotice f).snapshotRecord f) } }) h' _
    · exact h'
  · exact h'

/-- Placing a report that is no marker keeps the bounds of the Directive Unit (R153, R154). -/
theorem DirectiveUnit.Law.placeReport {s : State} (h : s.dir.Law) {r : Report} (hr : r.isMarker = false) :
    (s.placeReport r).dir.Law := by
  unfold State.placeReport
  split
  · obtain ⟨hq, hl, hm⟩ := h
    refine ⟨hq, by simp [State.placed]; omega, ?_⟩
    simpa [State.placed, List.countP_append, List.countP_cons, hr] using hm
  · exact h.setFlag _

theorem DirectiveUnit.Law.respond {s : State} (h : s.dir.Law) (tag : Byte) (code : Word) (o : DirOutcome)
    (c : FlagSet) : (s.respond tag code o c).dir.Law := h.placeReport rfl

end Sys2Proof.Machine
end

