-- ==== Sys2Proof/Laws/Store.lean ====
section
/-! SUPPORT. The Store Manager's operations, each with what it leaves of the other fields, and the law of R40. -/

namespace Sys2Proof.Machine

open Sys2Proof

/-! ### Reading one record after an operation -/

section
variable (s : Store) (i j : RecNo) (r : FrameRecord) (f : FrameRecord → FrameRecord)

theorem Store.frame_eq : s.frame i = s.table[i] := rfl

theorem Store.modify_frame : (s.modify i f).frame j = if i = j then f (s.frame i) else s.frame j := by
  simp only [Store.modify, Store.frame, Fin.getElem_fin, Vector.getElem_set, Fin.ext_iff]

@[simp] theorem Store.modify_frame_self : (s.modify i f).frame i = f (s.frame i) := by simp [Store.modify_frame]

theorem Store.modify_frame_ne {i j : RecNo} (h : i ≠ j) : (s.modify i f).frame j = s.frame j := by
  simp [Store.modify_frame, h]

@[simp] theorem Store.modify_freePages : (s.modify i f).freePages = s.freePages := rfl
@[simp] theorem Store.modify_pq : (s.modify i f).pq = s.pq := rfl
@[simp] theorem Store.modify_xq : (s.modify i f).xq = s.xq := rfl
@[simp] theorem Store.modify_pFlawed : (s.modify i f).pFlawed = s.pFlawed := rfl
@[simp] theorem Store.modify_xFlawed : (s.modify i f).xFlawed = s.xFlawed := rfl

theorem Store.reserve_frame : (s.reserve i r).frame j = if i = j then r else s.frame j := by
  simp only [Store.reserve, Store.frame, Fin.getElem_fin, Vector.getElem_set, Fin.ext_iff]

@[simp] theorem Store.reserve_frame_self : (s.reserve i r).frame i = r := by simp [Store.reserve_frame]

/-- What a release leaves of each record: the one released blank, the others without a twin field that named it. -/
theorem Store.release_frame :
    (s.release i).frame j = if i = j then .blank else (s.frame j).dropTwin i := by
  simp only [Store.release, Store.frame, Fin.getElem_fin, Vector.getElem_set, Vector.getElem_map, Fin.ext_iff]

@[simp] theorem Store.release_pq : (s.release i).pq = s.pq := rfl
@[simp] theorem Store.release_xq : (s.release i).xq = s.xq := rfl
@[simp] theorem Store.release_pFlawed : (s.release i).pFlawed = s.pFlawed := rfl
@[simp] theorem Store.release_xFlawed : (s.release i).xFlawed = s.xFlawed := rfl
@[simp] theorem Store.release_freePages : (s.release i).freePages = s.freePages + (s.frame i).pages := rfl

@[simp] theorem FrameRecord.dropTwin_pages : (r.dropTwin i).pages = r.pages := by
  unfold FrameRecord.dropTwin; split <;> rfl
@[simp] theorem FrameRecord.dropTwin_state : (r.dropTwin i).state = r.state := by
  unfold FrameRecord.dropTwin; split <;> rfl
@[simp] theorem FrameRecord.dropTwin_isFree : (r.dropTwin i).isFree = r.isFree := by
  simp [FrameRecord.isFree]
@[simp] theorem FrameRecord.dropTwin_lines : (r.dropTwin i).lines = r.lines := by
  unfold FrameRecord.dropTwin; split <;> rfl
@[simp] theorem FrameRecord.dropTwin_part : (r.dropTwin i).part = r.part := by
  unfold FrameRecord.dropTwin; split <;> rfl
end

/-- The record found is FREE, and every lower-numbered one is not (R49). -/
theorem Store.lowestFree_some {s : Store} {i : RecNo} (h : s.lowestFree = some i) :
    (s.frame i).isFree = true ∧ ∀ j < i, (s.frame j).isFree = false := by
  unfold Store.lowestFree at h
  obtain ⟨hi, as, bs, hl, hlt⟩ := List.find?_eq_some_iff_append.mp h
  refine ⟨hi, fun j hj => ?_⟩
  have hsorted : (List.finRange Config.frameRecords).Pairwise (· < ·) := List.pairwise_lt_finRange _
  have hmem : j ∈ List.finRange Config.frameRecords := List.mem_finRange j
  rw [hl] at hsorted hmem
  have hs := (List.pairwise_append.mp hsorted).2.1
  rcases List.mem_append.mp hmem with hm | hm
  · simpa using hlt j hm
  · rcases List.mem_cons.mp hm with rfl | hm
    · exact absurd hj (lt_irrefl _)
    · exact absurd hj (lt_asymm ((List.pairwise_cons.mp hs).1 j hm))

/-! ### The law of R40 -/

/-- The pages of every record, FREE ones included. -/
def Store.allPages (s : Store) : Nat := (s.table.toList.map FrameRecord.pages).sum

theorem List.sum_set_nat (l : List Nat) (n a : Nat) (h : n < l.length) : (l.set n a).sum + l[n] = l.sum + a := by
  induction l generalizing n with
  | nil => simp at h
  | cons x xs ih =>
    cases n with
    | zero => simp; omega
    | succ n =>
      have := ih n (by simpa using h)
      simp only [List.set_cons_succ, List.sum_cons, List.getElem_cons_succ]
      omega

theorem Store.held_eq_all {s : Store} (h : ∀ i, (s.frame i).isFree = true → (s.frame i).pages = 0) :
    s.heldPages = s.allPages := by
  unfold Store.heldPages Store.allPages
  have h' : ∀ r ∈ s.table.toList, r.isFree = true → r.pages = 0 := by
    intro r hr
    obtain ⟨n, hn, rfl⟩ := List.getElem_of_mem hr
    have hn' : n < Config.frameRecords := by simpa using hn
    simpa [Store.frame] using h ⟨n, hn'⟩
  generalize s.table.toList = l at h'
  induction l with
  | nil => rfl
  | cons r l ih =>
    have ih := ih fun x hx => h' x (List.mem_cons_of_mem _ hx)
    cases hf : r.isFree
    · simp [hf, ih]
    · simp [hf, ih, h' r List.mem_cons_self hf]

theorem Store.pageLaw_iff {s : Store} :
    s.PageLaw ↔ s.freePages + s.allPages = Config.storePages ∧
      ∀ i, (s.frame i).isFree = true → (s.frame i).pages = 0 := by
  constructor
  · intro h; exact ⟨by rw [← Store.held_eq_all h.blank]; exact h.total, h.blank⟩
  · intro h; exact ⟨by rw [Store.held_eq_all h.2]; exact h.1, h.2⟩

theorem Store.allPages_set (s : Store) (i : RecNo) (r : FrameRecord) :
    ({ s with table := s.table.set i r } : Store).allPages + (s.frame i).pages = s.allPages + r.pages := by
  have h := List.sum_set_nat (s.table.toList.map FrameRecord.pages) i r.pages (by simp)
  simpa [Store.allPages, Store.frame, Vector.toList_set, List.map_set] using h

/-- The law of R40 does not read the send queues. -/
theorem Store.PageLaw.queues {s t : Store} (h : s.PageLaw) (hp : t.freePages = s.freePages) (ht : t.table = s.table) :
    t.PageLaw := by
  obtain ⟨h1, h2⟩ := h
  have hf : ∀ i, t.frame i = s.frame i := fun i => by simp [Store.frame, ht]
  refine ⟨?_, fun i => by rw [hf]; exact h2 i⟩
  simpa [Store.heldPages, ht, hp] using h1

theorem Store.PageLaw.modify {s : Store} (h : s.PageLaw) {i : RecNo} {f : FrameRecord → FrameRecord}
    (pages : ∀ r, (f r).pages = r.pages) (live : ∀ r, (f r).isFree = true → r.isFree = true) : (s.modify i f).PageLaw := by
  rw [Store.pageLaw_iff] at h ⊢
  refine ⟨?_, fun j => ?_⟩
  · have := Store.allPages_set s i (f (s.frame i))
    rw [pages] at this
    show s.freePages + _ = _
    rw [← h.1]
    congr 1
    exact Nat.add_right_cancel this
  · rw [Store.modify_frame]
    split
    · rw [pages]; exact fun hf => h.2 i (live _ hf)
    · exact h.2 j

theorem Store.PageLaw.release {s : Store} (h : s.PageLaw) (i : RecNo) : (s.release i).PageLaw := by
  rw [Store.pageLaw_iff] at h ⊢
  refine ⟨?_, fun j => ?_⟩
  · have h1 := Store.allPages_set { s with table := s.table.map (FrameRecord.dropTwin i) } i .blank
    have h2 : ({ s with table := s.table.map (FrameRecord.dropTwin i) } : Store).allPages = s.allPages := by
      simp [Store.allPages, Vector.toList_map, Function.comp_def]
    have h3 : (({ s with table := s.table.map (FrameRecord.dropTwin i) } : Store).frame i).pages = (s.frame i).pages := by
      simp [Store.frame]
    rw [h2, h3] at h1
    have h4 : (s.release i).allPages + (s.frame i).pages = s.allPages := h1
    simp only [Store.release_freePages]
    omega
  · rw [Store.release_frame]
    split
    · intro _; rfl
    · rw [FrameRecord.dropTwin_isFree, FrameRecord.dropTwin_pages]; exact h.2 j

theorem Store.PageLaw.reserve {s : Store} (h : s.PageLaw) {i : RecNo} {r : FrameRecord}
    (free : (s.frame i).isFree = true) (room : r.pages ≤ s.freePages) (live : r.isFree = false) :
    (s.reserve i r).PageLaw := by
  rw [Store.pageLaw_iff] at h ⊢
  refine ⟨?_, fun j => ?_⟩
  · have := Store.allPages_set s i r
    rw [h.2 i free] at this
    have h4 : (s.reserve i r).allPages = s.allPages + r.pages := this
    have h5 : (s.reserve i r).freePages = s.freePages - r.pages := rfl
    omega
  · rw [Store.reserve_frame]
    split
    · simp [live]
    · exact h.2 j

theorem Store.PageLaw.reset : Store.reset.PageLaw := by
  rw [Store.pageLaw_iff]
  refine ⟨?_, fun i => ?_⟩
  · simp [Store.allPages, Store.reset, FrameRecord.blank, Vector.toList_replicate]
  · simp [Store.reset, Store.frame, FrameRecord.blank]

theorem Store.PageLaw.appendP {s : Store} (h : s.PageLaw) (i : RecNo) : (s.appendP i).PageLaw := h.queues rfl rfl
theorem Store.PageLaw.appendX {s : Store} (h : s.PageLaw) (i : RecNo) : (s.appendX i).PageLaw := h.queues rfl rfl

theorem Store.PageLaw.appendPair {s : Store} (h : s.PageLaw) (i : RecNo) : (s.appendPair i).PageLaw := by
  unfold Store.appendPair
  split
  · exact (h.appendP i).appendX _
  · exact h.appendP i

theorem Store.PageLaw.removeSent {s : Store} (h : s.PageLaw) (l : LinkId) (i : RecNo) : (s.removeSent l i).PageLaw := by
  cases l
  · exact Store.PageLaw.release (s := { s with pq := s.pq.tail, pFlawed := s.pFlawed - (s.frame i).flawCount })
      (h.queues rfl rfl) i
  · exact Store.PageLaw.release (s := { s with xq := s.xq.tail, xFlawed := s.xFlawed - (s.frame i).flawCount })
      (h.queues rfl rfl) i

theorem Store.PageLaw.evict {s : Store} (h : s.PageLaw) (i : RecNo) : (s.evict i).PageLaw :=
  Store.PageLaw.release (s := { s with xq := s.xq.dropLast, xFlawed := s.xFlawed - (s.frame i).flawCount })
    (h.queues rfl rfl) i

theorem Store.PageLaw.releasePair {s : Store} (h : s.PageLaw) (i : RecNo) : (s.releasePair i).PageLaw := by
  unfold Store.releasePair
  split
  · exact (h.release i).release _
  · exact h.release i

theorem Store.PageLaw.releaseTwin {s : Store} (h : s.PageLaw) (i : RecNo) : (s.releaseTwin i).PageLaw := by
  unfold Store.releaseTwin
  split
  · exact h.release _
  · exact h

theorem Store.PageLaw.releasePairs {s : Store} (h : s.PageLaw) (is : List RecNo) : (s.releasePairs is).PageLaw := by
  induction is generalizing s with
  | nil => exact h
  | cons i is ih => exact ih (h.releasePair i)

theorem Store.PageLaw.releaseTwins {s : Store} (h : s.PageLaw) (is : List RecNo) : (s.releaseTwins is).PageLaw := by
  induction is generalizing s with
  | nil => exact h
  | cons i is ih => exact ih (h.releaseTwin i)

/-- A record changed in a way that keeps its pages and its being FREE or not. -/
theorem Store.PageLaw.write {s : Store} (h : s.PageLaw) (i : RecNo) (ls : List Samples) :
    (s.modify i (FrameRecord.write ls)).PageLaw := h.modify (fun _ => rfl) (fun _ hf => hf)

theorem Store.PageLaw.makeStored {s : Store} (h : s.PageLaw) (i : RecNo) : (s.modify i .makeStored).PageLaw :=
  h.modify (fun _ => rfl) (fun _ hf => by simp [FrameRecord.isFree, FrameRecord.makeStored] at hf)

theorem Store.PageLaw.complete {s : Store} (h : s.PageLaw) (f : FrameInProgress) (fl : Flaws) :
    (s.complete f fl).PageLaw := by
  have hc : ∀ {s : Store}, s.PageLaw → ∀ i, (s.modify i (.complete fl)).PageLaw := fun h i =>
    h.modify (fun _ => rfl) (fun _ hf => by simp [FrameRecord.isFree, FrameRecord.complete, FrameRecord.makeStored] at hf)
  unfold Store.complete
  dsimp only
  split
  · exact hc (hc h _) _
  · exact hc h _

theorem Store.PageLaw.writePart {s : Store} (h : s.PageLaw) (i : RecNo) (p : ClipPart) : (s.writePart i p).PageLaw := by
  have hc : ∀ {s : Store}, s.PageLaw → ∀ i, (s.modify i fun r => { r with part := some p }).PageLaw := fun h i =>
    h.modify (fun _ => rfl) (fun _ hf => hf)
  unfold Store.writePart
  dsimp only
  split
  · exact hc (hc h _) _
  · exact hc h _

end Sys2Proof.Machine
end

