-- ==== Sys2Proof/Laws/Clips.lean ====
section
/-! SUPPORT. The Clip Controller's operations and the law of R72: gap lists stay sound, and joined less made less gaps
balances. -/

namespace Sys2Proof.Machine

open Sys2Proof

/-! ### Gap lists (R73) -/

/-- What entering a gap makes of a sound list: a sound list; a run grows at its front only by the gap itself. -/
theorem enterGap_sound {g : Nat} {room : Bool} {gs gs' : List GapRun} (h : enterGap g room gs = some gs')
    (pos : ∀ r ∈ gs, 1 ≤ r.length) (apart : gs.Pairwise fun a b => a.stop < b.first) :
    (∀ r ∈ gs', 1 ≤ r.length) ∧ (gs'.Pairwise fun a b => a.stop < b.first) ∧
      (∀ r ∈ gs', r.first = g ∨ ∃ o ∈ gs, o.first ≤ r.first) ∧
      gs'.length ≤ gs.length + room.toNat := by
  induction gs generalizing gs' with
  | nil =>
    cases room
    · simp [enterGap] at h
    · simp only [enterGap, if_true, Option.some.injEq] at h
      subst h
      simp
  | cons r rs ih =>
    obtain ⟨hr, hrs⟩ := List.pairwise_cons.mp apart
    have hp := pos r List.mem_cons_self
    have hps : ∀ x ∈ rs, 1 ≤ x.length := fun x hx => pos x (List.mem_cons_of_mem _ hx)
    unfold enterGap at h
    split at h
    · split at h <;> try contradiction
      rename_i hlt hroom
      injection h with h; subst h
      refine ⟨?_, ?_, ?_, by simp [hroom]⟩
      · simpa using ⟨hp, hps⟩
      · refine List.pairwise_cons.mpr ⟨?_, apart⟩
        intro x hx
        rcases List.mem_cons.mp hx with rfl | hx
        · exact hlt
        · have := hr x hx
          simp only [GapRun.stop] at this ⊢; omega
      · intro x hx
        rcases List.mem_cons.mp hx with rfl | hx
        · exact .inl rfl
        · exact .inr ⟨x, hx, le_refl _⟩
    · split at h
      · rename_i heq
        injection h with h; subst h
        refine ⟨?_, ?_, ?_, by simp⟩
        · simpa using hps
        · refine List.pairwise_cons.mpr ⟨?_, hrs⟩
          intro x hx
          have := hr x hx
          simp only [GapRun.stop] at this ⊢; omega
        · intro x hx
          rcases List.mem_cons.mp hx with rfl | hx
          · exact .inl rfl
          · exact .inr ⟨x, List.mem_cons_of_mem _ hx, le_refl _⟩
      · split at h <;> try contradiction
        split at h
        · rename_i hstop
          split at h
          · rename_i n ns
            have hn := hr n List.mem_cons_self
            split at h
            · rename_i hnf
              injection h with h; subst h
              refine ⟨?_, ?_, ?_, by simp; omega⟩
              · simpa [Nat.add_assoc] using ⟨by omega, fun x hx => hps x (List.mem_cons_of_mem _ hx)⟩
              · obtain ⟨hn', hns⟩ := List.pairwise_cons.mp hrs
                refine List.pairwise_cons.mpr ⟨?_, hns⟩
                intro x hx
                have := hn' x hx
                simp only [GapRun.stop] at this hstop ⊢; omega
              · intro x hx
                rcases List.mem_cons.mp hx with rfl | hx
                · exact .inr ⟨r, List.mem_cons_self, le_refl _⟩
                · exact .inr ⟨x, by simp [hx], le_refl _⟩
            · rename_i hnf
              injection h with h; subst h
              refine ⟨?_, ?_, ?_, by simp⟩
              · simpa using hps
              · refine List.pairwise_cons.mpr ⟨?_, hrs⟩
                intro x hx
                have := hr x hx
                rcases List.mem_cons.mp hx with rfl | hx'
                · simp only [GapRun.stop] at this hstop ⊢; omega
                · have h2 := (List.pairwise_cons.mp hrs).1 x hx'
                  have h3 := hps n List.mem_cons_self
                  simp only [GapRun.stop] at this hstop hn h2 ⊢; omega
              · intro x hx
                rcases List.mem_cons.mp hx with rfl | hx
                · exact .inr ⟨r, List.mem_cons_self, le_refl _⟩
                · exact .inr ⟨x, by simp only [List.mem_cons]; exact .inr (by simpa using hx), le_refl _⟩
          · injection h with h; subst h
            refine ⟨by simp, by simp, ?_, by simp⟩
            intro x hx
            simp only [List.mem_singleton] at hx; subst hx
            exact .inr ⟨r, List.mem_cons_self, le_refl _⟩
        · rename_i h1 h2 h3 h4
          obtain ⟨rs', he, rfl⟩ := Option.map_eq_some_iff.mp h
          obtain ⟨i1, i2, i3, i4⟩ := ih he hps hrs
          refine ⟨by simpa using ⟨hp, i1⟩, ?_, ?_, by simpa [Nat.add_right_comm] using i4⟩
          · refine List.pairwise_cons.mpr ⟨?_, i2⟩
            intro x hx
            rcases i3 x hx with hg | ⟨o, ho, hle⟩
            · simp only [GapRun.stop] at *; omega
            · exact Nat.lt_of_lt_of_le (hr o ho) hle
          · intro x hx
            rcases List.mem_cons.mp hx with rfl | hx
            · exact .inr ⟨x, List.mem_cons_self, le_refl _⟩
            · rcases i3 x hx with hg | ⟨o, ho, hle⟩
              · exact .inl hg
              · exact .inr ⟨o, List.mem_cons_of_mem _ ho, hle⟩

/-- A gap entered where fewer than 16 runs exist, or without making a new run, leaves a sound list (R73). -/
theorem GapsSound.enter {g : Nat} {gs gs' : List GapRun} (h : GapsSound gs)
    (e : enterGap g (gs.length < Config.gapRuns) gs = some gs') : GapsSound gs' := by
  obtain ⟨p, a, -, l⟩ := enterGap_sound e h.positive h.apart
  refine ⟨?_, p, a⟩
  have := h.few
  by_cases hl : gs.length < Config.gapRuns
  · simp only [hl, decide_true, Bool.toNat_true] at l; omega
  · simp only [hl, decide_false, Bool.toNat_false] at l; omega

/-! ### The law of R72 -/

theorem ClipRecord.addGap_cases (g : Nat) (c : ClipRecord) :
    (∃ gs, enterGap g (c.gaps.length < Config.gapRuns) c.gaps = some gs ∧
      c.addGap g = { c with gapTotal := c.gapTotal + 1, gaps := gs }) ∨
    (enterGap g (c.gaps.length < Config.gapRuns) c.gaps = none ∧
      c.addGap g = { c with gapTotal := c.gapTotal + 1, overflow := true }) := by
  unfold ClipRecord.addGap
  split
  · exact .inl ⟨_, by assumption, rfl⟩
  · exact .inr ⟨by assumption, rfl⟩

theorem ClipRecord.Law.join {c : ClipRecord} (h : c.Law) (tc : Nat) (cap : BitVec 32) (hasTwin : Bool) :
    (c.join tc cap hasTwin).Law := by
  obtain ⟨hb, hg⟩ := h
  cases hasTwin
  · rcases c.addGap_cases c.joined with ⟨gs, e, ha⟩ | ⟨e, ha⟩ <;>
      refine ⟨?_, ?_⟩ <;> simp only [ClipRecord.join, ha, if_neg, Bool.false_eq_true, not_false_iff] <;>
      first
        | omega
        | exact hg.enter e
  · refine ⟨?_, hg⟩
    simp only [ClipRecord.join, if_true]; omega

theorem ClipRecord.Law.evict {c : ClipRecord} (h : c.Law) (g : Nat) : (c.evict g).Law := by
  obtain ⟨hb, hg⟩ := h
  rcases c.addGap_cases g with ⟨gs, e, ha⟩ | ⟨e, ha⟩ <;> refine ⟨?_, ?_⟩ <;> simp only [ClipRecord.evict, ha] <;>
    first
      | omega
      | exact hg.enter e

theorem ClipRecord.Law.countSend {c : ClipRecord} (h : c.Law) (l : LinkId) : (c.countSend l).Law := by
  cases l <;> exact ⟨h.balance, h.gaps⟩

theorem ClipRecord.Law.close {c : ClipRecord} (h : c.Law) (e : EndCause) : (c.close e).Law := ⟨h.balance, h.gaps⟩

theorem newClip_law (o : Option ClipRecord) (s : State) : (newClip o s).Law :=
  ⟨rfl, ⟨Nat.zero_le _, by simp [newClip], by simp [newClip]⟩⟩

theorem Clips.Law.modifyOpen {c : Clips} (h : c.Law) {f : ClipRecord → ClipRecord} (hf : ∀ r, r.Law → (f r).Law) :
    (c.modifyOpen f).Law := by
  intro r hr
  obtain ⟨o, ho, rfl⟩ := List.mem_map.mp hr
  split
  · exact hf _ (h o ho)
  · exact h o ho

theorem Clips.Law.modifyNumber {c : Clips} (h : c.Law) (n : Nat) {f : ClipRecord → ClipRecord}
    (hf : ∀ r, r.Law → (f r).Law) : (c.modifyNumber n f).Law := by
  intro r hr
  obtain ⟨o, ho, rfl⟩ := List.mem_map.mp hr
  split
  · exact hf _ (h o ho)
  · exact h o ho

/-- The law reads the clip records alone. -/
theorem Clips.Law.records {c d : Clips} (h : c.Law) (hd : ∀ r ∈ d.records, r ∈ c.records) : d.Law :=
  fun r hr => h r (hd r hr)

end Sys2Proof.Machine
end

