-- ==== Sys2Proof/Laws/Timecode.lean ====
section
/-! SUPPORT. Labels, counts and the ranges of the Time Base Unit. -/

namespace Sys2Proof.Machine

open Sys2Proof

/-! ### Ranges of labels and counts (R20, R27, R28, R29) -/

theorem Rate.nominal_pos (r : Rate) : 0 < r.nominal := by cases r <;> decide
theorem Rate.divisor_pos (r : Rate) : 0 < r.divisor := by cases r <;> decide
theorem Rate.divisor2_pos (r : Rate) : 0 < r.divisor2 := by cases r <;> decide
theorem framesPerDay_pos (r : Rate) (df : Bool) : 0 < framesPerDay r df := by cases r <;> cases df <;> decide

theorem dropCount_lt (r : Rate) (df : Bool) : dropCount r df < r.nominal := by cases r <;> cases df <;> decide

/-- What the range check asks, as inequalities (R27). -/
theorem Label.inRange_iff {r : Rate} {l : Label} :
    l.inRange r = true ↔ l.hh < 24 ∧ l.mm < 60 ∧ l.ss < 60 ∧ l.ff < r.nominal := by
  simp [Label.inRange, and_assoc]

/-- A label in range becomes a count below the frames per day (R28). -/
theorem labelToCount_lt {r : Rate} {df : Bool} {l : Label} (h : l.inRange r = true) :
    labelToCount r df l < framesPerDay r df := by
  obtain ⟨h1, h2, h3, h4⟩ := Label.inRange_iff.mp h
  obtain ⟨hh, mm, ss, ff⟩ := l
  simp only at h1 h2 h3 h4
  cases r <;> cases df <;> simp only [Rate.nominal] at h4 <;>
    simp only [labelToCount, framesPerDay, dropCount, Rate.nominal] <;> omega

/-- The two cases of the NDF position (R29). -/
theorem ndfPosition_cases (r : Rate) (df : Bool) (n : Nat) :
    (n % (600 * r.nominal - 9 * dropCount r df) < dropCount r df ∧
      ndfPosition r df n = n + 9 * dropCount r df * (n / (600 * r.nominal - 9 * dropCount r df))) ∨
    (dropCount r df ≤ n % (600 * r.nominal - 9 * dropCount r df) ∧
      ndfPosition r df n = n + 9 * dropCount r df * (n / (600 * r.nominal - 9 * dropCount r df)) +
        dropCount r df * ((n % (600 * r.nominal - 9 * dropCount r df) - dropCount r df) /
          (60 * r.nominal - dropCount r df))) := by
  by_cases h : n % (600 * r.nominal - 9 * dropCount r df) < dropCount r df
  · exact .inl ⟨h, if_pos h⟩
  · exact .inr ⟨by omega, if_neg h⟩

/-- The NDF position of a count below the frames per day lies in the day (R29). -/
theorem ndfPosition_lt {r : Rate} {df : Bool} {n : Nat} (h : n < framesPerDay r df) :
    ndfPosition r df n < r.nominal * 86400 := by
  rcases ndfPosition_cases r df n with ⟨hm, e⟩ | ⟨hm, e⟩ <;> rw [e] <;> clear e <;> cases r <;> cases df <;>
    simp only [framesPerDay, dropCount, Rate.nominal] at h hm ⊢ <;> omega

/-- A count below the frames per day becomes a label in range (R29). -/
theorem countToLabel_inRange {r : Rate} {df : Bool} {n : Nat} (h : n < framesPerDay r df) :
    (countToLabel r df n).inRange r = true := by
  have hp := ndfPosition_lt h
  rw [Label.inRange_iff]
  simp only [countToLabel]
  generalize ndfPosition r df n = p at hp
  cases r <;> simp only [Rate.nominal] at * <;> omega

theorem Label.movedUp_inRange {r : Rate} {df : Bool} {l : Label} (h : l.inRange r = true) :
    (l.movedUp r df).inRange r = true := by
  unfold Label.movedUp
  split
  · obtain ⟨h1, h2, h3, -⟩ := Label.inRange_iff.mp h
    rw [Label.inRange_iff]
    exact ⟨h1, h2, h3, dropCount_lt r df⟩
  · exact h

/-- A label moved up names a frame (R27). -/
theorem Label.movedUp_named (r : Rate) (df : Bool) (l : Label) : (l.movedUp r df).dropped r df = false := by
  unfold Label.movedUp
  split
  · simp [Label.dropped]
  · rename_i h; simpa using h

theorem nextCount_lt {perDay n : Nat} (h : 0 < perDay) : nextCount perDay n < perDay := by
  unfold nextCount; split <;> omega

theorem reExpress_lt {r : Rate} {df : Bool} {r' : Rate} {df' : Bool} {n : Nat} (h : n < framesPerDay r df) :
    (reExpress r df r' df' n).1 < framesPerDay r' df' := by
  have hl := countToLabel_inRange h
  obtain ⟨h1, h2, h3, -⟩ := Label.inRange_iff.mp hl
  apply labelToCount_lt
  apply Label.movedUp_inRange
  rw [Label.inRange_iff]
  refine ⟨h1, h2, h3, ?_⟩
  have := r'.nominal_pos
  simp only
  omega

/-! ### The ranges of the Time Base Unit are kept -/

theorem TimeBase.perDay_pos (t : TimeBase) : 0 < t.perDay := framesPerDay_pos _ _

theorem satAdd_le (limit a b : Nat) : satAdd limit a b ≤ limit := Nat.min_le_left _ _

theorem TimeBase.Law.restartLane {t : TimeBase} (h : t.Law) : t.restartLane.Law :=
  ⟨h.mark, t.rate.divisor_pos, t.rate.divisor2_pos, h.tod, h.rr, by simp [TimeBase.restartLane], h.interval⟩

theorem TimeBase.Law.pass {t : TimeBase} (h : t.Law) (k : Nat) : (t.pass k).Law :=
  ⟨h.mark, h.stage1, h.stage2, h.tod, h.rr, h.sub, satAdd_le _ _ _⟩

theorem TimeBase.Law.tick {t : TimeBase} (h : t.Law) (w : t.atWrap = false) : t.tick.Law := by
  have h1 := h.stage1
  have hw : t.stage2 * t.rate.divisor + t.stage1 + 1 < t.rate.divisor * t.rate.divisor2 := by
    simpa [TimeBase.atWrap, TimeBase.phase, Rate.period] using w
  unfold TimeBase.tick
  dsimp only
  split
  · rename_i hs
    have hs : t.stage1 + 1 ≥ t.rate.divisor := hs
    refine ⟨h.mark, t.rate.divisor_pos, ?_, h.tod, h.rr, h.sub, satAdd_le _ _ _⟩
    show t.stage2 + 1 < t.rate.divisor2
    have : (t.stage2 + 1) * t.rate.divisor < t.rate.divisor2 * t.rate.divisor := by
      rw [Nat.add_mul, Nat.mul_comm t.rate.divisor2]; omega
    exact Nat.lt_of_mul_lt_mul_right this
  · rename_i hs
    have hs : ¬ t.stage1 + 1 ≥ t.rate.divisor := hs
    exact ⟨h.mark, by show t.stage1 + 1 < t.rate.divisor; omega, h.stage2, h.tod, h.rr, h.sub, satAdd_le _ _ _⟩

theorem TimeBase.Law.pulse {t : TimeBase} (h : t.Law) : t.pulse.Law := by
  have h' := (h.pass (t.rate.period - t.phase)).restartLane
  refine ⟨h'.mark, h'.stage1, h'.stage2, ?_, h'.rr, h'.sub, h'.interval⟩
  show (if t.running then nextCount t.perDay t.tod else t.tod) < t.perDay
  split
  · exact nextCount_lt t.perDay_pos
  · exact h.tod

theorem TimeBase.Law.afterStamp {t : TimeBase} (h : t.Law) : t.afterStamp.Law := by
  refine ⟨h.mark, h.stage1, h.stage2, h.tod, h.rr, ?_, by simp [TimeBase.afterStamp]⟩
  intro i hi
  simp only [TimeBase.afterStamp, Option.mem_def, Option.some.injEq] at hi
  subst hi
  unfold TimeBase.nextSub
  split
  · omega
  · exact satAdd_le _ _ _

theorem TimeBase.Law.setRate {t : TimeBase} (h : t.Law) {r : Rate} {df : Bool} (m : df = true → r.mayDrop = true) :
    (t.setRate r df).Law :=
  ⟨m, r.divisor_pos, r.divisor2_pos, reExpress_lt h.tod, reExpress_lt h.rr, by simp [TimeBase.setRate, TimeBase.restartLane],
    h.interval⟩

/-- A count a record-run join takes (R25). -/
theorem TimeBase.Law.nextRr {t : TimeBase} (h : t.Law) : ({ t with rr := nextCount t.perDay t.rr } : TimeBase).Law :=
  ⟨h.mark, h.stage1, h.stage2, h.tod, nextCount_lt t.perDay_pos, h.sub, h.interval⟩

theorem TimeBase.Law.cues {t : TimeBase} (h : t.Law) (a b : Option Nat) :
    ({ t with startCue := a, stopCue := b } : TimeBase).Law :=
  ⟨h.mark, h.stage1, h.stage2, h.tod, h.rr, h.sub, h.interval⟩

theorem TimeBase.Law.run {t : TimeBase} (h : t.Law) (b : Bool) : ({ t with running := b } : TimeBase).Law :=
  ⟨h.mark, h.stage1, h.stage2, h.tod, h.rr, h.sub, h.interval⟩

end Sys2Proof.Machine
end

