-- ==== Sys2Proof/Laws/Keeps.lean ====
section
/-! SUPPORT. What every operation of the part keeps: the law of the frame store (R40), of the clip records (R72, R73), the
ranges of the Time Base Unit, the bounds of the Directive Unit and the banks' law (R125), each by itself. -/

namespace Sys2Proof.Machine

open Sys2Proof

/-- Each of the five laws that holds before holds after. -/
structure State.Keeps (s t : State) : Prop where
  store : s.store.PageLaw → t.store.PageLaw
  clips : s.clips.Law → t.clips.Law
  time  : s.time.Law → t.time.Law
  dir   : s.dir.Law → t.dir.Law
  banks : s.banks.Law → t.banks.Law

theorem State.Keeps.refl (s : State) : s.Keeps s := ⟨id, id, id, id, id⟩

theorem State.Keeps.trans {s t u : State} (h : s.Keeps t) (k : t.Keeps u) : s.Keeps u :=
  ⟨k.store ∘ h.store, k.clips ∘ h.clips, k.time ∘ h.time, k.dir ∘ h.dir, k.banks ∘ h.banks⟩

/-- The last operation first. -/
theorem State.Keeps.after {s t u : State} (k : t.Keeps u) (h : s.Keeps t) : s.Keeps u := h.trans k

/-- An operation that leaves the five blocks as they are. -/
theorem State.Keeps.of_eq {s t : State} (hs : t.store = s.store) (hc : t.clips = s.clips) (ht : t.time = s.time)
    (hd : t.dir = s.dir) (hb : t.banks = s.banks) : s.Keeps t := by
  constructor
  · rw [hs]; exact id
  · rw [hc]; exact id
  · rw [ht]; exact id
  · rw [hd]; exact id
  · rw [hb]; exact id

/-- A change of the clips alone that keeps every record. -/
theorem State.Keeps.clipsOnly {s : State} {c : Clips} (h : ∀ r ∈ c.records, r ∈ s.clips.records) :
    s.Keeps { s with clips := c } := ⟨id, fun k => k.records h, id, id, id⟩

theorem State.Keeps.storeOnly {s : State} {st : Store} (h : s.store.PageLaw → st.PageLaw) :
    s.Keeps { s with store := st } := ⟨h, id, id, id, id⟩

theorem State.Keeps.ingressOnly (s : State) (i : Ingress) : s.Keeps { s with ingress := i } :=
  .of_eq rfl rfl rfl rfl rfl

theorem State.Keeps.timeOnly {s : State} {t : TimeBase} (h : s.time.Law → t.Law) : s.Keeps { s with time := t } :=
  ⟨id, id, h, id, id⟩

theorem State.setFlag_keeps (f : Flag) (s : State) : s.Keeps (s.setFlag f) :=
  ⟨by simp, by simp, by simp, fun h => h.setFlag f, by simp⟩

theorem State.placeReport_keeps {r : Report} (h : r.isMarker = false) (s : State) : s.Keeps (s.placeReport r) :=
  ⟨by simp, by simp, by simp, fun k => k.placeReport h, by simp⟩

theorem State.respond_keeps (tag : Byte) (code : Word) (o : DirOutcome) (c : FlagSet) (s : State) :
    s.Keeps (s.respond tag code o c) := placeReport_keeps rfl s

theorem State.setLink_keeps (l : LinkId) (o : OutLink) (s : State) : s.Keeps (s.setLink l o) := .of_eq (by simp) (by simp) (by simp) (by simp) (by simp)
theorem State.setAct_keeps (l : LinkId) (a : Activity) (s : State) : s.Keeps (s.setAct l a) := .of_eq (by simp) (by simp) (by simp) (by simp) (by simp)
theorem State.emit_keeps (l : LinkId) (ps : List Packet) (s : State) : s.Keeps (s.emit l ps) := .of_eq (by simp) (by simp) (by simp) (by simp) (by simp)
theorem State.freeLink_keeps (l : LinkId) (s : State) : s.Keeps (s.freeLink l) := .of_eq (by simp) (by simp) (by simp) (by simp) (by simp)
theorem State.setFrame_keeps (f : FrameState) (s : State) : s.Keeps (s.setFrame f) := .of_eq (by simp) (by simp) (by simp) (by simp) (by simp)

/-! ### Clips -/

theorem State.testSettle_keeps (n : Nat) (s : State) : s.Keeps (s.testSettle n) := by
  unfold State.testSettle
  split
  · refine ((placeReport_keeps rfl s).trans (setFlag_keeps _ _)).trans (.clipsOnly ?_)
    exact fun r hr => List.mem_of_mem_eraseP hr
  · exact .refl s

theorem State.modifyClip_keeps (n : Nat) {f : ClipRecord → ClipRecord} (hf : ∀ r, r.Law → (f r).Law) (s : State) :
    s.Keeps { s with clips := s.clips.modifyNumber n f } := ⟨id, fun h => h.modifyNumber n hf, id, id, id⟩

theorem State.reportSend_keeps (l : LinkId) (n : Nat) (s : State) : s.Keeps (s.reportSend l n) :=
  (modifyClip_keeps n (fun _ h => h.countSend l) s).trans (testSettle_keeps n _)

theorem State.reportEviction_keeps (p : ClipPart) (s : State) : s.Keeps (s.reportEviction p) :=
  ((modifyClip_keeps p.clip (fun _ h => h.evict p.number) s).trans (setFlag_keeps _ _)).trans (testSettle_keeps _ _)

theorem State.openRecord_keeps (o : Option ClipRecord) (s : State) : s.Keeps (s.openRecord o) := by
  refine ⟨id, fun h r hr => ?_, id, id, id⟩
  rcases List.mem_append.mp hr with hr | hr
  · exact h r hr
  · rw [List.mem_singleton.mp hr]; exact newClip_law o s

theorem State.joinOpen_keeps (i : RecNo) (s : State) : s.Keeps (s.joinOpen i) := by
  unfold State.joinOpen
  split
  · exact .refl s
  · rename_i c hc
    dsimp only
    have base : ∀ tc cap tw m part,
        s.Keeps { s with
          time := { s.time with rr := nextCount s.time.perDay s.time.rr }
          store := s.store.writePart i part
          clips := (s.clips.modifyOpen (ClipRecord.join tc cap tw)).setSplit m } := fun tc cap tw m part =>
      ⟨fun h => h.writePart i part, fun h => h.modifyOpen fun _ hr => hr.join tc cap tw, fun h => h.nextRr, id, id⟩
    split
    · exact base _ _ _ _ _
    · exact (base _ _ _ _ _).trans (setFlag_keeps _ _)

theorem State.countFlawed_keeps (i : RecNo) (s : State) : s.Keeps (s.countFlawed i) := by
  unfold State.countFlawed
  split
  · exact modifyClip_keeps (f := fun c => { c with flawed := c.flawed + (s.store.frame i).flawCount }) _
      (fun _ h => ⟨h.balance, h.gaps⟩) s
  · exact .refl s

theorem State.commitEntry_keeps (i : RecNo) (s : State) : s.Keeps (s.commitEntry i) :=
  ((joinOpen_keeps i s).trans (countFlawed_keeps i _)).trans (.storeOnly fun h => h.appendPair i)

theorem State.commitRing_keeps (ring : List RecNo) (s : State) : s.Keeps (s.commitRing ring) := by
  induction ring generalizing s with
  | nil => exact .refl s
  | cons i ring ih =>
    exact ((Keeps.clipsOnly (c := { s.clips with ring := ring }) fun _ hr => hr).trans (commitEntry_keeps i _)).trans (ih _)

theorem State.startClip_keeps (s : State) : s.Keeps s.startClip := (openRecord_keeps none s).trans (commitRing_keeps _ _)

theorem State.closeOpen_keeps (e : EndCause) (s : State) : s.Keeps (s.closeOpen e) := by
  unfold State.closeOpen
  split
  · exact .refl s
  · refine Keeps.after (testSettle_keeps _ _) ⟨id, fun h => ?_, id, id, id⟩
    exact h.modifyOpen fun _ hr => hr.close e

theorem State.cut_keeps (e : EndCause) (s : State) : s.Keeps (s.cut e) := by
  unfold State.cut
  split
  · exact closeOpen_keeps e s
  · exact .refl s

theorem State.split_keeps (s : State) : s.Keeps s.split := by
  unfold State.split
  split
  · exact .refl s
  · refine Keeps.after (testSettle_keeps _ _) (Keeps.after (openRecord_keeps _ _) ⟨id, fun h => ?_, id, id, id⟩)
    exact h.modifyOpen fun _ hr => hr.close .split

theorem State.deferSplit_keeps (s : State) : s.Keeps s.deferSplit := by
  unfold State.deferSplit
  split
  · exact .refl s
  · exact Keeps.after (setFlag_keeps _ _) (.clipsOnly fun _ hr => hr)

theorem State.trySplit_keeps (s : State) : s.Keeps s.trySplit := by
  unfold State.trySplit
  split
  · split
    · exact split_keeps s
    · exact deferSplit_keeps s
  · exact .refl s

theorem State.testCeiling_keeps (s : State) : s.Keeps s.testCeiling := by
  unfold State.testCeiling
  split
  · exact closeOpen_keeps _ s
  · exact .refl s

theorem State.joinLive_keeps (i : RecNo) (s : State) : s.Keeps (s.joinLive i) :=
  ((trySplit_keeps s).trans (joinOpen_keeps i _)).trans (testCeiling_keeps _)

theorem State.releaseOldest_keeps (s : State) : s.Keeps s.releaseOldest := by
  unfold State.releaseOldest
  split
  · exact .refl s
  · exact ⟨fun h => h.releasePair _, id, id, id, id⟩

theorem State.flushRing_keeps (s : State) : s.Keeps s.flushRing := ⟨fun h => h.releasePairs _, id, id, id, id⟩
theorem State.releaseRingTwins_keeps (s : State) : s.Keeps s.releaseRingTwins := .storeOnly fun h => h.releaseTwins _
theorem State.trimRing_keeps (n : Nat) (s : State) : s.Keeps (s.trimRing n) := ⟨fun h => h.releasePairs _, id, id, id, id⟩

theorem State.placeInRing_keeps (i : RecNo) (s : State) : s.Keeps (s.placeInRing i) := by
  unfold State.placeInRing
  dsimp only
  split
  · exact .storeOnly fun h => h.releasePair i
  · split
    · exact .clipsOnly fun _ hr => hr
    · exact (releaseOldest_keeps s).trans (.clipsOnly fun _ hr => hr)

theorem State.placeFrame_keeps (i : RecNo) (s : State) : s.Keeps (s.placeFrame i) := by
  unfold State.placeFrame
  split
  · exact (countFlawed_keeps i s).trans (.storeOnly fun h => h.appendPair i)
  · exact placeInRing_keeps i s

theorem State.handOver_keeps (a : CueAction) (s : State) : s.Keeps (s.handOver a) := by
  unfold State.handOver
  split
  · exact .refl s
  · exact .clipsOnly fun _ hr => hr

theorem State.handOverAll_keeps (as : List CueAction) (s : State) : s.Keeps (s.handOverAll as) := by
  induction as generalizing s with
  | nil => exact .refl s
  | cons a as ih => exact (handOver_keeps a s).trans (ih _)

theorem State.takeAction_keeps (a : CueAction) (s : State) : s.Keeps (s.takeAction a) := by
  unfold State.takeAction
  split
  · split
    · exact startClip_keeps s
    · exact .refl s
  · exact cut_keeps _ s

theorem State.takeActions_keeps (as : List CueAction) (s : State) : s.Keeps (s.takeActions as) := by
  induction as generalizing s with
  | nil => exact .refl s
  | cons a as ih =>
    exact ((Keeps.clipsOnly (c := { s.clips with actions := as }) fun _ hr => hr).trans (takeAction_keeps a _)).trans (ih _)

/-! ### Links -/

theorem State.startPrincipal_keeps (s : State) : s.Keeps s.startPrincipal := by
  unfold State.startPrincipal
  split
  · exact .refl s
  · refine Keeps.after (setAct_keeps _ _ _) (.storeOnly fun h => h.modify (fun _ => rfl) fun _ hf => ?_)
    simp [FrameRecord.isFree, FrameRecord.makeSending] at hf

theorem State.startProxy_keeps (s : State) : s.Keeps s.startProxy := by
  unfold State.startProxy
  split
  · exact .refl s
  · refine Keeps.after (setAct_keeps _ _ _) ⟨fun h => Store.PageLaw.modify
      (f := fun r => { r.makeSending with started := true }) h (fun _ => rfl) fun _ hf => ?_, id, id, id, id⟩
    simp [FrameRecord.isFree, FrameRecord.makeSending] at hf

theorem State.frameLeft_keeps (l : LinkId) (i : RecNo) (s : State) : s.Keeps (s.frameLeft l i) := by
  have hr : s.Keeps { s with store := s.store.removeSent l i } := .storeOnly fun h => h.removeSent l i
  unfold State.frameLeft
  dsimp only
  split
  · exact hr
  · cases l
    · exact hr.trans (reportSend_keeps _ _ _)
    · exact (hr.trans (reportSend_keeps _ _ _)).trans (.of_eq rfl rfl rfl rfl rfl)

theorem State.frameSent_keeps (l : LinkId) (s : State) : s.Keeps (s.frameSent l) := by
  unfold State.frameSent
  split
  · exact ((emit_keeps _ _ _).trans (frameLeft_keeps _ _ _)).trans (freeLink_keeps _ _)
  · exact (emit_keeps _ _ _).trans (freeLink_keeps _ _)
  · exact .refl s

theorem State.takeLinkEvent_keeps (e : LinkEvent) (s : State) : s.Keeps (s.takeLinkEvent e) := by
  cases e
  · exact frameSent_keeps _ s
  · exact startProxy_keeps s

theorem State.abortSent_keeps (l : LinkId) (s : State) : s.Keeps (s.abortSent l) := by
  unfold State.abortSent
  split
  · exact (emit_keeps _ _ _).trans (freeLink_keeps _ _)
  · exact .refl s

theorem State.startReport_keeps (s : State) : s.Keeps s.startReport := by
  unfold State.startReport
  split
  · rename_i r rs _ hr
    refine Keeps.after (setAct_keeps _ _ _) ⟨id, id, id, fun h => ?_, id⟩
    obtain ⟨h1, h2, h3⟩ := h
    rw [hr] at h2 h3
    exact ⟨h1, h2, by simpa [List.countP_cons, Report.isMarker_filled] using h3⟩
  · exact .refl s

theorem DirectiveUnit.Law.tail {d : DirectiveUnit} (h : d.Law) {r : Report} {rs : List Report} (e : d.reports = r :: rs) :
    ({ d with reports := rs } : DirectiveUnit).Law ∧
      (r.isMarker = true → ({ d with reports := rs } : DirectiveUnit).markers = 0) := by
  obtain ⟨h1, h2, h3⟩ := h
  rw [e] at h2 h3
  simp only [List.length_cons, List.countP_cons] at h2 h3
  refine ⟨⟨h1, by show rs.length ≤ _; omega, by show rs.countP _ + d.markerWaiting.toNat ≤ 1; omega⟩, fun hm => ?_⟩
  simp only [hm, if_true] at h3
  show rs.countP _ + d.markerWaiting.toNat = 0
  omega

theorem DirectiveUnit.Law.reportShown {s : State} (h : s.dir.Law) {r : Report}
    (one : r.isMarker = true → s.dir.markers = 0) : (s.reportShown r).dir.Law := by
  have hr : ∀ u : FlagUnit, r.isMarker = true → ({ s with flags := u } : State).renotice.dir.Law := by
    intro u hm
    unfold State.renotice
    split
    · exact DirectiveUnit.Law.placeMarker h (one hm)
    · exact h
  unfold State.reportShown
  cases r.content <;> dsimp only <;> split
  · exact hr _ (by assumption)
  · exact h
  · exact hr _ (by assumption)
  · exact h

theorem State.finishReport_keeps (s : State) : s.Keeps s.finishReport := by
  unfold State.finishReport
  split
  · rename_i across r rs hact hr
    have same := reportShown_same r ((({ s with dir := { s.dir with reports := rs } } : State).emit .p [r.packet]).setAct .p .free)
    refine ⟨?_, ?_, ?_, fun h => ?_, ?_⟩
    · show s.store.PageLaw → Store.PageLaw (State.store _); rw [same.store]; simp
    · show s.clips.Law → Clips.Law (State.clips _); rw [same.clips]; simp
    · show s.time.Law → TimeBase.Law (State.time _); rw [same.time]; simp
    · have ht := h.tail hr
      exact DirectiveUnit.Law.reportShown (by simpa using ht.1) (by simpa using ht.2)
    · show s.banks.Law → Banks.Law (State.banks _); rw [same.banks]; simp
  · exact .refl s

theorem State.placeOwed_keeps (s : State) (h : s.dir.markerWaiting = true) :
    s.Keeps ({ s with dir := { s.dir with markerWaiting := false } } : State).placeMarker := by
  have same := placeMarker_same { s with dir := { s.dir with markerWaiting := false } }
  refine ⟨?_, ?_, ?_, fun k => ?_, ?_⟩
  · rw [same.store]; exact id
  · rw [same.clips]; exact id
  · rw [same.time]; exact id
  · obtain ⟨h1, h2, h3⟩ := k
    simp only [h, Bool.toNat_true] at h3
    exact DirectiveUnit.Law.placeMarker (s := { s with dir := { s.dir with markerWaiting := false } })
      ⟨h1, h2, by simp only [Bool.toNat_false]; omega⟩ (by simp only [DirectiveUnit.markers, Bool.toNat_false]; omega)
  · rw [same.banks]; exact id

theorem State.assertReset_keeps (l : LinkId) (s : State) : s.Keeps (s.assertReset l) := by
  have ha : s.Keeps (s.abandon l) := by
    unfold State.abandon
    split
    · exact (Keeps.storeOnly fun h => h.makeStored _).trans (setAct_keeps _ _ _)
    · exact setAct_keeps _ _ _
  unfold State.assertReset
  cases l
  · exact (ha.trans (setLink_keeps _ _ _)).trans (.of_eq rfl rfl rfl rfl rfl)
  · exact ha.trans (setLink_keeps _ _ _)

theorem State.releaseReset_keeps (l : LinkId) (s : State) : s.Keeps (s.releaseReset l) := by
  unfold State.releaseReset
  split
  · exact (setLink_keeps _ _ _).trans (freeLink_keeps _ _)
  · exact .refl s

/-! ### Directives -/

theorem State.takeJam_keeps (tag : Byte) (a b c : Word) (s : State) : s.Keeps (s.takeJam tag a b c) := by
  unfold State.takeJam
  dsimp only
  split
  · rename_i hin
    refine Keeps.trans (.timeOnly fun h => ?_) (respond_keeps _ _ _ _ _)
    have hl := labelToCount_lt (df := s.time.df) (Label.movedUp_inRange (df := s.time.df) hin)
    have h' := h.restartLane
    exact ⟨h'.mark, h'.stage1, h'.stage2, hl, h'.rr, h'.sub, h'.interval⟩
  · exact respond_keeps _ _ _ _ _

theorem State.takeRun_keeps (tag : Byte) (s : State) : s.Keeps (s.takeRun tag) :=
  (Keeps.timeOnly fun h => h.run true).trans (respond_keeps _ _ _ _ _)

theorem State.takeSetRate_keeps (tag : Byte) (a b : Word) (s : State) : s.Keeps (s.takeSetRate tag a b) := by
  unfold State.takeSetRate
  dsimp only
  split
  · exact respond_keeps _ _ _ _ _
  · split
    · exact respond_keeps _ _ _ _ _
    · rename_i hm
      split
      · exact respond_keeps _ _ _ _ _
      · refine Keeps.trans (.timeOnly fun h => h.setRate fun hd => ?_) (respond_keeps _ _ _ _ _)
        simpa [hd] using hm

theorem State.takeSetCues_keeps (tag : Byte) (a b c d e f : Word) (s : State) :
    s.Keeps (s.takeSetCues tag a b c d e f) := by
  unfold State.takeSetCues
  split
  · exact (Keeps.timeOnly fun h => h.cues _ _).trans (respond_keeps _ _ _ _ _)
  · exact respond_keeps _ _ _ _ _

theorem State.takeCacheOn_keeps (tag : Byte) (s : State) : s.Keeps (s.takeCacheOn tag) := by
  unfold State.takeCacheOn
  split
  · exact Keeps.after (respond_keeps _ _ _ _ _) (.clipsOnly fun _ hr => hr)
  · exact respond_keeps _ _ _ _ _

theorem State.takeCacheOff_keeps (tag : Byte) (s : State) : s.Keeps (s.takeCacheOff tag) := by
  refine Keeps.trans ?_ (respond_keeps _ _ _ _ _)
  unfold State.cacheOff
  dsimp only
  split
  · exact ⟨fun h => h.releasePairs _, id, id, id, id⟩
  · exact .clipsOnly fun _ hr => hr

theorem State.takeStart_keeps (tag : Byte) (s : State) : s.Keeps (s.takeStart tag) := by
  unfold State.takeStart
  split_ifs
  · exact respond_keeps _ _ _ _ _
  · exact respond_keeps _ _ _ _ _
  · exact respond_keeps _ _ _ _ _
  · exact (startClip_keeps s).trans (respond_keeps _ _ _ _ _)

theorem State.takeStop_keeps (tag : Byte) (s : State) : s.Keeps (s.takeStop tag) := by
  unfold State.takeStop
  split
  · exact (closeOpen_keeps _ s).trans (respond_keeps _ _ _ _ _)
  · exact respond_keeps _ _ _ _ _

/-- Replacing the standby bank leaves the active one. -/
@[simp] theorem Banks.setStandby_act (b : Banks) (n : Bank) : (b.setStandby n).act = b.act := by
  unfold Banks.setStandby Banks.act
  cases b.active <;> simp [Banks.get]

@[simp] theorem Banks.setStandby_standby (b : Banks) (n : Bank) : (b.setStandby n).standby = n := by
  unfold Banks.setStandby Banks.standby
  cases b.active <;> simp [Banks.get, BankId.other]

@[simp] theorem Banks.setStandby_active (b : Banks) (n : Bank) : (b.setStandby n).active = b.active := by
  unfold Banks.setStandby
  cases b.active <;> simp

theorem Banks.Law.setStandby {b : Banks} (h : b.Law) (n : Bank) : (b.setStandby n).Law := by
  unfold Banks.Law; rw [Banks.setStandby_act]; exact h

theorem State.takeLoad_keeps (tag : Byte) (param : Word) (payload : List Word) (s : State) :
    s.Keeps (s.takeLoad tag param payload) := by
  unfold State.takeLoad
  split
  · exact respond_keeps _ _ _ _ _
  · dsimp only
    refine Keeps.after (respond_keeps _ _ _ _ _) ?_
    split
    · exact Keeps.after (setFlag_keeps _ _) ⟨id, id, id, id, fun h => h.setStandby _⟩
    · exact ⟨id, id, id, id, fun h => h.setStandby _⟩

theorem State.takeCopy_keeps (tag : Byte) (s : State) : s.Keeps (s.takeCopy tag) := by
  unfold State.takeCopy
  split
  · exact respond_keeps _ _ _ _ _
  · exact Keeps.after (respond_keeps _ _ _ _ _) ⟨id, id, id, id, fun h => h.setStandby _⟩

theorem State.switchRing_keeps (old : Bank) (s : State) : s.Keeps (s.switchRing old) := by
  have h1 : s.Keeps (if s.banks.act.wi ≠ old.wi ∨ s.banks.act.hi ≠ old.hi then s.flushRing
      else if s.banks.act.geometry ≠ old.geometry then s.releaseRingTwins else s) := by
    split_ifs
    · exact flushRing_keeps s
    · exact releaseRingTwins_keeps s
    · exact .refl s
  have key : ∀ u : State, s.Keeps u → s.Keeps
      (if s.banks.act.preRollDepth < u.clips.ring.length then u.trimRing s.banks.act.preRollDepth else u) := by
    intro u hu
    split
    · exact hu.trans (trimRing_keeps _ _)
    · exact hu
  exact key _ h1

theorem State.switchSplit_keeps (old : Bank) (s : State) : s.Keeps (s.switchSplit old) := by
  unfold State.switchSplit
  split
  · split
    · exact .clipsOnly fun _ hr => hr
    · exact .refl s
  · exact .refl s

theorem State.switchLowMark_keeps (old : Bank) (s : State) : s.Keeps (s.switchLowMark old) := by
  unfold State.switchLowMark
  split
  · exact setFlag_keeps _ _
  · exact .refl s

theorem State.switchBanks_keeps (k : Nat) (s : State) (v : s.banks.standby.valid = true) : s.Keeps (s.switchBanks k) := by
  unfold State.switchBanks
  refine Keeps.after (switchLowMark_keeps _ _) (Keeps.after (switchSplit_keeps _ _) (Keeps.after (switchRing_keeps _ _) ?_))
  refine ⟨id, id, id, id, fun _ => .inr ?_⟩
  show Bank.valid (Banks.get _ _) = true
  cases h : s.banks.active <;> simpa [Banks.standby, Banks.get, BankId.other, h] using v

theorem State.takeSwitch_keeps (tag : Byte) (k : Word) (s : State) : s.Keeps (s.takeSwitch tag k) := by
  unfold State.takeSwitch
  split
  · exact respond_keeps _ _ _ _ _
  · rename_i h
    refine Keeps.trans (switchBanks_keeps _ s ?_) (respond_keeps _ _ _ _ _)
    unfold switchRefusal at h
    split_ifs at h with h1 h2 h3
    simpa using h2

theorem State.takeClear_keeps (tag : Byte) (l : FlagSet) (s : State) : s.Keeps (s.takeClear tag l) :=
  Keeps.after (respond_keeps _ _ _ _ _) (.of_eq rfl rfl rfl rfl rfl)

theorem State.takeNotices_keeps (tag : Byte) (e : FlagSet) (s : State) : s.Keeps (s.takeNotices tag e) :=
  Keeps.after (respond_keeps _ _ _ _ _) (.of_eq rfl rfl rfl rfl rfl)

theorem State.takeQuery_keeps (tag : Byte) (s : State) : s.Keeps (s.takeQuery tag) :=
  (respond_keeps _ _ _ _ _).trans (placeReport_keeps rfl _)

theorem State.takeArm_keeps (tag : Byte) (t : FlagSet) (s : State) : s.Keeps (s.takeArm tag t) := by
  unfold State.takeArm
  split
  · exact respond_keeps _ _ _ _ _
  · exact Keeps.after (respond_keeps _ _ _ _ _) (.of_eq rfl rfl rfl rfl rfl)

theorem State.takeFetch_keeps (tag : Byte) (s : State) : s.Keeps (s.takeFetch tag) := by
  unfold State.takeFetch
  split
  · exact ((respond_keeps _ _ _ _ _).trans (placeReport_keeps rfl _)).trans (.of_eq rfl rfl rfl rfl rfl)
  · exact respond_keeps _ _ _ _ _

theorem State.restartLink_keeps (l : LinkId) (s : State) : s.Keeps (s.restartLink l) := by
  unfold State.restartLink
  split
  · dsimp only
    split
    · exact (emit_keeps _ _ _).trans (setAct_keeps _ _ _)
    · refine Keeps.trans ?_ (setAct_keeps _ _ _)
      split
      · exact modifyClip_keeps _ (fun _ h => h.countSend l) s
      · exact .refl s
  · exact setAct_keeps _ _ _
  · exact .refl s

theorem State.restartDirectives_keeps (s : State) : s.Keeps s.restartDirectives := by
  refine ⟨id, id, id, fun h => ?_, id⟩
  obtain ⟨-, h2, h3⟩ := h
  unfold State.restartDirectives
  dsimp only
  split
  · refine ⟨Nat.zero_le _, by simp; omega, ?_⟩
    have := List.Sublist.countP_le (p := Report.isMarker) (List.take_sublist 1 s.dir.reports)
    simp only [Bool.toNat_false]
    omega
  · exact ⟨Nat.zero_le _, Nat.zero_le _, by simp⟩

theorem State.restartBlocks_keeps (s : State) : s.Keeps s.restartBlocks :=
  ⟨fun _ => .reset, fun _ r hr => by simp [State.restartBlocks] at hr, id, id, id⟩

theorem restartReports_plain {tag : Byte} {ds : List Directive} {cs : List ClipRecord} :
    ∀ r ∈ restartReports tag ds cs, r.isMarker = false := by
  intro r hr
  simp only [restartReports, List.mem_append, List.mem_singleton, List.mem_map] at hr
  rcases hr with (rfl | ⟨d, -, rfl⟩) | ⟨c, -, rfl⟩ <;> rfl

theorem State.placeReports_keeps {rs : List Report} (h : ∀ r ∈ rs, r.isMarker = false) (s : State) :
    s.Keeps (rs.foldl (fun s r => s.placeReport r) s) := by
  induction rs generalizing s with
  | nil => exact .refl s
  | cons r rs ih =>
    exact (placeReport_keeps (h r List.mem_cons_self) s).trans (ih (fun x hx => h x (List.mem_cons_of_mem _ hx)) _)

theorem State.takeRestart_keeps (tag : Byte) (s : State) : s.Keeps (s.takeRestart tag) := by
  unfold State.takeRestart
  exact ((((restartLink_keeps .p s).trans (restartLink_keeps .x _)).trans (restartDirectives_keeps _)).trans
    (restartBlocks_keeps _)).trans (placeReports_keeps restartReports_plain _)

theorem State.takeDirective_keeps (d : Directive) (s : State) : s.Keeps (s.takeDirective d) := by
  unfold State.takeDirective
  cases d.code
  · exact takeLoad_keeps _ _ _ s
  · exact takeCopy_keeps _ s
  · exact takeSwitch_keeps _ _ s
  · exact takeCacheOn_keeps _ s
  · exact takeCacheOff_keeps _ s
  · exact takeStart_keeps _ s
  · exact takeStop_keeps _ s
  · exact takeSetCues_keeps _ _ _ _ _ _ _ s
  · exact takeJam_keeps _ _ _ _ s
  · exact takeRun_keeps _ s
  · exact takeSetRate_keeps _ _ _ s
  · exact takeClear_keeps _ _ s
  · exact takeNotices_keeps _ _ s
  · exact takeQuery_keeps _ s
  · exact takeArm_keeps _ _ s
  · exact takeFetch_keeps _ s
  · exact takeRestart_keeps _ s

theorem State.queueDirective_keeps (d : Directive) (s : State) : s.Keeps (s.queueDirective d) := by
  unfold State.queueDirective
  split
  · refine ⟨id, id, id, fun h => ⟨?_, h.reports, h.marker⟩, id⟩
    simp only [List.length_append, List.length_singleton]; omega
  · exact respond_keeps _ _ _ _ _

theorem State.receiveDirective_keeps (rest : List Word) (s : State) : s.Keeps (s.receiveDirective rest) := by
  unfold State.receiveDirective
  split
  · exact setFlag_keeps _ s
  · exact respond_keeps _ _ _ _ s
  · exact takeDirective_keeps _ s
  · exact queueDirective_keeps _ s

theorem State.takeQueue_keeps (n : Nat) (s : State) : s.Keeps (s.takeQueue n) := by
  induction n generalizing s with
  | zero => exact .refl s
  | succ n ih =>
    unfold State.takeQueue
    split
    · exact .refl s
    · rename_i d ds hq
      refine Keeps.after (ih _) (Keeps.after (takeDirective_keeps _ _)
        ⟨id, id, id, fun h => ⟨?_, h.reports, h.marker⟩, id⟩)
      have := h.queue
      rw [hq] at this
      simp only [List.length_cons] at this
      show ds.length ≤ _
      omega

theorem State.boundary_keeps (o : BoundaryOrder) (s : State) : s.Keeps (s.boundary o) := by
  cases o
  · exact (takeActions_keeps _ s).trans (takeQueue_keeps _ _)
  · exact (takeQueue_keeps _ s).trans (takeActions_keeps _ _)

/-! ### Input frames -/

theorem State.renderLine_keeps (n : Nat) (l : Samples) (s : State) : s.Keeps (s.renderLine n l) := by
  unfold State.renderLine
  split
  · exact .refl s
  · exact ⟨fun h => h.write _ _, id, id, id, id⟩

theorem State.deliver_keeps (f : FrameInProgress) (n : Nat) (l : Samples) (s : State) : s.Keeps (s.deliver f n l) :=
  (Keeps.storeOnly fun h => h.write _ _).trans (renderLine_keeps _ _ _)

theorem fillLines_keeps (n : Nat) (f : FrameInProgress) (s : State) : s.Keeps (fillLines n f s).2 := by
  induction n generalizing f s with
  | zero => exact .refl s
  | succ n ih => exact (State.deliver_keeps f _ _ s).trans (ih _ _)

theorem fillMissing_keeps (n : Nat) (f : FrameInProgress) (s : State) : s.Keeps (fillMissing n f s).2 := fillLines_keeps n f s

theorem placeLine_keeps (n : Nat) (l : Samples) (f : FrameInProgress) (s : State) : s.Keeps (placeLine n l f s).2 := by
  unfold placeLine
  split
  · exact .refl s
  · dsimp only
    refine State.Keeps.trans ?_ (State.deliver_keeps _ _ _ _)
    split
    · exact fillMissing_keeps _ _ _
    · exact .refl s

theorem State.receiveLine_keeps (rest : List Word) (f : FrameInProgress) (s : State) : s.Keeps (s.receiveLine rest f) := by
  unfold State.receiveLine
  dsimp only
  split
  · exact setFrame_keeps _ s
  · exact (placeLine_keeps _ _ _ s).trans (setFrame_keeps _ _)

theorem State.completeFrame_keeps (tr : Bool) (f : FrameInProgress) (s : State) : s.Keeps (s.completeFrame tr f) := by
  unfold State.completeFrame
  dsimp only
  have h : s.Keeps (({ s with store := s.store.complete f (f.flaws tr), render := { s.render with setup := none } } : State).placeFrame
      f.principal) :=
    Keeps.trans (t := { s with store := s.store.complete f (f.flaws tr), render := { s.render with setup := none } })
      ⟨fun h => h.complete _ _, id, id, id, id⟩ (placeFrame_keeps _ _)
  split
  · exact h
  · exact h.trans (setFlag_keeps _ _)

theorem State.closeFrame_keeps (tr : Bool) (n : Option Nat) (f : FrameInProgress) (s : State) :
    s.Keeps (s.closeFrame tr n f) := by
  unfold State.closeFrame
  exact ((fillMissing_keeps _ f s).trans (completeFrame_keeps _ _ _)).trans (setFrame_keeps _ _)

theorem State.closeAny_keeps (tr : Bool) (s : State) : s.Keeps (s.closeAny tr) := by
  unfold State.closeAny
  split
  · exact closeFrame_keeps _ _ _ s
  · exact .refl s

theorem State.takeDuring_keeps (d : List (List LinkEvent)) (s : State) : s.Keeps (s.takeDuring d).1 := by
  have h : ∀ (es : List LinkEvent) (s : State), s.Keeps (es.foldl State.takeLinkEvent s) := by
    intro es
    induction es with
    | nil => exact fun s => .refl s
    | cons e es ih => exact fun s => (takeLinkEvent_keeps e s).trans (ih _)
  exact h _ s

theorem State.ringMeasure_keeps {s t : State} (h : s.ringMeasure = some t) : s.Keeps t := by
  unfold State.ringMeasure at h
  split at h
  · injection h with h; subst h; exact releaseOldest_keeps s
  · contradiction

theorem State.evictMeasure_keeps {s t : State} (h : s.evictMeasure = some t) : s.Keeps t := by
  unfold State.evictMeasure at h
  split at h
  · contradiction
  · dsimp only at h
    split at h <;> injection h with h <;> subst h
    · exact (Keeps.storeOnly fun h => h.evict _).trans (reportEviction_keeps _ _)
    · exact .storeOnly fun h => h.evict _

theorem measureWhileShort_keeps {m : State → Option State} (hm : ∀ {s t}, m s = some t → s.Keeps t) (n : Nat)
    (d : List (List LinkEvent)) (s : State) : s.Keeps (measureWhileShort m n d s).1 := by
  induction n generalizing d s with
  | zero => exact .refl s
  | succ n ih =>
    unfold measureWhileShort
    split
    · split
      · rename_i t ht
        exact ((hm ht).trans (State.takeDuring_keeps d t)).trans (ih _ _)
      · exact .refl s
    · exact .refl s

theorem State.measures_keeps (d : List (List LinkEvent)) (s : State) : s.Keeps (s.measures d).1 := by
  unfold State.measures
  exact ((takeDuring_keeps d s).trans (measureWhileShort_keeps ringMeasure_keeps _ _ _)).trans
    (measureWhileShort_keeps evictMeasure_keeps _ _ _)

theorem State.storeFull_keeps (s : State) : s.Keeps s.storeFull := by
  unfold State.storeFull
  split
  · exact (closeOpen_keeps _ s).trans (setFlag_keeps _ _)
  · exact .refl s

theorem State.reserve_keeps {i : RecNo} {r : FrameRecord} {s : State} (free : (s.store.frame i).isFree = true)
    (room : r.pages ≤ s.store.freePages) (live : r.isFree = false) : s.Keeps (s.reserve i r) := by
  unfold State.reserve State.testStoreLow
  dsimp only
  have h : s.Keeps { s with store := s.store.reserve i r } := .storeOnly fun h => h.reserve free room live
  split
  · exact h.trans (setFlag_keeps _ _)
  · exact h

theorem State.twinRoom_some {s : State} {t : RecNo} (h : s.twinRoom = some t) :
    s.banks.act.proxyEnable = true ∧ s.banks.act.proxyFloor + s.banks.pagesX ≤ s.store.freePages ∧
      s.store.lowestFree = some t := by
  unfold State.twinRoom at h
  split at h
  · rename_i hc
    simp only [Bool.and_eq_true, decide_eq_true_eq] at hc
    exact ⟨hc.1, hc.2, h⟩
  · contradiction

theorem State.admitTwin_keeps (c : BitVec 32) (st : Stamp) (p : RecNo) (s : State) : s.Keeps (s.admitTwin c st p).1 := by
  unfold State.admitTwin
  split
  · exact .refl s
  · rename_i t ht
    obtain ⟨-, h2, h3⟩ := twinRoom_some ht
    refine Keeps.trans (reserve_keeps (Store.lowestFree_some h3).1 ?_ rfl)
      ⟨fun h => Store.PageLaw.modify (f := fun r => { r with twin := some t }) h (fun _ => rfl) fun _ hf => hf,
        id, id, id, id⟩
    exact Nat.le_trans (Nat.le_add_left _ _) h2

theorem State.admitPrincipal_keeps {c : BitVec 32} {st : Stamp} {p : RecNo} {d : List (List LinkEvent)} {s : State}
    (free : (s.store.frame p).isFree = true) (room : s.banks.pagesP ≤ s.store.freePages) :
    s.Keeps (s.admitPrincipal c st p d).1 := by
  have h := (((reserve_keeps (r := principalRecord s.banks c st) free room rfl).trans (takeDuring_keeps d _)).trans
    (admitTwin_keeps c st p _))
  have h' : s.Keeps { (((s.reserve p (principalRecord s.banks c st)).takeDuring d).1.admitTwin c st p).1 with
      render := (((s.reserve p (principalRecord s.banks c st)).takeDuring d).1.admitTwin c st p).1.render.afterStep } :=
    h.trans (.of_eq rfl rfl rfl rfl rfl)
  unfold State.admitPrincipal
  dsimp only
  split
  · exact h'.trans (joinLive_keeps _ _)
  · exact h'

theorem State.admitFrame_keeps (c : BitVec 32) (st : Stamp) (d : List (List LinkEvent)) (s : State) :
    s.Keeps (s.admitFrame c st d).1 := by
  unfold State.admitFrame
  split
  · exact .refl s
  · have hm := measures_keeps d s
    dsimp only
    split
    · exact hm.trans (storeFull_keeps _)
    · rename_i hs
      split
      · exact hm
      · rename_i p hp
        refine hm.trans (admitPrincipal_keeps (Store.lowestFree_some hp).1 ?_)
        simp only [Store.short, Bool.or_eq_true, decide_eq_true_eq, not_or] at hs
        omega

theorem State.checkCapture_keeps (c : BitVec 32) (s : State) : s.Keeps (s.checkCapture c) := by
  unfold State.checkCapture
  dsimp only
  split
  · split
    · exact (setFlag_keeps .captureSkip s).trans (.of_eq rfl rfl rfl rfl rfl)
    · exact .of_eq rfl rfl rfl rfl rfl
  · exact .of_eq rfl rfl rfl rfl rfl

theorem State.announce_keeps (c : BitVec 32) (w h : Nat) (st : Stamp) (d : List (List LinkEvent)) (s : State) :
    s.Keeps (s.announce c w h st d) := by
  unfold State.announce
  split
  · exact setFrame_keeps _ s
  · split
    · exact ((setFrame_keeps _ s).trans (setFlag_keeps _ _)).trans (cut_keeps _ _)
    · have ha := admitFrame_keeps c st d s
      split <;> rename_i heq <;> rw [heq] at ha <;> exact ha.trans (setFrame_keeps _ _)

theorem State.openFrame_keeps (c : BitVec 32) (w h : Nat) (o : BoundaryOrder) (d : List (List LinkEvent)) (s : State) :
    s.Keeps (s.openFrame c w h o d) := by
  unfold State.openFrame
  dsimp only
  refine Keeps.after (announce_keeps _ _ _ _ _ _) (Keeps.trans (Keeps.after (checkCapture_keeps c _)
    (Keeps.after (boundary_keeps o _) ((closeAny_keeps false s).trans (.ingressOnly _ _)))) (.timeOnly fun h => h.afterStamp))

theorem State.corruptOpen_keeps (s : State) : s.Keeps s.corruptOpen := (closeAny_keeps _ s).trans (setFrame_keeps _ _)

/-! ### Time -/

theorem State.expire_keeps (s : State) : s.Keeps s.expire := by
  unfold State.expire
  dsimp only
  exact Keeps.after (cut_keeps _ _) (Keeps.after (setFlag_keeps _ _)
    (((closeAny_keeps true s).trans (setFrame_keeps _ _)).trans (.ingressOnly _ _)))

theorem State.testLoss_keeps (s : State) : s.Keeps s.testLoss := by
  unfold State.testLoss
  split
  · exact expire_keeps s
  · exact .refl s

theorem State.countLoss_keeps (s : State) : s.Keeps s.countLoss := .of_eq rfl rfl rfl rfl rfl

theorem State.fireCue_keeps (a : CueAction) (s : State) : s.Keeps (s.fireCue a) := by
  cases a <;> unfold State.fireCue <;> dsimp only <;> split
  · exact (Keeps.timeOnly fun h => h.cues none s.time.stopCue).trans (setFlag_keeps _ _)
  · exact .refl s
  · exact (Keeps.timeOnly fun h => h.cues s.time.startCue none).trans (setFlag_keeps _ _)
  · exact .refl s

theorem State.pulseBoundary_keeps (o : PulseOrder) (as : List CueAction) (s : State) : s.Keeps (s.pulseBoundary o as) := by
  have hb : ∀ s : State, s.Keeps (if s.ingress.link = .streaming then s else s.boundary o.boundary) := by
    intro s
    split
    · exact .refl s
    · exact boundary_keeps _ s
  unfold State.pulseBoundary
  cases o.handOverFirst
  · exact (hb s).trans (handOverAll_keeps as _)
  · exact (handOverAll_keeps as s).trans (hb _)

theorem State.pulse_keeps (o : PulseOrder) (s : State) : s.Keeps (s.pulse o) := by
  unfold State.pulse
  dsimp only
  have h : s.Keeps { s with time := s.time.pulse, pace := satAdd Config.paceLimit s.pace 1 } := ⟨id, id, fun h => h.pulse, id, id⟩
  have h' := (h.trans (fireCue_keeps .start _)).trans (fireCue_keeps .stop _)
  split
  · exact ((h'.trans (countLoss_keeps _)).trans (testLoss_keeps _)).trans (pulseBoundary_keeps _ _ _)
  · exact ((h'.trans (pulseBoundary_keeps _ _ _)).trans (countLoss_keeps _)).trans (testLoss_keeps _)

theorem State.loseLock_keeps (s : State) : s.Keeps s.loseLock := by
  unfold State.loseLock
  dsimp only
  exact Keeps.after (setFlag_keeps _ _) (Keeps.trans (Keeps.after (setFrame_keeps _ _) (Keeps.after (closeAny_keeps true _)
    (.ingressOnly _ _))) (.ingressOnly _ _))

theorem State.packetEnds_keeps (l : LinkId) (e : Bool) (s : State) : s.Keeps (s.packetEnds l e) := by
  unfold State.packetEnds
  split
  · split
    · exact (emit_keeps _ _ _).trans (setAct_keeps _ _ _)
    · exact .refl s
  · exact .refl s

theorem State.referenceTick_keeps (s : State) : s.Keeps s.referenceTick := by
  unfold State.referenceTick
  dsimp only
  have h : s.Keeps { ((s.packetEnds .p (Config.packetEnds (2 * s.drawn))).packetEnds .x
      (Config.packetEnds (2 * s.drawn + 1))) with drawn := s.drawn + 1 } :=
    ((packetEnds_keeps .p _ s).trans (packetEnds_keeps .x _ _)).trans (.of_eq rfl rfl rfl rfl rfl)
  split
  · exact h.trans (pulse_keeps _ _)
  · rename_i hw
    exact h.trans (.timeOnly fun k => k.tick (by simpa using hw))

end Sys2Proof.Machine
end

