-- ==== Sys2Proof/Laws/Ingress.lean ====
section
/-! SUPPORT. What delivering and filling lines can change, and which lines an open frame's record holds afterwards. -/

namespace Sys2Proof.Machine

open Sys2Proof

/-! ### The frame setup while rows are formed -/

/-- Forming rows moves next row alone (R96). -/
theorem formRows_setup (banks : Banks) (arrived n : Nat) (u : FrameSetup) :
    (formRows banks arrived n u).1 = { u with nextRow := (formRows banks arrived n u).1.nextRow } := by
  induction n generalizing u with
  | zero => rfl
  | succ n ih =>
    unfold formRows
    split
    · exact ih _
    · rfl

/-- A delivered line moves next row and the held lines alone (R96). -/
theorem takeLine_setup (banks : Banks) (k : Nat) (line : Samples) (u : FrameSetup) :
    (takeLine banks k line u).1 =
      { u with nextRow := (takeLine banks k line u).1.nextRow, held := (takeLine banks k line u).1.held } := by
  unfold takeLine
  split
  · dsimp only [FrameSetup.drop]
    have := formRows_setup banks (k - u.y0) (u.ho - u.nextRow)
      { u with held := u.held ++ [(k - u.y0, hLine u (banks.get u.bank).hkernel line)] }
    rw [this]
  · rfl

/-- What delivering lines of a frame can change: the lines of its principal's record and of the record the renderer writes,
and the frame setup. Every other field of every record, and every other block, is left. -/
structure State.Filled (p : RecNo) (s t : State) : Prop where
  ingress   : t.ingress = s.ingress
  time      : t.time = s.time
  clips     : t.clips = s.clips
  banks     : t.banks = s.banks
  dir       : t.dir = s.dir
  flags     : t.flags = s.flags
  pLink     : t.pLink = s.pLink
  xLink     : t.xLink = s.xLink
  batch     : t.batch = s.batch
  pace      : t.pace = s.pace
  lastProxy : t.lastProxy = s.lastProxy
  drawn     : t.drawn = s.drawn
  pending   : t.pending = s.pending
  ramp      : t.render = { s.render with setup := t.render.setup }
  twin      : t.render.setup.map (·.twin) = s.render.setup.map (·.twin)
  free      : t.store.freePages = s.store.freePages
  pq        : t.store.pq = s.store.pq
  xq        : t.store.xq = s.store.xq
  pFlawed   : t.store.pFlawed = s.store.pFlawed
  xFlawed   : t.store.xFlawed = s.store.xFlawed
  fields    : ∀ j, t.store.frame j = { s.store.frame j with lines := (t.store.frame j).lines }
  others    : ∀ j, j ≠ p → (∀ u ∈ s.render.setup, u.twin ≠ j) → t.store.frame j = s.store.frame j

theorem State.Filled.refl (p : RecNo) (s : State) : State.Filled p s s := by constructor <;> intros <;> rfl

theorem State.Filled.twins {p : RecNo} {s t : State} (h : State.Filled p s t) {j : RecNo}
    (hj : ∀ u ∈ s.render.setup, u.twin ≠ j) : ∀ u ∈ t.render.setup, u.twin ≠ j := by
  intro u hu
  have h1 : t.render.setup.map (·.twin) = some u.twin := by rw [hu]; rfl
  rw [h.twin] at h1
  obtain ⟨v, hv, he⟩ := Option.map_eq_some_iff.mp h1
  rw [← he]
  exact hj v hv

theorem State.Filled.trans {p : RecNo} {s t u : State} (h : State.Filled p s t) (k : State.Filled p t u) :
    State.Filled p s u := by
  constructor
  · exact k.ingress.trans h.ingress
  · exact k.time.trans h.time
  · exact k.clips.trans h.clips
  · exact k.banks.trans h.banks
  · exact k.dir.trans h.dir
  · exact k.flags.trans h.flags
  · exact k.pLink.trans h.pLink
  · exact k.xLink.trans h.xLink
  · exact k.batch.trans h.batch
  · exact k.pace.trans h.pace
  · exact k.lastProxy.trans h.lastProxy
  · exact k.drawn.trans h.drawn
  · exact k.pending.trans h.pending
  · rw [k.ramp, h.ramp]
  · exact k.twin.trans h.twin
  · exact k.free.trans h.free
  · exact k.pq.trans h.pq
  · exact k.xq.trans h.xq
  · exact k.pFlawed.trans h.pFlawed
  · exact k.xFlawed.trans h.xFlawed
  · intro j; rw [k.fields j, h.fields j]
  · intro j hj hu; rw [k.others j hj (h.twins hu), h.others j hj hu]

theorem State.deliver_filled (f : FrameInProgress) (n : Nat) (line : Samples) (s : State) :
    State.Filled f.principal s (s.deliver f n line) := by
  have hw : ∀ (st : Store) (i j : RecNo) (ls : List Samples),
      (st.modify i (FrameRecord.write ls)).frame j =
        { st.frame j with lines := ((st.modify i (FrameRecord.write ls)).frame j).lines } := by
    intro st i j ls
    rw [Store.modify_frame]
    split
    · rename_i h; subst h; rfl
    · rfl
  have hne : ∀ (st : Store) (i j : RecNo) (ls : List Samples), i ≠ j →
      (st.modify i (FrameRecord.write ls)).frame j = st.frame j := fun st i j ls h => Store.modify_frame_ne st _ h
  unfold State.deliver State.renderLine
  split
  · constructor <;> try (intros; rfl)
    · intro j; exact hw _ _ _ _
    · intro j hj _; exact hne _ _ _ _ (Ne.symm hj)
  · rename_i u hu
    have hu : s.render.setup = some u := hu
    have ht := takeLine_setup s.banks n line u
    constructor <;> try (intros; rfl)
    · show (some (takeLine s.banks n line u).1).map (·.twin) = s.render.setup.map (·.twin)
      rw [hu, ht]; rfl
    · intro j
      show ((s.store.modify f.principal _).modify u.twin _).frame j = _
      rw [hw, hw]
    · intro j hj hu'
      show ((s.store.modify f.principal _).modify u.twin _).frame j = _
      rw [hne _ _ _ _ (hu' u hu), hne _ _ _ _ (Ne.symm hj)]

theorem State.deliver_lines {f : FrameInProgress} {s : State} (h : ∀ u ∈ s.render.setup, u.twin ≠ f.principal) (n : Nat)
    (line : Samples) :
    ((s.deliver f n line).store.frame f.principal).lines = (s.store.frame f.principal).lines ++ [line] := by
  unfold State.deliver State.renderLine
  split
  · simp [FrameRecord.write]
  · rename_i u hu
    have hu : s.render.setup = some u := hu
    show (((s.store.modify f.principal _).modify u.twin _).frame f.principal).lines = _
    rw [Store.modify_frame_ne _ _ (h u hu)]
    simp [FrameRecord.write]

theorem fillLines_filled (n : Nat) (f : FrameInProgress) (s : State) :
    State.Filled f.principal s (fillLines n f s).2 := by
  induction n generalizing f s with
  | zero => exact .refl _ s
  | succ n ih => exact (State.deliver_filled f _ _ s).trans (ih { f with expected := f.expected + 1 } _)

theorem fillLines_frame (n : Nat) (f : FrameInProgress) (s : State) :
    (fillLines n f s).1 = { f with expected := f.expected + n } := by
  induction n generalizing f s with
  | zero => rfl
  | succ n ih => unfold fillLines; rw [ih]; simp only [Nat.add_right_comm]; rfl

/-- The lines of the principal's record after a number of fills: each fill is a copy of the stored line last received, or
black (R11). -/
theorem fillLines_lines (n : Nat) {f : FrameInProgress} {s : State}
    (hn : ∀ k ∈ f.lastReceived, k < (s.store.frame f.principal).lines.length)
    (hu : ∀ u ∈ s.render.setup, u.twin ≠ f.principal) :
    ((fillLines n f s).2.store.frame f.principal).lines =
      (s.store.frame f.principal).lines ++ List.replicate n (s.fillLine f) := by
  induction n generalizing f s with
  | zero => simp [fillLines]
  | succ n ih =>
    unfold fillLines
    have hl := State.deliver_lines hu f.expected (s.fillLine f)
    have hf := State.deliver_filled f f.expected (s.fillLine f) s
    have := ih (f := { f with expected := f.expected + 1 }) (s := s.deliver f f.expected (s.fillLine f))
      (fun k hk => by
        show k < ((s.deliver f f.expected (s.fillLine f)).store.frame f.principal).lines.length
        rw [hl]; simp; exact Nat.le_of_lt (hn k hk)) (hf.twins hu)
    have hfill : (s.deliver f f.expected (s.fillLine f)).fillLine { f with expected := f.expected + 1 } = s.fillLine f := by
      show (match f.lastReceived with
        | some k => ((s.deliver f f.expected (s.fillLine f)).store.frame f.principal).lines.getD k []
        | none => List.replicate (3 * f.width) 0) = s.fillLine f
      conv_rhs => unfold State.fillLine
      cases hr : f.lastReceived with
      | none => rfl
      | some k =>
        show (((s.deliver f f.expected (s.fillLine f)).store.frame f.principal).lines.getD k []) = _
        rw [hl, List.getD_append _ _ _ _ (hn k hr)]
    rw [hfill] at this
    show ((fillLines n _ _).2.store.frame f.principal).lines = _
    refine this.trans ?_
    show ((s.deliver f f.expected (s.fillLine f)).store.frame f.principal).lines ++ _ = _
    rw [hl, List.replicate_succ, List.append_assoc, List.singleton_append]

theorem fillMissing_frame (n : Nat) (f : FrameInProgress) (s : State) :
    (fillMissing n f s).1 = { f with expected := f.expected + n, missing := satAdd Config.countLimit f.missing n } := by
  unfold fillMissing
  dsimp only
  rw [fillLines_frame]

theorem fillMissing_filled (n : Nat) (f : FrameInProgress) (s : State) :
    State.Filled f.principal s (fillMissing n f s).2 := fillLines_filled n f s

/-! ### Completing a frame (R15, R51, R70) -/

/-- What completing a pair leaves of each record. -/
theorem Store.complete_frame (f : FrameInProgress) (fl : Flaws) (s : Store) (j : RecNo) :
    (s.complete f fl).frame j =
      if j = f.principal ∨ f.twin = some j then (s.frame j).complete fl else s.frame j := by
  unfold Store.complete
  dsimp only
  cases ht : f.twin with
  | none =>
    dsimp only
    rw [Store.modify_frame]
    by_cases h : f.principal = j
    · subst h; simp
    · simp [h, Ne.symm h]
  | some q =>
    dsimp only
    rw [Store.modify_frame, Store.modify_frame, Store.modify_frame]
    by_cases h : q = j <;> by_cases h' : f.principal = j <;> simp_all [eq_comm]
    · simp [FrameRecord.complete, FrameRecord.makeStored]

@[simp] theorem Store.complete_freePages (f : FrameInProgress) (fl : Flaws) (s : Store) :
    (s.complete f fl).freePages = s.freePages := by
  unfold Store.complete; dsimp only; split <;> rfl
@[simp] theorem Store.complete_pq (f : FrameInProgress) (fl : Flaws) (s : Store) : (s.complete f fl).pq = s.pq := by
  unfold Store.complete; dsimp only; split <;> rfl
@[simp] theorem Store.complete_xq (f : FrameInProgress) (fl : Flaws) (s : Store) : (s.complete f fl).xq = s.xq := by
  unfold Store.complete; dsimp only; split <;> rfl
@[simp] theorem Store.complete_pFlawed (f : FrameInProgress) (fl : Flaws) (s : Store) :
    (s.complete f fl).pFlawed = s.pFlawed := by
  unfold Store.complete; dsimp only; split <;> rfl
@[simp] theorem Store.complete_xFlawed (f : FrameInProgress) (fl : Flaws) (s : Store) :
    (s.complete f fl).xFlawed = s.xFlawed := by
  unfold Store.complete; dsimp only; split <;> rfl

/-- Appending a pair to the send queues touches no record and no page. -/
theorem Store.appendPair_cases (i : RecNo) (s : Store) :
    s.appendPair i = { s with
      pq := s.pq ++ [i], xq := s.xq ++ (s.frame i).twin.toList
      pFlawed := s.pFlawed + (s.frame i).flawCount
      xFlawed := s.xFlawed + (((s.frame i).twin.map fun q => (s.frame q).flawCount).getD 0) } := by
  unfold Store.appendPair
  cases (s.frame i).twin <;> simp [Store.appendP, Store.appendX, Store.frame]

/-- What closing a frame can change beside the store and the report queue: the frame-in-progress state, the frame setup, the
ring and the flawed counts of the clips (R14, R15). -/
structure State.Closed (s t : State) : Prop where
  ingress   : t.ingress = { s.ingress with frame := .noFrame }
  render    : t.render = { s.render with setup := none }
  time      : t.time = s.time
  banks     : t.banks = s.banks
  queue     : t.dir.queue = s.dir.queue
  pLink     : t.pLink = s.pLink
  xLink     : t.xLink = s.xLink
  pace      : t.pace = s.pace
  lastProxy : t.lastProxy = s.lastProxy
  drawn     : t.drawn = s.drawn
  pending   : t.pending = s.pending
  clips     : t.clips = { s.clips with ring := t.clips.ring, records := t.clips.records }
  records   : t.clips.records.map (fun r => { r with flawed := 0 }) = s.clips.records.map (fun r => { r with flawed := 0 })

/-- Placing a frame changes the store, the ring and flawed counts alone (R70, R71). -/
theorem State.placeFrame_blocks (i : RecNo) (s : State) :
    s.placeFrame i = { s with store := (s.placeFrame i).store, clips := (s.placeFrame i).clips } ∧
      (s.placeFrame i).clips =
        { s.clips with ring := (s.placeFrame i).clips.ring, records := (s.placeFrame i).clips.records } ∧
      (s.placeFrame i).clips.records.map (fun r => { r with flawed := 0 }) =
        s.clips.records.map (fun r => { r with flawed := 0 }) := by
  have hring : ∀ s : State, s.placeInRing i =
      { s with store := (s.placeInRing i).store, clips := { s.clips with ring := (s.placeInRing i).clips.ring } } := by
    intro s
    unfold State.placeInRing State.releaseOldest
    dsimp only
    split
    · rfl
    · split
      · rfl
      · split <;> rfl
  unfold State.placeFrame
  cases hp : (s.store.frame i).part with
  | none =>
    dsimp only
    have h := hring s
    refine ⟨?_, ?_, ?_⟩
    · exact h.trans (by rw [h])
    · rw [h]
    · rw [h]
  | some part =>
    dsimp only [State.countFlawed]
    rw [hp]
    refine ⟨rfl, rfl, ?_⟩
    simp only [Clips.modifyNumber, List.map_map]
    apply List.map_congr_left
    intro r _
    simp only [Function.comp]
    split <;> rfl

/-- Everything that closing a frame can do (R14, R15). -/
theorem State.closeFrame_closed (tr : Bool) (n : Option Nat) (f : FrameInProgress) (s : State) :
    State.Closed s (s.closeFrame tr n f) := by
  have key : ∀ (g : FrameInProgress) (u : State), State.Filled f.principal s u →
      State.Closed s ((u.completeFrame tr g).setFrame .noFrame) := by
    intro g u hf
    unfold State.completeFrame
    dsimp only
    obtain ⟨h1, h2, h3⟩ := State.placeFrame_blocks g.principal
      { u with store := u.store.complete g (g.flaws tr), render := { u.render with setup := none } }
    generalize ({ u with store := u.store.complete g (g.flaws tr), render := { u.render with setup := none } } : State).placeFrame
      g.principal = v at h1 h2 h3
    have hv : State.Closed s (v.setFrame .noFrame) := by
      rw [h1]
      constructor <;>
        simp only [setFrame_ingress, setFrame_render, setFrame_time, setFrame_banks, setFrame_dir, setFrame_pLink, setFrame_xLink,
          setFrame_pace, setFrame_lastProxy, setFrame_drawn, setFrame_pending, setFrame_clips]
      · rw [hf.ingress]
      · rw [hf.ramp]
      · exact hf.time
      · exact hf.banks
      · rw [hf.dir]
      · exact hf.pLink
      · exact hf.xLink
      · exact hf.pace
      · exact hf.lastProxy
      · exact hf.drawn
      · exact hf.pending
      · rw [h2]; simp only [hf.clips]
      · rw [h3]; simp only [hf.clips]
    split
    · exact hv
    · constructor <;>
        simp only [setFrame_ingress, setFrame_render, setFrame_time, setFrame_banks, setFrame_dir, setFrame_pLink, setFrame_xLink,
          setFrame_pace, setFrame_lastProxy, setFrame_drawn, setFrame_pending, setFrame_clips, setFlag_ingress, setFlag_render,
          setFlag_time, setFlag_banks, setFlag_queue, setFlag_pLink, setFlag_xLink, setFlag_pace, setFlag_lastProxy,
          setFlag_drawn, setFlag_pending, setFlag_clips]
      · exact hv.ingress
      · exact hv.render
      · exact hv.time
      · exact hv.banks
      · exact hv.queue
      · exact hv.pLink
      · exact hv.xLink
      · exact hv.pace
      · exact hv.lastProxy
      · exact hv.drawn
      · exact hv.pending
      · exact hv.clips
      · exact hv.records
  unfold State.closeFrame
  dsimp only
  exact key _ _ (fillMissing_filled _ _ _)

end Sys2Proof.Machine
end

