-- ==== Sys2Proof/Laws/Boundary.lean ====
section
/-! SUPPORT. What a directive, a cue action, a link request and an admission can do to the Ingress Port, the directive queue
and the pending actions; and that a boundary empties both lists. -/

namespace Sys2Proof.Machine

open Sys2Proof

/-- What a cue action, a link request and every directive but RESTART leave: the Ingress Port but for the picture-loss
count, which may return to 0, the directive queue, the pending actions and the model's own fields. -/
structure State.Took (s t : State) : Prop where
  link    : t.ingress.link = s.ingress.link
  loss    : t.ingress.lossCount = s.ingress.lossCount ∨ t.ingress.lossCount = 0
  frame   : t.ingress.frame = s.ingress.frame
  capture : t.ingress.lastCapture = s.ingress.lastCapture
  queue   : t.dir.queue = s.dir.queue
  actions : t.clips.actions = s.clips.actions
  drawn   : t.drawn = s.drawn
  pending : t.pending = s.pending

theorem State.Took.refl (s : State) : s.Took s := ⟨rfl, .inl rfl, rfl, rfl, rfl, rfl, rfl, rfl⟩

theorem or_trans {α : Type} {a b c z : α} (h : b = a ∨ b = z) (k : c = b ∨ c = z) : c = a ∨ c = z := by
  rcases k with rfl | rfl
  · exact h
  · exact .inr rfl

theorem State.Took.trans {s t u : State} (h : s.Took t) (k : t.Took u) : s.Took u :=
  ⟨k.link.trans h.link, or_trans h.loss k.loss, k.frame.trans h.frame, k.capture.trans h.capture, k.queue.trans h.queue,
    k.actions.trans h.actions, k.drawn.trans h.drawn, k.pending.trans h.pending⟩

/-- The last operation first. -/
theorem State.Took.after {s t u : State} (k : t.Took u) (h : s.Took t) : s.Took u := h.trans k

theorem State.Took.of_same {s t : State} (h : s.SameBlocks t) : s.Took t :=
  ⟨by rw [h.ingress], .inl (by rw [h.ingress]), by rw [h.ingress], by rw [h.ingress], h.queue, by rw [h.clips], h.drawn,
    h.pending⟩

/-- A change that leaves the Ingress Port, the directive queue, the pending actions and the model's own fields. -/
theorem State.Took.of_eq {s t : State} (hi : t.ingress = s.ingress) (hq : t.dir.queue = s.dir.queue)
    (ha : t.clips.actions = s.clips.actions) (hd : t.drawn = s.drawn) (hp : t.pending = s.pending) : s.Took t :=
  ⟨by rw [hi], .inl (by rw [hi]), by rw [hi], by rw [hi], hq, ha, hd, hp⟩

theorem State.setFlag_took (f : Flag) (s : State) : s.Took (s.setFlag f) := .of_same (setFlag_same f s)
theorem State.placeReport_took (r : Report) (s : State) : s.Took (s.placeReport r) := .of_same (placeReport_same r s)
theorem State.respond_took (tag : Byte) (code : Word) (o : DirOutcome) (c : FlagSet) (s : State) :
    s.Took (s.respond tag code o c) := .of_same (respond_same _ _ _ _ s)
theorem State.setAct_took (l : LinkId) (a : Activity) (s : State) : s.Took (s.setAct l a) :=
  .of_eq (by simp) (by simp) (by simp) (by simp) (by simp)
theorem State.setLink_took (l : LinkId) (o : OutLink) (s : State) : s.Took (s.setLink l o) :=
  .of_eq (by simp) (by simp) (by simp) (by simp) (by simp)
theorem State.emit_took (l : LinkId) (ps : List Packet) (s : State) : s.Took (s.emit l ps) :=
  .of_eq (by simp) (by simp) (by simp) (by simp) (by simp)
theorem State.freeLink_took (l : LinkId) (s : State) : s.Took (s.freeLink l) :=
  .of_eq (by simp) (by simp) (by simp) (by simp) (by simp)

theorem State.testSettle_took (n : Nat) (s : State) : s.Took (s.testSettle n) := by
  unfold State.testSettle
  split
  · exact ((placeReport_took _ s).trans (setFlag_took _ _)).trans (.of_eq rfl rfl rfl rfl rfl)
  · exact .refl s

theorem State.reportSend_took (l : LinkId) (n : Nat) (s : State) : s.Took (s.reportSend l n) :=
  (testSettle_took n _).after (.of_eq rfl rfl rfl rfl rfl)

theorem State.reportEviction_took (p : ClipPart) (s : State) : s.Took (s.reportEviction p) :=
  (testSettle_took _ _).after ((setFlag_took _ _).after (.of_eq rfl rfl rfl rfl rfl))

theorem State.openRecord_took (o : Option ClipRecord) (s : State) : s.Took (s.openRecord o) :=
  ⟨rfl, .inr rfl, rfl, rfl, rfl, rfl, rfl, rfl⟩

theorem State.joinOpen_took (i : RecNo) (s : State) : s.Took (s.joinOpen i) := by
  unfold State.joinOpen
  split
  · exact .refl s
  · dsimp only
    split
    · exact .of_eq rfl rfl rfl rfl rfl
    · exact (setFlag_took _ _).after (.of_eq rfl rfl rfl rfl rfl)

theorem State.countFlawed_took (i : RecNo) (s : State) : s.Took (s.countFlawed i) := by
  unfold State.countFlawed
  split
  · exact .of_eq rfl rfl rfl rfl rfl
  · exact .refl s

theorem State.commitEntry_took (i : RecNo) (s : State) : s.Took (s.commitEntry i) :=
  ((joinOpen_took i s).trans (countFlawed_took i _)).trans (.of_eq rfl rfl rfl rfl rfl)

theorem State.commitRing_took (ring : List RecNo) (s : State) : s.Took (s.commitRing ring) := by
  induction ring generalizing s with
  | nil => exact .refl s
  | cons i ring ih => exact (ih _).after ((commitEntry_took i _).after (.of_eq rfl rfl rfl rfl rfl))

theorem State.startClip_took (s : State) : s.Took s.startClip := (openRecord_took none s).trans (commitRing_took _ _)

theorem State.closeOpen_took (e : EndCause) (s : State) : s.Took (s.closeOpen e) := by
  unfold State.closeOpen
  split
  · exact .refl s
  · exact (testSettle_took _ _).after (.of_eq rfl rfl rfl rfl rfl)

theorem State.cut_took (e : EndCause) (s : State) : s.Took (s.cut e) := by
  unfold State.cut
  split
  · exact closeOpen_took e s
  · exact .refl s

theorem State.joinLive_took (i : RecNo) (s : State) : s.Took (s.joinLive i) := by
  have hsplit : s.Took s.trySplit := by
    unfold State.trySplit
    split
    · split
      · unfold State.split
        split
        · exact .refl s
        · exact (testSettle_took _ _).after ((openRecord_took _ _).after (.of_eq rfl rfl rfl rfl rfl))
      · unfold State.deferSplit
        split
        · exact .refl s
        · exact (setFlag_took _ _).after (.of_eq rfl rfl rfl rfl rfl)
    · exact .refl s
  have hceil : ∀ s : State, s.Took s.testCeiling := by
    intro s
    unfold State.testCeiling
    split
    · exact closeOpen_took _ _
    · exact .refl _
  exact (hsplit.trans (joinOpen_took i _)).trans (hceil _)

theorem State.releaseOldest_took (s : State) : s.Took s.releaseOldest := by
  unfold State.releaseOldest
  split
  · exact .refl s
  · exact .of_eq rfl rfl rfl rfl rfl

theorem State.takeAction_took (a : CueAction) (s : State) : s.Took (s.takeAction a) := by
  unfold State.takeAction
  split
  · split
    · exact startClip_took s
    · exact .refl s
  · exact cut_took _ s

/-! ### Link requests and admission -/

theorem State.frameLeft_took (l : LinkId) (i : RecNo) (s : State) : s.Took (s.frameLeft l i) := by
  unfold State.frameLeft
  dsimp only
  split
  · exact .of_eq rfl rfl rfl rfl rfl
  · split
    · exact (reportSend_took _ _ _).after (.of_eq rfl rfl rfl rfl rfl)
    · rename_i part _ _
      have h : s.Took (State.reportSend .x part.clip { s with store := s.store.removeSent .x i }) :=
        (reportSend_took _ _ _).after (.of_eq rfl rfl rfl rfl rfl)
      exact h.trans (.of_eq rfl rfl rfl rfl rfl)

theorem State.takeLinkEvent_took (e : LinkEvent) (s : State) : s.Took (s.takeLinkEvent e) := by
  cases e
  · unfold State.takeLinkEvent State.frameSent
    dsimp only
    split
    · exact (freeLink_took _ _).after ((frameLeft_took _ _ _).after (emit_took _ _ _))
    · exact (freeLink_took _ _).after (emit_took _ _ _)
    · exact .refl s
  · unfold State.takeLinkEvent State.startProxy
    dsimp only
    split
    · exact .refl s
    · exact (setAct_took _ _ _).after (.of_eq rfl rfl rfl rfl rfl)

theorem State.takeDuring_took (d : List (List LinkEvent)) (s : State) : s.Took (s.takeDuring d).1 := by
  have h : ∀ (es : List LinkEvent) (s : State), s.Took (es.foldl State.takeLinkEvent s) := by
    intro es
    induction es with
    | nil => exact fun s => .refl s
    | cons e es ih => exact fun s => (takeLinkEvent_took e s).trans (ih _)
  exact h _ s

theorem State.ringMeasure_took {s t : State} (h : s.ringMeasure = some t) : s.Took t := by
  unfold State.ringMeasure at h
  split at h
  · injection h with h; subst h; exact releaseOldest_took s
  · contradiction

theorem State.evictMeasure_took {s t : State} (h : s.evictMeasure = some t) : s.Took t := by
  unfold State.evictMeasure at h
  split at h
  · contradiction
  · dsimp only at h
    split at h <;> injection h with h <;> subst h
    · exact (reportEviction_took _ _).after (.of_eq rfl rfl rfl rfl rfl)
    · exact .of_eq rfl rfl rfl rfl rfl

theorem measureWhileShort_took {m : State → Option State} (hm : ∀ {s t}, m s = some t → s.Took t) (n : Nat)
    (d : List (List LinkEvent)) (s : State) : s.Took (measureWhileShort m n d s).1 := by
  induction n generalizing d s with
  | zero => exact .refl s
  | succ n ih =>
    unfold measureWhileShort
    split
    · split
      · rename_i t ht
        exact ((hm ht).trans (State.takeDuring_took d t)).trans (ih _ _)
      · exact .refl s
    · exact .refl s

theorem State.reserve_took (i : RecNo) (r : FrameRecord) (s : State) : s.Took (s.reserve i r) := by
  unfold State.reserve State.testStoreLow
  dsimp only
  split
  · exact (setFlag_took _ _).after (.of_eq rfl rfl rfl rfl rfl)
  · exact .of_eq rfl rfl rfl rfl rfl

/-- Admission touches neither the Ingress Port's link nor the lists of a boundary (R45 to R50, R69). -/
theorem State.admitFrame_took (c : BitVec 32) (st : Stamp) (d : List (List LinkEvent)) (s : State) :
    s.Took (s.admitFrame c st d).1 := by
  have hm : s.Took (s.measures d).1 := by
    unfold State.measures
    exact ((takeDuring_took d s).trans (measureWhileShort_took ringMeasure_took _ _ _)).trans
      (measureWhileShort_took evictMeasure_took _ _ _)
  have ht : ∀ (p : RecNo) (s : State), s.Took (s.admitTwin c st p).1 := by
    intro p s
    unfold State.admitTwin
    split
    · exact .refl s
    · exact State.Took.trans (reserve_took _ _ _) (.of_eq rfl rfl rfl rfl rfl)
  have hp : ∀ (p : RecNo) (d : List (List LinkEvent)) (s : State), s.Took (s.admitPrincipal c st p d).1 := by
    intro p d s
    have h1 := ((reserve_took p (principalRecord s.banks c st) s).trans (takeDuring_took d _)).trans (ht p _)
    unfold State.admitPrincipal
    dsimp only
    split
    · exact (joinLive_took _ _).after (h1.trans (.of_eq rfl rfl rfl rfl rfl))
    · exact h1.trans (.of_eq rfl rfl rfl rfl rfl)
  unfold State.admitFrame
  split
  · exact .refl s
  · dsimp only
    split
    · refine hm.trans ?_
      unfold State.storeFull
      split
      · exact (closeOpen_took _ _).trans (setFlag_took _ _)
      · exact .refl _
    · split
      · exact hm
      · exact hm.trans (hp _ _ _)

/-! ### Directives -/

theorem State.flushRing_took (s : State) : s.Took s.flushRing := .of_eq rfl rfl rfl rfl rfl

theorem State.switchBanks_took (k : Nat) (s : State) : s.Took (s.switchBanks k) := by
  have hr : ∀ (old : Bank) (s : State), s.Took (s.switchRing old) := by
    intro old s
    have h1 : s.Took (if s.banks.act.wi ≠ old.wi ∨ s.banks.act.hi ≠ old.hi then s.flushRing
        else if s.banks.act.geometry ≠ old.geometry then s.releaseRingTwins else s) := by
      split_ifs
      · exact flushRing_took s
      · exact .of_eq rfl rfl rfl rfl rfl
      · exact .refl s
    have key : ∀ u : State, s.Took u → s.Took
        (if s.banks.act.preRollDepth < u.clips.ring.length then u.trimRing s.banks.act.preRollDepth else u) := by
      intro u hu
      split
      · exact hu.trans (.of_eq rfl rfl rfl rfl rfl)
      · exact hu
    exact key _ h1
  have hs : ∀ (old : Bank) (s : State), s.Took (s.switchSplit old) := by
    intro old s
    unfold State.switchSplit
    split
    · split
      · exact .of_eq rfl rfl rfl rfl rfl
      · exact .refl s
    · exact .refl s
  have hl : ∀ (old : Bank) (s : State), s.Took (s.switchLowMark old) := by
    intro old s
    unfold State.switchLowMark
    split
    · exact setFlag_took _ _
    · exact .refl s
  unfold State.switchBanks
  exact (hl _ _).after ((hs _ _).after ((hr _ _).after (.of_eq rfl rfl rfl rfl rfl)))

/-- Every directive but RESTART (R147). -/
theorem State.takeDirective_took (d : Directive) (s : State) (h : d.code ≠ .restart) : s.Took (s.takeDirective d) := by
  have hr : ∀ {s t : State} (tag : Byte) (code : Word) (o : DirOutcome) (c : FlagSet), s.Took t →
      s.Took (t.respond tag code o c) := fun _ _ _ _ h => h.trans (respond_took _ _ _ _ _)
  unfold State.takeDirective
  cases hc : d.code <;> dsimp only
  case restart => exact absurd hc h
  case loadSegment =>
    unfold State.takeLoad
    split
    · exact respond_took _ _ _ _ _
    · dsimp only
      apply hr
      split
      · exact (setFlag_took _ _).after (.of_eq rfl rfl rfl rfl rfl)
      · exact .of_eq rfl rfl rfl rfl rfl
  case copyBank =>
    unfold State.takeCopy
    split <;> apply hr
    · exact .refl s
    · exact .of_eq rfl rfl rfl rfl rfl
  case switchBank =>
    unfold State.takeSwitch
    split <;> apply hr
    · exact .refl s
    · exact switchBanks_took _ s
  case cacheOn =>
    unfold State.takeCacheOn
    split <;> apply hr
    · exact .of_eq rfl rfl rfl rfl rfl
    · exact .refl s
  case cacheOff =>
    unfold State.takeCacheOff State.cacheOff
    apply hr
    dsimp only
    split <;> exact .of_eq rfl rfl rfl rfl rfl
  case start =>
    unfold State.takeStart
    split_ifs <;> apply hr
    · exact .refl s
    · exact .refl s
    · exact .refl s
    · exact startClip_took s
  case stop =>
    unfold State.takeStop
    split <;> apply hr
    · exact closeOpen_took _ s
    · exact .refl s
  case setCues =>
    unfold State.takeSetCues
    split <;> apply hr
    · exact .of_eq rfl rfl rfl rfl rfl
    · exact .refl s
  case jamTimecode =>
    unfold State.takeJam
    dsimp only
    split <;> apply hr
    · exact .of_eq rfl rfl rfl rfl rfl
    · exact .refl s
  case runTimecode => exact hr _ _ _ _ (.of_eq rfl rfl rfl rfl rfl)
  case setRate =>
    unfold State.takeSetRate
    dsimp only
    split
    · exact respond_took _ _ _ _ _
    · split_ifs <;> apply hr <;> first | exact .refl s | exact .of_eq rfl rfl rfl rfl rfl
  case clearFlags => exact hr _ _ _ _ (.of_eq rfl rfl rfl rfl rfl)
  case setNotices => exact hr _ _ _ _ (.of_eq rfl rfl rfl rfl rfl)
  case queryStatus => exact (respond_took _ _ _ _ _).trans (placeReport_took _ _)
  case armSnapshot =>
    unfold State.takeArm
    split <;> apply hr
    · exact .refl s
    · exact .of_eq rfl rfl rfl rfl rfl
  case fetchSnapshot =>
    unfold State.takeFetch
    split
    · exact State.Took.trans ((respond_took _ _ _ _ _).trans (placeReport_took _ _)) (.of_eq rfl rfl rfl rfl rfl)
    · exact respond_took _ _ _ _ _

theorem State.placeReports_same (rs : List Report) (s : State) :
    s.SameBlocks (rs.foldl (fun s r => s.placeReport r) s) := by
  induction rs generalizing s with
  | nil => exact .refl s
  | cons r rs ih => exact (placeReport_same r s).trans (ih _)

/-- What RESTART leaves of the links that are not its own: completing a packet touches the link and a clip's send count. -/
theorem State.restartLink_took (l : LinkId) (s : State) : s.Took (s.restartLink l) := by
  unfold State.restartLink
  split
  · dsimp only
    split
    · exact (setAct_took _ _ _).after (emit_took _ _ _)
    · refine (setAct_took _ _ _).after ?_
      split
      · exact .of_eq rfl rfl rfl rfl rfl
      · exact .refl s
  · exact setAct_took _ _ _
  · exact .refl s

/-- RESTART at the Ingress Port, the Directive Unit and the Clip Controller (R19, R157, R158). -/
theorem State.takeRestart_lists (tag : Byte) (s : State) :
    (s.takeRestart tag).ingress =
        { s.ingress with frame := .skipping, lossCount := 0, lastCapture := none } ∧
      (s.takeRestart tag).dir.queue = [] ∧ (s.takeRestart tag).clips.actions = [] ∧
      (s.takeRestart tag).drawn = s.drawn ∧ (s.takeRestart tag).pending = s.pending := by
  have hi : ∀ (l : LinkId) (s : State), (s.restartLink l).ingress = s.ingress := by
    intro l s
    unfold State.restartLink
    split
    · dsimp only
      split
      · simp
      · split <;> simp
    · simp
    · rfl
  have ht := (restartLink_took .p s).trans (restartLink_took .x _)
  unfold State.takeRestart
  have h := placeReports_same (restartReports tag s.dir.queue ((s.restartLink .p).restartLink .x).clips.records)
    ((s.restartLink .p).restartLink .x).restartDirectives.restartBlocks
  dsimp only
  refine ⟨h.ingress.trans ?_, h.queue.trans rfl, by rw [h.clips]; rfl, h.drawn.trans ht.drawn, h.pending.trans ht.pending⟩
  show { ((s.restartLink .p).restartLink .x).ingress with
    frame := .skipping, lossCount := 0, lastCapture := none } = _
  rw [hi, hi]

/-! ### The boundary (R74, R76, R149) -/

/-- What a boundary can do to the Ingress Port and to the lists it empties. -/
structure State.Crossed (s t : State) : Prop where
  link    : t.ingress.link = s.ingress.link
  loss    : t.ingress.lossCount = s.ingress.lossCount ∨ t.ingress.lossCount = 0
  frame   : t.ingress.frame = s.ingress.frame ∨ t.ingress.frame = .skipping
  queue   : t.dir.queue = s.dir.queue ∨ t.dir.queue = []
  actions : t.clips.actions = s.clips.actions ∨ t.clips.actions = []
  drawn   : t.drawn = s.drawn
  pending : t.pending = s.pending

theorem State.Took.crossed {s t : State} (h : s.Took t) : s.Crossed t :=
  ⟨h.link, h.loss, .inl h.frame, .inl h.queue, .inl h.actions, h.drawn, h.pending⟩

theorem State.Crossed.trans {s t u : State} (h : s.Crossed t) (k : t.Crossed u) : s.Crossed u :=
  ⟨k.link.trans h.link, or_trans h.loss k.loss, or_trans h.frame k.frame, or_trans h.queue k.queue,
    or_trans h.actions k.actions, k.drawn.trans h.drawn, k.pending.trans h.pending⟩

theorem State.takeDirective_crossed (d : Directive) (s : State) : s.Crossed (s.takeDirective d) := by
  by_cases hc : d.code = .restart
  · obtain ⟨h1, h2, h3, h4, h5⟩ := takeRestart_lists d.tag s
    have e : s.takeDirective d = s.takeRestart d.tag := by unfold State.takeDirective; rw [hc]
    rw [e]
    exact ⟨by rw [h1], .inr (by rw [h1]), .inr (by rw [h1]), .inr h2, .inr h3, h4, h5⟩
  · exact (takeDirective_took d s hc).crossed

/-- Taking the pending actions leaves none, and touches nothing of the directive queue (R74). -/
theorem State.takeActions_took (as : List CueAction) (s : State) :
    (s.takeActions as).clips.actions = (if as = [] then s.clips.actions else []) ∧
      ({ s with clips := { s.clips with actions := (s.takeActions as).clips.actions } } : State).Took
        (s.takeActions as) := by
  induction as generalizing s with
  | nil => exact ⟨rfl, .refl s⟩
  | cons a as ih =>
    have h := takeAction_took a { s with clips := { s.clips with actions := as } }
    obtain ⟨i1, i2⟩ := ih (({ s with clips := { s.clips with actions := as } } : State).takeAction a)
    have e : (s.takeActions (a :: as)) =
        (({ s with clips := { s.clips with actions := as } } : State).takeAction a).takeActions as := rfl
    rw [e]
    have ha : ((({ s with clips := { s.clips with actions := as } } : State).takeAction a).takeActions as).clips.actions
        = [] := by
      rw [i1]
      split
      · rename_i h0; rw [h.actions]; exact h0
      · rfl
    refine ⟨by rw [ha]; simp, ?_⟩
    exact ⟨i2.link.trans h.link, or_trans h.loss i2.loss, i2.frame.trans h.frame, i2.capture.trans h.capture,
      i2.queue.trans h.queue, rfl, i2.drawn.trans h.drawn, i2.pending.trans h.pending⟩

theorem State.takeQueue_crossed (n : Nat) (s : State) (hn : s.dir.queue.length ≤ n) :
    (s.takeQueue n).dir.queue = [] ∧ s.Crossed (s.takeQueue n) := by
  induction n generalizing s with
  | zero => exact ⟨List.length_eq_zero_iff.mp (Nat.le_zero.mp hn), (Took.refl s).crossed⟩
  | succ n ih =>
    unfold State.takeQueue
    split
    · rename_i hq; exact ⟨hq, (Took.refl s).crossed⟩
    · rename_i d ds hq
      have h := takeDirective_crossed d { s with dir := { s.dir with queue := ds } }
      have hl : (({ s with dir := { s.dir with queue := ds } } : State).takeDirective d).dir.queue.length ≤ n := by
        rw [hq] at hn
        simp only [List.length_cons] at hn
        rcases h.queue with hq' | hq' <;> rw [hq']
        · show ds.length ≤ n; omega
        · exact Nat.zero_le _
      obtain ⟨i1, i2⟩ := ih _ hl
      exact ⟨i1, i2.link.trans h.link, or_trans h.loss i2.loss, or_trans h.frame i2.frame, .inr i1,
        or_trans h.actions i2.actions, i2.drawn.trans h.drawn, i2.pending.trans h.pending⟩

/-- A boundary leaves no directive queued and no cue action pending, whatever its order (R76, R149). -/
theorem State.boundary_crossed (o : BoundaryOrder) (s : State) :
    (s.boundary o).dir.queue = [] ∧ (s.boundary o).clips.actions = [] ∧ s.Crossed (s.boundary o) := by
  have hacts : ∀ s : State, (s.takeActions s.clips.actions).clips.actions = [] ∧
      s.Crossed (s.takeActions s.clips.actions) ∧ (s.takeActions s.clips.actions).dir.queue = s.dir.queue := by
    intro s
    obtain ⟨h1, h2⟩ := takeActions_took s.clips.actions s
    have h0 : (s.takeActions s.clips.actions).clips.actions = [] := by
      rw [h1]; split
      · assumption
      · rfl
    exact ⟨h0, ⟨h2.link, h2.loss, .inl h2.frame, .inl h2.queue, .inr h0, h2.drawn, h2.pending⟩, h2.queue⟩
  cases o
  · obtain ⟨a1, a2, a3⟩ := hacts s
    obtain ⟨q1, q2⟩ := takeQueue_crossed (s.takeActions s.clips.actions).dir.queue.length _ (le_refl _)
    refine ⟨q1, ?_, a2.trans q2⟩
    rcases q2.actions with h | h
    · exact h.trans a1
    · exact h
  · obtain ⟨q1, q2⟩ := takeQueue_crossed s.dir.queue.length s (le_refl _)
    obtain ⟨a1, a2, a3⟩ := hacts (s.takeQueue s.dir.queue.length)
    exact ⟨a3.trans q1, a1, q2.trans a2⟩

end Sys2Proof.Machine
end

