-- ==== Sys2Proof/Laws/Admission.lean ====
section
/-! SUPPORT. What joins, splits, link requests and admission leave of the Time Base Unit and the banks. -/

namespace Sys2Proof.Machine

open Sys2Proof

/-- The Time Base Unit but for its RR count, and both banks, are left. -/
structure State.Steady (s t : State) : Prop where
  time  : t.time = { s.time with rr := t.time.rr }
  banks : t.banks = s.banks

theorem State.Steady.refl (s : State) : s.Steady s := ⟨rfl, rfl⟩

theorem State.Steady.trans {s t u : State} (h : s.Steady t) (k : t.Steady u) : s.Steady u :=
  ⟨by rw [k.time, h.time], k.banks.trans h.banks⟩

theorem State.Steady.after {s t u : State} (k : t.Steady u) (h : s.Steady t) : s.Steady u := h.trans k

theorem State.Steady.of_eq {s t : State} (ht : t.time = s.time) (hb : t.banks = s.banks) : s.Steady t :=
  ⟨by rw [ht], hb⟩

theorem State.Steady.of_same {s t : State} (h : s.SameBlocks t) : s.Steady t := .of_eq h.time h.banks

theorem State.setFlag_steady (f : Flag) (s : State) : s.Steady (s.setFlag f) := .of_same (setFlag_same f s)
theorem State.placeReport_steady (r : Report) (s : State) : s.Steady (s.placeReport r) := .of_same (placeReport_same r s)
theorem State.setAct_steady (l : LinkId) (a : Activity) (s : State) : s.Steady (s.setAct l a) := .of_eq (by simp) (by simp)
theorem State.emit_steady (l : LinkId) (ps : List Packet) (s : State) : s.Steady (s.emit l ps) := .of_eq (by simp) (by simp)
theorem State.freeLink_steady (l : LinkId) (s : State) : s.Steady (s.freeLink l) := .of_eq (by simp) (by simp)

theorem State.testSettle_steady (n : Nat) (s : State) : s.Steady (s.testSettle n) := by
  unfold State.testSettle
  split
  · exact ((placeReport_steady _ s).trans (setFlag_steady _ _)).trans (.of_eq rfl rfl)
  · exact .refl s

theorem State.reportSend_steady (l : LinkId) (n : Nat) (s : State) : s.Steady (s.reportSend l n) :=
  (testSettle_steady n _).after (.of_eq rfl rfl)

theorem State.reportEviction_steady (p : ClipPart) (s : State) : s.Steady (s.reportEviction p) :=
  (testSettle_steady _ _).after ((setFlag_steady _ _).after (.of_eq rfl rfl))

theorem State.joinOpen_steady (i : RecNo) (s : State) : s.Steady (s.joinOpen i) := by
  unfold State.joinOpen
  split
  · exact .refl s
  · dsimp only
    split
    · exact ⟨rfl, rfl⟩
    · exact (setFlag_steady _ _).after ⟨rfl, rfl⟩

theorem State.closeOpen_steady (e : EndCause) (s : State) : s.Steady (s.closeOpen e) := by
  unfold State.closeOpen
  split
  · exact .refl s
  · exact (testSettle_steady _ _).after (.of_eq rfl rfl)

theorem State.cut_steady (e : EndCause) (s : State) : s.Steady (s.cut e) := by
  unfold State.cut
  split
  · exact closeOpen_steady e s
  · exact .refl s

theorem State.trySplit_steady (s : State) : s.Steady s.trySplit := by
  unfold State.trySplit
  split
  · split
    · unfold State.split
      split
      · exact .refl s
      · exact (testSettle_steady _ _).after (.of_eq rfl rfl)
    · unfold State.deferSplit
      split
      · exact .refl s
      · exact (setFlag_steady _ _).after (.of_eq rfl rfl)
  · exact .refl s

theorem State.testCeiling_steady (s : State) : s.Steady s.testCeiling := by
  unfold State.testCeiling
  split
  · exact closeOpen_steady _ _
  · exact .refl _

theorem State.joinLive_steady (i : RecNo) (s : State) : s.Steady (s.joinLive i) :=
  ((trySplit_steady s).trans (joinOpen_steady i _)).trans (testCeiling_steady _)

theorem State.releaseOldest_steady (s : State) : s.Steady s.releaseOldest := by
  unfold State.releaseOldest
  split
  · exact .refl s
  · exact .of_eq rfl rfl

theorem State.frameLeft_steady (l : LinkId) (i : RecNo) (s : State) : s.Steady (s.frameLeft l i) := by
  have h : ∀ n, s.Steady (State.reportSend l n { s with store := s.store.removeSent l i }) := fun n =>
    (reportSend_steady _ _ _).after (.of_eq rfl rfl)
  unfold State.frameLeft
  dsimp only
  split
  · exact .of_eq rfl rfl
  · split
    · exact h _
    · exact (h _).trans (.of_eq rfl rfl)

theorem State.takeLinkEvent_steady (e : LinkEvent) (s : State) : s.Steady (s.takeLinkEvent e) := by
  cases e
  · unfold State.takeLinkEvent State.frameSent
    dsimp only
    split
    · exact (freeLink_steady _ _).after ((frameLeft_steady _ _ _).after (emit_steady _ _ _))
    · exact (freeLink_steady _ _).after (emit_steady _ _ _)
    · exact .refl s
  · unfold State.takeLinkEvent State.startProxy
    dsimp only
    split
    · exact .refl s
    · exact (setAct_steady _ _ _).after (.of_eq rfl rfl)

theorem State.takeDuring_steady (d : List (List LinkEvent)) (s : State) : s.Steady (s.takeDuring d).1 := by
  have h : ∀ (es : List LinkEvent) (s : State), s.Steady (es.foldl State.takeLinkEvent s) := by
    intro es
    induction es with
    | nil => exact fun s => .refl s
    | cons e es ih => exact fun s => (takeLinkEvent_steady e s).trans (ih _)
  exact h _ s

theorem measureWhileShort_steady {m : State → Option State} (hm : ∀ {s t}, m s = some t → s.Steady t) (n : Nat)
    (d : List (List LinkEvent)) (s : State) : s.Steady (measureWhileShort m n d s).1 := by
  induction n generalizing d s with
  | zero => exact .refl s
  | succ n ih =>
    unfold measureWhileShort
    split
    · split
      · rename_i t ht
        exact ((hm ht).trans (State.takeDuring_steady d t)).trans (ih _ _)
      · exact .refl s
    · exact .refl s

theorem State.measures_steady (d : List (List LinkEvent)) (s : State) : s.Steady (s.measures d).1 := by
  have hr : ∀ {s t : State}, s.ringMeasure = some t → s.Steady t := by
    intro s t h
    unfold State.ringMeasure at h
    split at h
    · injection h with h; subst h; exact releaseOldest_steady s
    · contradiction
  have he : ∀ {s t : State}, s.evictMeasure = some t → s.Steady t := by
    intro s t h
    unfold State.evictMeasure at h
    split at h
    · contradiction
    · dsimp only at h
      split at h <;> injection h with h <;> subst h
      · exact (reportEviction_steady _ _).after (.of_eq rfl rfl)
      · exact .of_eq rfl rfl
  unfold State.measures
  exact ((takeDuring_steady d s).trans (measureWhileShort_steady hr _ _ _)).trans (measureWhileShort_steady he _ _ _)

theorem State.reserve_steady (i : RecNo) (r : FrameRecord) (s : State) : s.Steady (s.reserve i r) := by
  unfold State.reserve State.testStoreLow
  dsimp only
  split
  · exact (setFlag_steady _ _).after (.of_eq rfl rfl)
  · exact .of_eq rfl rfl

theorem State.admitTwin_steady (c : BitVec 32) (st : Stamp) (p : RecNo) (s : State) :
    s.Steady (s.admitTwin c st p).1 := by
  unfold State.admitTwin
  split
  · exact .refl s
  · exact State.Steady.trans (reserve_steady _ _ _) (.of_eq rfl rfl)

theorem State.admitPrincipal_steady (c : BitVec 32) (st : Stamp) (p : RecNo) (d : List (List LinkEvent)) (s : State) :
    s.Steady (s.admitPrincipal c st p d).1 := by
  have h1 := ((reserve_steady p (principalRecord s.banks c st) s).trans (takeDuring_steady d _)).trans
    (admitTwin_steady c st p _)
  unfold State.admitPrincipal
  dsimp only
  split
  · exact (joinLive_steady _ _).after (h1.trans (.of_eq rfl rfl))
  · exact h1.trans (.of_eq rfl rfl)

/-- Admission moves no count of the Time Base Unit but the RR count, and touches no bank (R25, R45 to R50). -/
theorem State.admitFrame_steady (c : BitVec 32) (st : Stamp) (d : List (List LinkEvent)) (s : State) :
    s.Steady (s.admitFrame c st d).1 := by
  unfold State.admitFrame
  split
  · exact .refl s
  · dsimp only
    split
    · refine (measures_steady d s).trans ?_
      unfold State.storeFull
      split
      · exact (closeOpen_steady _ _).trans (setFlag_steady _ _)
      · exact .refl _
    · split
      · exact measures_steady d s
      · exact (measures_steady d s).trans (admitPrincipal_steady _ _ _ _ _)

end Sys2Proof.Machine
end

