-- ==== Sys2Proof/Laws/Completion.lean ====
section
/-! SUPPORT. Everything that closing an open frame does to the store, the clips and the flags. -/

namespace Sys2Proof.Machine

open Sys2Proof

/-- A flaw set is empty exactly when nothing is in it (R5). -/
theorem Flaws.clean_iff (fl : Flaws) : fl.clean = true ↔ fl = ⟨false, 0, 0, 0⟩ := by
  rcases fl with ⟨a, b, c, d⟩
  cases a <;> simp [Flaws.clean, Flaws.mk.injEq, and_assoc]

@[simp] theorem Store.releasePair_pq (i : RecNo) (s : Store) : (s.releasePair i).pq = s.pq := by
  unfold Store.releasePair; split <;> rfl
@[simp] theorem Store.releasePair_xq (i : RecNo) (s : Store) : (s.releasePair i).xq = s.xq := by
  unfold Store.releasePair; split <;> rfl
@[simp] theorem Store.releasePair_pFlawed (i : RecNo) (s : Store) : (s.releasePair i).pFlawed = s.pFlawed := by
  unfold Store.releasePair; split <;> rfl
@[simp] theorem Store.releasePair_xFlawed (i : RecNo) (s : Store) : (s.releasePair i).xFlawed = s.xFlawed := by
  unfold Store.releasePair; split <;> rfl

/-- A release leaves a record that is neither released nor names what is released. -/
theorem Store.release_frame_other {s : Store} {i j : RecNo} (h : i ≠ j) (ht : (s.frame j).twin ≠ some i) :
    (s.release i).frame j = s.frame j := by
  rw [Store.release_frame, if_neg h, FrameRecord.dropTwin, if_neg ht]

/-- A pair release frees both records (R56). -/
theorem Store.releasePair_free (i : RecNo) (s : Store) :
    ((s.releasePair i).frame i).state = .free ∧
      ∀ q, (s.frame i).twin = some q → ((s.releasePair i).frame q).state = .free := by
  unfold Store.releasePair
  split
  · rename_i t ht
    refine ⟨?_, fun q hq => ?_⟩
    · rw [Store.release_frame]
      split
      · rfl
      · rw [FrameRecord.dropTwin_state, Store.release_frame, if_pos rfl]; rfl
    · rw [ht] at hq; injection hq with hq; subst hq
      rw [Store.release_frame, if_pos rfl]; rfl
  · rename_i ht
    refine ⟨?_, fun q hq => by rw [ht] at hq; contradiction⟩
    rw [Store.release_frame, if_pos rfl]; rfl

/-- A pair release returns the pages of both records (R40, R56). -/
theorem Store.releasePair_freePages {i : RecNo} {s : Store} (h : (s.frame i).twin ≠ some i) :
    (s.releasePair i).freePages = s.freePages + s.pairPages i := by
  unfold Store.releasePair Store.pairPages
  cases ht : (s.frame i).twin with
  | none => simp
  | some t =>
    have : i ≠ t := fun e => h (by rw [ht, e])
    simp [Store.release_frame, this, Nat.add_assoc]

/-- A pair release leaves a record outside the pair that names neither of it. -/
theorem Store.releasePair_frame_other {i j : RecNo} {s : Store} (h : i ≠ j) (ht : (s.frame i).twin ≠ some j)
    (hj : (s.frame j).twin ≠ some i) (hq : ∀ q, (s.frame i).twin = some q → (s.frame j).twin ≠ some q) :
    (s.releasePair i).frame j = s.frame j := by
  have hr := Store.release_frame_other (s := s) h hj
  unfold Store.releasePair
  split
  · rename_i t hti
    rw [Store.release_frame_other (by rintro rfl; exact ht hti) (by rw [hr]; exact hq t hti), hr]
  · exact hr

/-! ### The proxy rows a close forms (R89, R96, R106) -/

/-- Forming rows: as many rows come out as next row moves, it does not pass Ho, and with the last crop row arrived it
reaches Ho (R96). -/
theorem formRows_rows (banks : Banks) (arrived n : Nat) (u : FrameSetup) :
    (formRows banks arrived n u).1.nextRow = u.nextRow + (formRows banks arrived n u).2.length ∧
      (u.nextRow ≤ u.ho → (formRows banks arrived n u).1.nextRow ≤ u.ho) ∧
      (u.nextRow ≤ u.ho → u.ho ≤ u.nextRow + n → u.hc - 1 ≤ arrived →
        (formRows banks arrived n u).1.nextRow = u.ho) := by
  induction n generalizing u with
  | zero => exact ⟨rfl, id, fun h k _ => Nat.le_antisymm h k⟩
  | succ n ih =>
    unfold formRows
    split
    · rename_i hr
      obtain ⟨a, b, c⟩ := ih { u with nextRow := u.nextRow + 1 }
      refine ⟨?_, fun _ => b hr.1, fun _ k m => c hr.1 (by dsimp only; omega) m⟩
      dsimp only at a ⊢
      rw [a, List.length_cons, Nat.add_assoc, Nat.add_comm 1]
    · rename_i hr
      refine ⟨rfl, id, fun h _ m => Nat.le_antisymm h (Nat.not_lt.mp fun lt => hr ⟨lt, ?_⟩)⟩
      exact Nat.le_trans (Nat.min_le_right _ _) m

/-- The rows a delivered line forms, as `formRows_rows` says of the crop line it is (R89). -/
theorem takeLine_rows (banks : Banks) (k : Nat) (line : Samples) (u : FrameSetup) :
    (takeLine banks k line u).1.nextRow = u.nextRow + (takeLine banks k line u).2.length ∧
      (u.nextRow ≤ u.ho → (takeLine banks k line u).1.nextRow ≤ u.ho) ∧
      (u.nextRow ≤ u.ho → 0 < u.hc → k + 1 = u.y0 + u.hc → (takeLine banks k line u).1.nextRow = u.ho) := by
  unfold takeLine
  split
  · obtain ⟨a, b, c⟩ := formRows_rows banks (k - u.y0) (u.ho - u.nextRow)
      { u with held := u.held ++ [(k - u.y0, hLine u (banks.get u.bank).hkernel line)] }
    exact ⟨a, b, fun h p e => c h (by dsimp only; omega) (by dsimp only; omega)⟩
  · rename_i hout
    exact ⟨rfl, id, fun _ p e => absurd ⟨by omega, by omega⟩ hout⟩

/-- The rows of the twin after a number of fills that brings the last crop line (R106). -/
theorem fillLines_rows (n : Nat) {f : FrameInProgress} {s : State} {u : FrameSetup} (hu : s.render.setup = some u)
    (hne : u.twin ≠ f.principal) (hle : u.nextRow ≤ u.ho) (hcrop : u.y0 + u.hc ≤ f.expected + n)
    (hrow : u.nextRow = u.ho ∨ (0 < u.hc ∧ f.expected < u.y0 + u.hc)) :
    ((fillLines n f s).2.store.frame u.twin).lines.length =
      (s.store.frame u.twin).lines.length + (u.ho - u.nextRow) := by
  induction n generalizing f s u with
  | zero =>
    rcases hrow with h | h
    · rw [h, Nat.sub_self]; rfl
    · exact absurd h.2 (Nat.not_lt.mpr hcrop)
  | succ n ih =>
    unfold fillLines
    generalize s.fillLine f = line
    obtain ⟨a, b, c⟩ := takeLine_rows s.banks f.expected line u
    have hs := takeLine_setup s.banks f.expected line u
    generalize htl : takeLine s.banks f.expected line u = r at a b c hs
    obtain ⟨v, rows⟩ := r
    dsimp only at a b c hs
    have hren : (s.deliver f f.expected line).render.setup = some v ∧
        ((s.deliver f f.expected line).store.frame u.twin).lines = (s.store.frame u.twin).lines ++ rows := by
      unfold State.deliver State.renderLine
      dsimp only
      rw [hu]
      dsimp only
      rw [htl]
      refine ⟨rfl, ?_⟩
      show (((s.store.modify f.principal _).modify u.twin _).frame u.twin).lines = _
      rw [Store.modify_frame_self, Store.modify_frame_ne _ _ (Ne.symm hne)]
      rfl
    have hv : v.twin = u.twin ∧ v.ho = u.ho ∧ v.y0 = u.y0 ∧ v.hc = u.hc := by
      rw [hs]; exact ⟨rfl, rfl, rfl, rfl⟩
    obtain ⟨e1, e2, e3, e4⟩ := hv
    have := ih (f := { f with expected := f.expected + 1 }) hren.1 (by rw [e1]; exact hne) (by rw [e2]; exact b hle)
      (by rw [e3, e4]; dsimp only; omega)
      (by
        rw [e2, e3, e4]
        rcases hrow with h | ⟨h, k⟩
        · left; have := b hle; omega
        · by_cases hl : f.expected + 1 = u.y0 + u.hc
          · exact .inl (c hle h hl)
          · exact .inr ⟨h, by dsimp only; omega⟩)
    rw [e1, e2, hren.2, List.length_append] at this
    have := b hle
    show ((fillLines n { f with expected := f.expected + 1 } (s.deliver f f.expected line)).2.store.frame u.twin).lines.length = _
    omega

/-- The shape of a close: the fills, then the completion of the frame with the flaws of the close. -/
theorem State.closeFrame_shape {tr : Bool} {n : Option Nat} {f : FrameInProgress} {check : Nat} (s : State)
    (hc : check = if n.any (· != f.linesReceived) then min 65535 (f.check + 1) else f.check) :
    ∃ (g : FrameInProgress) (u : State), u = (fillMissing (f.height - f.expected) f s).2 ∧
      g.principal = f.principal ∧ g.twin = f.twin ∧ g.flaws tr = f.closingFlaws tr check ∧
      s.closeFrame tr n f = (u.completeFrame tr g).setFrame .noFrame := by
  have e := fillMissing_frame (f.height - f.expected) f s
  rcases hx : fillMissing (f.height - f.expected) f s with ⟨a, u⟩
  rw [hx] at e
  dsimp only at e
  refine ⟨if n.any (· != a.linesReceived) then { a with check := satAdd Config.countLimit a.check 1 } else a, u, rfl,
    ?_, ?_, ?_, ?_⟩
  · rw [e]; split <;> rfl
  · rw [e]; split <;> rfl
  · rw [e, hc]; dsimp only
    split <;> rfl
  · unfold State.closeFrame; rw [hx]

/-- Everything closing an open frame does to its records, its queues or the ring, its clip and the flags (R14 to R16, R51,
R63, R70, R71). -/
theorem State.closeFrame_completed {tr : Bool} {n : Option Nat} {f : FrameInProgress} {check : Nat} {s : State}
    (h : s.HoldsPair f) (hc : check = if n.any (· != f.linesReceived) then min 65535 (f.check + 1) else f.check) :
    s.Completed (f.closingFlaws tr check) f (s.closeFrame tr n f).store (s.closeFrame tr n f).clips ∧
      (f.closingFlaws tr check ≠ ⟨false, 0, 0, 0⟩ → (s.closeFrame tr n f).isSet .flawedFrame) ∧
      (f.closingFlaws tr check = ⟨false, 0, 0, 0⟩ →
        (s.closeFrame tr n f).flags = s.flags ∧ (s.closeFrame tr n f).dir = s.dir) := by
  obtain ⟨g, u, hu, gp, gt, gfl, he⟩ := s.closeFrame_shape (tr := tr) hc
  have hfi : State.Filled f.principal s u := by rw [hu]; exact fillMissing_filled _ _ _
  rw [he]
  generalize f.closingFlaws tr check = fl at gfl ⊢
  have hlines : (∀ n ∈ f.lastReceived, n < (s.store.frame f.principal).lines.length) →
      (u.store.frame f.principal).lines = (s.store.frame f.principal).lines ++ s.closingLines f := by
    intro hn; rw [hu]; exact fillLines_lines _ hn h.rendered
  -- the state the frame is placed in
  generalize hv : ({ u with store := u.store.complete g (g.flaws tr), render := { u.render with setup := none } } : State) = v
  have vframe : ∀ j, v.store.frame j =
      if j = f.principal ∨ f.twin = some j then (u.store.frame j).complete fl else u.store.frame j := by
    intro j; rw [← hv]; show (u.store.complete g (g.flaws tr)).frame j = _
    rw [Store.complete_frame, gfl, gp, gt]
  have vfields : ∀ j, (v.store.frame j).part = (s.store.frame j).part ∧ (v.store.frame j).twin = (s.store.frame j).twin ∧
      (v.store.frame j).pages = (s.store.frame j).pages := by
    intro j; rw [vframe j, hfi.fields j]; split <;> exact ⟨rfl, rfl, rfl⟩
  have vstored : s.Stored fl f v.store := by
    constructor
    · rw [vframe, if_pos (Or.inl rfl), hfi.fields f.principal]; rfl
    · intro hn; rw [vframe, if_pos (Or.inl rfl)]; exact hlines hn
    · intro q hq; rw [vframe, if_pos (Or.inr hq), hfi.fields q]; rfl
    · intro q hq w hw hwq hcrop hle hrow
      rw [vframe, if_pos (Or.inr hq), hu]
      subst hwq
      exact fillLines_rows _ hw (h.rendered w hw) hle (by omega) hrow
  have vfree : v.store.freePages = s.store.freePages := by
    rw [← hv]; show (u.store.complete g (g.flaws tr)).freePages = _; rw [Store.complete_freePages, hfi.free]
  have vpq : v.store.pq = s.store.pq := by
    rw [← hv]; show (u.store.complete g (g.flaws tr)).pq = _; rw [Store.complete_pq, hfi.pq]
  have vxq : v.store.xq = s.store.xq := by
    rw [← hv]; show (u.store.complete g (g.flaws tr)).xq = _; rw [Store.complete_xq, hfi.xq]
  have vpf : v.store.pFlawed = s.store.pFlawed := by
    rw [← hv]; show (u.store.complete g (g.flaws tr)).pFlawed = _; rw [Store.complete_pFlawed, hfi.pFlawed]
  have vxf : v.store.xFlawed = s.store.xFlawed := by
    rw [← hv]; show (u.store.complete g (g.flaws tr)).xFlawed = _; rw [Store.complete_xFlawed, hfi.xFlawed]
  have vclips : v.clips = s.clips := by rw [← hv]; exact hfi.clips
  have vbanks : v.banks = s.banks := by rw [← hv]; exact hfi.banks
  have vflags : v.flags = s.flags ∧ v.dir = s.dir := by rw [← hv]; exact ⟨hfi.flags, hfi.dir⟩
  have hcomp : u.completeFrame tr g =
      if fl.clean then v.placeFrame f.principal else (v.placeFrame f.principal).setFlag .flawedFrame := by
    unfold State.completeFrame; dsimp only; rw [hv, gfl, gp]
  have hst : ((u.completeFrame tr g).setFrame .noFrame).store = (v.placeFrame f.principal).store := by
    rw [State.setFrame_store, hcomp]; split <;> simp
  have hcl : ((u.completeFrame tr g).setFrame .noFrame).clips = (v.placeFrame f.principal).clips := by
    rw [State.setFrame_clips, hcomp]; split <;> simp
  have vcount : ∀ j, j = f.principal ∨ f.twin = some j → (v.store.frame j).flawCount = if fl.clean then 0 else 1 := by
    intro j hj; rw [vframe, if_pos hj]; rfl
  -- the ring
  have hring : (s.store.frame f.principal).part = none → v.placeFrame f.principal =
      if s.banks.act.preRollDepth = 0 then { v with store := v.store.releasePair f.principal }
      else if s.clips.ring.length < s.banks.act.preRollDepth then
        { v with clips := { v.clips with ring := v.clips.ring ++ [f.principal] } }
      else { v.releaseOldest with clips := { v.releaseOldest.clips with
        ring := v.releaseOldest.clips.ring ++ [f.principal] } } := by
    intro hp
    unfold State.placeFrame
    rw [(vfields _).1, hp]
    dsimp only
    rw [← vbanks, ← vclips]
    unfold State.placeInRing; dsimp only; split_ifs <;> rfl
  have hold : ∀ o is, s.clips.ring = o :: is → v.releaseOldest =
      { v with store := v.store.releasePair o, clips := { v.clips with ring := is } } := by
    intro o is hr; unfold State.releaseOldest; rw [vclips, hr]
  refine ⟨?_, ?_, ?_⟩
  · constructor
    · intro part hp
      have hplace : v.placeFrame f.principal = { v with
          clips := v.clips.modifyNumber part.clip
            (fun c => { c with flawed := c.flawed + if fl.clean then 0 else 1 })
          store := v.store.appendPair f.principal } := by
        have hp' : (v.store.frame f.principal).part = some part := by rw [(vfields _).1, hp]
        unfold State.placeFrame
        rw [hp']
        simp only [State.countFlawed, hp', vcount _ (Or.inl rfl)]
      rw [hst, hcl, hplace]
      dsimp only
      rw [Store.appendPair_cases]
      refine ⟨⟨vstored.principal, vstored.lines, vstored.twin, vstored.rows⟩, ?_, ?_, ?_, ?_, vfree, ?_⟩
      · exact congrArg (· ++ _) vpq
      · show v.store.xq ++ _ = _; rw [vxq, (vfields _).2.1, h.twin]
      · show v.store.pFlawed + _ = _; rw [vpf, vcount _ (Or.inl rfl)]
      · show v.store.xFlawed + _ = _; rw [vxf, (vfields _).2.1, h.twin]
        cases hq : f.twin with
        | none => simp
        | some q => simp [vcount q (Or.inr hq)]; cases fl.clean <;> rfl
      · rw [vclips]; rfl
    · intro hp
      rw [hst, hcl, hring hp]
      split_ifs with h0 h1
      · exact ⟨by simp [vpq], by simp [vxq], by simp [vpf], by simp [vxf], vclips⟩
      · exact ⟨vpq, vxq, vpf, vxf, by rw [vclips]⟩
      · cases hr : s.clips.ring with
        | nil => rw [hr] at h1; simp at h1; omega
        | cons o is =>
          rw [hold o is hr]
          exact ⟨by simp [vpq], by simp [vxq], by simp [vpf], by simp [vxf], by rw [vclips]; rfl⟩
    · intro hp h0
      rw [hst, hring hp, if_pos h0]
      obtain ⟨a, b⟩ := Store.releasePair_free f.principal v.store
      refine ⟨a, fun q hq => b q (by rw [(vfields _).2.1, h.twin, hq]), ?_⟩
      show (v.store.releasePair _).freePages = _
      rw [Store.releasePair_freePages (by rw [(vfields _).2.1, h.twin]; exact h.distinct), vfree]
      simp only [Store.pairPages, (vfields _).2.1, (vfields _).2.2]
    · intro hp h0 h1
      rw [hst, hring hp, if_neg h0, if_pos h1]
      exact ⟨vstored, vfree⟩
    · intro hp h0 h1 o ho hop hto hback hq
      have hr : ∃ is, s.clips.ring = o :: is := by
        cases hr : s.clips.ring with
        | nil => rw [hr] at ho; simp at ho
        | cons i is => rw [hr] at ho; simp at ho; subst ho; exact ⟨is, rfl⟩
      obtain ⟨is, hr⟩ := hr
      rw [hst, hring hp, if_neg h0, if_neg (Nat.not_lt.mpr h1), hold o is hr]
      have hvo := vfields o
      obtain ⟨a, b⟩ := Store.releasePair_free o v.store
      have stay : ∀ j, j = f.principal ∨ f.twin = some j → (v.store.frame j).twin ≠ some o →
          (∀ q, (s.store.frame o).twin = some q → (v.store.frame j).twin ≠ some q) →
          (v.store.releasePair o).frame j = v.store.frame j := by
        intro j hj h2 h3
        refine Store.releasePair_frame_other ?_ ?_ h2 (fun q hq' => h3 q (by rw [← hvo.2.1]; exact hq'))
        · rintro rfl; rcases hj with hj | hj
          · exact hop hj
          · exact hto hj
        · intro e; rw [hvo.2.1] at e
          rcases hj with hj | hj
          · exact (hq j e).2.1 hj
          · exact (hq j e).2.2 hj
      have kept : ∀ j, j = f.principal ∨ f.twin = some j → (v.store.releasePair o).frame j = v.store.frame j := by
        intro j hj
        refine stay j hj ?_ ?_ <;> rw [(vfields j).2.1] <;> rcases hj with rfl | hj
        · rw [h.twin]; exact hto
        · rw [hback j hj]; intro e; injection e with e; exact hop e.symm
        · intro q hq'; rw [h.twin]; exact (hq q hq').2.2
        · intro q hq' e; rw [hback j hj] at e; injection e with e; exact (hq q hq').2.1 e.symm
      refine ⟨⟨?_, ?_, ?_, ?_⟩, a, fun q hq' => b q (by rw [hvo.2.1]; exact hq'), ?_⟩
      · rw [kept _ (Or.inl rfl)]; exact vstored.principal
      · show _ → ((v.store.releasePair o).frame _).lines = _
        rw [kept _ (Or.inl rfl)]; exact vstored.lines
      · intro q hq'
        rw [kept q (Or.inr hq')]; exact vstored.twin q hq'
      · intro q hq'
        show ∀ _, _
        rw [kept q (Or.inr hq')]; exact vstored.rows q hq'
      · show (v.store.releasePair o).freePages = _
        rw [Store.releasePair_freePages (by rw [hvo.2.1]; intro e; exact (hq _ e).1 rfl), vfree]
        simp only [Store.pairPages, (vfields _).2.1, (vfields _).2.2]
  · intro hne
    show ((u.completeFrame tr g).setFrame .noFrame).isSet _
    have : (u.completeFrame tr g).isSet .flawedFrame := by
      rw [hcomp, if_neg (by rw [Flaws.clean_iff]; exact hne)]; exact State.setFlag_isSet _ _
    exact this
  · intro he
    simp only [State.setFrame_flags, State.setFrame_dir]
    rw [hcomp, if_pos ((Flaws.clean_iff _).mpr he)]
    have := (State.placeFrame_blocks f.principal v).1
    rw [this]
    exact vflags

end Sys2Proof.Machine
end

