-- ==== Sys2Proof/Laws/PerInstr.lean ====
section
/-! SUPPORT. The law that is proved command by command: a command that is a directive being taken is what its queue entry
spells, and that entry has the payload length its code fixes. -/

namespace Sys2Proof.Laws

open Sys2Proof Sys2Proof.Machine

/-- A command that is a directive being taken is the one its queue entry (R148) spells, and the entry's payload has the
fixed length of its code (R145, case 4); LOAD SEGMENT has none. -/
def DirectivePayload.Statement (i : Instr) : Prop :=
  ∀ d, entryOf i = some d →
    d.command = i ∧ ∀ length, d.code.payloadLength = some length → d.payload.length = length

theorem DirectivePayload.powerOnReset : DirectivePayload.Statement .powerOnReset := by
  intro d h; cases h

theorem DirectivePayload.symbolLockGained : DirectivePayload.Statement .symbolLockGained := by
  intro d h; cases h

theorem DirectivePayload.symbolLockLost : DirectivePayload.Statement .symbolLockLost := by
  intro d h; cases h

theorem DirectivePayload.frameOpen (rest : List Word) (order : BoundaryOrder) (during : List (List LinkEvent)) :
    DirectivePayload.Statement (.frameOpen rest order during) := by
  intro d h; cases h

theorem DirectivePayload.line (rest : List Word) : DirectivePayload.Statement (.line rest) := by
  intro d h; cases h

theorem DirectivePayload.frameClose (rest : List Word) : DirectivePayload.Statement (.frameClose rest) := by
  intro d h; cases h

theorem DirectivePayload.fill (rest : List Word) : DirectivePayload.Statement (.fill rest) := by
  intro d h; cases h

theorem DirectivePayload.unknownPacket (words : List Word) : DirectivePayload.Statement (.unknownPacket words) := by
  intro d h; cases h

theorem DirectivePayload.todPulse (order : PulseOrder) : DirectivePayload.Statement (.todPulse order) := by
  intro d h; cases h

theorem DirectivePayload.pictureLossExpiry : DirectivePayload.Statement .pictureLossExpiry := by
  intro d h; cases h

theorem DirectivePayload.directive (rest : List Word) : DirectivePayload.Statement (.directive rest) := by
  intro d h; cases h

theorem DirectivePayload.loadSegment (tag : Byte) (param : Word) (payload : List Word) :
    DirectivePayload.Statement (.loadSegment tag param payload) := by
  intro d h; cases h; exact ⟨rfl, fun _ h => by cases h⟩

theorem DirectivePayload.copyBank (tag : Byte) : DirectivePayload.Statement (.copyBank tag) := by
  intro d h; cases h; exact ⟨rfl, fun _ h => by cases h; rfl⟩

theorem DirectivePayload.switchBank (tag : Byte) (ramp : Word) :
    DirectivePayload.Statement (.switchBank tag ramp) := by
  intro d h; cases h; exact ⟨rfl, fun _ h => by cases h; rfl⟩

theorem DirectivePayload.cacheOn (tag : Byte) : DirectivePayload.Statement (.cacheOn tag) := by
  intro d h; cases h; exact ⟨rfl, fun _ h => by cases h; rfl⟩

theorem DirectivePayload.cacheOff (tag : Byte) : DirectivePayload.Statement (.cacheOff tag) := by
  intro d h; cases h; exact ⟨rfl, fun _ h => by cases h; rfl⟩

theorem DirectivePayload.start (tag : Byte) : DirectivePayload.Statement (.start tag) := by
  intro d h; cases h; exact ⟨rfl, fun _ h => by cases h; rfl⟩

theorem DirectivePayload.stop (tag : Byte) : DirectivePayload.Statement (.stop tag) := by
  intro d h; cases h; exact ⟨rfl, fun _ h => by cases h; rfl⟩

theorem DirectivePayload.setCues (tag : Byte) (startAct startHi startLo stopAct stopHi stopLo : Word) :
    DirectivePayload.Statement (.setCues tag startAct startHi startLo stopAct stopHi stopLo) := by
  intro d h; cases h; exact ⟨rfl, fun _ h => by cases h; rfl⟩

theorem DirectivePayload.jamTimecode (tag : Byte) (labelHi labelLo hold : Word) :
    DirectivePayload.Statement (.jamTimecode tag labelHi labelLo hold) := by
  intro d h; cases h; exact ⟨rfl, fun _ h => by cases h; rfl⟩

theorem DirectivePayload.runTimecode (tag : Byte) : DirectivePayload.Statement (.runTimecode tag) := by
  intro d h; cases h; exact ⟨rfl, fun _ h => by cases h; rfl⟩

theorem DirectivePayload.setRate (tag : Byte) (code mark : Word) :
    DirectivePayload.Statement (.setRate tag code mark) := by
  intro d h; cases h; exact ⟨rfl, fun _ h => by cases h; rfl⟩

theorem DirectivePayload.clearFlags (tag : Byte) (list : FlagSet) :
    DirectivePayload.Statement (.clearFlags tag list) := by
  intro d h; cases h; exact ⟨rfl, fun _ h => by cases h; rfl⟩

theorem DirectivePayload.setNotices (tag : Byte) (enables : FlagSet) :
    DirectivePayload.Statement (.setNotices tag enables) := by
  intro d h; cases h; exact ⟨rfl, fun _ h => by cases h; rfl⟩

theorem DirectivePayload.queryStatus (tag : Byte) : DirectivePayload.Statement (.queryStatus tag) := by
  intro d h; cases h; exact ⟨rfl, fun _ h => by cases h; rfl⟩

theorem DirectivePayload.armSnapshot (tag : Byte) (triggers : FlagSet) :
    DirectivePayload.Statement (.armSnapshot tag triggers) := by
  intro d h; cases h; exact ⟨rfl, fun _ h => by cases h; rfl⟩

theorem DirectivePayload.fetchSnapshot (tag : Byte) : DirectivePayload.Statement (.fetchSnapshot tag) := by
  intro d h; cases h; exact ⟨rfl, fun _ h => by cases h; rfl⟩

theorem DirectivePayload.restart (tag : Byte) : DirectivePayload.Statement (.restart tag) := by
  intro d h; cases h; exact ⟨rfl, fun _ h => by cases h; rfl⟩

theorem DirectivePayload.owedMarkerPlaced : DirectivePayload.Statement .owedMarkerPlaced := by
  intro d h; cases h

theorem DirectivePayload.sinkReadyChange (l : LinkId) (level : Bool) :
    DirectivePayload.Statement (.sinkReadyChange l level) := by
  intro d h; cases h

theorem DirectivePayload.linkResetAsserted (l : LinkId) : DirectivePayload.Statement (.linkResetAsserted l) := by
  intro d h; cases h

theorem DirectivePayload.linkResetReleased (l : LinkId) : DirectivePayload.Statement (.linkResetReleased l) := by
  intro d h; cases h

theorem DirectivePayload.principalFrameStart : DirectivePayload.Statement .principalFrameStart := by
  intro d h; cases h

theorem DirectivePayload.proxyFrameStart : DirectivePayload.Statement .proxyFrameStart := by
  intro d h; cases h

theorem DirectivePayload.frameSent (l : LinkId) : DirectivePayload.Statement (.frameSent l) := by
  intro d h; cases h

theorem DirectivePayload.reportStart : DirectivePayload.Statement .reportStart := by
  intro d h; cases h

theorem DirectivePayload.reportSent : DirectivePayload.Statement .reportSent := by
  intro d h; cases h

theorem DirectivePayload.frameAbortSent (l : LinkId) : DirectivePayload.Statement (.frameAbortSent l) := by
  intro d h; cases h

theorem DirectivePayload.sendFill (l : LinkId) : DirectivePayload.Statement (.sendFill l) := by
  intro d h; cases h

end Sys2Proof.Laws
end

