-- ==== Sys2Proof/Tests/Slice0.lean ====
section
/-! SUPPORT. Tests of the model against the worked examples of spec/, and for every statement a concrete state that meets
its hypotheses. Each test cites the section its expected values are taken from. -/

namespace Sys2Proof.Tests

open Sys2Proof Sys2Proof.Machine

-- One theorem at a time: a thread for each of these evaluations is more than the memory limit allows.
set_option Elab.async false

/-! ### Helpers -/

/-- The state a command leaves. -/
def after (c : Instr) (s : State) : State :=
  match exec c s with
  | .next t => t
  | _ => s

/-- The words after the kind code of a packet with a good CRC. -/
def good (k : Kind) (ws : List Word) : List Word := (sealed (k.code :: ws)).tail

/-- The words after the kind code of a DIRECTIVE with a good CRC. -/
def packet (code tagTiming param : Word) (payload : List Word) : List Word :=
  good .directive ([code, tagTiming, word payload.length, param] ++ payload)

/-- A table with words that count as VALID. -/
def table (ws : List Word) : Table := ⟨ws, .valid⟩

/-- A small valid bank: input and proxy 64 × 36, pre-roll depth 2, loss window 3, RECORD RUN. -/
def bank : Bank where
  input := table [64, 36, 0, 0, 64, 36, 64, 36, 1, 0]
  hkernel := table ((List.replicate 32 [0, 0, 256, 0, 0, 0]).flatten)
  vkernel := table ((List.replicate 32 [0, 0, 256, 0, 0, 0]).flatten)
  tone := table (List.replicate 771 500)
  overlay := table (List.replicate 848 0)
  record := table [2, 0, 5, 0, 0, 3, 0, 2, 10, 0, 1, 7]
  pages := some (2, 1)

/-- Power-on with the small bank active and the link STREAMING. -/
def live : State :=
  { State.reset with
    banks := { State.reset.banks with a := bank }
    ingress := { State.reset.ingress with link := .streaming } }

/-- The same, CACHING. -/
def caching : State := { live with clips := { live.clips with recordState := .caching, cacheMark := true } }

/-- A good FRAME OPEN of the small bank's size, capture index 7. -/
def opening : List Word := good .frameOpen [0, 7, 64, 36]

/-- A clip record, number 12, with counts. -/
def clip (state : ClipState) (joined sent made evicted proxySent gaps : Nat) : ClipRecord where
  number := 12
  take := 12
  part := 0
  reel := [10, 0, 1, 7]
  state := state
  mode := .recordRun
  rate := .r25
  df := false
  startTc := none
  firstCapture := none
  joined := joined
  sent := sent
  made := made
  evicted := evicted
  proxySent := proxySent
  gapTotal := gaps
  gaps := []
  overflow := false
  flawed := 0
  cause := none

/-- The small bank, RECORDING clip 12. -/
def recording : State :=
  { live with clips := { live.clips with recordState := .recording, records := [clip .isOpen 2 1 2 0 2 0] } }

/-- A frame in progress, 64 × 16, as in section 1.10. -/
def inProgress (expected : Nat) (last : Option Nat) : FrameInProgress where
  principal := 0
  twin := none
  width := 64
  height := 16
  expected := expected
  lastReceived := last
  linesReceived := expected
  check := 0
  missing := 0
  excess := 0

/-- The small bank with a frame in progress. -/
def filling (expected : Nat) (last : Option Nat) : State := live.setFrame (.inFrame (inProgress expected last))

/-! ### Well-formedness: a term that each check refuses -/

theorem test_open_without_words : (Instr.frameOpen [] .actionsFirst []).wellFormed = false := by decide +kernel
theorem test_line_without_words : (Instr.line []).wellFormed = false := by decide +kernel
theorem test_close_without_words : (Instr.frameClose []).wellFormed = false := by decide +kernel
theorem test_fill_without_words : (Instr.fill []).wellFormed = false := by decide +kernel
theorem test_directive_without_words : (Instr.directive []).wellFormed = false := by decide +kernel
theorem test_unknown_with_a_kind : (Instr.unknownPacket [0x0D02, 0]).wellFormed = false := by decide +kernel
theorem test_load_too_long : (Instr.loadSegment 0 0 (List.replicate 257 0)).wellFormed = false := by decide +kernel
theorem test_well_formed_commands : (Instr.frameOpen opening .actionsFirst []).wellFormed = true ∧
    (Instr.unknownPacket [0x0D05, 0]).wellFormed = true ∧
    (Instr.loadSegment 0 0 (List.replicate 256 0)).wellFormed = true ∧ (Instr.runTimecode 0).wellFormed = true := by
  decide +kernel

/-! ### Packets and the CRC (sections 10.1 and 10.2) -/

/-- R170: the CRC of the single word FFFFh is 0000h. -/
theorem test_crc_of_ffff : crc [0xFFFF] = 0x0000 := by decide +kernel
/-- The five kinds by their codes; 0D05h, 0D06h and a packet of one word have none (R3). -/
theorem test_kinds : packetKind [0x0D00, 0] = some .fill ∧ packetKind [0x0D01, 0] = some .frameOpen ∧
    packetKind [0x0D02, 0] = some .line ∧ packetKind [0x0D03, 0] = some .frameClose ∧
    packetKind [0x0D04, 0] = some .directive ∧ packetKind [0x0D05, 0] = none ∧ packetKind [0x0D06, 0] = none ∧
    packetKind [0x0D01] = none := by decide +kernel
theorem test_packet_decodes : decodePacket .actionsFirst [] [0x0D03, 16, 9] = .frameClose [16, 9] ∧
    decodePacket .actionsFirst [] [0x0D05, 9] = .unknownPacket [0x0D05, 9] := by decide +kernel
theorem test_table_word_spells_none : decodeTableWord 16 3331 = none ∧ live.withFetchWord 16 3331 = live := ⟨rfl, rfl⟩

/-! ### Rates, labels and counts (chapter 2) -/

/-- R20: lane periods and frames per day. -/
theorem test_rates : Rate.period .r23976 = 1126125 ∧ Rate.period .r25 = 1080000 ∧ Rate.period .r5994 = 450450 ∧
    framesPerDay .r2997 true = 2589408 ∧ framesPerDay .r5994 true = 5178816 ∧ framesPerDay .r24 false = 2073600 := by
  decide +kernel
/-- Section 2.4, first table. -/
theorem test_labels_2997 : countToLabel .r2997 true 1799 = ⟨0, 0, 59, 29⟩ ∧
    countToLabel .r2997 true 1800 = ⟨0, 1, 0, 2⟩ ∧ countToLabel .r2997 true 17982 = ⟨0, 10, 0, 0⟩ ∧
    countToLabel .r2997 true 17983 = ⟨0, 10, 0, 1⟩ ∧ countToLabel .r2997 true 1078920 = ⟨10, 0, 0, 0⟩ := by decide +kernel
/-- Section 2.4, second table. -/
theorem test_labels_5994 : countToLabel .r5994 true 3599 = ⟨0, 0, 59, 59⟩ ∧
    countToLabel .r5994 true 3600 = ⟨0, 1, 0, 4⟩ ∧ countToLabel .r5994 true 35964 = ⟨0, 10, 0, 0⟩ := by decide +kernel
/-- R28: the largest label; section 2.4: the other direction. -/
theorem test_counts : labelToCount .r2997 true ⟨23, 59, 59, 29⟩ = 2589407 ∧
    labelToCount .r2997 true ⟨10, 0, 0, 0⟩ = 1078920 ∧ labelToCount .r5994 true ⟨0, 10, 0, 0⟩ = 35964 := by decide +kernel
/-- Section 2.4: a jam to the dropped label 00:01:00;01 is moved up to count 1,800. -/
theorem test_jam_moves_up :
    (after (.jamTimecode 1 0x0001 0x0001 0) { live with time := { live.time with rate := .r2997, df := true } }).time.tod
      = 1800 := by decide +kernel
/-- Section 8.8: 25:00:00:00 is refused. -/
theorem test_jam_refused : (after (.jamTimecode 42 0x1900 0 0) live).dir.reports
    = [.response 42 0x0009 .refBadValue 0] := by decide +kernel
/-- R35: 1,801 at 30 NDF becomes 1,800 at 29.97 DF; 01:00:00:59 at 60 NDF becomes 90,024 at 25 NDF. -/
theorem test_re_express : reExpress .r30 false .r2997 true 1801 = (1800, true) ∧
    reExpress .r60 false .r25 false 216059 = (90024, true) := by decide +kernel
theorem test_rate_refused_while_caching : (after (.setRate 1 0 0) caching).time = caching.time := by decide +kernel
theorem test_run : (after (.runTimecode 1) { live with time := { live.time with running := false } }).time.running = true :=
  by decide +kernel
/-- R36: one SET label out of range refuses both fields. -/
theorem test_cues_refused : (after (.setCues 1 1 0 5 1 0x1800 0) live).time.startCue = none := by decide +kernel
theorem test_cues_set : (after (.setCues 1 1 0 5 2 0 0) live).time.startCue = some 5 := by decide +kernel

/-! ### The input link (chapter 1) -/

/-- Section 1.10: after lines 0 and 1, LINE 4 fills lines 2 and 3 from line 1. -/
theorem test_line_ahead : (after (.line (good .line [4])) (filling 2 (some 1))).ingress.frame =
    .inFrame { inProgress 5 (some 4) with linesReceived := 3, check := 1, missing := 2 } := by decide +kernel
/-- Section 1.10: LINE 3 is then behind, LINE 20 beyond the height: both are excess. -/
theorem test_line_excess : (placeLine 3 [] (inProgress 5 (some 4)) live).1.excess = 1 ∧
    (placeLine 20 [] (inProgress 14 (some 13)) live).1 = { inProgress 14 (some 13) with excess := 1 } := by decide +kernel
/-- R12: a short payload is padded with 0, the upper four bits are ignored. -/
theorem test_line_samples : lineSamples 1 [0, 0xF123, 0x0456, 9] = [0x123, 0x456, 0] := by decide +kernel
theorem test_stray_line : Flag.isIn .strayLines (after (.line (good .line [4])) live).flags.raised = true := by decide +kernel
/-- R14: two lines of sixteen missing, and a lines-sent value that differs. -/
theorem test_close : ((after (.frameClose (good .frameClose [15])) (filling 14 (some 13))).store.frame 0).flaws =
    ⟨false, 1, 2, 0⟩ ∧
    Flag.isIn .flawedFrame (after (.frameClose (good .frameClose [15])) (filling 14 (some 13))).flags.raised = true := by
  decide +kernel
theorem test_lock : (after .symbolLockGained State.reset).ingress.link = .idle ∧
    (after .symbolLockLost (filling 3 none)).ingress = { live.ingress with link := .down } := by decide +kernel
theorem test_discarded : after (.fill [1, 2]) live = live ∧ after (.unknownPacket [0x0D06, 1]) live = live := ⟨rfl, rfl⟩
/-- R6: an admitted frame while CACHING; R7: index 7 after 5 is a capture skip. -/
theorem test_open_admitted : (after (.frameOpen opening .actionsFirst []) caching).ingress.frame =
    .inFrame { inProgress 0 none with height := 36, twin := some 1 } := by decide +kernel
theorem test_capture_skip : Flag.isIn .captureSkip (after (.frameOpen opening .actionsFirst [])
    { live with ingress := { live.ingress with lastCapture := some 5 } }).flags.raised = true := by decide +kernel
/-- R8: a wrong size sets GEOMETRY MISMATCH and cuts the clip. -/
theorem test_geometry : (after (.frameOpen (good .frameOpen [0, 7, 64, 40]) .actionsFirst []) recording).clips.hasOpen
    = false := by decide +kernel
/-- R10: a corrupt FRAME OPEN resets nothing. -/
theorem test_corrupt_open : (after (.frameOpen [0, 7, 64, 36, 0] .actionsFirst [])
    { live with ingress := { live.ingress with lossCount := 2 } }).ingress =
    { live.ingress with lossCount := 2, frame := .skipping } := by decide +kernel

/-! ### The timecode lane (chapter 2) -/

/-- A pulse order. -/
def order (lossFirst : Bool) : PulseOrder := ⟨lossFirst, true, .actionsFirst⟩

/-- A state with a picture-loss count. -/
def counted (n : Nat) (s : State) : State := { s with ingress := { s.ingress with lossCount := n } }

/-- R24: at midnight the count returns to 0; R37: a cue at 00:00:00:00 then fires. -/
theorem test_pulse_midnight : (after (.todPulse (order true))
    { live with time := { live.time with tod := 2159999, startCue := some 0 } }).time.tod = 0 ∧
    (after (.todPulse (order true))
    { live with time := { live.time with tod := 2159999, startCue := some 0 } }).clips.actions = [.start] := by
  decide +kernel
/-- Section 1.11: the third pulse finds expiry under a window of 3. -/
theorem test_pulse_expiry : (after (.todPulse (order true))
    { recording with ingress := { recording.ingress with lossCount := 2 } }).ingress.link = .idle ∧
    (after (.todPulse (order true))
    { recording with ingress := { recording.ingress with lossCount := 2 } }).clips.recordState = .standby ∧
    (after (.todPulse (order false)) (counted 2 recording)).ingress.link = .idle ∧
    (after (.todPulse (order false)) (counted 1 recording)).ingress.link = .streaming := by
  decide +kernel
theorem test_expiry : (after .pictureLossExpiry (counted 3 recording)).clips.hasOpen = false ∧
    (after .pictureLossExpiry (counted 2 recording)).clips.hasOpen = true := by decide +kernel
/-- R21: one tick moves the first stage, and at its last value the second. -/
theorem test_ticks : (TimeBase.tick { live.time with stage1 := 999, stage2 := 4 }).phase = 5000 ∧
    (TimeBase.tick live.time).interval = 1 := by decide +kernel
/-- Section 2.6: the subframe index counts on, and saturates at 15 (R31). -/
theorem test_subframe : TimeBase.nextSub { live.time with lastSub := some 1 } = 2 ∧
    TimeBase.nextSub { live.time with lastSub := some 15 } = 15 ∧ TimeBase.nextSub live.time = 0 := by decide +kernel

/-! ### Store, clips and gap lists (chapters 3 and 4) -/

/-- R41: the table of sizes. -/
theorem test_pages : principalPages 4096 2304 = 648 ∧ principalPages 3840 2160 = 570 ∧ principalPages 1920 1080 = 143 ∧
    proxyPages 1920 1080 = 127 ∧ proxyPages 960 540 = 32 ∧ proxyPages 2048 1152 = 144 := by decide +kernel
/-- Section 4.6: gap 4 extends (3, 1), and gap 2 then joins (1, 1) and (3, 2). -/
theorem test_gaps : enterGap 4 true [⟨1, 1⟩, ⟨3, 1⟩] = some [⟨1, 1⟩, ⟨3, 2⟩] ∧
    enterGap 2 true [⟨1, 1⟩, ⟨3, 2⟩] = some [⟨1, 4⟩] ∧ enterGap 412 true [⟨413, 1⟩] = some [⟨412, 2⟩] ∧
    enterGap 9 false [⟨1, 4⟩] = none := by decide +kernel
/-- R67: the counter passes from 9,999 to 1 and over a number in use. -/
theorem test_clip_number : advanceNumber [9999, 1, 3] 4 (numberAfter 9999) = 2 := by decide +kernel
theorem test_cache_on : (after (.cacheOn 1) live).clips.recordState = .caching ∧
    (after (.cacheOn 1) State.reset).dir.reports = [.response 1 0x0004 .refNotReady 0] := by decide +kernel
theorem test_cache_off : (after (.cacheOff 1) { caching with clips := { caching.clips with ring := [3] } }).clips.ring = [] ∧
    (after (.cacheOff 1) recording).clips.recordState = .recording := by decide +kernel
theorem test_start : (after (.start 1) caching).clips.records.map (fun c => (c.number, c.joined, c.reel)) =
    [(1, 0, [10, 0, 1, 7])] ∧ (after (.start 1) recording).dir.reports = [.response 1 0x0006 .refNotNow 0] := by
  decide +kernel
/-- R78, R84: the clip still owed a frame is CLOSING; one whose frames have all left settles at its close. -/
theorem test_stop : (after (.stop 1) recording).clips.records.map (·.state) = [.closing] ∧
    (after (.stop 1) { recording with clips := { recording.clips with records := [clip .isOpen 2 2 2 0 2 0] } }).clips.records
      = [] := by decide +kernel

/-! ### Rendering (chapter 5) -/

/-- Section 5.5: horizontal positions from 4096 to 1920, and rows 539 and 1079 of 2160 to 1080. -/
theorem test_positions : scaleStep 4096 1920 = 139810 ∧ scaleOffset 139810 = 37137 ∧
    scalePosition 139810 37137 1919 = 268332527 ∧ basePosition 268332527 = 4094 ∧ phasePosition 268332527 = 13 ∧
    taps 4094 4096 = [4092, 4093, 4094, 4095, 4095, 4095] ∧ taps 0 2160 = [0, 0, 0, 1, 2, 3] ∧
    phasePosition (scalePosition (scaleStep 2160 1080) 32768 539) = 16 := by decide +kernel
/-- Section 5.5: one filtered sample, and ringing at both ends. -/
theorem test_scaler : scalerResult (scalerSum [4, -20, 120, 164, -16, 4] [1000, 1000, 1000, 1040, 1100, 1200]) = 1023 ∧
    scalerResult (scalerSum [4, -20, 120, 164, -16, 4] [0, 0, 4095, 4095, 4095, 4095]) = 4095 ∧
    scalerResult (scalerSum [4, -20, 120, 164, -16, 4] [4095, 4095, 0, 0, 0, 0]) = 0 ∧
    (scalerSum [4, -20, 120, 164, -16, 4] [4095, 4095, 0, 0, 0, 0] + 128) / 256 = -256 := by decide +kernel
/-- Section 5.8: tone curve lookups. -/
theorem test_tone : (fun t => (toneOut t 0 1000, toneOut t 0 1023, toneOut t 0 1008))
    (table (List.replicate 62 0 ++ [500, 516, 530])) = (508, 529, 516) := by decide +kernel
/-- Section 5.8: a four-step ramp. -/
theorem test_blend : (List.range 4).map (fun i => blend ⟨i + 1, 4⟩ 508 700) = [556, 604, 652, 700] := by decide +kernel
/-- Section 5.10: the string "A017 01:00:01:00". -/
theorem test_overlay_string : overlayString [10, 0, 1, 7] false (countToLabel .r24 false 86424) =
    [10, 0, 1, 7, 40, 0, 1, 36, 0, 0, 36, 0, 1, 36, 0, 0] := by decide +kernel
/-- Section 5.10: pixel (190, 517) lies in cell 7, glyph column 3, glyph row 8: lit by bit 8 of row 8 of the colon. -/
def burnIn (row : Word) : Bank :=
  { bank with overlay := table ([1, 1, 1, 16, 500, 940, 0, 0] ++ List.replicate (20 * 36 + 8) 0 ++ [row]) }
theorem test_overlay_pixel : overlayStage (burnIn 0x0100) (some (List.replicate 16 36)) 190 517 556 = 940 ∧
    overlayStage (burnIn 0x0200) (some (List.replicate 16 36)) 190 517 556 = 139 ∧
    overlayStage (burnIn 0x0100) (some (List.replicate 16 36)) 400 517 556 = 556 := by decide +kernel

/-! ### Table banks (chapter 7) -/

/-- The INPUT faults of the cases of R130. -/
def inputCase (x0 y0 wc hc wo ho : Word) : Option Reason :=
  tableFault { bank with input := table [3840, 2160, x0, y0, wc, hc, wo, ho, 1, 0] } .input
theorem test_input_cases : inputCase 0 0 3840 2160 1920 1080 = none ∧ inputCase 800 0 3200 1800 960 540 = some .crop ∧
    inputCase 640 360 3200 1800 960 540 = none ∧ inputCase 0 0 3840 2160 400 540 = some .scale ∧
    inputCase 0 0 3840 2160 1920 1081 = some .scale := by decide +kernel
/-- R134: depth 200 is stored as 120, a loss window of 0 as 1, a pace interval of 9 as 8. -/
theorem test_record_clamped : clampRecord (table [200, 0xFFFF, 0, 9000, 1, 0, 9, 1, 1, 2, 3, 4]) =
    [120, 15, 0xFFFF, 8192, 1, 1, 8, 1, 1, 2, 3, 4] := by decide +kernel
/-- R127: a later segment out of order, and a segment number the table does not have. -/
theorem test_load : (after (.loadSegment 5 0x0402 []) live).dir.reports = [.response 5 0x0001 .refBadSegment 0] ∧
    (after (.loadSegment 5 0x0101 []) live).dir.reports = [.response 5 0x0001 .refBadValue 0] := by decide +kernel
theorem test_load_writes_standby : ((after (.loadSegment 5 0x0400 (List.replicate 256 1)) live).banks.b.tone.state =
    .incomplete 1) ∧ (after (.loadSegment 5 0x0600 (List.replicate 12 0)) live).banks.b.record.state =
    .invalid .timecodeMode := by decide +kernel
theorem test_copy : (after (.copyBank 1) live).banks.b = bank ∧
    (after (.copyBank 1) { live with render := { live.render with stepsLeft := 1 } }).banks = live.banks := by
  decide +kernel
/-- R137: the first switch after power-on starts no ramp and is DONE CLAMPED. -/
theorem test_switch : (after (.switchBank 1 6) { State.reset with banks := { State.reset.banks with b := bank } }).render.stepsLeft
    = 0 ∧ (after (.switchBank 1 6) { State.reset with banks := { State.reset.banks with b := bank } }).dir.reports =
    [.response 1 0x0003 .doneClamped 0] := by decide +kernel

/-! ### Directives, flags, links (chapters 6, 8 and 9) -/

/-- Section 8.8: START sent AT ONCE is queued, SET NOTICES one word short is refused. -/
theorem test_directives : (after (.directive (packet 0x0006 0x0028 0 [])) live).dir.queue = [⟨.start, 40, 0, []⟩] ∧
    (after (.directive (packet 0x000D 0x002C 0 [])) live).dir.reports = [.response 44 0x000D .refBadLength 0] := by
  decide +kernel
theorem test_notices : (after (.setNotices 1 0x0080) live).flags.enables = 0x0080 := by decide +kernel
/-- R166: of two flags listed and set, the shown one is cleared. -/
theorem test_clear : (after (.clearFlags 1 3) { live with flags := { live.flags with raised := 3, shown := 2 } }).flags.raised
    = 1 := by decide +kernel
theorem test_query : ((after (.queryStatus 1) live).dir.reports.map fun r => r.body.length) = [4, 92] := by decide +kernel
theorem test_arm : (after (.armSnapshot 1 5) live).flags.snapshot = .armed 5 ∧
    (after (.armSnapshot 1 0) live).flags.snapshot = .disarmed := by decide +kernel
theorem test_fetch : (after (.fetchSnapshot 1) (live.capture .pictureLost)).flags.snapshot = .disarmed ∧
    ((after (.fetchSnapshot 1) (live.capture .pictureLost)).dir.reports.map fun r => r.body.length) = [4, 95] := by
  decide +kernel
/-- Section 8.8: the cancelled directives are answered in order behind the response to RESTART. -/
theorem test_restart : (after (.restart 52) { live with dir := { live.dir with queue :=
    [⟨.switchBank, 50, 0, [0]⟩, ⟨.cacheOff, 51, 0, []⟩] } }).dir.reports =
    [.response 52 0x0011 .done 0, .response 50 0x0003 .refCancelled 0, .response 51 0x0005 .refCancelled 0] := by
  decide +kernel
theorem test_reset : after .powerOnReset live = State.reset := by decide +kernel
theorem test_owed_marker : (after .owedMarkerPlaced { live with dir := { live.dir with markerWaiting := true } }).dir.reports
    = [.marker none] := by decide +kernel
/-- Section 9.6: an urgent flag moves a routine marker ahead of two responses. -/
theorem test_promotion : (State.setFlag .storeFullCut { live with
    flags := { live.flags with enables := 0x0080 }
    dir := { live.dir with reports := [.snapshot [], .snapshot [1], .marker none] } }).dir.reports =
    [.marker none, .snapshot [], .snapshot [1]] := by decide +kernel

/-- A frame table with the first three records given and the others FREE. -/
def records (r0 r1 r2 : FrameRecord) : Vector FrameRecord Config.frameRecords :=
  ⟨(r0 :: r1 :: r2 :: List.replicate 157 .blank).toArray, by simp⟩

/-- A stored principal and its stored twin of clip 12, frame 411, in their queues. -/
def queued : State :=
  { recording with
    store := { recording.store with
      freePages := 65533, pq := [0], xq := [1]
      table := records
        { FrameRecord.blank with state := .stored, pages := 2, twin := some 1, part := some ⟨12, 411, 0⟩ }
        { FrameRecord.blank with
          kind := .proxy, state := .stored, pages := 1, twin := some 0, part := some ⟨12, 411, 0⟩ }
        .blank }
    pLink := { recording.pLink with readyLine := true }
    xLink := { recording.xLink with readyLine := true }
    lastProxy := some 407 }

theorem test_ready_line : (after (.sinkReadyChange .p false) queued).pLink.state = .notReady ∧
    (after (.sinkReadyChange .x true) live).xLink.state = .ready := by decide +kernel
theorem test_principal_start : (after .principalFrameStart queued).pLink.state = .sendingFrame ∧
    (after .principalFrameStart { queued with batch := 1 }).pLink.act = .free := by decide +kernel
/-- Section 6.12: the skip count is the clip frame number less the last proxy sent less 1. -/
theorem test_proxy_start : (match (after .proxyFrameStart queued).xLink.act with
    | .frame _ header _ => header.getD 26 9
    | _ => 9) = 3 ∧ (after .proxyFrameStart queued).pace = 0 := by decide +kernel
theorem test_frame_sent : (after (.frameSent .x) (after .proxyFrameStart queued)).lastProxy = some 411 ∧
    (after (.frameSent .p) (after .principalFrameStart queued)).clips.records.map (·.sent) = [2] := by decide +kernel
/-- The small bank with some reports queued. -/
def withReports (rs : List Report) (s : State) : State := { s with dir := { s.dir with reports := rs } }

theorem test_link_reset :
    ((after (.linkResetAsserted .p) (after .principalFrameStart queued)).store.frame 0).state = .stored ∧
    (after (.linkResetReleased .p)
      (withReports [.marker none] { live with pLink := { live.pLink with resetLine := true } })).batch = 1 := by
  decide +kernel
theorem test_report :
    (after .reportStart (withReports [.marker none] { live with flags := { live.flags with raised := 5 } })).dir.reports =
      [.marker (some ⟨5, 0⟩)] ∧
    (after .reportSent (withReports [.marker (some ⟨5, 1⟩)] (live.setAct .p (.report false)))).flags.shown = 4 := by
  decide +kernel
theorem test_abort_sent : (after (.frameAbortSent .x) (live.setAct .x (.aborting [7]))).xLink.sent = [[7]] := by decide +kernel
/-- Section 10.1: a FILL packet is its kind code and its CRC. -/
theorem test_fill_sent : (after (.sendFill .x) live).xLink.sent.map List.length = [2] ∧
    (after (.sendFill .x) queued).xLink.sent = [] := by decide +kernel

/-! ### Witnesses: for every statement with hypotheses, states and operands that meet them together -/

theorem witness_StepTakesFrontCommand :
    ({ live with pending := [.runTimecode 0, .owedMarkerPlaced] } : State).pending = .runTimecode 0 :: [.owedMarkerPlaced] :=
  rfl

theorem witness_EmptyQueueStepIsOneTick : live.pending = [] ∧
    live.time.stage1 < live.time.rate.divisor ∧ live.time.phase + 1 < live.time.rate.period ∧
    TimeBase.phase { live.time with stage1 := 998, stage2 := 1079 } + 1 < live.time.rate.period := by decide +kernel

theorem witness_EveryStepKeepsThePageTotal : live.store.PageLaw ∧ ∃ t, step live = .next t :=
  ⟨⟨by decide +kernel, by intro i _; simp [Store.frame, live, State.reset, Store.reset, FrameRecord.blank]⟩, _, rfl⟩

theorem witness_EveryStepKeepsTheGapAccount : recording.clips.Law ∧ ∃ t, step recording = .next t := by
  refine ⟨?_, _, rfl⟩
  intro r hr
  have h : r = clip .isOpen 2 1 2 0 2 0 := by simpa [recording] using hr
  subst h
  constructor <;> first | decide | (constructor <;> decide)

theorem witness_EveryStepKeepsTheTimeRanges : live.time.Law ∧ ∃ t, step live = .next t :=
  ⟨by constructor <;> decide +kernel, _, rfl⟩

theorem witness_EveryStepKeepsTheQueueBounds :
    (withReports [.marker none] live).dir.Law ∧ ∃ t, step (withReports [.marker none] live) = .next t :=
  ⟨by constructor <;> decide, _, rfl⟩

theorem witness_EveryStepKeepsTheActiveBankWhole : live.banks.Law ∧ ∃ t, step live = .next t :=
  ⟨.inr (by decide +kernel), _, rfl⟩

theorem witness_QuietInputCommands : State.reset.ingress.link = .down ∧ live.ingress.link ≠ .down ∧
    ¬ (goodVerdict [0x0D03, 5, 0] = true ∧ [(5 : Word), 0].length = 2) ∧ live.ingress.frame.noneOpen = true ∧
    (encodePacket (.fill [0])).isSome = true := by decide +kernel

theorem witness_SymbolLockLostClosesNoClip : (filling 3 none).ingress.link ≠ .down ∧
    recording.ingress.link ≠ .down ∧ recording.ingress.frame.noneOpen = true ∧
    (filling 3 none).ingress.frame = .inFrame (inProgress 3 none) ∧ (filling 3 none).HoldsPair (inProgress 3 none) := by
  and_intros <;> first | decide +kernel | (constructor <;> decide +kernel)

theorem witness_StrayLineIsDiscarded : live.ingress.link ≠ .down ∧ [(0 : Word)] ≠ [] ∧
    live.ingress.frame.noneOpen = true ∧ live.ingress.frame = .noFrame ∧
    (live.setFrame .skipping).ingress.frame.noneOpen = true ∧ (live.setFrame .skipping).ingress.frame = .skipping := by
  decide +kernel

/-- A record being filled: some lines, and a clip part when one is given. -/
def lined (expected : Nat) (part : Option ClipPart) : FrameRecord :=
  { FrameRecord.blank with
    state := .filling, pages := 2, part := part, lines := List.replicate expected [1, 2, 3] }

/-- A state with a frame in progress whose record is so filled. -/
def stored (expected : Nat) (last : Option Nat) (part : Option ClipPart) (s : State) : State :=
  { s.setFrame (.inFrame (inProgress expected last)) with
    store := { s.store with table := records (lined expected part) .blank .blank } }

/-- A frame in progress with its twin, 14 of 16 lines stored. -/
def paired : FrameInProgress := { inProgress 14 (some 13) with twin := some 1 }

/-- A small bank with that frame open, its principal of the clip part given, its two records naming one another, and what
is given being rendered into the twin. -/
def pairedState (part : Option ClipPart) (setup : Option FrameSetup) (s : State) : State :=
  { s.setFrame (.inFrame paired) with
    render := { s.render with setup := setup }
    store := { s.store with
      table := records { lined 14 part with twin := some 1 }
        { FrameRecord.blank with kind := .proxy, state := .filling, pages := 1, twin := some 0 } .blank } }

/-- A frame setup for the small bank, with its crop rows from `y0` on. -/
def setup (y0 hc : Nat) : FrameSetup where
  twin := 1
  bank := .a
  x0 := 0
  y0 := y0
  wc := 64
  hc := hc
  wi := 64
  wo := 64
  ho := hc
  sx := 65536
  ox := 0
  sy := 65536
  oy := 0
  ramp := none
  overlay := none
  nextRow := 0
  held := []

/-- A ring of depth 2 that is full, its oldest entry with a twin, and a frame without a clip part to enter it. -/
def fullRing : State :=
  { (stored 14 (some 13) none caching) with
    clips := { caching.clips with ring := [1, 5] }
    store := { caching.store with
      table := records (lined 14 none) { FrameRecord.blank with state := .stored, pages := 2, twin := some 2 }
        { FrameRecord.blank with kind := .proxy, state := .stored, pages := 1, twin := some 1 } } }

/-- The hypotheses under which a full ring gives up its oldest pair (`State.Completed.replaced`), and a frame with its
twin that is held as a pair. -/
theorem witness_CompletedFramesAreHeld : (pairedState none none live).HoldsPair paired ∧
    fullRing.HoldsPair (inProgress 14 (some 13)) ∧ fullRing.banks.act.preRollDepth = fullRing.clips.ring.length ∧
    fullRing.clips.ring.head? = some 1 ∧ (1 : RecNo) ≠ 0 ∧ (fullRing.store.frame 1).twin = some 2 ∧ (2 : RecNo) ≠ 1 ∧
    (2 : RecNo) ≠ 0 := by
  and_intros <;> first | decide +kernel | (constructor <;> decide +kernel)

/-- LINE 15 follows line 13 and is placed, LINE 16 is beyond the height, LINE 13 is behind, LINE 14 is next. Line 14 is the
last line of the crop, the first one, or just outside it on either side. -/
theorem witness_LineIsPlacedByItsNumber : (stored 14 (some 13) none live).ingress.link ≠ .down ∧
    (stored 14 (some 13) none live).ingress.frame = .inFrame (inProgress 14 (some 13)) ∧ [(0 : Word)].length = 1 ∧
    2 ≤ [(13 : Word), 0].length ∧ 2 ≤ [(16 : Word), 0].length ∧
    13 < ((stored 14 (some 13) none live).store.frame 0).lines.length ∧
    (∀ u ∈ (stored 14 (some 13) none live).render.setup, u.twin ≠ 0) ∧
    (pairedState none (some (setup 0 16)) live).ingress.frame = .inFrame paired ∧
    (pairedState none (some (setup 0 16)) live).render.setup = some (setup 0 16) ∧ (setup 0 16).twin ≠ paired.principal ∧
    ([(14 : Word), 0].getD 0 0).toNat = paired.expected ∧ paired.expected < paired.height ∧
    (setup 0 14).y0 + (setup 0 14).hc ≤ paired.expected ∧ paired.expected < (setup 15 1).y0 ∧
    paired.expected < (setup 0 15).y0 + (setup 0 15).hc ∧ (setup 14 2).y0 ≤ paired.expected := by decide +kernel

/-- The frame of section 1.10 with 14 lines of the value 5 stored. -/
def fives : State :=
  { filling 14 (some 13) with
    store := { live.store with
      table := records { lined 0 none with lines := List.replicate 14 (List.replicate 192 5) } .blank .blank } }

/-- The small bank with line 4 of a frame being next, its picture-loss count at the window of 3. -/
def expiring : State := counted 3 (filling 4 none)

/-- A LINE that carries the copy of the line last received, and one that carries black; a LINE ahead, a FRAME CLOSE, a
FRAME OPEN and an expired window that fill. -/
theorem witness_FillsActAsLines : fives.ingress.link ≠ .down ∧ fives.ingress.frame = .inFrame (inProgress 14 (some 13)) ∧
    (inProgress 14 (some 13)).expected < (inProgress 14 (some 13)).height ∧
    2 ≤ ((14 : Word) :: List.replicate 193 5).length ∧ (((14 : Word) :: List.replicate 193 5).getD 0 0).toNat = 14 ∧
    ((List.range (3 * 64)).map fun i => if i + 2 < ((14 : Word) :: List.replicate 193 5).length
      then (((14 : Word) :: List.replicate 193 5).getD (i + 1) 0).toNat % 4096 else 0) =
      (fives.store.frame 0).lines.getD 13 [] ∧
    ((List.range (3 * 64)).map fun i => if i + 2 < [(4 : Word), 0].length
      then ([(4 : Word), 0].getD (i + 1) 0).toNat % 4096 else 0) = List.replicate (3 * 64) 0 ∧
    expiring.ingress.link ≠ .down ∧ expiring.ingress.frame = .inFrame (inProgress 4 none) ∧
    expiring.lossExpired = true ∧ 14 < ([(15 : Word), 0].getD 0 0).toNat ∧ ([(15 : Word), 0].getD 0 0).toNat < 16 ∧
    goodVerdict (Kind.frameClose.code :: good .frameClose [16]) = true ∧ (good .frameClose [16]).length = 2 ∧
    opening ≠ [] := by decide +kernel

theorem witness_LinesThatFillsActAs : (∃ a, exec (.line (14 :: List.replicate 193 5)) fives = .next a) ∧
    ∃ a, exec (.line [4, 0]) expiring = .next a := ⟨⟨_, rfl⟩, _, rfl⟩

/-- Rows left to form at a close, with the crop cut short by it, and none left with the crop complete; for a frame of a
clip and for one without. -/
theorem witness_RowsAreFormedAtAClose : (setup 0 16).y0 + (setup 0 16).hc ≤ paired.height ∧
    (setup 0 16).nextRow ≤ (setup 0 16).ho ∧ 0 < (setup 0 16).hc ∧
    paired.expected < (setup 0 16).y0 + (setup 0 16).hc ∧ ¬ paired.expected < (setup 0 14).y0 + (setup 0 14).hc ∧
    ({ setup 0 14 with nextRow := 14 } : FrameSetup).nextRow = ({ setup 0 14 with nextRow := 14 } : FrameSetup).ho ∧
    (pairedState none (some (setup 0 16)) live).render.setup = some (setup 0 16) ∧ paired.twin = some 1 ∧
    (setup 0 16).twin = 1 ∧ (pairedState none (some (setup 0 16)) live).ingress.frame = .inFrame paired ∧
    ((pairedState none (some (setup 0 16)) live).store.frame 0).part = none ∧
    ((pairedState (some ⟨12, 0, 0⟩) (some (setup 0 16)) recording).store.frame 0).part = some ⟨12, 0, 0⟩ ∧
    ((pairedState (some ⟨12, 0, 0⟩) (some (setup 0 16)) recording).store.frame 0).twin = paired.twin ∧
    paired.twin ≠ some paired.principal ∧ 13 < (lined 14 (some ⟨12, 0, 0⟩)).lines.length := by decide +kernel

/-- A frame of clip 12 with every line stored, and one with two lines missing. -/
def joined (expected : Nat) : State := stored expected (some 13) (some ⟨12, 0, 0⟩) recording

/-- The lines sent are as received in the first and differ in the second, so that one frame is clean and one flawed. -/
theorem witness_FrameCloseQueuesAJoinedFrame :
    ((joined 16).ingress.link ≠ .down ∧ (joined 16).ingress.frame = .inFrame (inProgress 16 (some 13)) ∧
      ((joined 16).store.frame 0).part = some ⟨12, 0, 0⟩ ∧ ((joined 16).store.frame 0).twin = none ∧
      (none : Option RecNo) ≠ some 0 ∧ (∀ u ∈ (joined 16).render.setup, u.twin ≠ 0) ∧
      13 < ((joined 16).store.frame 0).lines.length ∧ (inProgress 16 (some 13)).linesReceived = 16 ∧
      min 65535 (0 + (16 - 16)) = 0) ∧
    ((joined 14).ingress.link ≠ .down ∧ (joined 14).ingress.frame = .inFrame (inProgress 14 (some 13)) ∧
      ((joined 14).store.frame 0).part = some ⟨12, 0, 0⟩ ∧ ((joined 14).store.frame 0).twin = none ∧
      (∀ u ∈ (joined 14).render.setup, u.twin ≠ 0) ∧ 13 < ((joined 14).store.frame 0).lines.length ∧
      (inProgress 14 (some 13)).linesReceived ≠ 16 ∧ min 65535 (0 + (16 - 14)) = 2) ∧
    goodVerdict (Kind.frameClose.code :: good .frameClose [16]) = true ∧ (good .frameClose [16]).length = 2 ∧
    ((good .frameClose [16]).getD 0 0).toNat = 16 := by decide +kernel

/-- A ring below the depth of 2, a full ring, and a depth of 0; a clean frame and a flawed one. -/
theorem witness_FrameCloseEntersTheRing : (stored 16 none none caching).ingress.link ≠ .down ∧
    (stored 16 none none caching).ingress.frame = .inFrame (inProgress 16 none) ∧
    goodVerdict (Kind.frameClose.code :: good .frameClose [16]) = true ∧ (good .frameClose [16]).length = 2 ∧
    ((stored 16 none none caching).store.frame 0).part = none ∧
    ((stored 16 none none caching).store.frame 0).twin = none ∧ (none : Option RecNo) ≠ some 0 ∧
    (∀ u ∈ (stored 16 none none caching).render.setup, u.twin ≠ 0) ∧ caching.banks.act.preRollDepth ≠ 0 ∧
    [(5 : RecNo)].length < caching.banks.act.preRollDepth ∧ caching.banks.act.preRollDepth ≤ [(5 : RecNo), 6].length ∧
    ({ bank with record := table [0] } : Bank).preRollDepth = 0 ∧
    ((good .frameClose [16]).getD 0 0).toNat = (inProgress 16 none).linesReceived ∧
    (inProgress 16 none).closingFlaws false 0 = ⟨false, 0, 0, 0⟩ ∧
    ((good .frameClose [16]).getD 0 0).toNat ≠ (inProgress 14 (some 13)).linesReceived ∧
    (inProgress 14 (some 13)).closingFlaws false 1 ≠ ⟨false, 0, 0, 0⟩ := by decide +kernel

theorem witness_CorruptFrameOpenSkips : ((filling 3 none).ingress.link ≠ .down ∧ [(0 : Word), 7, 64, 36, 0] ≠ [] ∧
    ¬ (goodVerdict [0x0D01, 0, 7, 64, 36, 0] = true ∧ [(0 : Word), 7, 64, 36, 0].length = 5) ∧
    ¬ (goodVerdict (Kind.frameOpen.code :: good .frameOpen [0, 7, 64]) = true ∧ (good .frameOpen [0, 7, 64]).length = 5) ∧
    (filling 3 none).ingress.frame = .inFrame (inProgress 3 none) ∧ live.ingress.frame.noneOpen = true ∧
    (inProgress 3 none).closingFlaws false 0 ≠ ⟨false, 0, 0, 0⟩ ∧
    (inProgress 16 none).closingFlaws false 0 = ⟨false, 0, 0, 0⟩) ∧ (filling 3 none).HoldsPair (inProgress 3 none) :=
  ⟨by and_intros <;> decide +kernel, by constructor <;> decide +kernel⟩

theorem witness_TakenFrameOpenRunsEveryStep : (live.ingress.link ≠ .down ∧
    goodVerdict (Kind.frameOpen.code :: opening) = true ∧ opening.length = 5 ∧ live.ingress.frame.noneOpen = true ∧
    (filling 3 none).ingress.frame = .inFrame (inProgress 3 none)) ∧ (filling 3 none).HoldsPair (inProgress 3 none) :=
  ⟨by and_intros <;> decide +kernel, by constructor <;> decide +kernel⟩

/-- In STANDBY; under the power-on bank; and of the wrong size while RECORDING, after a capture index that does not
precede. -/
theorem witness_FrameOpenNotAdmitted : live.ingress.link ≠ .down ∧
    goodVerdict (Kind.frameOpen.code :: opening) = true ∧ opening.length = 5 ∧ live.ingress.frame.noneOpen = true ∧
    live.dir.queue = [] ∧ live.clips.actions = [] ∧ live.clips.recordState = .standby ∧
    (opening.getD 2 0).toNat = live.banks.act.wi ∧ (opening.getD 3 0).toNat = live.banks.act.hi ∧
    State.reset.banks.act.valid = false ∧ recording.banks.act.valid = true ∧
    ¬ ((good .frameOpen [0, 7, 64, 37]).getD 3 0).toNat = recording.banks.act.hi ∧
    recording.clips.recordState = .recording ∧ recording.clips.hasOpen = true ∧
    (opening.getD 0 0 ++ opening.getD 1 0 : BitVec 32) ≠ 5 + 1 ∧
    recording.clips.openClip = some (clip .isOpen 2 1 2 0 2 0) ∧
    (∀ r ∈ recording.clips.records, r.number = 12 ∨ r.state = .isOpen → r = clip .isOpen 2 1 2 0 2 0) ∧
    (clip .isOpen 2 1 2 0 2 0).sent ≠ (clip .isOpen 2 1 2 0 2 0).joined ∧
    (clip .isOpen 2 2 2 0 2 0).sent = (clip .isOpen 2 2 2 0 2 0).joined ∧
    (clip .isOpen 2 2 2 0 2 0).proxySent + (clip .isOpen 2 2 2 0 2 0).evicted = (clip .isOpen 2 2 2 0 2 0).made := by
  decide +kernel

/-- CACHING, with too few pages for a principal and a ring of two entries. -/
def shortCaching : State :=
  { caching with
    clips := { caching.clips with ring := [0, 5] }
    store := { caching.store with
      freePages := 1
      table := records { FrameRecord.blank with state := .stored, pages := 2, twin := some 2 } .blank
        { FrameRecord.blank with kind := .proxy, state := .stored, pages := 1, twin := some 0 } } }

/-- RECORDING, a split pending; with one clip record in use, and with four. -/
def splitting (n : Nat) : State :=
  { recording with
    clips := { recording.clips with
      splitPending := true
      records := clip .isOpen 5 1 5 0 2 0 ::
        (List.range n).map fun i => { clip .closing 2 1 2 0 2 0 with number := 20 + i } } }

/-- RECORDING a clip one frame below the ceiling. -/
def nearCeiling : State :=
  { recording with clips := { recording.clips with records := [clip .isOpen 16777214 1 2 0 2 0] } }

/-- RECORDING, short of pages, with a stored proxy that was never started, of the open clip or of a CLOSING one. -/
def evicting (c : ClipRecord) : State :=
  { recording with
    clips := { recording.clips with records := [c] }
    store := { recording.store with
      freePages := 1, xq := [7, 1]
      table := records .blank
        { FrameRecord.blank with
          kind := .proxy, state := .stored, pages := 1, twin := some 0, part := some ⟨12, 411, 0⟩ } .blank } }

/-- These states take a FRAME OPEN of the active bank's size. -/
theorem witness_StatesOpenAFrame : shortCaching.OpensFrame opening ∧ shortCaching.InSequence opening ∧
    (splitting 0).OpensFrame opening ∧ (splitting 3).OpensFrame opening ∧ (splitting 3).InSequence opening ∧
    nearCeiling.OpensFrame opening ∧ (evicting (clip .isOpen 2 1 2 0 1 0)).OpensFrame opening ∧
    (evicting (clip .isOpen 2 1 2 0 1 0)).InSequence opening ∧ (splitting 0).RoomAt 0 ∧ (splitting 3).RoomAt 0 ∧
    nearCeiling.RoomAt 0 ∧ shortCaching.Short ∧ (evicting (clip .isOpen 2 1 2 0 1 0)).Short := by
  and_intros <;> first | decide +kernel | (constructor <;> decide +kernel) | nofun

/-- With room; short, with a pair to release; and a low mark that the reservations pass. -/
theorem witness_FrameOpenAdmittedWhileCaching : caching.ingress.link ≠ .down ∧
    goodVerdict (Kind.frameOpen.code :: opening) = true ∧ opening.length = 5 ∧ caching.ingress.frame.noneOpen = true ∧
    caching.dir.queue = [] ∧ caching.clips.actions = [] ∧ caching.clips.recordState = .caching ∧
    caching.banks.act.valid = true ∧ (opening.getD 2 0).toNat = caching.banks.act.wi ∧
    (opening.getD 3 0).toNat = caching.banks.act.hi ∧ caching.banks.pagesP ≤ caching.store.freePages ∧
    (caching.store.frame 0).state = .free ∧ (∀ j : RecNo, j < 0 → (caching.store.frame j).state ≠ .free) ∧
    (⟨0, 0, 0⟩ : Stamp) = ⟨caching.time.tod, caching.time.phase, 0⟩ ∧ caching.time.lastSub = none ∧
    shortCaching.clips.recordState = .caching ∧ shortCaching.clips.ring = 0 :: [5] ∧
    (shortCaching.store.frame 0).twin ≠ some 0 ∧ (shortCaching.store.frame 0).twin = some 2 ∧
    ({ bank with record := table [2, 0, 5, 0, 65535] } : Bank).lowMark ≤ 65536 ∧
    65536 - 2 < ({ bank with record := table [2, 0, 5, 0, 65535] } : Bank).lowMark ∧
    caching.banks.act.lowMark ≤ 65533 ∧ caching.banks.act.overlayOn = false ∧
    ({ bank with overlay := table [1] } : Bank).overlayOn = true := by decide +kernel

/-- An open clip that goes on; a split with a record free, of a clip owed frames and of one that settles; a deferral; and
the ceiling. -/
theorem witness_FrameOpenJoinsTheOpenClip : recording.ingress.link ≠ .down ∧
    goodVerdict (Kind.frameOpen.code :: opening) = true ∧ opening.length = 5 ∧
    recording.ingress.frame.noneOpen = true ∧ recording.dir.queue = [] ∧ recording.clips.actions = [] ∧
    recording.clips.recordState = .recording ∧ recording.clips.openClip = some (clip .isOpen 2 1 2 0 2 0) ∧
    recording.clips.splitPending = false ∧ (clip .isOpen 2 1 2 0 2 0).joined + 1 ≠ 16777215 ∧
    recording.banks.act.valid = true ∧ (opening.getD 2 0).toNat = recording.banks.act.wi ∧
    (opening.getD 3 0).toNat = recording.banks.act.hi ∧ recording.banks.pagesP ≤ recording.store.freePages ∧
    (recording.store.frame 0).state = .free ∧ (∀ j : RecNo, j < 0 → (recording.store.frame j).state ≠ .free) ∧
    (splitting 0).clips.openClip = some (clip .isOpen 5 1 5 0 2 0) ∧ (splitting 0).clips.splitPending = true ∧
    (splitting 0).clips.records.Nodup ∧ (splitting 2).clips.records.length < 4 ∧
    (∀ r ∈ (splitting 3).clips.records, r.number = 12 ∨ r.state = .isOpen → r = clip .isOpen 5 1 5 0 2 0) ∧
    (splitting 3).clips.records.Nodup ∧ 4 ≤ (splitting 3).clips.records.length ∧
    (∀ r ∈ (splitting 0).clips.records, r.number ≠ (splitting 0).clips.nextNumber) ∧
    (splitting 3).clips.deferralReported = false ∧
    ¬ ((clip .isOpen 5 1 5 0 2 0).sent = (clip .isOpen 5 1 5 0 2 0).joined) ∧
    (clip .isOpen 5 5 5 1 4 0).sent = (clip .isOpen 5 5 5 1 4 0).joined ∧
    (clip .isOpen 5 5 5 1 4 0).proxySent + (clip .isOpen 5 5 5 1 4 0).evicted = (clip .isOpen 5 5 5 1 4 0).made ∧
    nearCeiling.clips.openClip = some (clip .isOpen 16777214 1 2 0 2 0) ∧ nearCeiling.clips.records.Nodup ∧
    (clip .isOpen 16777214 1 2 0 2 0).joined + 1 = 16777215 ∧ nearCeiling.clips.splitPending = false := by
  decide +kernel

/-- At midnight, with the counter HELD, and inside the loss window of 3. -/
theorem witness_PulseWhileStreaming : live.ingress.link = .streaming ∧ live.time.running = true ∧
    live.time.startCue = none ∧ live.time.stopCue = none ∧ 2159999 + 1 ≥ live.time.perDay ∧
    min 255 (1 + 1) < live.banks.lossWindow := by decide +kernel

/-- Both cues at the advanced count; a start cue alone at midnight. -/
theorem witness_PulseFiresTheCues : live.ingress.link = .streaming ∧ live.time.running = true ∧
    ({ live.time with startCue := some 1, stopCue := some 1 } : TimeBase).startCue = some (live.time.tod + 1) ∧
    ¬ live.time.tod + 1 ≥ live.time.perDay ∧ 2159999 + 1 ≥ live.time.perDay ∧
    min 255 (live.ingress.lossCount + 1) < live.banks.lossWindow ∧ State.reset.ingress.link ≠ .streaming ∧
    State.reset.time.running = true ∧ (order true).handOverFirst = true ∧
    ({ order true with handOverFirst := false } : PulseOrder).handOverFirst = false ∧ (order false).lossFirst = false ∧
    State.reset.time.startCue ≠ some (State.reset.time.tod + 1) := by decide +kernel

theorem witness_PulseBoundaryEmptiesBothLists : State.reset.ingress.link ≠ .streaming ∧
    State.reset.time.running = true ∧ State.reset.time.startCue ≠ some 1 ∧ State.reset.time.stopCue ≠ some 1 ∧
    ¬ State.reset.time.tod + 1 ≥ State.reset.time.perDay ∧ (order true).lossFirst = true ∧
    (order false).lossFirst = false := by
  decide +kernel

/-- The third pulse of a window of 3, and the count at the window and below it; an open frame, no frame, and a clip owed
frames or not. -/
theorem witness_PictureLossExpires : (live.ingress.link = .streaming ∧ live.time.startCue ≠ some 1 ∧
    live.time.stopCue ≠ some 1 ∧ live.banks.lossWindow ≤ min 255 ((counted 2 live).ingress.lossCount + 1) ∧
    (order true).lossFirst = true ∧ (order false).lossFirst = false ∧ State.reset.ingress.link ≠ .streaming ∧
    State.reset.clips.recordState ≠ .recording ∧ (counted 2 recording).ingress.lossCount < recording.banks.lossWindow ∧
    recording.banks.lossWindow ≤ (counted 3 recording).ingress.lossCount ∧
    (counted 3 recording).clips.recordState = .recording ∧ (counted 3 recording).clips.hasOpen = true ∧
    (counted 3 recording).clips.openClip = some (clip .isOpen 2 1 2 0 2 0) ∧
    (∀ r ∈ (counted 3 recording).clips.records, r.number = 12 ∨ r.state = .isOpen → r = clip .isOpen 2 1 2 0 2 0) ∧
    (counted 3 live).clips.recordState ≠ .recording ∧ (counted 3 live).ingress.frame.noneOpen = true ∧
    (counted 3 (filling 3 none)).ingress.frame = .inFrame (inProgress 3 none)) ∧
    (counted 3 (filling 3 none)).HoldsPair (inProgress 3 none) :=
  ⟨by and_intros <;> decide +kernel, by constructor <;> decide +kernel⟩

/-- 00:01:00;01 at 29.97 DF is in range and moved up; hh of 24 is out of range. -/
theorem witness_JamSetsTheCount : (⟨0, 1, 0, 1⟩ : Label) = ⟨0x0001 / 256, 0x0001 % 256, 0x0001 / 256, 0x0001 % 256⟩ ∧
    (⟨0, 1, 0, 2⟩ : Label) = (if 0 = 0 ∧ 1 % 10 ≠ 0 ∧ 1 < dropCount .r2997 true then ⟨0, 1, 0, 2⟩ else ⟨0, 1, 0, 1⟩) ∧
    ¬ (0x18 : Nat) < 24 := by decide +kernel

theorem witness_SetRateCarriesTheLabels : rateOfCode (8 : Word).toNat = none ∧
    rateOfCode (2 : Word).toNat = some .r25 ∧ (1 : Word).toNat % 2 = 1 ∧ rateOfCode (3 : Word).toNat = some .r2997 ∧
    caching.clips.recordState ≠ .standby ∧ live.clips.recordState = .standby ∧ live.clips.records = [] := by
  decide +kernel

/-- LEAVE and CLEAR; a SET label in range; one out of range; a field code of 3. -/
theorem witness_SetCuesHandlesEachField : (3 : Word).toNat > 2 ∧ (2 : Word).toNat ≤ 2 ∧ (0 : Word) ≠ 1 ∧ (2 : Word) ≠ 1 ∧
    (⟨23, 59, 59, 24⟩ : Label).inRange live.time.rate = true ∧
    (⟨24, 0, 0, 0⟩ : Label).inRange live.time.rate = false ∧
    (⟨0, 0, 0, 25⟩ : Label).inRange live.time.rate = false := by decide +kernel

theorem witness_LabelsAndCountsAreExact : (true = true → Rate.r2997 = .r2997 ∨ Rate.r2997 = .r5994) ∧
    2589407 < framesPerDay .r2997 true ∧ (⟨23, 59, 59, 29⟩ : Label).inRange .r2997 = true ∧
    (⟨0, 1, 0, 2⟩ : Label).inRange .r2997 = true ∧ (⟨0, 1, 0, 2⟩ : Label).dropped .r2997 true = false := by
  decide +kernel

/-- A bad verdict; a packet of five words; the codes 0, 17 and 18; a payload of the wrong length; a timing value of 2; a
directive taken at once; and one queued, on an empty queue and on a full one. -/
theorem witness_DirectiveArrivalIsJudgedInOrder : live.ingress.link ≠ .down ∧
    goodVerdict [0x0D04, 1, 0, 0, 0, 0] = false ∧ (good .directive [0x000A, 0, 0]).length = 4 ∧
    goodVerdict (0x0D04 :: packet 10 0x0107 0 []) = true ∧ (packet 10 0x0107 0 []).length = 5 ∧
    ((packet 0 7 0 []).getD 0 0).toNat = 0 ∧ 17 < ((packet 18 7 0 []).getD 0 0).toNat ∧
    DirCode.restart.word = (packet 17 7 0 []).getD 0 0 ∧ DirCode.runTimecode.word = (packet 10 7 0 []).getD 0 0 ∧
    DirCode.runTimecode.payloadLength = some 0 ∧ (packet 10 7 0 [3]).length = 1 + 5 ∧
    1 < ((packet 10 0x0207 0 []).getD 1 0).toNat / 256 ∧ ((packet 10 0x0007 0 []).getD 1 0).toNat / 256 = 0 ∧
    ((packet 10 0x0107 0 []).getD 1 0).toNat / 256 = 1 ∧
    DirCode.runTimecode ∉ [DirCode.switchBank, .cacheOn, .cacheOff, .start, .stop] ∧
    DirCode.start ∈ [DirCode.switchBank, .cacheOn, .cacheOff, .start, .stop] ∧
    (⟨.runTimecode, 7, 0, []⟩ : Directive) = ⟨.runTimecode, ((packet 10 7 0 []).getD 1 0).setWidth 8,
      (packet 10 7 0 []).getD 3 0, ((packet 10 7 0 []).drop 4).take ((packet 10 7 0 []).getD 2 0).toNat⟩ ∧
    live.dir.queue.length < 16 ∧ 16 ≤ (List.replicate 16 (⟨.stop, 0, 0, []⟩ : Directive)).length := by decide +kernel

theorem witness_BoundaryTakesBothListsInOrder : live.dir.queue = [] ∧ live.clips.actions = [] ∧
    ({ live.dir with queue := [⟨.cacheOn, 1, 0, []⟩, ⟨.start, 2, 0, []⟩] } : DirectiveUnit).queue =
      ⟨.cacheOn, 1, 0, []⟩ :: [⟨.start, 2, 0, []⟩] ∧
    ({ live.clips with actions := [.start, .stop] } : Clips).actions = .start :: [.stop] ∧
    ({ live.clips with actions := [.stop] } : Clips).actions = .stop :: [] ∧
    live.clips.recordState ≠ .recording ∧ live.banks.act.valid = true ∧ live.clips.records.length < 4 ∧
    recording.clips.recordState = .recording ∧ State.reset.banks.act.valid = false ∧
    ({ live with
      dir := { live.dir with queue := [⟨.cacheOn, 1, 0, []⟩] }
      clips := { live.clips with actions := [.start] } } : State).dir.queue = ⟨.cacheOn, 1, 0, []⟩ :: [] ∧
    ({ live with
      dir := { live.dir with queue := [⟨.cacheOn, 1, 0, []⟩] }
      clips := { live.clips with actions := [.start] } } : State).clips.actions = .start :: [] := by decide +kernel

/-- Table IDs 0 and 7, segment 1 of a one-segment table, segment 4 of TONE; TONE under a running ramp; a segment out of
order; a segment of the wrong length. -/
theorem witness_LoadSegmentRefusals : (0x0000 : Word).toNat / 256 = 0 ∧ 6 < (0x0700 : Word).toNat / 256 ∧
    1 ≤ (0x0101 : Word).toNat % 256 ∧ 4 ≤ (0x0404 : Word).toNat % 256 ∧
    tableOfId ((0x0400 : Word).toNat / 256) = some .tone ∧ (0x0403 : Word).toNat % 256 < 4 ∧
    0 < ({ live.render with stepsLeft := 1 } : Renderer).stepsLeft ∧ live.render.stepsLeft = 0 ∧
    tableOfId ((0x0501 : Word).toNat / 256) = some .overlay ∧ TableId.overlay ≠ .tone ∧ (0x0501 : Word).toNat % 256 ≠ 0 ∧
    (live.banks.standby.table .overlay).state ≠ .incomplete 1 ∧ [(0 : Word)].length ≠ TableId.input.segments.getD 0 0 ∧
    [(0 : Word), 0].length ≠ TableId.tone.segments.getD 3 0 := by decide +kernel

/-- A bank with three segments of TONE loaded. -/
def toneLoaded : Bank := { Bank.none with tone := ⟨List.replicate 768 1023, .incomplete 3⟩ }

/-- Segments 0 and 3 of TONE; a single segment that is faulty, sound, and clamped. -/
theorem witness_LoadSegmentWritesTheStandbyTable : tableOfId ((0x0600 : Word).toNat / 256) = some .record ∧
    TableId.record.segments[0]? = some (List.replicate 12 (0 : Word)).length ∧
    tableOfId ((0x0403 : Word).toNat / 256) = some .tone ∧ (0x0403 : Word).toNat % 256 = 3 ∧
    TableId.tone.segments[3]? = some (List.replicate 3 (0 : Word)).length ∧ live.render.stepsLeft = 0 ∧
    (toneLoaded.table .tone).state = .incomplete 3 ∧ 0 + 1 < TableId.tone.segments.length ∧
    3 + 1 = TableId.tone.segments.length ∧ 0 + 1 = TableId.record.segments.length ∧
    tableFault { bank with record := table [] } .record = some .timecodeMode ∧ tableFault bank .record = none ∧
    clampRecord (table [200, 0, 0, 0, 0, 1, 0, 1, 0, 0, 0, 0]) ≠ [200, 0, 0, 0, 0, 1, 0, 1, 0, 0, 0, 0] := by
  decide +kernel

/-- The equivalences that name the three INPUT faults are met by those very faults; both kernels; a clamped table. -/
theorem witness_ValidationFollowsTheTables : tableFault bank .input = none ∧
    tableFault { bank with input := table [63, 36, 0, 0, 64, 36, 64, 36, 1, 0] } .input = some .geometry ∧
    TableId.hkernel = .hkernel ∧ TableId.vkernel = .vkernel ∧
    (table [120, 16, 0, 0, 0, 0, 0, 1]).nat 1 * 65536 > 1048575 := by decide +kernel

theorem witness_CopyBankCopiesTheActiveBank : live.render.stepsLeft = 0 ∧
    0 < ({ live.render with stepsLeft := 16 } : Renderer).stepsLeft := by decide +kernel

theorem witness_SwitchBankRefusals : 16 < (17 : Word).toNat ∧ (16 : Word).toNat ≤ 16 ∧
    (live.banks.standby.table .overlay).state ≠ .valid ∧ (∀ i ∈ TableId.all, (bank.table i).state = .valid) ∧
    recording.clips.recordState = .recording ∧ recording.render.stepsLeft = 0 ∧
    ({ bank with input := table [64, 36, 0, 0, 64, 36, 64, 36, 0, 0] } : Bank).geometry ≠ recording.banks.act.geometry := by
  decide +kernel

/-- A record that names a twin. -/
def twinned (i : RecNo) : FrameRecord := { FrameRecord.blank with twin := some i }

/-- The small bank CACHING with two ring entries, and a standby bank that is given. -/
def switching (standby : Bank) : State :=
  { caching with
    banks := { caching.banks with b := standby }
    clips := { caching.clips with ring := [0, 1] }
    store := { caching.store with table := records (twinned 2) .blank .blank } }

/-- Banks of another input size, of another proxy enable, and of a smaller depth with a low mark. -/
theorem witness_SwitchBankExchangesTheRoles : (16 : Word).toNat ≤ 16 ∧ (switching bank).banks.standby.valid = true ∧
    (switching bank).render.stepsLeft = 0 ∧ (switching bank).clips.recordState ≠ .recording ∧
    ({ bank with input := table [66, 36, 0, 0, 64, 36, 64, 36, 1, 0] } : Bank).wi ≠ bank.wi ∧
    ({ bank with input := table [64, 36, 0, 0, 64, 36, 64, 36, 0, 0] } : Bank).geometry ≠ bank.geometry ∧
    (∀ p ∈ (switching bank).clips.ring, ∀ q, ((switching bank).store.frame p).twin = some q →
      q ∉ (switching bank).clips.ring) ∧
    (switching bank).clips.ring.length ≤ bank.preRollDepth ∧
    60000 < ({ bank with record := table [0, 0, 0, 0, 65535] } : Bank).lowMark ∧ bank.lowMark ≤ 60000 := by
  decide +kernel

/-- RECORDING, the standby bank of the same geometry and another clip limit: above the frames joined, and below them. -/
theorem witness_SwitchBankWhileRecording : recording.clips.recordState = .recording ∧
    recording.clips.openClip ≠ none ∧ ({ bank with record := table [2, 0, 9] } : Bank).geometry = bank.geometry ∧
    ({ bank with record := table [2, 0, 9] } : Bank).clipLimit ≠ bank.clipLimit ∧
    ({ bank with record := table [2, 0, 1] } : Bank).clipLimit ≠ bank.clipLimit := by decide +kernel

theorem witness_CacheOnAndCacheOff : State.reset.banks.act.valid = false ∧ live.banks.act.valid = true ∧
    recording.clips.recordState ≠ .caching ∧ (after (.restart 1) caching).clips.recordState = .standby ∧
    (after (.restart 1) caching).clips.cacheMark = true ∧ (switching bank).clips.recordState = .caching ∧
    (∀ p ∈ (switching bank).clips.ring, ∀ q, ((switching bank).store.frame p).twin = some q →
      q ∉ (switching bank).clips.ring) ∧
    (3 : RecNo) ∉ (switching bank).clips.ring ∧
    (∀ p ∈ (switching bank).clips.ring, ((switching bank).store.frame p).twin ≠ some 3) := by
  and_intros <;> decide +kernel

/-- A ring with a twinned entry and a twinless one; four clip records. -/
def ringState : State :=
  { caching with
    clips := { caching.clips with ring := [0, 1] }
    store := { caching.store with table := records (twinned 2) .blank (twinned 0) } }

theorem witness_StartOpensAClipAndCommitsTheRing : recording.clips.recordState = .recording ∧
    State.reset.clips.recordState ≠ .recording ∧ State.reset.banks.act.valid = false ∧
    4 ≤ (List.replicate 4 (clip .closing 2 1 2 0 2 0)).length ∧
    ringState.clips.recordState ≠ .recording ∧ ringState.banks.act.valid = true ∧ ringState.clips.records.length < 4 ∧
    ringState.clips.hasOpen = false ∧ ringState.time.rr < ringState.time.perDay ∧ ringState.clips.ring.Nodup ∧
    (∀ r ∈ ringState.clips.records, r.number ≠ ringState.clips.nextNumber) ∧
    (∀ p ∈ ringState.clips.ring, ∀ q, (ringState.store.frame p).twin = some q →
      q ∉ ringState.clips.ring ∧ (ringState.store.frame q).twin = some p) ∧
    (∃ p ∈ ringState.clips.ring, (ringState.store.frame p).twin = none) ∧
    (∀ p ∈ [(0 : RecNo)], (ringState.store.frame p).twin ≠ none) ∧ 1 ≤ ringState.clips.nextNumber ∧
    ringState.clips.nextNumber ≤ 9999 := by
  and_intros <;> decide +kernel

/-- A clip still owed a frame, and one whose frames have all left. -/
theorem witness_StopClosesTheOpenClip : live.clips.recordState ≠ .recording ∧
    recording.clips.recordState = .recording ∧ recording.clips.openClip = some (clip .isOpen 2 1 2 0 2 0) ∧
    (∀ r ∈ recording.clips.records, r.number = 12 ∨ r.state = .isOpen → r = clip .isOpen 2 1 2 0 2 0) ∧
    ¬ ((clip .isOpen 2 1 2 0 2 0).sent = (clip .isOpen 2 1 2 0 2 0).joined) ∧
    (clip .isOpen 2 2 2 1 1 1).sent = (clip .isOpen 2 2 2 1 1 1).joined ∧
    (clip .isOpen 2 2 2 1 1 1).proxySent + (clip .isOpen 2 2 2 1 1 1).evicted = (clip .isOpen 2 2 2 1 1 1).made ∧
    recording.dir.reports.length + 1 ≤ 32 := by decide +kernel

theorem witness_ClearFlagsClearsOnlyShownFlags : (2 : FlagSet) = 3 &&& 3 &&& 2 ∧ Flag.strayLines ≠ .reportsLost ∧
    Flag.strayLines ≠ .snapshotTaken := by decide

theorem witness_QueryStatusPlacesAStatusReport : recording.statusBody.length = 92 ∧
    recording.clips.records[0]? = some (clip .isOpen 2 1 2 0 2 0) ∧ recording.clips.records[3]? = none := by
  decide +kernel

theorem witness_SnapshotIsArmedAndFetched : live.flags.snapshot = .disarmed ∧
    (∀ r, live.flags.snapshot ≠ .captured r) ∧ ∃ r, (live.capture .pictureLost).flags.snapshot = .captured r :=
  ⟨rfl, nofun, _, rfl⟩

/-- ARMED with the flag among the triggers, and without it; the flag clear with its notice off. -/
theorem witness_SettingEventSetsTheFlag : Flag.isIn .strayLines 0x8000 = true ∧ Flag.isIn .strayLines 0x7FFF = false ∧
    Flag.isIn .strayLines live.flags.enables = false ∧
    ({ live.flags with snapshot := .armed 0x8000 } : FlagUnit).snapshot = .armed 0x8000 := by decide

/-- No marker and room; no marker and a full queue; a routine marker behind a response; and a marker in flight. -/
theorem witness_NoticeMarkerIsPlaced : Flag.isIn .inputDown live.flags.raised = false ∧
    Flag.isIn .inputDown 0x0002 = true ∧ live.flags.snapshot = .disarmed ∧
    (∀ r ∈ [Report.snapshot []], r.isMarker = false) ∧ live.dir.markerWaiting = false ∧ [Report.snapshot []].length < 32 ∧
    live.flags.markerClass = .routine ∧ Flag.inputDown.noticeClass = .urgent ∧ Flag.strayLines.noticeClass = .routine ∧
    live.pLink.sendingReport = false ∧ (live.setAct .p (.report false)).pLink.sendingReport = true ∧
    32 ≤ (List.replicate 32 (Report.snapshot [])).length ∧
    (∀ r ∈ List.replicate 32 (Report.snapshot []), r.isMarker = false) ∧
    [Report.snapshot [], .marker none].map (Report.addLater Flag.inputDown.bit) = [.snapshot []] ++ .marker none :: [] ∧
    [Report.marker (some ⟨1, 0⟩)].map (Report.addLater Flag.inputDown.bit) = .marker (some ⟨1, 2⟩) :: [] ∧
    (Report.marker (some ⟨1, 2⟩)).isMarker = true ∧ (Report.marker none).isMarker = true ∧
    [Report.snapshot [1], .snapshot [], .marker none].map (Report.addLater Flag.inputDown.bit) =
      .snapshot [1] :: [.snapshot []] ++ .marker none :: [] ∧ (Report.snapshot [1]).isMarker = false ∧
    ({ live.dir with markerWaiting := true } : DirectiveUnit).markerWaiting = true ∧
    ({ live.flags with markerClass := .urgent } : FlagUnit).markerClass = .urgent ∧
    (∀ r ∈ [Report.snapshot [], .marker none].head?, r.isMarker = false) := by decide +kernel

theorem witness_OwedMarkerIsPlaced : ({ live.dir with markerWaiting := true } : DirectiveUnit).markerWaiting = true ∧
    live.dir.reports.length < 32 ∧ live.flags.markerClass = .routine ∧
    ({ live.flags with markerClass := .urgent } : FlagUnit).markerClass = .urgent ∧
    live.pLink.sendingReport = false ∧ (live.setAct .p (.report false)).pLink.sendingReport = true ∧
    (withReports [.snapshot []] live).dir.reports ≠ [] ∧ live.dir.markerWaiting = false := by decide +kernel

theorem witness_RestartReachesEveryBlock : recording.dir.queue.length ≤ 16 ∧ recording.clips.records.length ≤ 4 ∧
    [Report.snapshot []] = [Report.snapshot [], .marker none].take 1 ∧
    (after .principalFrameStart queued).closingClip .p = none := by decide +kernel

theorem witness_LinkLinesFillAndAbort : live.pLink.act = .free ∧ (live.link .x).act = .free ∧
    (live.link .x).resetLine = false ∧ (live.link .x).readyLine = false ∧ live.dir.reports = [] ∧
    ((after (.linkResetAsserted .x) live).link .x).resetLine = true ∧
    ((live.setAct .x (.aborting [7])).link .x).act = .aborting [7] ∧ live.pLink.resetLine = false ∧
    queued.pLink.act = .free ∧ queued.pLink.readyLine = true ∧ queued.batch = 0 ∧ queued.store.pq ≠ [] ∧
    live.store.pq = [] ∧ (withReports [.marker none] live).dir.reports ≠ [] ∧ queued.xLink.act = .free ∧
    queued.xLink.resetLine = false ∧ queued.xLink.readyLine = true ∧ queued.store.xq ≠ [] ∧
    queued.banks.act.valid = true ∧ queued.banks.act.record.nat 6 ≤ queued.pace ∧ live.store.xq = [] ∧
    7 < (table [0, 0, 0, 0, 0, 0, 8]).nat 6 ∧ (∀ p, (live.link .x).act ≠ .aborting p) := by
  and_intros <;> first | decide +kernel | nofun

theorem witness_LinkResetAbandonsWhatIsInFlight :
    (∃ header, ((after .principalFrameStart queued).link .p).act = .frame 0 header 0) ∧
    ((after (.linkResetAsserted .x) live).link .x).resetLine = true ∧ (live.link .x).resetLine = false :=
  ⟨⟨_, rfl⟩, by decide +kernel, by decide +kernel⟩

theorem witness_PrincipalFrameStarts : queued.pLink.act = .free ∧ queued.pLink.readyLine = true ∧
    queued.pLink.resetLine = false ∧ queued.batch = 0 ∧ queued.store.pq = 0 :: [] ∧
    (queued.store.frame 0).kind = .principal ∧ (queued.store.frame 0).part = some ⟨12, 411, 0⟩ ∧
    queued.clips.records.find? (fun d => d.number == 12) = some (clip .isOpen 2 1 2 0 2 0) ∧
    live.store.pq = [] := by decide +kernel

/-- A proxy after another of its clip, a first proxy of its clip, and one that the pace interval holds back. -/
theorem witness_ProxyFrameStarts : queued.xLink.act = .free ∧ queued.xLink.readyLine = true ∧
    queued.xLink.resetLine = false ∧ queued.banks.act.valid = true ∧ queued.banks.act.record.nat 6 ≤ queued.pace ∧
    queued.store.xq = 1 :: [] ∧ (queued.store.frame 1).kind = .proxy ∧
    (queued.store.frame 1).part = some ⟨12, 411, 0⟩ ∧
    queued.clips.records.find? (fun d => d.number == 12) = some (clip .isOpen 2 1 2 0 2 0) ∧
    (clip .isOpen 2 1 2 0 2 0).proxySent ≠ 0 ∧ queued.lastProxy = some 407 ∧ 3 = 411 - 407 - 1 ∧
    (clip .isOpen 2 1 2 0 0 0).proxySent = 0 ∧ 7 < (table [0, 0, 0, 0, 0, 0, 8]).nat 6 := by decide +kernel

/-- A clip that stays open, and a CLOSING clip whose last frame this is. -/
theorem witness_FrameSentFreesTheRecord :
    (∃ header, ((after .principalFrameStart queued).link .p).act = .frame 0 header 0) ∧
    ((after .principalFrameStart queued).store.frame 0).part = some ⟨12, 411, 0⟩ ∧
    clip .isOpen 2 1 2 0 2 0 ∈ (after .principalFrameStart queued).clips.records ∧
    (clip .isOpen 2 1 2 0 2 0).number = 12 ∧
    (∀ r ∈ (after .principalFrameStart queued).clips.records, r.number = 12 → r = clip .isOpen 2 1 2 0 2 0) ∧
    (clip .closing 2 1 2 0 2 0).state = .closing ∧ (clip .closing 2 2 2 0 2 0).sent = (clip .closing 2 1 2 0 2 0).joined ∧
    (clip .closing 2 2 2 0 2 0).proxySent + 0 = (clip .closing 2 1 2 0 2 0).made ∧ (live.link .x).act = .free ∧
    ((live.setAct .x (.closing [7])).link .x).act = .closing [7] ∧
    ((live.setAct .p (.report false)).link .p).act = .report false :=
  ⟨⟨_, rfl⟩, by and_intros <;> decide +kernel⟩

/-- A marker and a snapshot at the head; an idle link with READY low; a link that may start a frame instead. -/
theorem witness_ReportStartFillsAMarker : live.pLink.act = .free ∧ live.pLink.resetLine = false ∧
    (withReports [.marker none] live).dir.reports = .marker none :: [] ∧ live.pLink.readyLine = false ∧
    (Report.marker none).isMarker = true ∧ (Report.snapshot []).isMarker = false ∧ queued.batch = 0 ∧
    queued.pLink.readyLine = true ∧ queued.store.pq ≠ [] := by decide +kernel

theorem witness_ReportSentMarksFlagsShown :
    (withReports [.marker (some ⟨5, 1⟩)] (live.setAct .p (.report false))).pLink.act = .report false ∧
    (withReports [.marker (some ⟨5, 1⟩)] (live.setAct .p (.report false))).dir.reports = .marker (some ⟨5, 1⟩) :: [] ∧
    (Report.marker (some ⟨5, 1⟩)).isMarker = true ∧ live.flags.renotice = false ∧
    ({ live.flags with renotice := true } : FlagUnit).renotice = true ∧ ([] : List Report).length < 32 ∧
    live.dir.reports = [] := by decide +kernel

theorem witness_PacketsDecodeToTheirCommands : (Instr.line [4, 9]).wellFormed = true ∧
    encodePacket (.line [4, 9]) = some [0x0D02, 4, 9] ∧ (Instr.unknownPacket [0x0D05, 9]).wellFormed = true ∧
    encodePacket (.unknownPacket [0x0D05, 9]) = some [0x0D05, 9] := by decide

/-- A gap beside a run; and one that touches no run of sixteen. -/
theorem witness_GapListCoversExactlyItsGaps : GapsSound [⟨1, 1⟩, ⟨3, 2⟩] ∧
    (¬ ∃ r ∈ [(⟨1, 1⟩ : GapRun), ⟨3, 2⟩], r.first ≤ 2 ∧ 2 < r.first + r.length) ∧
    GapsSound ((List.range 16).map fun i => ⟨2 * i, 1⟩) ∧
    (¬ ∃ r ∈ (List.range 16).map fun i => (⟨2 * i, 1⟩ : GapRun), r.first ≤ 40 ∧ 40 < r.first + r.length) :=
  by
  and_intros <;> first | decide | (constructor <;> decide)

/-- The store with too few pages, RECORDING, and a proxy queue with nothing to evict. -/
def exhausted : State := { recording with store := { recording.store with freePages := 1 } }

/-- CACHING with an empty ring, too few pages for a principal, and nothing to evict. -/
def starved : State := { caching with store := { caching.store with freePages := 1 } }

theorem witness_ShortWithNothingToGive : starved.OpensFrame opening ∧ starved.InSequence opening ∧
    starved.clips.recordState = .caching ∧ starved.clips.ring = [] ∧ starved.Short ∧ starved.store.evictable = none := by
  and_intros <;> first | decide +kernel | (constructor <;> decide +kernel) | nofun

/-- A proxy of the open clip, whose gap list has room or is full, one of a CLOSING clip that then settles; and nothing to
evict. -/
theorem witness_StoreFullCutsTheClip : (evicting (clip .isOpen 2 1 2 0 1 0)).clips.recordState = .recording ∧
    (evicting (clip .isOpen 2 1 2 0 1 0)).flags.snapshot = .disarmed ∧
    (evicting (clip .isOpen 2 1 2 0 1 0)).store.xq = [7] ++ [1] ∧
    ((evicting (clip .isOpen 2 1 2 0 1 0)).store.frame 1).state = .stored ∧
    ((evicting (clip .isOpen 2 1 2 0 1 0)).store.frame 1).started = false ∧
    ((evicting (clip .isOpen 2 1 2 0 1 0)).store.frame 1).part = some ⟨12, 411, 0⟩ ∧
    enterGap 411 true [] = some [⟨411, 1⟩] ∧ enterGap 411 false ((List.range 16).map fun i => ⟨2 * i, 1⟩) = none ∧
    (clip .closing 2 2 2 0 1 0).state = .closing ∧ (clip .closing 2 2 2 0 1 0).sent = (clip .closing 2 2 2 0 1 0).joined ∧
    (clip .closing 2 2 2 0 1 0).proxySent + (0 + 1) = (clip .closing 2 2 2 0 1 0).made ∧ exhausted.ingress.link ≠ .down ∧
    goodVerdict (Kind.frameOpen.code :: opening) = true ∧ opening.length = 5 ∧
    exhausted.ingress.frame.noneOpen = true ∧ exhausted.dir.queue = [] ∧ exhausted.clips.actions = [] ∧
    exhausted.clips.recordState = .recording ∧ exhausted.clips.openClip = some (clip .isOpen 2 1 2 0 2 0) ∧
    (∀ r ∈ exhausted.clips.records, r.number = 12 ∨ r.state = .isOpen → r = clip .isOpen 2 1 2 0 2 0) ∧
    exhausted.banks.act.valid = true ∧ (opening.getD 2 0).toNat = exhausted.banks.act.wi ∧
    (opening.getD 3 0).toNat = exhausted.banks.act.hi ∧ exhausted.store.freePages < exhausted.banks.pagesP ∧
    exhausted.store.evictable = none := by decide +kernel

/-- Column 1919 of 4096 to 1920 (section 5.5), the last pixel of cell 15 and the pixel after it, at the doubled string of
section 5.10, and the rest of the arithmetic at its ends. -/
theorem witness_RenderArithmeticIsExact : 1920 ≤ 4096 ∧ 1919 < 1920 ∧ 139810 = 4096 * 65536 / 1920 ∧
    37137 = (139810 - 65536) / 2 ∧ 268332527 = 37137 + 1919 * 139810 ∧
    2 = ({ bank with overlay := table [1, 1, 1, 16, 500, 940] } : Bank).overlayScale ∧
    16 = ({ bank with overlay := table [1, 1, 1, 16, 500, 940] } : Bank).originColumn ∧
    500 = ({ bank with overlay := table [1, 1, 1, 16, 500, 940] } : Bank).originRow ∧
    (15 < 16 ∧ 16 + 12 * 2 * 15 ≤ 399 ∧ 399 < 16 + 12 * 2 * 15 + 12 * 2 ∧ 500 ≤ 539 ∧ 539 < 500 + 20 * 2) ∧
    16 + 192 * 2 ≤ 400 ∧ [(4 : Int), -20, 120, 164, -16, 4].sum = 256 ∧ 4095 ≤ 4095 ∧
    (table (List.replicate 771 1023)).curve 2 (4095 / 16) ≤ 1023 ∧
    (table (List.replicate 771 1023)).curve 2 (4095 / 16 + 1) ≤ 1023 ∧ 1 ≤ 16 ∧ 16 ≤ 16 ∧ 191 < 3 * (setup 0 16).wo ∧
    63 * 65536 = (setup 0 16).ox + 191 / 3 * (setup 0 16).sx ∧ 15 * 65536 = (setup 0 16).oy + 15 * (setup 0 16).sy ∧
    scalerResult 0 = 0 := by decide +kernel

end Sys2Proof.Tests
end

section
/-! PROOFS. The commands of the RESET line and of the input link: what each command is, once its packet is delivered. -/

namespace Sys2Proof.Machine

open Sys2Proof

/-! ### Packets and their commands (section 10.1, R3) -/

/-- A kind code names its kind. -/
theorem kindOfWord_code (k : Kind) : kindOfWord k.code = some k := by cases k <;> decide

/-- A word that names a kind is its code. -/
theorem code_of_kindOfWord {w : Word} {k : Kind} (h : kindOfWord w = some k) : w = k.code := by
  unfold kindOfWord at h
  split_ifs at h <;> cases h <;> assumption

/-- A kind code with a word after it gives the packet its kind. -/
theorem packetKind_code (k : Kind) {rest : List Word} (h : rest ≠ []) : packetKind (k.code :: rest) = some k := by
  cases rest with
  | nil => contradiction
  | cons w ws => exact kindOfWord_code k

/-- A packet with a kind is that kind's code with at least one word after it. -/
theorem packet_of_packetKind {p : Packet} {k : Kind} (h : packetKind p = some k) :
    p = k.code :: p.tail ∧ p.tail ≠ [] := by
  unfold packetKind at h
  split at h
  · rw [← code_of_kindOfWord h]; simp
  · contradiction

/-- Settles O57, by the kinds a packet may have. -/
theorem packetsDecodeToTheirCommands : Obligations.PacketsDecodeToTheirCommands := by
  refine ⟨fun c p o d hw he => ?_, fun p o d => ?_⟩
  · have isKind : ∀ (k : Kind) (rest : List Word), !rest.isEmpty → packetKind (k.code :: rest) = some k :=
      fun k rest h => packetKind_code k (by simpa using h)
    cases c <;> simp only [encodePacket, Option.some.injEq, reduceCtorEq] at he <;> subst he <;> dsimp only [decodePacket]
    case unknownPacket words =>
      have : packetKind words = none := by simpa [Instr.wellFormed] using hw
      rw [this]
    all_goals rw [isKind _ _ hw]; rfl
  · unfold decodePacket
    cases hk : packetKind p with
    | none => simp [encodePacket, Instr.wellFormed, hk]
    | some k =>
      obtain ⟨hp, hne⟩ := packet_of_packetKind hk
      cases k <;> exact ⟨congrArg some hp.symm, by simpa [Instr.wellFormed] using hne⟩

/-! ### The CRC (R170) -/

/-- A register's own top bit shifts out without the polynomial. -/
theorem crcBit_shifted (r : Word) {n : Nat} (h : n < 16) : crcBit (r <<< n) (r.getLsbD (15 - n)) = r <<< (n + 1) := by
  have top : (r <<< n).getLsbD 15 = r.getLsbD (15 - n) := by
    have : ¬ 15 < n := by omega
    rw [BitVec.getLsbD_shiftLeft]
    simp only [this, decide_false, Bool.not_false, Nat.lt_add_one, decide_true, Bool.and_true, Bool.true_and]
  rw [crcBit, top, bne_self_eq_false, if_neg Bool.false_ne_true, BitVec.shiftLeft_add]

/-- A register run over its own value is left at 0: each step shifts one of its bits out. -/
theorem crcWord_self (r : Word) : crcWord r r = 0#16 := by
  have shifts : ∀ n ≤ 16,
      (List.range n).foldl (fun reg i => crcBit reg (r.getLsbD (15 - i))) r = r <<< n := by
    intro n
    induction n with
    | zero => simp
    | succ n ih =>
      intro hn
      rw [List.range_succ, List.foldl_append, ih (by omega)]
      exact crcBit_shifted r hn
  rw [crcWord, shifts 16 (le_refl _)]
  exact BitVec.shiftLeft_eq_zero (le_refl _)

/-- Settles O56: the register agrees with the CRC word, and a register run over its own value is 0. -/
theorem sealedPacketsHaveAGoodVerdict : Obligations.SealedPacketsHaveAGoodVerdict := by
  intro ws
  refine ⟨by simp [goodVerdict], ?_⟩
  have : crc (ws ++ [crc ws]) = crcWord (crc ws) (crc ws) := by simp [crc]
  rw [this, crcWord_self]

/-! ### What each command of the input link is -/

/-- While the link is up, a packet with a word after its kind code reaches the Ingress Port. -/
theorem State.delivers_of {s : State} {rest : List Word} (h : s.ingress.link ≠ .down) (hr : rest ≠ []) :
    s.delivers rest = true := by simp [State.delivers, h, hr]

/-- While the link is DOWN no packet reaches the Ingress Port. -/
theorem State.delivers_down {s : State} (rest : List Word) (h : s.ingress.link = .down) : s.delivers rest = false := by
  simp [State.delivers, h]

/-- The fixed word count of a packet, as the number of words after its kind code. -/
theorem goodFixed_iff {k : Kind} {n : Nat} {rest : List Word} :
    goodFixed k (n + 1) rest = true ↔ goodVerdict (k.code :: rest) = true ∧ rest.length = n := by
  simp [goodFixed]

theorem exec_frameOpen_taken {rest : List Word} {s : State} (o : BoundaryOrder) (d : List (List LinkEvent))
    (hl : s.ingress.link ≠ .down) (hv : goodVerdict (Kind.frameOpen.code :: rest) = true) (hn : rest.length = 5) :
    exec (.frameOpen rest o d) s =
      .next (s.openFrame (openCapture rest) (openWidth rest) (openHeight rest) o d) := by
  have hr : rest ≠ [] := by rintro rfl; simp at hn
  have hg : goodFixed .frameOpen 6 rest = true := goodFixed_iff.mpr ⟨hv, hn⟩
  show execFrameOpen rest o d s = _
  simp [execFrameOpen, State.delivers_of hl hr, hg]

theorem exec_frameOpen_corrupt {rest : List Word} {s : State} (o : BoundaryOrder) (d : List (List LinkEvent))
    (hl : s.ingress.link ≠ .down) (hr : rest ≠ [])
    (hv : ¬ (goodVerdict (Kind.frameOpen.code :: rest) = true ∧ rest.length = 5)) :
    exec (.frameOpen rest o d) s = .next s.corruptOpen := by
  have hg : goodFixed .frameOpen 6 rest = false := Bool.eq_false_iff.mpr fun h => hv (goodFixed_iff.mp h)
  show execFrameOpen rest o d s = _
  simp [execFrameOpen, State.delivers_of hl hr, hg]

/-- A LINE of an open frame (R11). -/
theorem exec_line_open {rest : List Word} {f : FrameInProgress} {s : State} (hl : s.ingress.link ≠ .down)
    (hr : rest ≠ []) (hf : s.ingress.frame = .inFrame f) : exec (.line rest) s = .next (s.receiveLine rest f) := by
  show execLine rest s = _
  simp [execLine, State.delivers_of hl hr, hf]

/-- A good FRAME CLOSE of an open frame (R14). -/
theorem exec_frameClose_open {rest : List Word} {f : FrameInProgress} {s : State} (hl : s.ingress.link ≠ .down)
    (hf : s.ingress.frame = .inFrame f) (hv : goodVerdict (Kind.frameClose.code :: rest) = true)
    (hn : rest.length = 2) :
    exec (.frameClose rest) s = .next (s.closeFrame false (some (rest.getD 0 0).toNat) f) := by
  have hr : rest ≠ [] := by rintro rfl; simp at hn
  have hg : goodFixed .frameClose 3 rest = true := goodFixed_iff.mpr ⟨hv, hn⟩
  show execFrameClose rest s = _
  simp only [execFrameClose, State.delivers_of hl hr, hg, hf, Bool.and_self, if_true]

theorem exec_symbolLockLost {s : State} (hl : s.ingress.link ≠ .down) :
    exec .symbolLockLost s = .next s.loseLock := by
  show execSymbolLockLost s = _
  rw [execSymbolLockLost, if_neg hl]

/-- Settles O10. -/
theorem quietInputCommands : Obligations.QuietInputCommands := by
  refine ⟨fun s h => ?_, fun s h => ?_, fun _ _ => rfl, fun _ _ => rfl, fun rest s h => ?_, fun rest s h => ?_,
    fun c s hd hp => ?_⟩
  · show execSymbolLockGained s = _
    rw [execSymbolLockGained, if_pos h]
  · show execSymbolLockGained s = _
    rw [execSymbolLockGained, if_neg h]
  · have hg : goodFixed .frameClose 3 rest = false := Bool.eq_false_iff.mpr fun k => h (goodFixed_iff.mp k)
    show execFrameClose rest s = _
    simp [execFrameClose, hg]
  · show execFrameClose rest s = _
    unfold execFrameClose
    cases hf : s.ingress.frame with
    | inFrame f => rw [hf] at h; simp [FrameState.noneOpen] at h
    | noFrame => simp
    | skipping => simp
  · have hn := fun rest => State.delivers_down rest hd
    cases c <;> try simp only [encodePacket, Option.isSome_none, Bool.false_eq_true] at hp
    case frameOpen rest o d => show execFrameOpen rest o d s = _; simp [execFrameOpen, hn]
    case line rest => show execLine rest s = _; simp [execLine, hn]
    case frameClose rest => show execFrameClose rest s = _; simp [execFrameClose, hn]
    case fill => rfl
    case unknownPacket => rfl
    case directive rest => show execDirective rest s = _; simp [execDirective, hn]

/-- Settles O12, by the two frame-in-progress states in which no frame is open. -/
theorem strayLineIsDiscarded : Obligations.StrayLineIsDiscarded := by
  intro rest s hl hr hf
  have hd := State.delivers_of hl hr
  cases hs : s.ingress.frame with
  | inFrame f => rw [hs] at hf; cases hf
  | noFrame =>
    refine ⟨s.setFlag .strayLines, ?_, fun _ => ⟨rfl, State.setFlag_isSet _ _⟩, nofun,
      State.setFlag_same _ _, by simp, by simp⟩
    show execLine rest s = _
    simp [execLine, hd, hs]
  | skipping =>
    refine ⟨s, ?_, nofun, fun _ => rfl, .refl s, rfl, rfl⟩
    show execLine rest s = _
    simp [execLine, hd, hs]

/-! ### Power-on reset -/

/-- A store after power-on reset or RESTART holds blank records alone (R42, R59). -/
@[simp] theorem Store.reset_frame (i : RecNo) : Store.reset.frame i = .blank := by
  simp [Store.frame, Store.reset]

/-- Both banks of a part after power-on reset hold six EMPTY tables and no page counts (R125, R126). -/
theorem State.reset_banks (k : BankId) : (State.reset.banks.get k).pages = none ∧
    ∀ i, ((State.reset.banks.get k).table i).state = .empty := by
  cases k <;> exact ⟨rfl, fun i => by cases i <;> rfl⟩

/-- Settles O9: each block is read off the power-on state. -/
theorem powerOnResetRestoresEveryBlock : Obligations.PowerOnResetRestoresEveryBlock := by
  intro s
  have free : ∀ i, (Store.reset.frame i).state = .free := fun i => by rw [Store.reset_frame]; rfl
  have phase : State.reset.time.phase = 0 := Nat.zero_mul 1000
  exact ⟨_, rfl,
    rfl, rfl, rfl, rfl,
    rfl, rfl, phase, rfl, rfl, rfl, rfl, rfl, rfl, rfl, rfl,
    rfl, free, rfl, rfl, rfl, rfl,
    rfl, rfl, rfl, rfl, rfl, rfl, rfl, rfl,
    rfl, rfl, rfl,
    rfl, State.reset_banks,
    rfl, rfl, rfl,
    rfl, rfl, rfl, rfl, rfl, rfl,
    rfl, rfl, rfl,
    fun l => by cases l <;> exact ⟨rfl, rfl, rfl⟩, rfl⟩

end Sys2Proof.Machine
end

section
/-! PROOFS. The four ways an open frame closes (R2, R10, R14, R16), each assembled from what a close does. -/

namespace Sys2Proof.Machine

open Sys2Proof

/-! ### The completion of a frame does not read the Ingress Port -/

/-- What a close stores is said of the store and the renderer alone. -/
theorem State.Stored.of_ingress {i : Ingress} {fl : Flaws} {f : FrameInProgress} {s : State} {store : Store}
    (h : State.Stored fl f { s with ingress := i } store) : s.Stored fl f store :=
  ⟨h.principal, h.lines, h.twin, h.rows⟩

/-- What a completion does is said of the store, the clips, the banks and the renderer alone. -/
theorem State.Completed.of_ingress {i : Ingress} {fl : Flaws} {f : FrameInProgress} {s : State} {store : Store}
    {clips : Clips} (h : State.Completed fl f { s with ingress := i } store clips) : s.Completed fl f store clips where
  joined part hp := ⟨(h.joined part hp).1.of_ingress, (h.joined part hp).2⟩
  unjoined := h.unjoined
  released := h.released
  entered hp h0 h1 := ⟨(h.entered hp h0 h1).1.of_ingress, (h.entered hp h0 h1).2⟩
  replaced hp h0 h1 o ho a b c d :=
    ⟨(h.replaced hp h0 h1 o ho a b c d).1.of_ingress, (h.replaced hp h0 h1 o ho a b c d).2⟩

theorem State.HoldsPair.of_ingress {f : FrameInProgress} {s : State} (h : s.HoldsPair f) (i : Ingress) :
    State.HoldsPair f { s with ingress := i } := ⟨h.twin, h.distinct, h.rendered⟩

/-! ### Closing whatever frame is open (R16) -/

theorem State.closeAny_none {s : State} (tr : Bool) (h : s.ingress.frame.noneOpen = true) : s.closeAny tr = s := by
  unfold State.closeAny
  cases hf : s.ingress.frame with
  | inFrame f => rw [hf] at h; cases h
  | noFrame => rfl
  | skipping => rfl

theorem State.closeAny_open {s : State} {f : FrameInProgress} (tr : Bool) (h : s.ingress.frame = .inFrame f) :
    s.closeAny tr = s.closeFrame tr none f := by unfold State.closeAny; rw [h]

theorem State.closeAny_closed {s : State} {f : FrameInProgress} (tr : Bool) (h : s.ingress.frame = .inFrame f) :
    s.Closed (s.closeAny tr) := by rw [State.closeAny_open tr h]; exact State.closeFrame_closed _ _ _ _

/-- Closing whatever frame is open: nothing, or the close of the open frame. -/
theorem State.closeAny_cases (tr : Bool) (s : State) : (s.ingress.frame.noneOpen = true ∧ s.closeAny tr = s) ∨
    ∃ f, s.ingress.frame = .inFrame f ∧ s.Closed (s.closeAny tr) := by
  cases hf : s.ingress.frame with
  | inFrame f => exact .inr ⟨f, rfl, State.closeAny_closed tr hf⟩
  | noFrame => exact .inl ⟨rfl, State.closeAny_none tr (by rw [hf]; rfl)⟩
  | skipping => exact .inl ⟨rfl, State.closeAny_none tr (by rw [hf]; rfl)⟩

/-- A close without a lines-sent value completes the frame with the check count it has (R16). -/
theorem State.closeAny_completed {s : State} {f : FrameInProgress} (tr : Bool) (h : s.ingress.frame = .inFrame f)
    (hp : s.HoldsPair f) :
    s.Completed (f.closingFlaws tr f.check) f (s.closeAny tr).store (s.closeAny tr).clips ∧
      (f.closingFlaws tr f.check ≠ ⟨false, 0, 0, 0⟩ → (s.closeAny tr).isSet .flawedFrame) ∧
      (f.closingFlaws tr f.check = ⟨false, 0, 0, 0⟩ →
        (s.closeAny tr).flags = s.flags ∧ (s.closeAny tr).dir = s.dir) := by
  rw [State.closeAny_open tr h]
  exact State.closeFrame_completed hp (by simp)

/-- A frame closed as truncated has a flaw (R16). -/
theorem FrameInProgress.closingFlaws_truncated (check : Nat) (f : FrameInProgress) :
    f.closingFlaws true check ≠ ⟨false, 0, 0, 0⟩ := by simp [FrameInProgress.closingFlaws]

/-- No clip opens or closes at a close: the clips' numbers, states and joined counts stand. -/
theorem State.Closed.clipStates {s t : State} (h : s.Closed t) :
    t.clips.records.map (fun r => (r.number, r.state, r.joined)) =
      s.clips.records.map (fun r => (r.number, r.state, r.joined)) := by
  have := congrArg (List.map fun r : ClipRecord => (r.number, r.state, r.joined)) h.records
  simpa only [List.map_map, Function.comp_def] using this

theorem State.Closed.recordState {s t : State} (h : s.Closed t) : t.clips.recordState = s.clips.recordState := by
  rw [h.clips]

theorem State.Closed.actions {s t : State} (h : s.Closed t) : t.clips.actions = s.clips.actions := by rw [h.clips]

/-! ### Where a completed frame's records stand -/

theorem Store.release_state (i j : RecNo) (s : Store) :
    ((s.release i).frame j).state = .free ∨ ((s.release i).frame j).state = (s.frame j).state := by
  rw [Store.release_frame]
  split
  · exact .inl rfl
  · exact .inr (FrameRecord.dropTwin_state _ _)

theorem Store.releasePair_state (i j : RecNo) (s : Store) :
    ((s.releasePair i).frame j).state = .free ∨ ((s.releasePair i).frame j).state = (s.frame j).state := by
  unfold Store.releasePair
  split
  · rename_i t _
    rcases Store.release_state t j (s.release i) with h | h
    · exact .inl h
    · rcases Store.release_state i j s with k | k
      · exact .inl (h.trans k)
      · exact .inr (h.trans k)
  · exact Store.release_state i j s

/-- A full ring gives up its oldest pair as a frame enters it (R63). -/
theorem State.placeInRing_full {s : State} {o : RecNo} (i : RecNo) (h0 : s.banks.act.preRollDepth ≠ 0)
    (h1 : s.banks.act.preRollDepth ≤ s.clips.ring.length) (ho : s.clips.ring.head? = some o) :
    (s.placeInRing i).store = s.store.releasePair o := by
  unfold State.placeInRing State.releaseOldest
  simp only [h0, if_false, Nat.not_lt.mpr h1]
  cases hr : s.clips.ring with
  | nil => simp [hr] at ho
  | cons o' ring => simp only [hr, List.head?_cons, Option.some.injEq] at ho; subst ho; rfl

/-- Placing a frame frees records, or leaves their states (R56, R70). -/
theorem State.placeFrame_state (i j : RecNo) (s : State) :
    ((s.placeFrame i).store.frame j).state = .free ∨
      ((s.placeFrame i).store.frame j).state = (s.store.frame j).state := by
  unfold State.placeFrame
  cases hp : (s.store.frame i).part with
  | some part =>
    right
    simp only [State.countFlawed, hp, Store.appendPair_cases]
    rfl
  | none =>
    show ((s.placeInRing i).store.frame j).state = _ ∨ _
    unfold State.placeInRing State.releaseOldest
    dsimp only
    split_ifs
    · exact Store.releasePair_state _ _ _
    · exact .inr rfl
    · cases s.clips.ring with
      | nil => exact .inr rfl
      | cons o ring => exact Store.releasePair_state _ _ _

/-- The store a completion leaves is the one placing the frame leaves (R15). -/
theorem State.completeFrame_store (tr : Bool) (f : FrameInProgress) (s : State) :
    (s.completeFrame tr f).store = (State.placeFrame f.principal { s with
      store := s.store.complete f (f.flaws tr), render := { s.render with setup := none } }).store := by
  unfold State.completeFrame
  dsimp only
  split <;> simp

/-- A closed frame's principal is no longer FILLING, whatever its twin (R51). -/
theorem State.closeFrame_notFilling (tr : Bool) (n : Option Nat) (f : FrameInProgress) (s : State) :
    ((s.closeFrame tr n f).store.frame f.principal).state ≠ .filling := by
  obtain ⟨g, u, -, gp, -, -, he⟩ := s.closeFrame_shape (tr := tr) (n := n) (f := f) rfl
  rw [he, State.setFrame_store, State.completeFrame_store, gp]
  have hs : ((u.store.complete g (g.flaws tr)).frame f.principal).state = .stored := by
    rw [Store.complete_frame, gp, if_pos (.inl rfl)]; rfl
  rcases State.placeFrame_state f.principal f.principal { u with
    store := u.store.complete g (g.flaws tr), render := { u.render with setup := none } } with h | h
  · rw [h]; exact nofun
  · rw [h, hs]; exact nofun

/-- A frame without a clip part that closes into a full ring frees the ring's oldest record (R63). -/
theorem State.closeFrame_frees_oldest {s : State} {f : FrameInProgress} {o : RecNo} (tr : Bool) (n : Option Nat)
    (hp : (s.store.frame f.principal).part = none) (h0 : s.banks.act.preRollDepth ≠ 0)
    (h1 : s.banks.act.preRollDepth ≤ s.clips.ring.length) (ho : s.clips.ring.head? = some o) :
    ((s.closeFrame tr n f).store.frame o).state = .free := by
  obtain ⟨g, u, hu, gp, -, -, he⟩ := s.closeFrame_shape (tr := tr) (n := n) (f := f) rfl
  have hfill : State.Filled f.principal s u := hu ▸ fillMissing_filled _ _ _
  rw [he, State.setFrame_store, State.completeFrame_store, gp]
  have part : ((u.store.complete g (g.flaws tr)).frame f.principal).part = none := by
    rw [Store.complete_frame, gp, if_pos (.inl rfl), hfill.fields]; exact hp
  unfold State.placeFrame
  rw [part]
  dsimp only
  rw [State.placeInRing_full (o := o) f.principal]
  · exact (Store.releasePair_free o _).1
  · simpa only [hfill.banks] using h0
  · simpa only [hfill.banks, hfill.clips] using h1
  · simpa only [hfill.clips] using ho

/-! ### Loss of symbol lock (R2) -/

/-- Settles O11: an open frame is closed as truncated, with no other effect on a clip. -/
theorem symbolLockLostClosesNoClip : Obligations.SymbolLockLostClosesNoClip := by
  intro s hl
  have hx := exec_symbolLockLost hl
  have hset : s.loseLock.isSet .inputDown := State.setFlag_isSet _ _
  generalize hd : { s.ingress with link := .down } = down
  have he : s.loseLock = ({ ((State.closeAny true { s with ingress := down }).setFrame .noFrame) with
      ingress := { ((State.closeAny true { s with ingress := down }).setFrame .noFrame).ingress with
        lastCapture := none } } : State).setFlag .inputDown := by rw [← hd]; rfl
  generalize hc : State.closeAny true { s with ingress := down } = c at he
  refine ⟨_, hx, ?_⟩
  have hframe : down.frame = s.ingress.frame := by rw [← hd]
  rcases State.closeAny_cases true { s with ingress := down } with ⟨hopen, hsame⟩ | ⟨f, hf', cl⟩
  · rw [hsame] at hc
    subst hc
    refine ⟨by rw [he, ← hd]; simp, hset, ?_⟩
    rw [he]
    refine ⟨by simp, by simp, by simp, by simp, by simp, by simp, by simp, by simp, by simp, by simp, by simp, ?_⟩
    intro f hf
    rw [hframe, hf] at hopen; cases hopen
  · have hf : s.ingress.frame = .inFrame f := hframe.symm.trans hf'
    rw [hc] at cl
    refine ⟨by rw [he]; simp [cl.ingress, ← hd], hset, ?_⟩
    rw [he]
    refine ⟨?_, ?_, ?_, ?_, ?_, ?_, ?_, ?_, ?_, ?_, by rw [hf]; exact nofun, ?_⟩
    · simp [cl.recordState]
    · simpa using cl.clipStates
    · simp [cl.pLink]
    · simp [cl.xLink]
    · simp [cl.time]
    · simp [cl.banks]
    · simp [cl.queue]
    · simp [cl.pace]
    · simp [cl.lastProxy]
    · simp [cl.pending]
    · intro g hg hpair
      rw [hf] at hg; cases hg
      obtain ⟨done, flawed, -⟩ := State.closeAny_completed true (s := { s with ingress := down }) hf' (hpair.of_ingress down)
      rw [hc] at done flawed
      refine ⟨by simpa using done.of_ingress, ?_, by simp [cl.render]⟩
      exact State.setFlag_mono _ _ (flawed (f.closingFlaws_truncated _))

/-! ### A corrupt FRAME OPEN (R10) -/

/-- Settles O16: an implicit close, then SKIPPING. -/
theorem corruptFrameOpenSkips : Obligations.CorruptFrameOpenSkips := by
  intro rest o d s hl hr hv
  refine ⟨_, exec_frameOpen_corrupt o d hl hr hv, ?_⟩
  unfold State.corruptOpen
  cases hf : s.ingress.frame with
  | inFrame f =>
    have cl := State.closeAny_closed false hf
    refine ⟨by simp [cl.ingress], nofun, ?_, ?_, cl.recordState, cl.actions, cl.time, cl.banks, cl.queue,
      cl.pLink, cl.xLink, cl.pace, cl.lastProxy, cl.pending⟩
    · intro g hg
      cases hg
      refine ⟨by simp [cl.render], ?_⟩
      rw [State.setFrame_store, State.closeAny_open false hf]
      exact State.closeFrame_notFilling _ _ _ _
    · intro g hg hpair
      cases hg
      exact State.closeAny_completed false hf hpair
  | noFrame =>
    rw [State.closeAny_none false (by rw [hf]; rfl)]
    exact ⟨rfl, fun _ => rfl, nofun, nofun, rfl, rfl, rfl, rfl, rfl, rfl, rfl, rfl, rfl, rfl⟩
  | skipping =>
    rw [State.closeAny_none false (by rw [hf]; rfl)]
    exact ⟨rfl, fun _ => rfl, nofun, nofun, rfl, rfl, rfl, rfl, rfl, rfl, rfl, rfl, rfl, rfl⟩

/-! ### A good FRAME CLOSE (R14, R15) -/

/-- The check count at a FRAME CLOSE, as the close counts it: one more when the lines-sent value differs (R14). -/
theorem linesSent_check {f : FrameInProgress} {n check : Nat}
    (h : check = if n = f.linesReceived then f.check else min 65535 (f.check + 1)) :
    check = if (some n).any (· != f.linesReceived) then min 65535 (f.check + 1) else f.check := by
  rw [h]
  by_cases e : n = f.linesReceived <;> simp [e]

/-- Settles O14: the completion of a frame with a clip part, its flaw set written out. -/
theorem frameCloseQueuesAJoinedFrame : Obligations.FrameCloseQueuesAJoinedFrame := by
  intro rest f part check missing flawed s hl hf hv hn hpart htwin hdist hrend hlast hcheck hmissing hflawed
  have pair : s.HoldsPair f := ⟨htwin, hdist, hrend⟩
  refine ⟨_, exec_frameClose_open hl hf hv hn, ?_⟩
  have cl := State.closeFrame_closed false (some (rest.getD 0 0).toNat) f s
  obtain ⟨done, set, unset⟩ := State.closeFrame_completed (tr := false) pair (linesSent_check hcheck)
  have fl : f.closingFlaws false check = ⟨false, check, missing, f.excess⟩ := by rw [hmissing]; rfl
  have clean : (if (⟨false, check, missing, f.excess⟩ : Flaws).clean then 0 else 1) = flawed := by
    simp only [hflawed, Flaws.clean_iff, Flaws.mk.injEq, true_and]
  rw [fl] at done set unset
  generalize s.closeFrame false (some (rest.getD 0 0).toNat) f = t at cl done set unset
  obtain ⟨stored, pq, xq, pFlawed, xFlawed, free, clips⟩ := done.joined part hpart
  refine ⟨cl.ingress, cl.render, ?_, fun q hq => ?_, pq, xq, ?_, ?_, free, ?_, fun h => set ?_, fun h => unset ?_,
    cl.time, cl.banks, cl.queue, cl.pLink, cl.xLink, cl.pace, cl.lastProxy, cl.pending⟩
  · rw [stored.principal, stored.lines hlast]; rfl
  · rw [stored.twin q hq]; exact ⟨rfl, rfl, stored.rows q hq⟩
  · rw [pFlawed, clean]
  · rw [xFlawed, ← clean]
    cases f.twin <;> cases (⟨false, check, missing, f.excess⟩ : Flaws).clean <;> rfl
  · rw [clips, clean]
  · rintro e
    rw [e] at clean; rw [← clean] at h; exact absurd h (by decide)
  · rw [← Flaws.clean_iff]
    by_contra hc
    rw [if_neg hc, h] at clean; exact absurd clean (by decide)

/-- Settles O15: the completion of a frame without a clip part, by the ring's three cases. -/
theorem frameCloseEntersTheRing : Obligations.FrameCloseEntersTheRing := by
  intro rest f check flaws s hl hf hv hn hpart htwin hdist hrend hcheck hflaws
  have pair : s.HoldsPair f := ⟨htwin, hdist, hrend⟩
  refine ⟨_, exec_frameClose_open hl hf hv hn, ?_⟩
  have cl := State.closeFrame_closed false (some (rest.getD 0 0).toNat) f s
  obtain ⟨done, set, unset⟩ := State.closeFrame_completed (tr := false) pair (linesSent_check hcheck)
  rw [← hflaws] at done set unset
  have oldest := fun o => State.closeFrame_frees_oldest (o := o) false (some (rest.getD 0 0).toNat) hpart
  generalize s.closeFrame false (some (rest.getD 0 0).toNat) f = t at cl done set unset oldest
  obtain ⟨pq, xq, -, -, clips⟩ := done.unjoined hpart
  refine ⟨cl.ingress, done, set, unset, cl.render, pq, xq, clips, fun h0 => ?_, fun h0 h1 => ?_, fun h0 h1 o ho => ?_,
    cl.time, cl.banks, cl.queue, cl.pLink, cl.xLink, cl.pace, cl.lastProxy, cl.pending⟩
  · obtain ⟨freed, -, pages⟩ := done.released hpart h0
    refine ⟨freed, ?_⟩
    rw [pages, Store.pairPages, htwin, Nat.add_assoc]
  · obtain ⟨stored, pages⟩ := done.entered hpart h0 h1
    exact ⟨by rw [stored.principal], pages⟩
  · exact oldest o h0 h1 ho

end Sys2Proof.Machine
end

section
/-! PROOFS. A taken FRAME OPEN (R6 to R9): its steps in order, and what each way of ending it leaves. -/

namespace Sys2Proof.Machine

open Sys2Proof

/-! ### Steps 2 to 4 of R6: the link, the boundary, the capture index and the stamp -/

/-- With the link up, steps 2 and 3 of R6 make it STREAMING with a picture-loss count of 0. -/
theorem Ingress.opened_eq {i : Ingress} (h : i.link ≠ .down) :
    i.opened = { i with link := .streaming, lossCount := 0 } := by
  unfold Ingress.opened
  cases hl : i.link with
  | down => exact absurd hl h
  | idle => rfl
  | streaming => rfl

/-- A boundary with nothing queued and nothing pending changes nothing (R76, R149). -/
theorem State.boundary_empty {s : State} (o : BoundaryOrder) (hq : s.dir.queue = []) (ha : s.clips.actions = []) :
    s.boundary o = s := by
  cases o <;> simp [State.boundary, hq, ha, State.takeActions, State.takeQueue]

theorem State.checkCapture_same (c : BitVec 32) (s : State) :
    ({ s with ingress := { s.ingress with lastCapture := some c } } : State).SameBlocks (s.checkCapture c) := by
  unfold State.checkCapture
  cases s.ingress.lastCapture with
  | none => exact .refl _
  | some last =>
    dsimp only
    split
    · constructor <;> simp
    · exact .refl _

/-- A capture index in sequence, or the first, sets no flag (R7). -/
theorem State.checkCapture_inSequence {c : BitVec 32} {s : State}
    (h : ∀ last, s.ingress.lastCapture = some last → c = last + 1) :
    s.checkCapture c = { s with ingress := { s.ingress with lastCapture := some c } } := by
  unfold State.checkCapture
  cases hl : s.ingress.lastCapture with
  | none => rfl
  | some last => simp only [h last hl, ne_eq, not_true_eq_false, if_false]

/-- A capture index out of sequence sets CAPTURE SKIP (R7). -/
theorem State.checkCapture_skips {c last : BitVec 32} {s : State} (hl : s.ingress.lastCapture = some last)
    (h : c ≠ last + 1) : (s.checkCapture c).isSet .captureSkip := by
  unfold State.checkCapture
  simp only [hl, h, ne_eq, not_false_eq_true, if_true]
  exact State.setFlag_isSet _ s

/-- The state in which a FRAME OPEN is announced to the Store Manager: the capture index checked, the stamp latched
(R6, R7, R31, R32). -/
def State.stamped (c : BitVec 32) (s : State) : State :=
  { s.checkCapture c with time := (s.checkCapture c).time.afterStamp }

theorem State.stamped_same (c : BitVec 32) (s : State) :
    ({ s with ingress := { s.ingress with lastCapture := some c }, time := s.time.afterStamp } : State).SameBlocks
      (s.stamped c) := by
  obtain ⟨h1, h2, h3, h4, h5, h6, h7, h8, h9, h10, h11, h12, h13⟩ := State.checkCapture_same c s
  exact ⟨h1, congrArg TimeBase.afterStamp h2, h3, h4, h5, h6, h7, h8, h9, h10, h11, h12, h13⟩

theorem State.stamped_inSequence {c : BitVec 32} {s : State}
    (h : ∀ last, s.ingress.lastCapture = some last → c = last + 1) :
    s.stamped c = { s with ingress := { s.ingress with lastCapture := some c }, time := s.time.afterStamp } := by
  rw [State.stamped, State.checkCapture_inSequence h]

/-- What a taken FRAME OPEN does once its boundary is taken (R6). -/
def State.announced (c : BitVec 32) (w h : Nat) (during : List (List LinkEvent)) (s : State) : State :=
  (s.stamped c).announce c w h s.time.stamp during

/-- The steps of R6 in order: the open frame closes, the link streams, the boundary is taken, and the rest follows. -/
theorem State.openFrame_eq (c : BitVec 32) (w h : Nat) (o : BoundaryOrder) (d : List (List LinkEvent)) (s : State) :
    s.openFrame c w h o d =
      (State.boundary o { s.closeAny false with ingress := (s.closeAny false).ingress.opened }).announced c w h d := by
  have stamp : ∀ x : State, (x.checkCapture c).time.stamp = x.time.stamp := fun x =>
    congrArg TimeBase.stamp (State.checkCapture_same c x).time
  unfold State.openFrame State.announced
  dsimp only
  rw [stamp]
  rfl

/-- With no frame open and nothing waiting for its boundary, a FRAME OPEN goes straight to its announcement. -/
theorem State.openFrame_quiet {s : State} (c : BitVec 32) (w h : Nat) (o : BoundaryOrder) (d : List (List LinkEvent))
    (hl : s.ingress.link ≠ .down) (hf : s.ingress.frame.noneOpen = true) (hq : s.dir.queue = [])
    (ha : s.clips.actions = []) :
    s.openFrame c w h o d =
      State.announced c w h d { s with ingress := { s.ingress with link := .streaming, lossCount := 0 } } := by
  rw [State.openFrame_eq, State.closeAny_none false hf, Ingress.opened_eq hl]
  rw [State.boundary_empty (s := { s with ingress := { s.ingress with link := .streaming, lossCount := 0 } }) o hq ha]

/-- The subframe index of the next stamp (R31). -/
theorem TimeBase.nextSub_eq (t : TimeBase) :
    t.nextSub = match t.lastSub with
      | none => 0
      | some i => min 15 (i + 1) := by unfold TimeBase.nextSub; cases t.lastSub <;> rfl

/-- The stamp of a FRAME OPEN, written out (R30). -/
theorem TimeBase.stamp_eq (t : TimeBase) : t.stamp = ⟨t.tod, t.phase, match t.lastSub with
    | none => 0
    | some i => min 15 (i + 1)⟩ := by rw [← TimeBase.nextSub_eq]; rfl

/-- What a stamp leaves, written out (R31, R32). -/
theorem TimeBase.afterStamp_eq (t : TimeBase) : t.afterStamp = { t with
    lastSub := some (match t.lastSub with
      | none => 0
      | some i => min 15 (i + 1))
    lastInterval := t.interval, interval := 0 } := by rw [← TimeBase.nextSub_eq]; rfl

/-- The part as a FRAME OPEN that finds no frame open and nothing waiting is announced to the Store Manager, but for the
flag of its capture index: the link STREAMING, the index checked, the stamp latched (R6, R7, R31, R32). -/
def State.opening (index : BitVec 32) (s : State) : State :=
  { s with
    ingress := { link := .streaming, frame := s.ingress.frame, lossCount := 0, lastCapture := some index }
    time := s.time.afterStamp }

/-- A taken FRAME OPEN that finds no frame open and nothing waiting: what it announces, and to which state. -/
theorem exec_frameOpen_quiet {rest : List Word} {s : State} (o : BoundaryOrder) (d : List (List LinkEvent))
    (hl : s.ingress.link ≠ .down) (hv : goodVerdict (Kind.frameOpen.code :: rest) = true) (hn : rest.length = 5)
    (hf : s.ingress.frame.noneOpen = true) (hq : s.dir.queue = []) (ha : s.clips.actions = []) :
    ∃ v : State, exec (.frameOpen rest o d) s = .next
        (v.announce (openCapture rest) (openWidth rest) (openHeight rest) s.time.stamp d) ∧
      (s.opening (openCapture rest)).SameBlocks v ∧
      (∀ last, s.ingress.lastCapture = some last → openCapture rest ≠ last + 1 → v.isSet .captureSkip) ∧
      (s.InSequence rest → v = s.opening (openCapture rest)) := by
  refine ⟨State.stamped (openCapture rest)
    { s with ingress := { s.ingress with link := .streaming, lossCount := 0 } }, ?_,
    State.stamped_same (openCapture rest)
      { s with ingress := { s.ingress with link := .streaming, lossCount := 0 } },
      fun last h1 h2 => State.checkCapture_skips h1 h2, fun h => State.stamped_inSequence h⟩
  rw [exec_frameOpen_taken o d hl hv hn, State.openFrame_quiet _ _ _ _ _ hl hf hq ha]
  rfl

/-! ### How an announcement ends -/

/-- What an announcement leaves of the Ingress Port, of the lists a boundary empties, and of the time base and banks:
a new frame is open or the port skips (R8, R9). -/
structure State.Announced (w h : Nat) (s t : State) : Prop where
  frame   : t.ingress.frame = .skipping ∨ ∃ p twin, t.ingress.frame = .inFrame (newFrame p twin w h)
  link    : t.ingress.link = s.ingress.link
  loss    : t.ingress.lossCount = s.ingress.lossCount ∨ t.ingress.lossCount = 0
  capture : t.ingress.lastCapture = s.ingress.lastCapture
  queue   : t.dir.queue = s.dir.queue
  actions : t.clips.actions = s.clips.actions
  steady  : s.Steady t

/-- Setting the frame-in-progress state last. -/
theorem State.Announced.setFrame {w h : Nat} {s u : State} {fr : FrameState} (k : s.Took u) (st : s.Steady u)
    (hfr : fr = .skipping ∨ ∃ p twin, fr = .inFrame (newFrame p twin w h)) : s.Announced w h (u.setFrame fr) :=
  ⟨hfr, k.link, k.loss, k.capture, k.queue, k.actions, ⟨st.time, st.banks⟩⟩

/-- The announcement of a frame of the active bank's size under a valid bank is its admission (R9). -/
theorem State.announce_fits {c : BitVec 32} {w h : Nat} {st : Stamp} {d : List (List LinkEvent)} {s : State}
    (hv : s.banks.act.valid = true) (hw : w = s.banks.act.wi) (hh : h = s.banks.act.hi) :
    s.announce c w h st d = (s.admitFrame c st d).1.setFrame
      (match (s.admitFrame c st d).2 with
        | some (p, twin) => .inFrame (newFrame p twin w h)
        | none => .skipping) := by
  unfold State.announce
  simp only [hv, Bool.not_true, Bool.false_eq_true, if_false, hw, hh, ne_eq, not_true_eq_false, or_self]
  rcases s.admitFrame c st d with ⟨a, _ | ⟨p, twin⟩⟩ <;> rfl

/-- The announcement under a bank that is not valid (R8). -/
theorem State.announce_invalid {c : BitVec 32} {w h : Nat} {st : Stamp} {d : List (List LinkEvent)} {s : State}
    (hv : s.banks.act.valid = false) : s.announce c w h st d = s.setFrame .skipping := by
  simp [State.announce, hv]

/-- The announcement of a frame of the wrong size under a valid bank (R8). -/
theorem State.announce_mismatch {c : BitVec 32} {w h : Nat} {st : Stamp} {d : List (List LinkEvent)} {s : State}
    (hv : s.banks.act.valid = true) (hne : ¬ (w = s.banks.act.wi ∧ h = s.banks.act.hi)) :
    s.announce c w h st d = ((s.setFrame .skipping).setFlag .geometryMismatch).cut .geometry := by
  have : w ≠ s.banks.act.wi ∨ h ≠ s.banks.act.hi := by
    by_contra hc
    exact hne ⟨not_not.mp fun e => hc (.inl e), not_not.mp fun e => hc (.inr e)⟩
  simp only [State.announce, hv, Bool.not_true, Bool.false_eq_true, if_false, if_pos this]

/-- The announcement of a frame in STANDBY (R45). -/
theorem State.announce_standby {c : BitVec 32} {w h : Nat} {st : Stamp} {d : List (List LinkEvent)} {s : State}
    (hv : s.banks.act.valid = true) (hw : w = s.banks.act.wi) (hh : h = s.banks.act.hi)
    (hs : s.clips.recordState = .standby) : s.announce c w h st d = s.setFrame .skipping := by
  have : s.admitFrame c st d = (s, none) := by rw [State.admitFrame, if_pos hs]
  rw [State.announce_fits hv hw hh, this]

theorem State.announce_announced (c : BitVec 32) (w h : Nat) (st : Stamp) (d : List (List LinkEvent)) (s : State) :
    s.Announced w h (s.announce c w h st d) := by
  cases hv : s.banks.act.valid with
  | false => rw [State.announce_invalid hv]; exact .setFrame (.refl s) (.refl s) (.inl rfl)
  | true =>
    by_cases hwh : w = s.banks.act.wi ∧ h = s.banks.act.hi
    · rw [State.announce_fits hv hwh.1 hwh.2]
      refine .setFrame (State.admitFrame_took c st d s) (State.admitFrame_steady c st d s) ?_
      rcases (s.admitFrame c st d).2 with _ | ⟨p, twin⟩
      · exact .inl rfl
      · exact .inr ⟨p, twin, rfl⟩
    · rw [State.announce_mismatch hv hwh]
      have k := (State.setFlag_took .geometryMismatch (s.setFrame .skipping)).trans (State.cut_took .geometry _)
      have st := (State.setFlag_steady .geometryMismatch (s.setFrame .skipping)).trans (State.cut_steady .geometry _)
      exact ⟨.inl k.frame, k.link, k.loss, k.capture, k.queue, k.actions, ⟨st.time, st.banks⟩⟩

/-- The Time Base Unit after a taken FRAME OPEN: stamped, and the RR count where a join moved it (R25, R31, R32). -/
theorem State.announced_time (c : BitVec 32) (w h : Nat) (d : List (List LinkEvent)) (s : State) :
    (s.announced c w h d).time = { s.time with
      rr := (s.announced c w h d).time.rr
      lastSub := some (match s.time.lastSub with
        | none => 0
        | some i => min 15 (i + 1))
      lastInterval := s.time.interval, interval := 0 } := by
  have h := (State.announce_announced c w h s.time.stamp d (s.stamped c)).steady.time
  rw [(State.stamped_same c s).time] at h
  refine h.trans ?_
  rw [← TimeBase.nextSub_eq]
  rfl

/-- The implicit close of a FRAME OPEN leaves no frame open (R16). -/
theorem State.closeAny_noneOpen (tr : Bool) (s : State) : (s.closeAny tr).ingress.frame.noneOpen = true := by
  rcases State.closeAny_cases tr s with ⟨h, e⟩ | ⟨f, -, cl⟩
  · rw [e]; exact h
  · rw [cl.ingress]; rfl

theorem State.closeAny_link (tr : Bool) (s : State) : (s.closeAny tr).ingress.link = s.ingress.link := by
  rcases State.closeAny_cases tr s with ⟨-, e⟩ | ⟨f, -, cl⟩
  · rw [e]
  · rw [cl.ingress]

/-- Settles O17: the boundary is crossed on the state the implicit close leaves, and the announcement acts on what the
boundary leaves, as it would for a FRAME OPEN that arrives there. -/
theorem takenFrameOpenRunsEveryStep : Obligations.TakenFrameOpenRunsEveryStep := by
  intro rest o d s hl hv hn
  have hx := exec_frameOpen_taken o d hl hv hn
  have hlink : (s.closeAny false).ingress.link ≠ .down := by rw [State.closeAny_link]; exact hl
  have hu : ({ s.closeAny false with ingress := (s.closeAny false).ingress.opened } : State) =
      { s.closeAny false with
        ingress := { (s.closeAny false).ingress with link := .streaming, lossCount := 0 } } := by
    rw [Ingress.opened_eq hlink]
  rw [State.openFrame_eq, hu] at hx
  obtain ⟨wq, wa, cross⟩ := State.boundary_crossed o { s.closeAny false with
    ingress := { (s.closeAny false).ingress with link := .streaming, lossCount := 0 } }
  generalize hw : State.boundary o { s.closeAny false with
    ingress := { (s.closeAny false).ingress with link := .streaming, lossCount := 0 } } = w at hx wq wa cross
  have wlink : w.ingress.link = .streaming := cross.link
  have wloss : w.ingress.lossCount = 0 := by rcases cross.loss with h | h <;> exact h
  have wnone : w.ingress.frame.noneOpen = true := by
    rcases cross.frame with h | h
    · rw [h]; exact State.closeAny_noneOpen false s
    · rw [h]; rfl
  have wdown : w.ingress.link ≠ .down := by rw [wlink]; exact nofun
  have ann := State.announce_announced (openCapture rest) (openWidth rest) (openHeight rest) w.time.stamp d
    (w.stamped (openCapture rest))
  have same := State.stamped_same (openCapture rest) w
  have wself : ({ w with ingress := { w.ingress with link := .streaming, lossCount := 0 } } : State) = w := by
    rw [← wlink, ← wloss]
  have time := State.announced_time (openCapture rest) (openWidth rest) (openHeight rest) d w
  refine ⟨_, hx, ?_, ?_, ?_, ?_, ?_, ?_, ?_, ?_, s.closeAny false, w, State.closeAny_none false, ?_, hw.symm, wnone,
    wlink, wloss, wq, wa, ?_, time⟩
  · exact ann.link.trans ((congrArg Ingress.link same.ingress).trans wlink)
  · rcases ann.loss with h | h
    · exact h.trans ((congrArg Ingress.lossCount same.ingress).trans wloss)
    · exact h
  · exact ann.capture.trans (congrArg Ingress.lastCapture same.ingress)
  · rw [time]
  · rw [time]; rfl
  · exact ann.queue.trans (same.queue.trans wq)
  · exact ann.actions.trans ((congrArg Clips.actions same.clips).trans wa)
  · refine ann.frame.imp id ?_
    rintro ⟨p, twin, h⟩
    exact ⟨_, h, rfl, rfl, rfl, rfl, rfl, rfl, rfl, rfl⟩
  · intro f hf
    have cl := State.closeAny_closed false hf
    refine ⟨cl.ingress, cl.time, cl.banks, cl.queue, cl.actions, cl.recordState, cl.pLink, cl.xLink, fun pair => ?_⟩
    obtain ⟨done, set, -⟩ := State.closeAny_completed false hf pair
    exact ⟨done, set⟩
  · rw [exec_frameOpen_taken o d wdown hv hn, State.openFrame_quiet _ _ _ _ _ wdown wnone wq wa, wself]

end Sys2Proof.Machine
end

section
/-! PROOFS. Closing the open clip (R78, R84), and a FRAME OPEN that is not admitted (R8, R45). -/

namespace Sys2Proof.Machine

open Sys2Proof

/-! ### What settling and closing a clip leave (R78, R84) -/

theorem List.eraseP_congr {α : Type} {p q : α → Bool} {l : List α} (h : ∀ a ∈ l, p a = q a) :
    l.eraseP p = l.eraseP q := by
  induction l with
  | nil => rfl
  | cons a l ih =>
    rw [List.eraseP_cons, List.eraseP_cons, h a List.mem_cons_self, ih fun b hb => h b (List.mem_cons_of_mem _ hb)]

/-- A settling test touches the clips, the flags and the report queue alone. -/
theorem State.testSettle_blocks (n : Nat) (s : State) :
    ({ s with clips := (s.testSettle n).clips } : State).SameBlocks (s.testSettle n) := by
  unfold State.testSettle
  split
  · constructor <;> simp
  · exact .refl s

theorem State.testSettle_mono (n : Nat) (g : Flag) {s : State} (h : s.isSet g) : (s.testSettle n).isSet g := by
  unfold State.testSettle
  split
  · exact State.setFlag_mono _ _ (State.placeReport_mono _ _ h)
  · exact h

/-- A settling test removes a clip record, or leaves them all (R84). -/
theorem State.testSettle_clips (n : Nat) (s : State) :
    (s.testSettle n).clips =
      { s.clips with records := s.clips.records.eraseP fun c => c.number == n && c.settled } := by
  unfold State.testSettle
  split
  · simp
  · rename_i hn
    rw [List.eraseP_of_forall_not]
    simpa using hn

/-- A clip that has not settled is left (R84). -/
theorem State.testSettle_open {n : Nat} {s : State}
    (h : ∀ r ∈ s.clips.records, r.number = n → r.settled = false) : s.testSettle n = s := by
  have hn : s.clips.records.find? (fun c => c.number == n && c.settled) = none := by
    rw [List.find?_eq_none]
    intro r hr
    by_cases e : r.number = n
    · simp [h r hr e]
    · simp [e]
  unfold State.testSettle
  rw [hn]

/-- A clip that settles sets CLIP SETTLED (R84). -/
theorem State.testSettle_settled {n : Nat} {s : State} {r : ClipRecord} (hr : r ∈ s.clips.records)
    (hn : r.number = n) (hs : r.settled = true) : (s.testSettle n).isSet .clipSettled := by
  unfold State.testSettle
  split
  · exact State.setFlag_isSet .clipSettled _
  · rename_i hno
    exact absurd (List.find?_eq_none.mp hno r hr) (by simp [hn, hs])

/-- The clips after the open clip has closed, before its settling test (R78). -/
def Clips.closed (cause : EndCause) (c : Clips) : Clips :=
  ((c.modifyOpen (ClipRecord.close cause)).setSplit false).fallback

theorem State.closeOpen_eq {s : State} {c : ClipRecord} (cause : EndCause) (h : s.clips.openClip = some c) :
    s.closeOpen cause = State.testSettle c.number { s with clips := s.clips.closed cause } := by
  unfold State.closeOpen
  rw [h]
  rfl

/-- Closing the open clip touches the clips, the flags and the report queue alone. -/
theorem State.closeOpen_blocks (cause : EndCause) (s : State) :
    ({ s with clips := (s.closeOpen cause).clips } : State).SameBlocks (s.closeOpen cause) := by
  unfold State.closeOpen
  split
  · exact .refl s
  · exact State.testSettle_blocks _ { s with clips := s.clips.closed cause }

theorem State.cut_blocks (cause : EndCause) (s : State) :
    ({ s with clips := (s.cut cause).clips } : State).SameBlocks (s.cut cause) := by
  unfold State.cut
  split
  · exact State.closeOpen_blocks cause s
  · exact .refl s

theorem State.cut_mono (cause : EndCause) (g : Flag) {s : State} (h : s.isSet g) : (s.cut cause).isSet g := by
  unfold State.cut State.closeOpen
  split
  · split
    · exact h
    · exact State.testSettle_mono _ _ h
  · exact h

theorem State.cut_idle {s : State} (cause : EndCause) (h : s.clips.recordState ≠ .recording) : s.cut cause = s := by
  rw [State.cut, if_neg h]

theorem State.cut_recording {s : State} (cause : EndCause) (h : s.clips.recordState = .recording) :
    s.cut cause = s.closeOpen cause := by rw [State.cut, if_pos h]

/-- A clip is open exactly when one is found. -/
theorem Clips.openClip_of_hasOpen {c : Clips} (h : c.hasOpen = true) : ∃ r, c.openClip = some r := by
  unfold Clips.hasOpen at h
  obtain ⟨r, hr, ho⟩ := List.any_eq_true.mp h
  exact Option.isSome_iff_exists.mp (List.find?_isSome.mpr ⟨r, hr, ho⟩)

/-- After a close no clip is open, and the record state falls back by the cache mark (R60, R78). -/
theorem State.closeOpen_fallsBack {s : State} (cause : EndCause) (h : s.clips.hasOpen = true) :
    (s.closeOpen cause).clips.hasOpen = false ∧
      (s.closeOpen cause).clips.recordState = if s.clips.cacheMark then .caching else .standby := by
  obtain ⟨c, hc⟩ := Clips.openClip_of_hasOpen h
  rw [State.closeOpen_eq cause hc, State.testSettle_clips]
  refine ⟨?_, rfl⟩
  rw [Clips.hasOpen, List.any_eq_false]
  intro r hr
  obtain ⟨o, -, rfl⟩ := List.mem_map.mp (List.mem_of_mem_eraseP hr)
  by_cases ho : o.state = .isOpen
  · rw [if_pos ho]; exact (by decide : ¬ (ClipState.closing == .isOpen) = true)
  · rw [if_neg ho]; simpa using ho

/-- The open clip closes where it alone is open and has its number: its record alone changes (R66, R78). -/
theorem Clips.closed_eq {s : Clips} {c : ClipRecord} (cause : EndCause) (ho : c.state = .isOpen)
    (only : ∀ r ∈ s.records, r.number = c.number ∨ r.state = .isOpen → r = c) :
    s.closed cause = { s with
      records := s.records.map (fun r =>
        if r.number = c.number then { c with state := .closing, cause := some cause } else r)
      splitPending := false, deferralReported := false
      recordState := if s.cacheMark then .caching else .standby } := by
  have hrec : (s.closed cause).records = s.records.map (fun r =>
      if r.number = c.number then { c with state := .closing, cause := some cause } else r) := by
    refine List.map_congr_left fun r hr => ?_
    by_cases hn : r.number = c.number
    · rw [if_pos hn, only r hr (.inl hn), if_pos ho]; rfl
    · rw [if_neg hn, if_neg fun h => hn (by rw [only r hr (.inr h)])]
  rw [← hrec]
  simp [Clips.closed, Clips.fallback, Clips.setSplit, Clips.modifyOpen]

/-- Closing a clip in full: CLOSING with its cause while frames of it have not left, settled and freed when they have all
left (R78, R84). -/
theorem State.closeOpen_settles {s : State} {c : ClipRecord} (cause : EndCause) (hc : s.clips.openClip = some c)
    (only : ∀ r ∈ s.clips.records, r.number = c.number ∨ r.state = .isOpen → r = c) :
    (¬ (c.sent = c.joined ∧ c.proxySent + c.evicted = c.made) →
      (s.closeOpen cause).clips = s.clips.closed cause) ∧
    (c.sent = c.joined → c.proxySent + c.evicted = c.made → (s.closeOpen cause).isSet .clipSettled ∧
      (s.closeOpen cause).clips = { s.clips.closed cause with
        records := (s.clips.closed cause).records.eraseP fun r => r.number == c.number }) := by
  have ho : c.state = .isOpen := by simpa using List.find?_some hc
  have hmem : c ∈ s.clips.records := List.mem_of_find?_eq_some hc
  have records : ∀ r ∈ (s.clips.closed cause).records, r.number = c.number → r = c.close cause := by
    intro r hr hn
    obtain ⟨o, hom, rfl⟩ := List.mem_map.mp hr
    by_cases h : o.state = .isOpen
    · rw [if_pos h, only o hom (.inr h)]
    · rw [if_neg h] at hn
      exact absurd (by rw [only o hom (.inl hn)]; exact ho) h
  have settled : (c.close cause).settled = true ↔ c.sent = c.joined ∧ c.proxySent + c.evicted = c.made := by
    simp [ClipRecord.settled, ClipRecord.close]
  rw [State.closeOpen_eq cause hc]
  refine ⟨fun h => ?_, fun h1 h2 => ⟨?_, ?_⟩⟩
  · rw [State.testSettle_open]
    intro r hr hn
    rw [records r hr hn, Bool.eq_false_iff]
    exact fun k => h (settled.mp k)
  · refine State.testSettle_settled (r := c.close cause) ?_ rfl (settled.mpr ⟨h1, h2⟩)
    exact List.mem_map.mpr ⟨c, hmem, by rw [if_pos ho]⟩
  · rw [State.testSettle_clips, List.eraseP_congr (q := fun r => r.number == c.number) fun r hr => ?_]
    by_cases hn : r.number = c.number
    · rw [records r hr hn, settled.mpr ⟨h1, h2⟩, Bool.and_true]
    · simp [hn]

/-! ### A FRAME OPEN that is not admitted (R8, R45) -/

/-- Settles O18: the announcement under an invalid bank and in STANDBY skips and nothing more; one of the wrong size sets
GEOMETRY MISMATCH and cuts the clip. -/
theorem frameOpenNotAdmitted : Obligations.FrameOpenNotAdmitted := by
  intro rest o d fits s hl hv hn hf hq ha hfits hcase
  obtain ⟨v, hx, same, skip, quiet⟩ := exec_frameOpen_quiet o d hl hv hn hf hq ha
  have time : v.time = { s.time with
      lastSub := some (match s.time.lastSub with
        | none => 0
        | some i => min 15 (i + 1))
      lastInterval := s.time.interval, interval := 0 } := same.time.trans (TimeBase.afterStamp_eq _)
  have vb : v.banks = s.banks := same.banks
  have vc : v.clips = s.clips := same.clips
  refine ⟨_, hx, ?_⟩
  by_cases hbad : s.banks.act.valid = true ∧ fits = false
  · obtain ⟨hvalid, hfit⟩ := hbad
    have hsize : ¬ (openWidth rest = v.banks.act.wi ∧ openHeight rest = v.banks.act.hi) := by
      rw [vb]; rw [hfits] at hfit; exact of_decide_eq_false hfit
    rw [State.announce_mismatch (by rw [vb]; exact hvalid) hsize]
    generalize hw : (v.setFrame .skipping).setFlag .geometryMismatch = w
    have wv : (v.setFrame .skipping).SameBlocks w := hw ▸ State.setFlag_same _ _
    have wc : w.clips = s.clips := wv.clips.trans vc
    have wset : w.isSet .geometryMismatch := hw ▸ State.setFlag_isSet _ _
    have wmono : ∀ g, v.isSet g → w.isSet g := fun g h => hw ▸ State.setFlag_mono _ g h
    have cb := State.cut_blocks .geometry w
    refine ⟨?_, cb.time.trans (wv.time.trans time), fun last h1 h2 => State.cut_mono _ _ (wmono _ (skip last h1 h2)),
      fun _ _ => State.cut_mono _ _ wset, fun _ _ hr ho => ?_, fun c closed _ _ hr hc only hcl => ?_, ?_, ?_,
      cb.store.trans (wv.store.trans same.store), cb.render.trans (wv.render.trans same.render),
      cb.banks.trans (wv.banks.trans same.banks), (cb.queue.trans (wv.queue.trans same.queue)).trans hq,
      cb.pLink.trans (wv.pLink.trans same.pLink), cb.xLink.trans (wv.xLink.trans same.xLink),
      cb.pace.trans (wv.pace.trans same.pace), cb.lastProxy.trans (wv.lastProxy.trans same.lastProxy),
      cb.pending.trans (wv.pending.trans same.pending)⟩
    · rw [cb.ingress]
      show w.ingress = _
      rw [wv.ingress, State.setFrame_ingress, same.ingress]
      rfl
    · rw [State.cut_recording _ (by rw [wc]; exact hr), ← wc]
      exact State.closeOpen_fallsBack _ (by rw [wc]; exact ho)
    · have ho : c.state = .isOpen := by simpa using List.find?_some hc
      rw [State.cut_recording _ (by rw [wc]; exact hr), hcl, ← wc,
        ← Clips.closed_eq .geometry ho (by rw [wc]; exact only)]
      exact State.closeOpen_settles .geometry (by rw [wc]; exact hc) (by rw [wc]; exact only)
    · rintro (h | h | h)
      · rw [hvalid] at h; cases h
      · rw [hfit] at h; cases h
      · rw [State.cut_idle _ (by rw [wc]; exact h)]; exact wc
    · rintro (h | h)
      · rw [hvalid] at h; cases h
      · rw [hfit] at h; cases h
  · have hskip : v.announce (openCapture rest) (openWidth rest) (openHeight rest) s.time.stamp d =
        v.setFrame .skipping := by
      cases hvalid : s.banks.act.valid with
      | false => exact State.announce_invalid (by rw [vb]; exact hvalid)
      | true =>
        have hfit : fits = true := by
          cases fits with
          | false => exact absurd ⟨hvalid, rfl⟩ hbad
          | true => rfl
        have hsize := of_decide_eq_true (hfits ▸ hfit)
        have hstandby : s.clips.recordState = .standby := by
          rcases hcase with h | h | h
          · rw [hvalid] at h; cases h
          · rw [hfit] at h; cases h
          · exact h
        exact State.announce_standby (by rw [vb]; exact hvalid) (by rw [vb]; exact hsize.1) (by rw [vb]; exact hsize.2)
          (by rw [vc]; exact hstandby)
    rw [hskip]
    refine ⟨?_, time, fun last h1 h2 => skip last h1 h2, fun h1 h2 => absurd ⟨h1, h2⟩ hbad,
      fun h1 h2 => absurd ⟨h1, h2⟩ hbad, fun _ _ h1 h2 => absurd ⟨h1, h2⟩ hbad, fun _ => vc, fun _ h => ?_,
      same.store, same.render, same.banks, same.queue.trans hq, same.pLink, same.xLink, same.pace, same.lastProxy,
      same.pending⟩
    · rw [State.setFrame_ingress, same.ingress]; rfl
    · rw [quiet h]; exact ⟨rfl, rfl⟩

end Sys2Proof.Machine
end

section
/-! PROOFS. Admission while CACHING (R45, R46, R49, R50): room, the ring's releases, and the two reservations. -/

namespace Sys2Proof.Machine

open Sys2Proof

/-! ### Room in the store (R45, R49) -/

theorem FrameRecord.isFree_iff {r : FrameRecord} : r.isFree = true ↔ r.state = .free := by simp [FrameRecord.isFree]

theorem Store.lowestFree_none {s : Store} : s.lowestFree = none ↔ ∀ j, (s.frame j).state ≠ .free := by
  simp [Store.lowestFree, List.find?_eq_none, FrameRecord.isFree]

/-- The lowest-numbered FREE record is the one found (R49). -/
theorem Store.lowestFree_eq {s : Store} {p : RecNo} (hp : (s.frame p).state = .free)
    (low : ∀ j, j < p → (s.frame j).state ≠ .free) : s.lowestFree = some p := by
  cases h : s.lowestFree with
  | none => exact absurd hp (Store.lowestFree_none.mp h p)
  | some q =>
    obtain ⟨hq, hlow⟩ := Store.lowestFree_some h
    rcases lt_trichotomy p q with hlt | he | hlt
    · exact absurd (FrameRecord.isFree_iff.mpr hp) (by simp [hlow p hlt])
    · rw [he]
    · exact absurd (FrameRecord.isFree_iff.mp hq) (low q hlt)

theorem State.short_iff {s : State} : s.store.short s.banks.pagesP = true ↔ s.Short := by
  simp [Store.short, State.Short, Store.lowestFree_none]

/-- With room for the principal no measure is taken (R45). -/
theorem measureWhileShort_room {m : State → Option State} {s : State} (n : Nat) (d : List (List LinkEvent))
    (h : s.store.short s.banks.pagesP = false) : measureWhileShort m n d s = (s, d) := by
  cases n with
  | zero => rfl
  | succ n => simp [measureWhileShort, h]

/-- No link request taken (R45). -/
theorem State.takeDuring_nil (s : State) : s.takeDuring [] = (s, []) := rfl

/-- With room and no link request taken, an admission begins on the state as it stands (R45). -/
theorem State.measures_room {s : State} (h : s.store.short s.banks.pagesP = false) : s.measures [] = (s, []) := by
  show measureWhileShort State.evictMeasure
      (measureWhileShort State.ringMeasure s.clips.ring.length [] s).1.store.xq.length
      (measureWhileShort State.ringMeasure s.clips.ring.length [] s).2
      (measureWhileShort State.ringMeasure s.clips.ring.length [] s).1 = _
  rw [measureWhileShort_room _ _ h]
  exact measureWhileShort_room _ _ h

/-- While the principal is short, one measure releases the oldest pair of the ring, and the rest follow on what that
leaves (R46). -/
theorem State.measures_release {s : State} {oldest : RecNo} {ring : List RecNo}
    (hc : s.clips.recordState = .caching) (hs : s.store.short s.banks.pagesP = true)
    (hr : s.clips.ring = oldest :: ring) : s.measures [] = s.releaseOldest.measures [] := by
  have hm : s.ringMeasure = some s.releaseOldest := by simp [State.ringMeasure, hc, hr]
  have hring : s.releaseOldest.clips.ring = ring := by rw [State.releaseOldest, hr]
  have step : measureWhileShort State.ringMeasure s.clips.ring.length [] s =
      measureWhileShort State.ringMeasure s.releaseOldest.clips.ring.length [] s.releaseOldest := by
    rw [hring, hr, List.length_cons, measureWhileShort, if_pos hs, hm]
    rfl
  unfold State.measures
  simp only [State.takeDuring, List.headD_nil, List.foldl_nil, List.tail_nil, step]

/-- The admission of a short principal goes on as on the state with the oldest pair released (R46). -/
theorem State.admitFrame_release {s : State} {oldest : RecNo} {ring : List RecNo} (c : BitVec 32) (st : Stamp)
    (hc : s.clips.recordState = .caching) (hs : s.store.short s.banks.pagesP = true)
    (hr : s.clips.ring = oldest :: ring) : s.admitFrame c st [] = s.releaseOldest.admitFrame c st [] := by
  have hc' : s.releaseOldest.clips.recordState = .caching := by rw [State.releaseOldest, hr]; exact hc
  unfold State.admitFrame
  rw [State.measures_release hc hs hr, hc, hc']
  simp only [reduceCtorEq, if_false]

/-- The announcement of a frame whose principal is short, likewise (R46). -/
theorem State.announce_release {s : State} {oldest : RecNo} {ring : List RecNo} {c : BitVec 32} {w h : Nat} (st : Stamp)
    (hv : s.banks.act.valid = true) (hw : w = s.banks.act.wi) (hh : h = s.banks.act.hi)
    (hc : s.clips.recordState = .caching) (hs : s.store.short s.banks.pagesP = true)
    (hr : s.clips.ring = oldest :: ring) : s.announce c w h st [] = s.releaseOldest.announce c w h st [] := by
  have hb : s.releaseOldest.banks = s.banks := (State.releaseOldest_steady s).banks
  rw [State.announce_fits hv hw hh, State.announce_fits (s := s.releaseOldest) (by rw [hb]; exact hv)
    (by rw [hb]; exact hw) (by rw [hb]; exact hh), State.admitFrame_release c st hc hs hr]

/-! ### A reservation (R49, R50, R57) -/

section
variable (i : RecNo) (r : FrameRecord) (s : State)

theorem State.reserve_same : ({ s with store := s.store.reserve i r } : State).SameBlocks (s.reserve i r) := by
  unfold State.reserve State.testStoreLow
  dsimp only
  split
  · exact State.setFlag_same _ _
  · exact .refl _

variable {i r s}

theorem State.reserve_mono (g : Flag) (h : s.isSet g) : (s.reserve i r).isSet g := by
  unfold State.reserve State.testStoreLow
  dsimp only
  split
  · exact State.setFlag_mono _ _ h
  · exact h

/-- A reservation that takes the free page count below the low mark sets STORE LOW (R57). -/
theorem State.reserve_low (h : s.banks.act.lowMark ≤ s.store.freePages)
    (k : (s.store.reserve i r).freePages < s.banks.act.lowMark) : (s.reserve i r).isSet .storeLow := by
  have h1 : belowMark s.banks.act.lowMark s.store.freePages = false := by simp [belowMark, h]
  have h2 : belowMark s.banks.act.lowMark (s.store.reserve i r).freePages = true := by
    simp only [belowMark, Bool.and_eq_true, decide_eq_true_eq]; omega
  unfold State.reserve State.testStoreLow
  simp only [h1, h2, Bool.not_false, Bool.and_self, if_true]
  exact State.setFlag_isSet _ _

/-- A reservation that does not cross the low mark sets no flag (R57). -/
theorem State.reserve_quiet (h : s.banks.act.lowMark ≤ (s.store.reserve i r).freePages ∨
    s.store.freePages < s.banks.act.lowMark) : s.reserve i r = { s with store := s.store.reserve i r } := by
  have hb : (!belowMark s.banks.act.lowMark s.store.freePages &&
      belowMark s.banks.act.lowMark (s.store.reserve i r).freePages) = false := by
    rw [Bool.eq_false_iff]
    simp only [belowMark, ne_eq, Bool.and_eq_true, Bool.not_eq_true', Bool.and_eq_false_iff, decide_eq_false_iff_not,
      decide_eq_true_eq]
    omega
  unfold State.reserve State.testStoreLow
  simp only [hb, Bool.false_eq_true, if_false]
end

/-! ### The oldest pair released before the admission (R46, R56) -/

/-- What a pair release leaves of the records outside the pair. -/
theorem Store.releasePair_fields {i j : RecNo} {s : Store} (h : j ≠ i) (ht : (s.frame i).twin ≠ some j) :
    ((s.releasePair i).frame j).state = (s.frame j).state ∧
      ((s.releasePair i).frame j).pages = (s.frame j).pages ∧
      ((s.releasePair i).frame j).part = (s.frame j).part := by
  unfold Store.releasePair
  split
  · rename_i t hi
    have hj : t ≠ j := by rintro rfl; exact ht hi
    simp [Store.release_frame, hj, Ne.symm h]
  · simp [Store.release_frame, Ne.symm h]

theorem exec_frameOpen_release {rest : List Word} {o : BoundaryOrder} {oldest : RecNo} {ring : List RecNo} {s : State}
    (op : s.OpensFrame rest) (seq : s.InSequence rest) (hc : s.clips.recordState = .caching) (hs : s.Short)
    (hr : s.clips.ring = oldest :: ring) :
    exec (.frameOpen rest o []) s = exec (.frameOpen rest o [])
      { s with store := s.store.releasePair oldest, clips := { s.clips with ring := ring } } := by
  obtain ⟨v, hv, -, -, v0⟩ := exec_frameOpen_quiet o [] op.link op.verdict op.count op.frame op.queue op.actions
  obtain ⟨u, hu, -, -, u0⟩ := exec_frameOpen_quiet (rest := rest)
    (s := { s with store := s.store.releasePair oldest, clips := { s.clips with ring := ring } }) o []
    op.link op.verdict op.count op.frame op.queue op.actions
  rw [hv, hu, v0 seq, u0 seq]
  have hrel : (s.opening (openCapture rest)).releaseOldest = State.opening (openCapture rest)
      { s with store := s.store.releasePair oldest, clips := { s.clips with ring := ring } } := by
    unfold State.releaseOldest
    rw [show (s.opening (openCapture rest)).clips.ring = oldest :: ring from hr]
    rfl
  rw [← hrel]
  exact congrArg _ (State.announce_release _ op.valid op.width op.height hc (State.short_iff.mpr hs) hr)

/-! ### The two reservations of an admission (R49, R50, R99) -/

/-- An admission while CACHING with room: the principal's reservation, the twin's, and the ramp step. -/
theorem State.admitFrame_caching {s : State} {p : RecNo} (c : BitVec 32) (st : Stamp)
    (hc : s.clips.recordState = .caching) (room : s.banks.pagesP ≤ s.store.freePages)
    (free : (s.store.frame p).state = .free) (low : ∀ j, j < p → (s.store.frame j).state ≠ .free) :
    s.admitFrame c st [] =
      (let a := State.admitTwin c st p (s.reserve p (principalRecord s.banks c st))
       ({ a.1 with render := a.1.render.afterStep }, some (p, a.2))) := by
  have hfree := Store.lowestFree_eq free low
  have hroom : s.store.short s.banks.pagesP = false := by simp [Store.short, room, hfree]
  have hstate : (State.admitTwin c st p (s.reserve p (principalRecord s.banks c st))).1.clips.recordState = .caching := by
    have h1 := (State.reserve_same p (principalRecord s.banks c st) s).clips
    unfold State.admitTwin
    split
    · rw [h1]; exact hc
    · show (State.reserve _ _ _).clips.recordState = _
      rw [(State.reserve_same _ _ _).clips, h1]; exact hc
  unfold State.admitFrame State.admitPrincipal
  rw [State.measures_room hroom, hc]
  simp only [reduceCtorEq, if_false, hroom, Bool.false_eq_true, hfree, State.takeDuring_nil, hstate]

/-- No twin where one of the three conditions of R50 fails. -/
theorem State.admitTwin_none {s : State} (c : BitVec 32) (st : Stamp) (p : RecNo) (h : s.twinRoom = none) :
    s.admitTwin c st p = (s, none) := by rw [State.admitTwin, h]

/-- A twin reserved, named by its principal, and given the frame setup (R50, R88). -/
theorem State.admitTwin_some {s : State} {q : RecNo} (c : BitVec 32) (st : Stamp) (p : RecNo)
    (h : s.twinRoom = some q) :
    s.admitTwin c st p =
      (let a := s.reserve q (twinRecord s.banks c st p (s.render.step.map (·.step)))
       ({ a with
          store := a.store.modify p fun r => { r with twin := some q }
          render := { a.render with setup := some (frameSetup a q st s.render.step) } }, some q)) := by
  rw [State.admitTwin, h]

/-- A record is found for the twin exactly under the three conditions of R50. -/
theorem State.twinRoom_isSome {s : State} : s.twinRoom.isSome = true ↔ s.banks.act.proxyEnable = true ∧
    s.banks.act.proxyFloor + s.banks.pagesX ≤ s.store.freePages ∧ ∃ j, (s.store.frame j).state = .free := by
  have hfree : s.store.lowestFree.isSome = true ↔ ∃ j, (s.store.frame j).state = .free := by
    rw [Option.isSome_iff_ne_none, ne_eq, Store.lowestFree_none]
    simp only [not_forall, not_not]
  unfold State.twinRoom
  split
  · rename_i h
    simp only [Bool.and_eq_true, decide_eq_true_eq] at h
    rw [hfree]
    exact ⟨fun k => ⟨h.1, h.2, k⟩, fun k => k.2.2⟩
  · rename_i h
    simp only [Bool.and_eq_true, decide_eq_true_eq] at h
    exact ⟨nofun, fun k => absurd ⟨k.1, k.2.1⟩ h⟩

/-- The ramp step of an admission, written out (R99). -/
theorem Renderer.step_eq (r : Renderer) : r.step =
    if 0 < r.stepsLeft then some ⟨r.rampLength - r.stepsLeft + 1, r.rampLength⟩ else none := by
  simp [Renderer.step, Renderer.ramping]

/-- A frame setup reads the banks and the rate alone (R88, R102). -/
theorem frameSetup_congr {s t : State} (q : RecNo) (st : Stamp) (ramp : Option RampStep) (hb : t.banks = s.banks)
    (hr : t.time.rate = s.time.rate) (hd : t.time.df = s.time.df) :
    frameSetup t q st ramp = frameSetup s q st ramp := by
  simp only [frameSetup, TimeBase.label, hb, hr, hd]

theorem frameSetup_overlay_off {s : State} {q : RecNo} {st : Stamp} {ramp : Option RampStep}
    (h : s.banks.act.overlayOn = false) : (frameSetup s q st ramp).overlay = none := by
  simp [frameSetup, h]

/-- The sixteen cells of the overlay string: the reel tag, a space, and the label of the stamp (R102). -/
theorem frameSetup_overlay_on {s : State} {q : RecNo} {st : Stamp} {ramp : Option RampStep}
    (h : s.banks.act.overlayOn = true) :
    (frameSetup s q st ramp).overlay =
      (let l := countToLabel s.time.rate s.time.df st.tod
       some (s.banks.act.reel ++ [40, l.hh / 10 % 10, l.hh % 10, 36, l.mm / 10 % 10, l.mm % 10, 36,
        l.ss / 10 % 10, l.ss % 10, if s.time.df then 37 else 36, l.ff / 10 % 10, l.ff % 10])) := by
  simp only [frameSetup, h, if_true, overlayString, digits, TimeBase.label, List.append_assoc, List.cons_append,
    List.nil_append]

/-- Settles O19: the ring's oldest pair leaves while the principal is short; with room, by whether a twin is made. -/
theorem frameOpenAdmittedWhileCaching : Obligations.FrameOpenAdmittedWhileCaching := by
  refine ⟨fun rest o oldest ring s op seq hc hs hr hself => ?_, ?_⟩
  · obtain ⟨free, freeTwin⟩ := Store.releasePair_free oldest s.store
    exact ⟨s.store.releasePair oldest, exec_frameOpen_release op seq hc hs hr, free, freeTwin,
      Store.releasePair_freePages hself, fun j h ht => Store.releasePair_fields h ht, by simp, by simp, by simp, by simp⟩
  · intro rest o p stamp s hl hv hn hf hq ha hc hvalid hw hh room free low hstamp
    obtain rfl : stamp = s.time.stamp := hstamp.trans (TimeBase.stamp_eq _).symm
    obtain ⟨v, hx, same, -, quiet⟩ := exec_frameOpen_quiet o [] hl hv hn hf hq ha
    have vs : v.store = s.store := same.store
    have vb : v.banks = s.banks := same.banks
    have vr : v.render = s.render := same.render
    have vt : v.time = s.time.afterStamp := same.time
    have hw' : openWidth rest = s.banks.act.wi := hw
    have hh' : openHeight rest = s.banks.act.hi := hh
    rw [State.announce_fits (by rw [vb]; exact hvalid) (by rw [vb]; exact hw) (by rw [vb]; exact hh),
      State.admitFrame_caching (p := p) _ _ (same.clips ▸ hc) (by rw [vb, vs]; exact room) (by rw [vs]; exact free)
        (by rw [vs]; exact low)] at hx
    have ab := State.reserve_same p (principalRecord v.banks (openCapture rest) s.time.stamp) v
    generalize hA : v.reserve p (principalRecord v.banks (openCapture rest) s.time.stamp) = a at hx ab
    have as : a.store = s.store.reserve p (principalRecord s.banks (openCapture rest) s.time.stamp) := by
      rw [ab.store, vs, vb]
    have abanks : a.banks = s.banks := ab.banks.trans vb
    have arender : a.render = s.render := ab.render.trans vr
    have atime : a.time = s.time.afterStamp := ab.time.trans vt
    have afree : a.store.freePages = s.store.freePages - s.banks.pagesP := by rw [as]; rfl
    have aframe : ∀ j, a.store.frame j = if p = j then principalRecord s.banks (openCapture rest) s.time.stamp
        else s.store.frame j := fun j => by rw [as, Store.reserve_frame]
    have astate : ∀ j, (a.store.frame j).state = .free ↔ j ≠ p ∧ (s.store.frame j).state = .free := by
      intro j
      rw [aframe]
      by_cases h : p = j
      · simp [h, principalRecord]
      · simp [h, Ne.symm h]
    have alow : s.banks.act.lowMark ≤ s.store.freePages → a.store.freePages < s.banks.act.lowMark →
        a.isSet .storeLow := by
      intro h1 h2
      rw [← hA]
      exact State.reserve_low (by rw [vb, vs]; exact h1) (by rw [vb, vs]; rw [as] at h2; exact h2)
    have aquiet : s.InSequence rest → s.banks.act.lowMark ≤ a.store.freePages ∨
        s.store.freePages < s.banks.act.lowMark → a.flags = s.flags ∧ a.dir = s.dir := by
      intro h1 h2
      rw [← hA, State.reserve_quiet (by rw [vb, vs]; rw [as] at h2; exact h2), quiet h1]
      exact ⟨rfl, rfl⟩
    have twinIff : a.twinRoom.isSome = true ↔ s.banks.act.proxyEnable = true ∧
        s.banks.act.proxyFloor + s.banks.pagesX + s.banks.pagesP ≤ s.store.freePages ∧
        ∃ j, j ≠ p ∧ (s.store.frame j).state = .free := by
      rw [State.twinRoom_isSome, abanks, afree, Nat.le_sub_iff_add_le room]
      simp only [astate]
    have open' : ∀ twin, FrameState.inFrame (newFrame p twin (openWidth rest) (openHeight rest)) = .inFrame {
        principal := p, twin := twin, width := s.banks.act.wi, height := s.banks.act.hi,
        expected := 0, lastReceived := none, linesReceived := 0, check := 0, missing := 0, excess := 0 } := by
      intro twin; rw [hw', hh']; rfl
    have time : a.time = { s.time with lastSub := some s.time.stamp.sub, lastInterval := s.time.interval, interval := 0 } :=
      atime
    cases htw : a.twinRoom with
    | none =>
      rw [State.admitTwin_none _ _ _ htw] at hx
      rw [htw] at twinIff
      refine ⟨_, none, hx, open' none, ?_, twinIff, nofun, fun _ => afree, fun j hj _ => ?_, alow, aquiet, ?_, ?_,
        ab.clips.trans same.clips, ?_, ?_, ?_, nofun, time, abanks, (ab.queue.trans same.queue).trans hq,
        ab.pLink.trans same.pLink, ab.xLink.trans same.xLink, ab.pace.trans same.pace,
        ab.lastProxy.trans same.lastProxy, ab.pending.trans same.pending⟩
      · show a.store.frame p = _
        rw [aframe, if_pos rfl]; rfl
      · show a.store.frame j = _
        rw [aframe, if_neg (Ne.symm hj)]
      · show a.store.pq = _; rw [as]; rfl
      · show a.store.xq = _; rw [as]; rfl
      · show a.render.rampLength = _; rw [arender]
      · show a.render.stepsLeft - 1 = _; rw [arender]
      · intro _; show a.render.setup = _; rw [arender]
    | some q =>
      rw [State.admitTwin_some _ _ _ htw] at hx
      rw [htw] at twinIff
      obtain ⟨-, -, hlow⟩ := State.twinRoom_some htw
      obtain ⟨hqfree, hqlow⟩ := Store.lowestFree_some hlow
      obtain ⟨hqp, hqs⟩ := (astate q).mp (FrameRecord.isFree_iff.mp hqfree)
      have bb := State.reserve_same q
        (twinRecord a.banks (openCapture rest) s.time.stamp p (a.render.step.map (·.step))) a
      generalize hB : a.reserve q (twinRecord a.banks (openCapture rest) s.time.stamp p
        (a.render.step.map (·.step))) = b at hx bb
      have bbanks : b.banks = s.banks := bb.banks.trans abanks
      have brender : b.render = s.render := bb.render.trans arender
      have bs : b.store = a.store.reserve q (twinRecord s.banks (openCapture rest) s.time.stamp p
          (s.render.step.map (·.step))) := by rw [bb.store, abanks, arender]
      have bfree : b.store.freePages = s.store.freePages - s.banks.pagesP - s.banks.pagesX := by rw [bs, ← afree]; rfl
      have bframe : ∀ j, b.store.frame j = if q = j then twinRecord s.banks (openCapture rest) s.time.stamp p
          (s.render.step.map (·.step)) else a.store.frame j := fun j => by rw [bs, Store.reserve_frame]
      refine ⟨_, some q, hx, open' (some q), ?_, twinIff, ?_, nofun, fun j hj hjq => ?_, ?_, ?_, ?_, ?_,
        bb.clips.trans (ab.clips.trans same.clips), ?_, ?_, nofun, ?_, bb.time.trans time, bbanks,
        (bb.queue.trans (ab.queue.trans same.queue)).trans hq,
        bb.pLink.trans (ab.pLink.trans same.pLink), bb.xLink.trans (ab.xLink.trans same.xLink),
        bb.pace.trans (ab.pace.trans same.pace), bb.lastProxy.trans (ab.lastProxy.trans same.lastProxy),
        bb.pending.trans (ab.pending.trans same.pending)⟩
      · show (b.store.modify p _).frame p = _
        rw [Store.modify_frame_self, bframe, if_neg hqp, aframe, if_pos rfl]; rfl
      · rintro _ ⟨⟩
        refine ⟨hqp, hqs, fun j hj hjq => ?_, ?_, bfree⟩
        · have := hqlow j hjq
          rw [Bool.eq_false_iff, ne_eq, FrameRecord.isFree_iff, astate] at this
          exact fun h => this ⟨hj, h⟩
        · show (b.store.modify p _).frame q = _
          rw [Store.modify_frame_ne _ _ (Ne.symm hqp), bframe, if_pos rfl, Renderer.step_eq]
          by_cases h : 0 < s.render.stepsLeft
          · simp only [if_pos h]; rfl
          · simp only [if_neg h]; rfl
      · show (b.store.modify p _).frame j = _
        rw [Store.modify_frame_ne _ _ (Ne.symm hj), bframe, if_neg fun h => hjq (congrArg some h), aframe,
          if_neg (Ne.symm hj)]
      · intro h1 h2
        show b.isSet .storeLow
        rw [← hB]
        by_cases h : a.store.freePages < s.banks.act.lowMark
        · exact State.reserve_mono _ (alow h1 h)
        · exact State.reserve_low (by rw [abanks]; omega) (by rw [abanks, arender, ← bs]; exact h2)
      · intro h1 h2
        have h2' : s.banks.act.lowMark ≤ b.store.freePages ∨ s.store.freePages < s.banks.act.lowMark := h2
        have hle : b.store.freePages ≤ a.store.freePages := by rw [bfree, afree]; omega
        have hquiet := aquiet h1 (by omega)
        show b.flags = _ ∧ b.dir = _
        rw [← hB, State.reserve_quiet (by rw [abanks, arender, ← bs]; omega)]
        exact hquiet
      · show b.store.pq = _; rw [bs, as]; rfl
      · show b.store.xq = _; rw [bs, as]; rfl
      · show b.render.rampLength = _; rw [brender]
      · show b.render.stepsLeft - 1 = _; rw [brender]
      · rintro _ ⟨⟩
        refine ⟨_, congrArg some (frameSetup_congr q s.time.stamp a.render.step bbanks ?_ ?_), rfl, rfl, rfl, rfl, rfl,
          rfl, rfl, rfl, rfl, rfl, rfl, rfl, rfl, ?_, fun h => ?_, fun l h hl => ?_, rfl, rfl⟩
        · rw [bb.time, atime]; rfl
        · rw [bb.time, atime]; rfl
        · show a.render.step = _
          rw [arender, Renderer.step_eq]
        · exact frameSetup_overlay_off h
        · rw [hl]; exact frameSetup_overlay_on h

end Sys2Proof.Machine
end

section
/-! PROOFS. The TOD pulse (R22 to R24, R37, R38) and picture loss (R17, R18). -/

namespace Sys2Proof.Machine

open Sys2Proof

/-! ### Picture-loss expiry (R18) -/

/-- The Ingress Port at an expiry, its frame closed: no frame is open, and a STREAMING link becomes IDLE (R18). -/
def State.lost (s : State) : State :=
  { s with ingress := { s.ingress with
    link := if s.ingress.link = .streaming then .idle else s.ingress.link, frame := .noFrame } }

/-- An expiry: the truncated close, the fall of the link, PICTURE LOST, and the cut of the clip (R18). -/
theorem State.expire_eq (s : State) :
    s.expire = ((s.closeAny true).lost.setFlag .pictureLost).cut .pictureLost := rfl

/-- What the truncated close of an expiry leaves, whether or not a frame was open. -/
structure State.ClosedAny (s t : State) : Prop where
  ingress   : t.ingress = { s.ingress with frame := t.ingress.frame }
  state     : t.clips.recordState = s.clips.recordState
  cacheMark : t.clips.cacheMark = s.clips.cacheMark
  actions   : t.clips.actions = s.clips.actions
  hasOpen   : t.clips.hasOpen = s.clips.hasOpen
  time      : t.time = s.time
  banks     : t.banks = s.banks
  queue     : t.dir.queue = s.dir.queue
  pLink     : t.pLink = s.pLink
  xLink     : t.xLink = s.xLink
  pace      : t.pace = s.pace
  lastProxy : t.lastProxy = s.lastProxy
  pending   : t.pending = s.pending

/-- No clip opens or closes at a close (R2, R15). -/
theorem State.Closed.hasOpen {s t : State} (h : s.Closed t) : t.clips.hasOpen = s.clips.hasOpen := by
  have := congrArg (List.any · fun x : Nat × ClipState × Nat => x.2.1 == .isOpen) h.clipStates
  simpa only [Clips.hasOpen, List.any_map, Function.comp_def] using this

theorem State.closeAny_left (tr : Bool) (s : State) : s.ClosedAny (s.closeAny tr) := by
  rcases State.closeAny_cases tr s with ⟨-, e⟩ | ⟨f, -, cl⟩
  · rw [e]; constructor <;> rfl
  · exact ⟨by rw [cl.ingress], cl.recordState, by rw [cl.clips], cl.actions, cl.hasOpen, cl.time, cl.banks, cl.queue,
      cl.pLink, cl.xLink, cl.pace, cl.lastProxy, cl.pending⟩

/-- An expiry leaves the directive queue, the pending actions and the model's queue; a STREAMING link becomes IDLE. -/
theorem State.expire_lists (s : State) :
    s.expire.ingress.link = (if s.ingress.link = .streaming then .idle else s.ingress.link) ∧
      s.expire.dir.queue = s.dir.queue ∧ s.expire.clips.actions = s.clips.actions ∧ s.expire.pending = s.pending := by
  have left := State.closeAny_left true s
  have link := State.closeAny_link true s
  rw [State.expire_eq]
  generalize s.closeAny true = c at left link
  have k := (State.setFlag_took .pictureLost c.lost).trans (State.cut_took .pictureLost _)
  refine ⟨k.link.trans ?_, k.queue.trans left.queue, k.actions.trans left.actions, k.pending.trans left.pending⟩
  show (if c.ingress.link = .streaming then _ else c.ingress.link) = _
  rw [link]

/-- The test for expiry finds nothing: the state stands (R18). -/
theorem State.testLoss_quiet {s : State} (h : (s.ingress.link ≠ .streaming ∧ s.clips.recordState ≠ .recording) ∨
    s.ingress.lossCount < s.banks.lossWindow) : s.testLoss = s := by
  have : s.lossExpired = false := by
    rw [Bool.eq_false_iff]
    simp only [State.lossExpired, ne_eq, Bool.and_eq_true, Bool.or_eq_true, beq_iff_eq, decide_eq_true_eq]
    rintro ⟨h1, h2⟩
    rcases h with ⟨a, b⟩ | h
    · exact h1.elim a b
    · omega
  rw [State.testLoss, this, if_neg Bool.false_ne_true]

/-- The test for expiry finds it (R18). -/
theorem State.testLoss_expires {s : State} (h : s.ingress.link = .streaming ∨ s.clips.recordState = .recording)
    (k : s.banks.lossWindow ≤ s.ingress.lossCount) : s.testLoss = s.expire := by
  have : s.lossExpired = true := by
    simp only [State.lossExpired, Bool.and_eq_true, Bool.or_eq_true, beq_iff_eq, decide_eq_true_eq]
    exact ⟨h, k⟩
  rw [State.testLoss, this, if_pos rfl]

/-- The count and the test leave the lists of a boundary, and a link that is not STREAMING (R17, R18). -/
theorem State.countTest_lists (s : State) :
    (s.ingress.link ≠ .streaming → s.countLoss.testLoss.ingress.link = s.ingress.link) ∧
      s.countLoss.testLoss.dir.queue = s.dir.queue ∧ s.countLoss.testLoss.clips.actions = s.clips.actions ∧
      s.countLoss.testLoss.pending = s.pending := by
  unfold State.testLoss
  split
  · obtain ⟨link, queue, actions, pending⟩ := State.expire_lists s.countLoss
    exact ⟨fun h => link.trans (if_neg h), queue, actions, pending⟩
  · exact ⟨fun _ => rfl, rfl, rfl, rfl⟩

/-- The command PICTURE_LOSS_EXPIRY on a raised count is the count and its test (notes/assumptions/10.md). -/
theorem exec_pictureLossExpiry_raised (s : State) :
    exec .pictureLossExpiry { s with ingress := { s.ingress with lossCount := min 255 (s.ingress.lossCount + 1) } } =
      .next s.countLoss.testLoss := rfl

/-! ### The Time Base Unit at a pulse (R22, R24, R31, R32) -/

/-- The advanced count, the lane's new period and the ticks counted into the interval, written out. -/
theorem TimeBase.pulse_eq (t : TimeBase) : t.pulse = { t with
    stage1 := 0, stage2 := 0, lastSub := none
    tod := if t.running = true then (if t.tod + 1 ≥ t.perDay then 0 else t.tod + 1) else t.tod
    interval := min 4294967295 (t.interval + (t.rate.period - t.phase)) } := rfl

/-- A pulse once the Time Base Unit and the pace count have moved (R22, R113). -/
def State.pulsed (s : State) : State := { s with time := s.time.pulse, pace := satAdd Config.paceLimit s.pace 1 }

/-- The two cues tested in order (R37). -/
def State.fireCues (s : State) : State := (s.fireCue .start).fireCue .stop

theorem State.pulse_eq (o : PulseOrder) (s : State) :
    s.pulse o = if o.lossFirst then s.pulsed.fireCues.countLoss.testLoss.pulseBoundary o (firedActions s.pulsed.time)
      else (s.pulsed.fireCues.pulseBoundary o (firedActions s.pulsed.time)).countLoss.testLoss := rfl

/-! ### Cues (R37, R74) -/

theorem State.fireCue_same (a : CueAction) (s : State) :
    ({ s with time := (s.fireCue a).time } : State).SameBlocks (s.fireCue a) := by
  cases a <;> unfold State.fireCue <;> dsimp only <;> split
  · constructor <;> simp
  · exact .refl s
  · constructor <;> simp
  · exact .refl s

theorem State.fireCues_same (s : State) : ({ s with time := s.fireCues.time } : State).SameBlocks s.fireCues := by
  obtain ⟨h1, -, h3, h4, h5, h6, h7, h8, h9, h10, h11, h12, h13⟩ := State.fireCue_same .start s
  obtain ⟨k1, -, k3, k4, k5, k6, k7, k8, k9, k10, k11, k12, k13⟩ := State.fireCue_same .stop (s.fireCue .start)
  exact ⟨k1.trans h1, rfl, k3.trans h3, k4.trans h4, k5.trans h5, k6.trans h6, k7.trans h7, k8.trans h8, k9.trans h9,
    k10.trans h10, k11.trans h11, k12.trans h12, k13.trans h13⟩

/-- The cues that fire are removed (R37). -/
theorem State.fireCues_time (s : State) : s.fireCues.time = { s.time with
    startCue := if cueFires s.time s.time.startCue then none else s.time.startCue
    stopCue := if cueFires s.time s.time.stopCue then none else s.time.stopCue } := by
  have start : (s.fireCue .start).time =
      { s.time with startCue := if cueFires s.time s.time.startCue then none else s.time.startCue } := by
    unfold State.fireCue
    dsimp only
    split <;> simp
  have stop : ∀ x : State, (x.fireCue .stop).time =
      { x.time with stopCue := if cueFires x.time x.time.stopCue then none else x.time.stopCue } := by
    intro x
    unfold State.fireCue
    dsimp only
    split <;> simp
  rw [State.fireCues, stop, start]
  rfl

/-- No cue fires: the state stands (R37). -/
theorem State.fireCues_none {s : State} (h : firedActions s.time = []) : s.fireCues = s := by
  obtain ⟨h1, h2⟩ := List.append_eq_nil_iff.mp h
  have a : cueFires s.time s.time.startCue = false := by
    cases hc : cueFires s.time s.time.startCue with
    | false => rfl
    | true => rw [hc] at h1; cases h1
  have b : cueFires s.time s.time.stopCue = false := by
    cases hc : cueFires s.time s.time.stopCue with
    | false => rfl
    | true => rw [hc] at h2; cases h2
  have start : s.fireCue .start = s := by simp [State.fireCue, a]
  rw [State.fireCues, start]
  simp [State.fireCue, b]

/-- A cue that fires sets CUE FIRED (R37). -/
theorem State.fireCues_isSet {s : State} (h : firedActions s.time ≠ []) : s.fireCues.isSet .cueFired := by
  unfold State.fireCues
  cases ha : cueFires s.time s.time.startCue with
  | true =>
    have hs : (s.fireCue .start).isSet .cueFired := by
      unfold State.fireCue
      simp only [ha, if_true]
      exact State.setFlag_isSet _ _
    generalize s.fireCue .start = x at hs
    unfold State.fireCue
    dsimp only
    split
    · exact State.setFlag_isSet _ _
    · exact hs
  | false =>
    have hb : cueFires s.time s.time.stopCue = true := by
      by_contra hb
      exact h (by simp [firedActions, ha, hb])
    have start : s.fireCue .start = s := by simp [State.fireCue, ha]
    rw [start]
    unfold State.fireCue
    simp only [hb, if_true]
    exact State.setFlag_isSet _ _

/-- A cue fires while RUNNING when it equals the advanced count (R37). -/
theorem cueFires_iff {t : TimeBase} {cue : Option Nat} : cueFires t cue = true ↔ t.running = true ∧ cue = some t.tod := by
  simp [cueFires]

/-- The actions a pulse of a RUNNING count fires (R37, R74). -/
theorem firedActions_running {t : TimeBase} (h : t.running = true) : firedActions t =
    (if t.startCue = some t.tod then [.start] else []) ++ (if t.stopCue = some t.tod then [.stop] else []) := by
  simp only [firedActions, cueFires_iff, h, true_and]

theorem firedActions_none {t : TimeBase}
    (h : t.running = true → t.startCue ≠ some t.tod ∧ t.stopCue ≠ some t.tod) : firedActions t = [] := by
  have : ∀ cue, cue = t.startCue ∨ cue = t.stopCue → ¬ cueFires t cue = true := by
    rintro cue hc hf
    obtain ⟨hr, he⟩ := cueFires_iff.mp hf
    rcases hc with rfl | rfl
    · exact (h hr).1 he
    · exact (h hr).2 he
  rw [firedActions, if_neg (this _ (.inl rfl)), if_neg (this _ (.inr rfl))]
  rfl

theorem firedActions_nodup (t : TimeBase) : (firedActions t).Nodup := by
  unfold firedActions
  split <;> split <;> simp

/-- Actions handed over follow those that wait, one of a kind already pending being merged (R74). -/
theorem State.handOverAll_eq {as : List CueAction} (h : as.Nodup) (s : State) : s.handOverAll as =
    { s with clips := { s.clips with actions := s.clips.actions ++ as.filter fun a => a ∉ s.clips.actions } } := by
  induction as generalizing s with
  | nil => simp [State.handOverAll]
  | cons a as ih =>
    obtain ⟨ha, has⟩ := List.nodup_cons.mp h
    show (s.handOver a).handOverAll as = _
    rw [ih has]
    unfold State.handOver
    by_cases hc : a ∈ s.clips.actions
    · simp [hc]
    · have : as.filter (fun b => b ∉ s.clips.actions ++ [a]) = as.filter fun b => b ∉ s.clips.actions := by
        refine List.filter_congr fun b hb => ?_
        have : b ≠ a := by rintro rfl; exact ha hb
        simp [this]
      simp [hc] at this ⊢
      rw [this]

/-! ### The pulse as a boundary (R23, R38) -/

theorem State.handOverAll_ingress (as : List CueAction) (s : State) : (s.handOverAll as).ingress = s.ingress := by
  induction as generalizing s with
  | nil => rfl
  | cons a as ih =>
    show ((s.handOver a).handOverAll as).ingress = _
    rw [ih]
    unfold State.handOver
    split <;> rfl

/-- A pulse while STREAMING is no boundary (R23). -/
theorem State.pulseBoundary_streaming {s : State} (o : PulseOrder) (as : List CueAction)
    (h : s.ingress.link = .streaming) : s.pulseBoundary o as = s.handOverAll as := by
  have hand := State.handOverAll_ingress as s
  unfold State.pulseBoundary
  cases o.handOverFirst <;> simp [h, hand]

/-- A pulse while the link is not STREAMING is one, before or after the fired actions are handed over (R23, R38). -/
theorem State.pulseBoundary_idle {s : State} (o : PulseOrder) (as : List CueAction) (h : s.ingress.link ≠ .streaming) :
    s.pulseBoundary o as = if o.handOverFirst then (s.handOverAll as).boundary o.boundary
      else (s.boundary o.boundary).handOverAll as := by
  have hand := State.handOverAll_ingress as s
  unfold State.pulseBoundary
  cases o.handOverFirst <;> simp [h, hand]

/-- With no action to hand over, the pulse is the boundary alone. -/
theorem State.pulseBoundary_nil {s : State} (o : PulseOrder) (h : s.ingress.link ≠ .streaming) :
    s.pulseBoundary o [] = s.boundary o.boundary := by
  rw [State.pulseBoundary_idle o [] h]
  split <;> rfl

/-- A pulse that fires no cue. -/
theorem State.pulse_noCue {s : State} (o : PulseOrder) (h : firedActions s.pulsed.time = []) :
    s.pulse o = if o.lossFirst then s.pulsed.countLoss.testLoss.pulseBoundary o []
      else (s.pulsed.pulseBoundary o []).countLoss.testLoss := by
  rw [State.pulse_eq, State.fireCues_none h, h]

/-- Settles O23: with no cue, the count, its test and the boundary, in either order. -/
theorem pulseBoundaryEmptiesBothLists : Obligations.PulseBoundaryEmptiesBothLists := by
  intro o n s u hl hn hcue hu
  obtain rfl : u = s.pulsed := by rw [hu, hn]; rfl
  have hf : firedActions s.pulsed.time = [] := firedActions_none (by rw [hn] at hcue; exact hcue)
  have hx : exec (.todPulse o) s = .next (s.pulse o) := rfl
  rw [State.pulse_noCue o hf] at hx
  refine ⟨_, hx, ?_⟩
  cases o.lossFirst with
  | true =>
    obtain ⟨link, -, -, pending⟩ := State.countTest_lists s.pulsed
    have hne : s.pulsed.countLoss.testLoss.ingress.link ≠ .streaming := by rw [link hl]; exact hl
    rw [if_pos rfl, State.pulseBoundary_nil o hne]
    obtain ⟨queue, actions, cross⟩ := State.boundary_crossed o.boundary s.pulsed.countLoss.testLoss
    exact ⟨fun _ => ⟨_, exec_pictureLossExpiry_raised s.pulsed, rfl⟩, nofun, queue, actions,
      cross.link.trans (link hl), cross.pending.trans pending⟩
  | false =>
    rw [if_neg Bool.false_ne_true, State.pulseBoundary_nil (s := s.pulsed) o hl]
    obtain ⟨queue, actions, cross⟩ := State.boundary_crossed o.boundary s.pulsed
    obtain ⟨link, queue', actions', pending⟩ := State.countTest_lists (s.pulsed.boundary o.boundary)
    have hne : (s.pulsed.boundary o.boundary).ingress.link ≠ .streaming := by rw [cross.link]; exact hl
    exact ⟨nofun, fun _ => ⟨_, rfl, exec_pictureLossExpiry_raised _⟩, queue'.trans queue, actions'.trans actions,
      (link hne).trans cross.link, pending.trans cross.pending⟩

/-- Settles O24: the expiry inside a pulse is the test on the count as it then stands, and an expiry is a truncated close, the
fall of the link, PICTURE LOST, and the cut of the clip. -/
theorem pictureLossExpires : Obligations.PictureLossExpires := by
  refine ⟨fun o n s u hl hn hcue hw hu => ?_, fun s h => ?_, fun s h hw => ?_⟩
  · obtain rfl : u = s.pulsed.countLoss := by rw [hu, hn]; rfl
    have hf : firedActions s.pulsed.time = [] := firedActions_none (by rw [hn] at hcue; exact hcue)
    have hx : exec (.todPulse o) s = .next (s.pulse o) := rfl
    rw [State.pulse_noCue o hf] at hx
    have htest : s.pulsed.countLoss.testLoss = s.pulsed.countLoss.expire := State.testLoss_expires (.inl hl) hw
    have hidle : s.pulsed.countLoss.testLoss.ingress.link = .idle := by
      rw [htest, (State.expire_lists _).1]; exact if_pos hl
    refine ⟨_, s.pulsed.countLoss.testLoss, hx, rfl, hidle, fun h => ?_, fun h => ?_⟩
    · rw [h, if_pos rfl, State.pulseBoundary_nil o (by rw [hidle]; exact nofun)]
    · rw [h, if_neg Bool.false_ne_true, State.pulseBoundary_streaming (s := s.pulsed) o [] hl]; rfl
  · show Host.Outcome.next s.testLoss = _
    rw [State.testLoss_quiet h]
  · have hx : exec .pictureLossExpiry s = .next s.testLoss := rfl
    rw [State.testLoss_expires h hw, State.expire_eq] at hx
    have left := State.closeAny_left true s
    generalize hc : s.closeAny true = c at hx left
    have fb := State.setFlag_same .pictureLost c.lost
    have fset := State.setFlag_isSet .pictureLost c.lost
    have fmono : ∀ g, c.isSet g → (c.lost.setFlag .pictureLost).isSet g := fun g h => State.setFlag_mono _ g h
    generalize c.lost.setFlag .pictureLost = d at hx fb fset fmono
    have cb := State.cut_blocks .pictureLost d
    have state : d.clips.recordState = s.clips.recordState := (congrArg Clips.recordState fb.clips).trans left.state
    have store : (d.cut .pictureLost).store = c.store := cb.store.trans fb.store
    have render : (d.cut .pictureLost).render = c.render := cb.render.trans fb.render
    refine ⟨_, c.clips, hx, ?_, State.cut_mono _ _ fset, fun hf => ?_, fun f hf pair => ?_, fun hr => ?_,
      fun hr ho => ?_, fun r hr hc only => ?_, cb.time.trans (fb.time.trans left.time),
      cb.banks.trans (fb.banks.trans left.banks), cb.queue.trans (fb.queue.trans left.queue),
      cb.pLink.trans (fb.pLink.trans left.pLink), cb.xLink.trans (fb.xLink.trans left.xLink),
      cb.pace.trans (fb.pace.trans left.pace), cb.lastProxy.trans (fb.lastProxy.trans left.lastProxy),
      cb.pending.trans (fb.pending.trans left.pending)⟩
    · refine cb.ingress.trans (fb.ingress.trans ?_)
      rw [State.lost, left.ingress]
    · rw [store, render, ← hc, State.closeAny_none true hf]
      exact ⟨rfl, rfl, rfl⟩
    · obtain ⟨done, flawed, -⟩ := State.closeAny_completed true hf pair
      have closed := State.closeAny_closed true hf
      rw [hc] at done flawed closed
      rw [store, render]
      exact ⟨done, State.cut_mono _ _ (fmono _ (flawed (f.closingFlaws_truncated _))), closed.render⟩
    · rw [State.cut_idle _ (by rw [state]; exact hr)]
      exact ⟨fb.clips, state⟩
    · rw [State.cut_recording _ (by rw [state]; exact hr), ← left.cacheMark]
      have hopen : d.clips.hasOpen = true := (congrArg Clips.hasOpen fb.clips).trans (left.hasOpen.trans ho)
      have mark : d.clips.cacheMark = c.clips.cacheMark := congrArg Clips.cacheMark fb.clips
      rw [← mark]
      exact State.closeOpen_fallsBack _ hopen
    · have dclips : d.clips = c.clips := fb.clips
      rw [← dclips] at hc only ⊢
      obtain ⟨stays, settles⟩ := State.closeOpen_settles .pictureLost hc only
      have closed := Clips.closed_eq .pictureLost (by simpa using List.find?_some hc) only
      rw [State.cut_recording _ (by rw [state]; exact hr)]
      rw [closed] at stays settles
      exact ⟨fun h => congrArg Clips.records (stays h), fun h1 h2 =>
        ⟨(settles h1 h2).1, congrArg Clips.records (settles h1 h2).2⟩⟩

end Sys2Proof.Machine
end

section
/-! PROOFS. A pulse that fires cues (R37, R38, R74). -/

namespace Sys2Proof.Machine

open Sys2Proof

/-- What a pulse leaves of the Time Base Unit, a RUNNING count having advanced onto the cues it fires (R22, R24, R37). -/
theorem State.fireCues_pulsed_time {s : State} {n : Nat} (hr : s.time.running = true)
    (hn : n = if s.time.tod + 1 ≥ s.time.perDay then 0 else s.time.tod + 1) :
    s.pulsed.fireCues.time = { s.time with
      stage1 := 0, stage2 := 0, lastSub := none, tod := n
      interval := min 4294967295 (s.time.interval + (s.time.rate.period - s.time.phase))
      startCue := if s.time.startCue = some n then none else s.time.startCue
      stopCue := if s.time.stopCue = some n then none else s.time.stopCue } := by
  have tod : s.pulsed.time.tod = n := by rw [hn]; exact if_pos hr
  have run : s.pulsed.time.running = true := hr
  have cue : ∀ c, (cueFires s.pulsed.time c = true) = (c = some n) := by
    intro c
    rw [cueFires_iff, run, tod]
    simp
  rw [State.fireCues_time]
  simp only [cue]
  show ({ s.pulsed.time with startCue := _, stopCue := _ } : TimeBase) = _
  rw [← tod]
  rfl

/-- The actions fired by a pulse of a RUNNING count (R37, R74). -/
theorem firedActions_pulsed {s : State} {n : Nat} (hr : s.time.running = true)
    (hn : n = if s.time.tod + 1 ≥ s.time.perDay then 0 else s.time.tod + 1) :
    firedActions s.pulsed.time =
      (if s.time.startCue = some n then [.start] else []) ++ (if s.time.stopCue = some n then [.stop] else []) := by
  have tod : s.pulsed.time.tod = n := by rw [hn]; exact if_pos hr
  rw [firedActions_running (show s.pulsed.time.running = true from hr), tod]
  rfl

/-- A pulse that is a boundary leaves no directive queued, and pending only what it hands over after it (R38, R76). -/
theorem State.pulseBoundary_lists {s : State} {as : List CueAction} (o : PulseOrder) (hn : as.Nodup)
    (h : s.ingress.link ≠ .streaming) :
    (s.pulseBoundary o as).clips.actions = (if o.handOverFirst then [] else as) ∧
      (s.pulseBoundary o as).dir.queue = [] := by
  rw [State.pulseBoundary_idle o as h]
  cases o.handOverFirst with
  | true =>
    obtain ⟨queue, actions, -⟩ := State.boundary_crossed o.boundary (s.handOverAll as)
    exact ⟨actions, queue⟩
  | false =>
    obtain ⟨queue, actions, -⟩ := State.boundary_crossed o.boundary s
    rw [if_neg Bool.false_ne_true, State.handOverAll_eq hn]
    refine ⟨?_, queue⟩
    simp [actions]

/-- A pulse while STREAMING at which the window does not expire: the cues, their actions and the count (R17, R37). -/
theorem State.pulse_streaming {s : State} (o : PulseOrder) (hl : s.ingress.link = .streaming)
    (hw : min 255 (s.ingress.lossCount + 1) < s.banks.lossWindow) :
    s.pulse o = (s.pulsed.fireCues.handOverAll (firedActions s.pulsed.time)).countLoss := by
  have same := State.fireCues_same s.pulsed
  have hn := firedActions_nodup s.pulsed.time
  rw [State.pulse_eq]
  generalize s.pulsed.fireCues = u at same
  generalize firedActions s.pulsed.time = fired at hn
  have ul : u.ingress.link = .streaming := by rw [same.ingress]; exact hl
  have quiet : ∀ x : State, x.ingress = u.ingress → x.banks = u.banks → x.countLoss.testLoss = x.countLoss := by
    intro x hi hb
    refine State.testLoss_quiet (.inr ?_)
    show min 255 (x.ingress.lossCount + 1) < x.banks.lossWindow
    rw [hi, hb, same.ingress, same.banks]
    exact hw
  rw [State.pulseBoundary_streaming o fired ul,
    quiet (u.handOverAll fired) (State.handOverAll_ingress _ _) (by rw [State.handOverAll_eq hn]), quiet u rfl rfl,
    State.pulseBoundary_streaming (s := u.countLoss) o fired ul, State.handOverAll_eq hn, State.handOverAll_eq hn]
  split <;> rfl

/-- The pending actions after both cues' actions are handed over, each merged with one of its kind (R74). -/
theorem handedOver_actions (a b : Prop) [Decidable a] [Decidable b] (waiting : List CueAction) :
    waiting ++ ((if a then [CueAction.start] else []) ++ (if b then [CueAction.stop] else [])).filter
        (fun x => x ∉ waiting) =
      (let acts := if a ∧ CueAction.start ∉ waiting then waiting ++ [.start] else waiting
       if b ∧ CueAction.stop ∉ acts then acts ++ [.stop] else acts) := by
  by_cases ha : a ∧ CueAction.start ∉ waiting
  · have stop : CueAction.stop ∈ waiting ++ [CueAction.start] ↔ CueAction.stop ∈ waiting := by simp
    by_cases hb : b ∧ CueAction.stop ∉ waiting
    · simp [ha, hb]
    · simp only [if_pos ha, stop, if_neg hb]
      by_cases b <;> simp_all
  · by_cases hb : b ∧ CueAction.stop ∉ waiting
    · simp only [if_neg ha, if_pos hb]
      by_cases a <;> simp_all
    · simp only [if_neg ha, if_neg hb]
      by_cases a <;> by_cases b <;> simp_all

/-- Settles O22: the cues are tested first; then the count with its test and the boundary with the hand-over follow in either
order, and while STREAMING the hand-over alone. -/
theorem pulseFiresTheCues : Obligations.PulseFiresTheCues := by
  refine ⟨fun o n fired s hl hr htod hfired => ?_, fun o n acts s hl hr hn hcue hw hacts => ?_⟩
  · obtain rfl : fired = firedActions s.pulsed.time := hfired.trans (firedActions_pulsed hr htod).symm
    have same := State.fireCues_same s.pulsed
    have time := State.fireCues_pulsed_time hr htod
    have set := State.fireCues_isSet (s := s.pulsed)
    have quiet := State.fireCues_none (s := s.pulsed)
    have hn := firedActions_nodup s.pulsed.time
    have hx : exec (.todPulse o) s = .next (s.pulse o) := rfl
    rw [State.pulse_eq] at hx
    generalize firedActions s.pulsed.time = fired at hx set quiet hn
    generalize hu : s.pulsed.fireCues = u at hx same time set quiet
    have ul : u.ingress.link ≠ .streaming := by rw [same.ingress]; exact hl
    have bound : ∀ x : State, x.ingress.link ≠ .streaming → x.pulseBoundary o fired =
        if o.handOverFirst then (x.handOverAll fired).boundary o.boundary
        else (x.boundary o.boundary).handOverAll fired := fun x => State.pulseBoundary_idle o fired
    obtain ⟨testLink, testQueue, testActions, -⟩ := State.countTest_lists u
    have tl : u.countLoss.testLoss.ingress.link ≠ .streaming := by rw [testLink ul]; exact ul
    refine ⟨_, u, fun x => x.countLoss.testLoss, hx, exec_pictureLossExpiry_raised, fun h b hh hb => ?_, time, set,
      fun hf => ?_, same.pace, same.clips, same.ingress, same.store, same.render, same.banks, same.queue, same.pLink,
      same.xLink, same.lastProxy, same.pending, ?_⟩
    · have hb' : ∀ x : State, x.ingress.link ≠ .streaming → x.pulseBoundary o fired = b x := by
        intro x hx
        rw [bound x hx, hb, hh, hh, State.handOverAll_eq hn, State.handOverAll_eq hn]
      rw [hb' u ul, hb' _ tl]
    · have : u = s.pulsed := quiet hf
      rw [this]; exact ⟨rfl, rfl⟩
    · cases o.lossFirst with
      | true => exact State.pulseBoundary_lists o hn tl
      | false =>
        obtain ⟨actions, queue⟩ := State.pulseBoundary_lists o hn ul
        obtain ⟨-, queue', actions', -⟩ := State.countTest_lists (u.pulseBoundary o fired)
        exact ⟨actions'.trans actions, queue'.trans queue⟩
  · have hx : exec (.todPulse o) s = .next (s.pulse o) := rfl
    rw [State.pulse_streaming o hl hw, firedActions_pulsed hr hn] at hx
    have same := State.fireCues_same s.pulsed
    have time := State.fireCues_pulsed_time hr hn
    have set := State.fireCues_isSet (s := s.pulsed)
    have nodup := firedActions_nodup s.pulsed.time
    rw [firedActions_pulsed hr hn] at set nodup
    generalize s.pulsed.fireCues = u at hx same time set
    rw [State.handOverAll_eq nodup] at hx
    refine ⟨_, hx, set ?_, congrArg TimeBase.tod time, congrArg TimeBase.startCue time, congrArg TimeBase.stopCue time,
      ?_, same.store, same.banks, same.render, same.queue, same.pLink, same.xLink, same.lastProxy, same.pending⟩
    · rcases hcue with h | h <;> simp [h]
    · have uc : u.clips = s.clips := same.clips
      have actions := handedOver_actions (s.time.startCue = some n) (s.time.stopCue = some n) s.clips.actions
      rw [← hacts] at actions
      rw [← actions, ← uc]
      rfl

end Sys2Proof.Machine
end

section
/-! PROOFS. RESTART on every block (R19, R59, R87, R108, R122, R157 to R159, R169). -/

namespace Sys2Proof.Machine

open Sys2Proof

/-! ### Placing several reports where there is room (R153) -/

/-- Reports placed where all of them find room stand at the tail, in order; the batch count alone changes besides. -/
theorem State.placeReports_room {s : State} {rs : List Report} (h : s.hasRoom rs.length) :
    ∃ batch, rs.foldl (fun s r => s.placeReport r) s =
      { s with dir := { s.dir with reports := s.dir.reports ++ rs }, batch := batch } := by
  induction rs generalizing s with
  | nil => exact ⟨s.batch, by simp⟩
  | cons r rs ih =>
    have room : s.hasRoom 1 := by unfold State.hasRoom at h ⊢; rw [List.length_cons] at h; omega
    have rest : (s.withReport r).hasRoom rs.length := by
      unfold State.hasRoom State.withReport at *
      simp only [List.length_append, List.length_cons, List.length_nil] at h ⊢
      omega
    obtain ⟨batch, e⟩ := ih rest
    refine ⟨batch, ?_⟩
    rw [List.foldl_cons, State.placeReport_room r room, e]
    simp [State.withReport]

/-! ### An output link at RESTART (R122) -/

/-- What RESTART makes of an output link: the packet leaving is completed; a frame is ended by a FRAME ABORT, or by its own
FRAME CLOSE when that is leaving; a report in flight is marked; any other link stands. -/
structure State.LinkRestarted (l : LinkId) (s : State) (o : OutLink) : Prop where
  ready   : o.readyLine = (s.link l).readyLine
  reset   : o.resetLine = (s.link l).resetLine
  abort   : ∀ i header done, (s.link l).act = .frame i header done → done ≤ (s.store.frame i).height →
    o.sent = (s.link l).sent ++ [framePacket header (s.store.frame i) done] ∧
      o.act = .aborting (abortPacket (s.store.frame i) done)
  close   : ∀ i header done, (s.link l).act = .frame i header done → (s.store.frame i).height < done →
    o.act = .closing (framePacket header (s.store.frame i) done)
  report  : ∀ b, (s.link l).act = .report b → o.act = .report true
  quiet   : (s.link l).act = .free ∨ (∃ p, (s.link l).act = .closing p ∨ (s.link l).act = .aborting p) → o = s.link l
  sending : o.sendingReport = (s.link l).sendingReport

/-- The clips at RESTART: the frame whose FRAME CLOSE is leaving counts as sent (R122). -/
def State.restartClips (l : LinkId) (s : State) : Clips :=
  { s.clips with records := s.clips.records.map fun c => if s.closingClip l = some c.number then c.countSend l else c }

theorem State.restartClips_none {l : LinkId} {s : State} (h : s.closingClip l = none) : s.restartClips l = s.clips := by
  simp [State.restartClips, h]

/-- All that RESTART does to one output link and to the clip whose frame it completes. -/
theorem State.restartLink_eq (l : LinkId) (s : State) : ∃ o, s.LinkRestarted l o ∧
    s.restartLink l = State.setLink l o { s with clips := s.restartClips l } := by
  have setLink_self : ∀ clips : Clips, State.setLink l (s.link l) { s with clips := clips } = { s with clips := clips } := by
    intro clips; cases l <;> rfl
  cases hact : (s.link l).act with
  | frame i header done =>
    by_cases hd : done ≤ (s.store.frame i).height
    · have none : s.closingClip l = none := by simp [State.closingClip, hact, Nat.not_lt.mpr hd]
      refine ⟨{ s.link l with
        sent := (s.link l).sent ++ [framePacket header (s.store.frame i) done]
        act := .aborting (abortPacket (s.store.frame i) done) }, ?_, ?_⟩
      · constructor <;> simp [hact, OutLink.sendingReport]
        omega
      · rw [State.restartClips_none none]
        unfold State.restartLink
        simp only [hact, hd, if_true]
        cases l <;> rfl
    · have clip : s.closingClip l = (s.store.frame i).part.map (·.clip) := by
        simp [State.closingClip, hact, Nat.not_le.mp hd]
      refine ⟨{ s.link l with act := .closing (framePacket header (s.store.frame i) done) }, ?_, ?_⟩
      · constructor <;> simp [hact, OutLink.sendingReport]
        omega
      · unfold State.restartLink
        simp only [hact, if_neg hd]
        cases hp : (s.store.frame i).part with
        | none =>
          rw [hp] at clip
          rw [State.restartClips_none clip]
          cases l <;> rfl
        | some part =>
          have : s.restartClips l = s.clips.modifyNumber part.clip (ClipRecord.countSend l) := by
            rw [hp] at clip
            simp only [State.restartClips, Clips.modifyNumber, clip, Option.map_some, Option.some.injEq, eq_comm]
          rw [this]
          cases l <;> rfl
  | report b =>
    refine ⟨{ s.link l with act := .report true }, ?_, ?_⟩
    · constructor <;> simp [hact, OutLink.sendingReport]
    · rw [State.restartClips_none (by simp [State.closingClip, hact])]
      unfold State.restartLink
      simp only [hact]
      cases l <;> rfl
  | _ =>
    refine ⟨s.link l, ?_, ?_⟩
    · constructor <;> simp [hact]
    · rw [State.restartClips_none (by simp [State.closingClip, hact]), setLink_self]
      unfold State.restartLink
      simp only [hact]

/-- The clips at RESTART after both links (R122). -/
def State.restartedClips (s : State) : Clips := State.restartClips .x { s with clips := s.restartClips .p }

/-- All that RESTART does to both output links and to the clips whose frames they complete. -/
theorem State.restartLinks_eq (s : State) : ∃ p x, s.LinkRestarted .p p ∧ s.LinkRestarted .x x ∧
    (s.restartLink .p).restartLink .x = { s with pLink := p, xLink := x, clips := s.restartedClips } := by
  obtain ⟨p, hp, ep⟩ := State.restartLink_eq .p s
  obtain ⟨x, hx, ex⟩ := State.restartLink_eq .x (s.restartLink .p)
  rw [ep] at hx ex
  refine ⟨p, x, hp, ⟨hx.ready, hx.reset, hx.abort, hx.close, hx.report, hx.quiet, hx.sending⟩, ?_⟩
  rw [ep, ex]
  rfl

/-- The sends of a clip record at RESTART: one more on a link whose FRAME CLOSE of that clip is leaving (R122). -/
theorem State.restartedClips_records {n : LinkId → Nat → Nat} {s : State}
    (hn : ∀ l clip, n l clip = if s.closingClip l = some clip then 1 else 0) :
    s.restartedClips.records = s.clips.records.map fun c =>
      { c with sent := c.sent + n .p c.number, proxySent := c.proxySent + n .x c.number } := by
  have count : ∀ (l : LinkId) (c : ClipRecord), (if s.closingClip l = some c.number then c.countSend l else c) =
      match l with
      | .p => { c with sent := c.sent + n .p c.number }
      | .x => { c with proxySent := c.proxySent + n .x c.number } := by
    intro l c
    cases l <;> dsimp only <;> rw [hn] <;> split <;> rfl
  show (s.clips.records.map _).map _ = _
  rw [List.map_map]
  refine List.map_congr_left fun c _ => ?_
  show (if s.closingClip .x = some (if s.closingClip .p = some c.number then c.countSend .p else c).number then
    (if s.closingClip .p = some c.number then c.countSend .p else c).countSend .x
    else (if s.closingClip .p = some c.number then c.countSend .p else c)) = _
  rw [count .p, count .x]

/-- Settles O48: the links first, then every block's own values, then the reports, for which there is always room. -/
theorem restartReachesEveryBlock : Obligations.RestartReachesEveryBlock := by
  intro tag kept n s hqueue hclips hkept hn
  obtain ⟨p, x, hp, hx, linked⟩ := State.restartLinks_eq s
  have hexec : exec (.restart tag) s = .next (s.takeRestart tag) := rfl
  have records := State.restartedClips_records hn
  have keptLength : kept.length ≤ 1 := by
    rw [hkept]
    split
    · exact List.length_take_le _ _
    · exact Nat.zero_le _
  -- the reports kept, and those RESTART places
  have keptEq : (if p.sendingReport then s.dir.reports.take 1 else []) = kept := by
    rw [hkept]
    exact congrArg (fun b : Bool => if b then s.dir.reports.take 1 else []) hp.sending
  unfold State.takeRestart at hexec
  dsimp only at hexec
  rw [linked] at hexec
  have room : State.hasRoom (restartReports tag s.dir.queue s.restartedClips.records).length
      ({ s with pLink := p, xLink := x, clips := s.restartedClips } : State).restartDirectives.restartBlocks := by
    show (if p.sendingReport then s.dir.reports.take 1 else []).length + _ ≤ 32
    rw [keptEq, records]
    simp only [restartReports, List.length_append, List.length_map, List.length_singleton]
    omega
  obtain ⟨batch, placed⟩ := State.placeReports_room room
  rw [placed] at hexec
  have free : ∀ i, (Store.reset.frame i).state = .free := fun i => by rw [Store.reset_frame]; rfl
  refine ⟨_, hexec, rfl, rfl, rfl, rfl, free, rfl, rfl, rfl, rfl, rfl, rfl, rfl, rfl, rfl, rfl, rfl, rfl, rfl, rfl, rfl,
    rfl, rfl, rfl, ?_, fun l => ?_, rfl⟩
  · show (if p.sendingReport then s.dir.reports.take 1 else []) ++ _ = _
    rw [keptEq, records, restartReports, List.map_map, List.append_assoc, List.append_assoc, List.append_assoc]
    rfl
  · cases l with
    | p => exact ⟨hp.ready, hp.reset, hp.abort, hp.close, hp.report, hp.quiet⟩
    | x => exact ⟨hx.ready, hx.reset, hx.abort, hx.close, hx.report, hx.quiet⟩

end Sys2Proof.Machine
end

section
/-! PROOFS. START: a clip opens and the ring is committed entry by entry (R65 to R68, R72, R80). -/

namespace Sys2Proof.Machine

open Sys2Proof

/-! ### The clip number counter (R67) -/

/-- The clip number after a number of the counter's range, as a step of a cycle of 9,999. -/
theorem numberAfter_eq {n : Nat} (h1 : 1 ≤ n) (h2 : n ≤ 9999) : numberAfter n = n % 9999 + 1 := by
  unfold numberAfter Config.lastClipNumber
  split <;> omega

theorem numberAfter_range (n : Nat) : 1 ≤ numberAfter n ∧ numberAfter n ≤ 9999 := by
  unfold numberAfter Config.lastClipNumber
  split <;> omega

/-- The counter stops at a number not in use, or finds every number it passes in use. -/
theorem advanceNumber_cases (used : List Nat) (fuel n : Nat) (h1 : 1 ≤ n) (h2 : n ≤ 9999) :
    (1 ≤ advanceNumber used fuel n ∧ advanceNumber used fuel n ≤ 9999 ∧ advanceNumber used fuel n ∉ used) ∨
      ∀ k < fuel, (n - 1 + k) % 9999 + 1 ∈ used := by
  induction fuel generalizing n with
  | zero => exact .inr nofun
  | succ fuel ih =>
    unfold advanceNumber
    by_cases hu : n ∈ used
    · rw [if_pos (List.contains_iff_mem.mpr hu)]
      have hr := numberAfter_range n
      refine (ih _ hr.1 hr.2).imp id fun h k hk => ?_
      cases k with
      | zero =>
        have : (n - 1 + 0) % 9999 + 1 = n := by omega
        rw [this]; exact hu
      | succ k =>
        have e : (n - 1 + (k + 1)) % 9999 + 1 = (numberAfter n - 1 + k) % 9999 + 1 := by
          rw [numberAfter_eq h1 h2]; omega
        rw [e]; exact h k (by omega)
    · rw [if_neg (by rw [List.contains_iff_mem]; exact hu)]
      exact .inl ⟨h1, h2, hu⟩

/-- With more steps than numbers in use, the counter stops at a number of its range not in use (R67). -/
theorem advanceNumber_free {used : List Nat} {fuel n : Nat} (h1 : 1 ≤ n) (h2 : n ≤ 9999) (hf : used.length < fuel)
    (h : fuel ≤ 9999) :
    1 ≤ advanceNumber used fuel n ∧ advanceNumber used fuel n ≤ 9999 ∧ advanceNumber used fuel n ∉ used := by
  refine (advanceNumber_cases used fuel n h1 h2).resolve_right fun hall => ?_
  have inj : Set.InjOn (fun k => (n - 1 + k) % 9999 + 1) (Finset.range fuel) := by
    intro i hi j hj (e : (n - 1 + i) % 9999 + 1 = (n - 1 + j) % 9999 + 1)
    simp only [Finset.coe_range, Set.mem_Iio] at hi hj
    omega
  have sub : (Finset.range fuel).image (fun k => (n - 1 + k) % 9999 + 1) ⊆ used.toFinset := by
    intro m hm
    obtain ⟨k, hk, rfl⟩ := Finset.mem_image.mp hm
    exact List.mem_toFinset.mpr (hall k (Finset.mem_range.mp hk))
  have := Finset.card_le_card sub
  rw [Finset.card_image_of_injOn inj, Finset.card_range] at this
  have := List.toFinset_card_le used
  omega

/-! ### The clip parts a commit writes (R68) -/

/-- The records a clip part is written into: the principal's and its twin's. -/
theorem Store.writePart_frame (i j : RecNo) (part : ClipPart) (s : Store) : (s.writePart i part).frame j =
    if j = i ∨ (s.frame i).twin = some j then { s.frame j with part := some part } else s.frame j := by
  unfold Store.writePart
  cases ht : (s.frame i).twin with
  | none =>
    simp only [Store.modify_frame, reduceCtorEq, or_false, eq_comm]
    split
    · rename_i h; rw [h]
    · rfl
  | some t =>
    simp only [Store.modify_frame, Option.some.injEq]
    by_cases h1 : t = j <;> by_cases h2 : i = j <;> simp_all [eq_comm]

theorem Store.writePart_queues (i : RecNo) (part : ClipPart) (s : Store) :
    (s.writePart i part).pq = s.pq ∧ (s.writePart i part).xq = s.xq ∧
      (s.writePart i part).freePages = s.freePages := by
  unfold Store.writePart
  dsimp only
  split <;> exact ⟨rfl, rfl, rfl⟩

/-! ### One entry of the ring joins (R25, R26, R68, R71, R72) -/

/-- The open clip stands last among the clip records, and it alone is open or has its number. -/
structure Clips.LastOpen (rs : List ClipRecord) (c : ClipRecord) (s : Clips) : Prop where
  records : s.records = rs ++ [c]
  isOpen  : c.state = .isOpen
  others  : ∀ r ∈ rs, r.state ≠ .isOpen ∧ r.number ≠ c.number

theorem Clips.LastOpen.openClip {rs : List ClipRecord} {c : ClipRecord} {s : Clips} (h : s.LastOpen rs c) :
    s.openClip = some c := by
  have hnone : rs.find? (·.state == .isOpen) = none := by
    rw [List.find?_eq_none]
    intro r hr
    simpa using (h.others r hr).1
  rw [Clips.openClip, h.records, List.find?_append, hnone]
  simp [h.isOpen]

theorem Clips.LastOpen.modifyOpen {rs : List ClipRecord} {c : ClipRecord} {s : Clips} (h : s.LastOpen rs c)
    (f : ClipRecord → ClipRecord) : s.modifyOpen f = { s with records := rs ++ [f c] } := by
  have keep : rs.map (fun r => if r.state = .isOpen then f r else r) = rs := by
    exact (List.map_congr_left fun r hr => if_neg (h.others r hr).1).trans (List.map_id' rs)
  rw [Clips.modifyOpen, h.records, List.map_append, keep, List.map_singleton, if_pos h.isOpen]

theorem Clips.LastOpen.modifyNumber {rs : List ClipRecord} {c : ClipRecord} {s : Clips} {n : Nat} (h : s.LastOpen rs c)
    (hn : c.number = n) (f : ClipRecord → ClipRecord) : s.modifyNumber n f = { s with records := rs ++ [f c] } := by
  subst hn
  have keep : rs.map (fun r => if r.number = c.number then f r else r) = rs := by
    exact (List.map_congr_left fun r hr => if_neg (h.others r hr).2).trans (List.map_id' rs)
  rw [Clips.modifyNumber, h.records, List.map_append, keep, List.map_singleton, if_pos rfl]

/-- The timecode a principal takes as it joins a clip (R26). -/
def ClipRecord.timecode (c : ClipRecord) (r : FrameRecord) (rr : Nat) : Nat :=
  match c.mode with
  | .freeRun => r.stamp.tod
  | .recordRun => rr

/-- The clip record after an entry of the ring has joined, its flaws counted (R66, R68, R71, R72). -/
def ClipRecord.commit (r : FrameRecord) (rr : Nat) (c : ClipRecord) : ClipRecord :=
  { c.join (c.timecode r rr) r.capture r.twin.isSome with
    flawed := (c.join (c.timecode r rr) r.capture r.twin.isSome).flawed + r.flawCount }

/-- What committing one entry writes, its PROXY GAP apart. -/
def State.committed (i : RecNo) (rs : List ClipRecord) (c : ClipRecord) (s : State) : State :=
  { s with
    time := { s.time with rr := nextCount s.time.perDay s.time.rr }
    store := (s.store.writePart i ⟨c.number, c.joined, c.timecode (s.store.frame i) s.time.rr⟩).appendPair i
    clips := { s.clips.setSplit (splitDue s.banks.act.clipLimit (c.joined + 1)) with
      records := rs ++ [c.commit (s.store.frame i) s.time.rr] } }

/-- A join, field by field: one more joined, one more made or one more gap, and what frame 0 gives (R66, R68, R72). -/
theorem ClipRecord.join_eq (tc : Nat) (capture : BitVec 32) (twin : Bool) (c : ClipRecord) : c.join tc capture twin =
    { c with
      joined := c.joined + 1
      made := c.made + (if twin then 1 else 0), gapTotal := c.gapTotal + (if twin then 0 else 1)
      gaps := (c.join tc capture twin).gaps, overflow := (c.join tc capture twin).overflow
      startTc := if c.joined = 0 then some tc else c.startTc
      firstCapture := if c.joined = 0 then some capture else c.firstCapture } := by
  cases twin with
  | true => rfl
  | false => rcases c.addGap_cases c.joined with ⟨gs, -, h⟩ | ⟨-, h⟩ <;> simp [ClipRecord.join, h]

theorem ClipRecord.join_number (tc : Nat) (capture : BitVec 32) (twin : Bool) (c : ClipRecord) :
    (c.join tc capture twin).number = c.number := by rw [ClipRecord.join_eq]

theorem ClipRecord.join_state (tc : Nat) (capture : BitVec 32) (twin : Bool) (c : ClipRecord) :
    (c.join tc capture twin).state = c.state := by rw [ClipRecord.join_eq]

/-- Steps 1 to 4 of R68, before PROXY GAP. -/
def State.joined (i : RecNo) (rs : List ClipRecord) (c : ClipRecord) (s : State) : State :=
  { s with
    time := { s.time with rr := nextCount s.time.perDay s.time.rr }
    store := s.store.writePart i ⟨c.number, c.joined, c.timecode (s.store.frame i) s.time.rr⟩
    clips := { s.clips.setSplit (splitDue s.banks.act.clipLimit (c.joined + 1)) with
      records := rs ++ [c.join (c.timecode (s.store.frame i) s.time.rr) (s.store.frame i).capture
        (s.store.frame i).twin.isSome] } }

theorem State.joinOpen_eq {i : RecNo} {rs : List ClipRecord} {c : ClipRecord} {s : State} (h : s.clips.LastOpen rs c) :
    s.joinOpen i = if (s.store.frame i).twin.isSome then s.joined i rs c else (s.joined i rs c).setFlag .proxyGap := by
  unfold State.joinOpen
  simp only [h.openClip, h.modifyOpen]
  rfl

/-- The flaws counted and the pair queued, on any state that agrees with the join on the blocks. -/
theorem State.commit_rest {i : RecNo} {rs : List ClipRecord} {c : ClipRecord} {s t : State} (h : s.clips.LastOpen rs c)
    (ht : (s.joined i rs c).SameBlocks t) :
    ({ t.countFlawed i with store := (t.countFlawed i).store.appendPair i } : State) =
      { t with store := (s.committed i rs c).store, clips := (s.committed i rs c).clips } := by
  have frame : t.store.frame i = { s.store.frame i with
      part := some ⟨c.number, c.joined, c.timecode (s.store.frame i) s.time.rr⟩ } := by
    rw [ht.store]
    show (s.store.writePart i _).frame i = _
    rw [Store.writePart_frame, if_pos (.inl rfl)]
  have last : t.clips.LastOpen rs (c.join (c.timecode (s.store.frame i) s.time.rr) (s.store.frame i).capture
      (s.store.frame i).twin.isSome) := by
    rw [ht.clips]
    exact ⟨rfl, by rw [ClipRecord.join_state]; exact h.isOpen, fun r hr => by
      rw [ClipRecord.join_number]; exact h.others r hr⟩
  have count := last.modifyNumber (ClipRecord.join_number _ _ _ c)
    fun r => { r with flawed := r.flawed + (t.store.frame i).flawCount }
  unfold State.countFlawed
  rw [frame]
  dsimp only
  rw [frame] at count
  rw [count, ht.store, ht.clips]
  rfl

/-- All that committing one entry does: what it writes, and PROXY GAP when it has no twin (R68, R72). -/
theorem State.commitEntry_eq {i : RecNo} {rs : List ClipRecord} {c : ClipRecord} {s : State}
    (h : s.clips.LastOpen rs c) :
    (s.committed i rs c).SameBlocks (s.commitEntry i) ∧
    ((s.store.frame i).twin ≠ none → s.commitEntry i = s.committed i rs c) ∧
    ((s.store.frame i).twin = none → (s.commitEntry i).isSet .proxyGap) ∧
    (∀ g, s.isSet g → (s.commitEntry i).isSet g) := by
  have rest : s.commitEntry i = { s.joinOpen i with
      store := (s.committed i rs c).store, clips := (s.committed i rs c).clips } := by
    refine State.commit_rest h ?_
    rw [State.joinOpen_eq h]
    split
    · exact .refl _
    · exact State.setFlag_same _ _
  rw [State.joinOpen_eq h] at rest
  cases ht : (s.store.frame i).twin with
  | some q =>
    rw [ht, Option.isSome_some, if_pos rfl] at rest
    rw [rest]
    exact ⟨.refl _, fun _ => rfl, nofun, fun g hg => hg⟩
  | none =>
    rw [ht, Option.isSome_none, if_neg Bool.false_ne_true] at rest
    rw [rest]
    have same := State.setFlag_same .proxyGap (s.joined i rs c)
    exact ⟨⟨same.ingress, same.time, rfl, rfl, same.render, same.banks, same.queue, same.pLink, same.xLink, same.pace,
      same.lastProxy, same.drawn, same.pending⟩, fun hn => absurd rfl hn, fun _ => State.setFlag_isSet _ _,
      fun g hg => State.setFlag_mono (s := s.joined i rs c) _ g hg⟩

end Sys2Proof.Machine
end

section
/-! PROOFS. The whole ring committed, and START (R65 to R68, R72, R80). -/

namespace Sys2Proof.Machine

open Sys2Proof

/-- A committed entry's clip record, field by field (R66, R68, R71, R72). -/
theorem ClipRecord.commit_eq (r : FrameRecord) (rr : Nat) (c : ClipRecord) : c.commit r rr =
    { c with
      joined := c.joined + 1
      made := c.made + (if r.twin.isSome then 1 else 0), gapTotal := c.gapTotal + (if r.twin.isNone then 1 else 0)
      flawed := c.flawed + (if !r.flaws.clean then 1 else 0)
      gaps := (c.commit r rr).gaps, overflow := (c.commit r rr).overflow
      startTc := if c.joined = 0 then some (c.timecode r rr) else c.startTc
      firstCapture := if c.joined = 0 then some r.capture else c.firstCapture } := by
  have flaws : r.flawCount = if !r.flaws.clean then 1 else 0 := by
    unfold FrameRecord.flawCount
    cases r.flaws.clean <;> rfl
  unfold ClipRecord.commit
  rw [ClipRecord.join_eq, flaws]
  cases r.twin <;> rfl

/-- A count below the frames per day, raised by 1 (R24, R25). -/
theorem nextCount_eq {perDay n : Nat} (h : n < perDay) : nextCount perDay n = (n + 1) % perDay := by
  unfold nextCount
  split
  · rw [show n + 1 = perDay by omega, Nat.mod_self]
  · rw [Nat.mod_eq_of_lt (by omega)]

/-- What committing a list of entries does to the part, the open clip `c` becoming `c'` (R25, R26, R68, R71, R72, R80). -/
structure State.RingCommitted (ring : List RecNo) (rs : List ClipRecord) (c c' : ClipRecord) (x y : State) : Prop where
  clip    : c' = { c with
    joined := c.joined + ring.length
    made := c.made + ring.countP (fun p => (x.store.frame p).twin.isSome)
    gapTotal := c.gapTotal + ring.countP (fun p => (x.store.frame p).twin.isNone)
    flawed := c.flawed + ring.countP (fun p => !(x.store.frame p).flaws.clean)
    gaps := c'.gaps, overflow := c'.overflow, startTc := c'.startTc, firstCapture := c'.firstCapture }
  startTc : c'.startTc = (if c.joined = 0
    then ring.head?.map fun p => c.timecode (x.store.frame p) x.time.rr else none).or c.startTc
  capture : c'.firstCapture = (if c.joined = 0
    then ring.head?.map fun p => (x.store.frame p).capture else none).or c.firstCapture
  clips   : y.clips = { x.clips with
    records := rs ++ [c'], ring := []
    splitPending := splitDue x.banks.act.clipLimit (c.joined + ring.length)
    deferralReported := y.clips.deferralReported }
  fields  : ∀ j, y.store.frame j = { x.store.frame j with part := (y.store.frame j).part }
  others  : ∀ j, j ∉ ring → (∀ p ∈ ring, (x.store.frame p).twin ≠ some j) → y.store.frame j = x.store.frame j
  parts   : ∀ (n : Nat) (h : n < ring.length),
    (y.store.frame ring[n]).part =
      some ⟨c.number, c.joined + n, c.timecode (x.store.frame ring[n]) ((x.time.rr + n) % x.time.perDay)⟩ ∧
    ∀ q, (x.store.frame ring[n]).twin = some q → (y.store.frame q).part = (y.store.frame ring[n]).part
  time    : y.time = { x.time with rr := (x.time.rr + ring.length) % x.time.perDay }
  pq      : y.store.pq = x.store.pq ++ ring
  xq      : y.store.xq = x.store.xq ++ ring.filterMap (fun p => (x.store.frame p).twin)
  pages   : y.store.freePages = x.store.freePages
  gap     : (∃ p ∈ ring, (x.store.frame p).twin = none) → y.isSet .proxyGap
  mono    : ∀ g, x.isSet g → y.isSet g
  quiet   : (∀ p ∈ ring, (x.store.frame p).twin ≠ none) → y.flags = x.flags ∧ y.dir = x.dir
  ingress : y.ingress = x.ingress
  render  : y.render = x.render
  banks   : y.banks = x.banks
  queue   : y.dir.queue = x.dir.queue
  pLink   : y.pLink = x.pLink
  xLink   : y.xLink = x.xLink
  pace    : y.pace = x.pace
  proxy   : y.lastProxy = x.lastProxy
  pending : y.pending = x.pending

/-- What committing the oldest entry does, the entries of `ring` still behind it. -/
structure State.EntryCommitted (i : RecNo) (ring : List RecNo) (rs : List ClipRecord) (c c1 : ClipRecord)
    (x x1 : State) : Prop where
  clip   : c1 = c.commit (x.store.frame i) x.time.rr
  clips  : x1.clips = { x.clips.setSplit (splitDue x.banks.act.clipLimit (c.joined + 1)) with
    ring := ring, records := rs ++ [c1] }
  frame  : ∀ j, x1.store.frame j = if j = i ∨ (x.store.frame i).twin = some j
    then { x.store.frame j with part := some ⟨c.number, c.joined, c.timecode (x.store.frame i) x.time.rr⟩ }
    else x.store.frame j
  pq     : x1.store.pq = x.store.pq ++ [i]
  xq     : x1.store.xq = x.store.xq ++ (x.store.frame i).twin.toList
  pages  : x1.store.freePages = x.store.freePages
  time   : x1.time = { x.time with rr := nextCount x.time.perDay x.time.rr }
  gap    : (x.store.frame i).twin = none → x1.isSet .proxyGap
  mono   : ∀ g, x.isSet g → x1.isSet g
  quiet  : (x.store.frame i).twin ≠ none → x1.flags = x.flags ∧ x1.dir = x.dir
  blocks : State.SameBlocks { x with time := x1.time, store := x1.store, clips := x1.clips } x1

theorem State.commitEntry_committed {i : RecNo} {ring : List RecNo} {rs : List ClipRecord} {c : ClipRecord} {x : State}
    (last : x.clips.LastOpen rs c) : State.EntryCommitted i ring rs c (c.commit (x.store.frame i) x.time.rr) x
      (State.commitEntry i { x with clips := { x.clips with ring := ring } }) := by
  obtain ⟨same, whole, gap, mono⟩ := State.commitEntry_eq (i := i) (rs := rs) (c := c)
    (s := { x with clips := { x.clips with ring := ring } }) ⟨last.records, last.isOpen, last.others⟩
  generalize State.commitEntry i { x with clips := { x.clips with ring := ring } } = x1 at same whole gap mono ⊢
  obtain ⟨pq, xq, pages⟩ := Store.writePart_queues i
    ⟨c.number, c.joined, c.timecode (x.store.frame i) x.time.rr⟩ x.store
  have frame := fun j => Store.writePart_frame i j
    ⟨c.number, c.joined, c.timecode (x.store.frame i) x.time.rr⟩ x.store
  have twin : ((x.store.writePart i ⟨c.number, c.joined, c.timecode (x.store.frame i) x.time.rr⟩).frame i).twin =
      (x.store.frame i).twin := by rw [frame, if_pos (.inl rfl)]
  have store : x1.store = Store.appendPair i
      (x.store.writePart i ⟨c.number, c.joined, c.timecode (x.store.frame i) x.time.rr⟩) := same.store
  rw [Store.appendPair_cases, twin, pq, xq] at store
  exact {
    clip := rfl, clips := same.clips
    frame := fun j => by rw [store]; exact frame j
    pq := by rw [store], xq := by rw [store], pages := by rw [store]; exact pages
    time := same.time, gap := gap, mono := mono
    quiet := fun h => by rw [whole h]; exact ⟨rfl, rfl⟩
    blocks := ⟨same.ingress, rfl, rfl, rfl, same.render, same.banks, same.queue, same.pLink, same.xLink, same.pace,
      same.lastProxy, same.drawn, same.pending⟩ }

section
variable {i : RecNo} {ring : List RecNo} {rs : List ClipRecord} {c c1 : ClipRecord} {x x1 : State}

/-- Committing an entry changes no field of a frame record but its clip part. -/
theorem State.EntryCommitted.fields (e : State.EntryCommitted i ring rs c c1 x x1) (j : RecNo) :
    x1.store.frame j = { x.store.frame j with part := (x1.store.frame j).part } := by
  rw [e.frame]
  split <;> rfl

theorem State.EntryCommitted.twin (e : State.EntryCommitted i ring rs c c1 x x1) (j : RecNo) :
    (x1.store.frame j).twin = (x.store.frame j).twin := by rw [e.fields]

theorem State.EntryCommitted.stamp (e : State.EntryCommitted i ring rs c c1 x x1) (j : RecNo) :
    (x1.store.frame j).stamp = (x.store.frame j).stamp := by rw [e.fields]

theorem State.EntryCommitted.flaws (e : State.EntryCommitted i ring rs c c1 x x1) (j : RecNo) :
    (x1.store.frame j).flaws = (x.store.frame j).flaws := by rw [e.fields]

theorem State.EntryCommitted.capture (e : State.EntryCommitted i ring rs c c1 x x1) (j : RecNo) :
    (x1.store.frame j).capture = (x.store.frame j).capture := by rw [e.fields]

theorem State.EntryCommitted.clip_eq (e : State.EntryCommitted i ring rs c c1 x x1) : c1 = { c with
    joined := c.joined + 1
    made := c.made + (if (x.store.frame i).twin.isSome then 1 else 0)
    gapTotal := c.gapTotal + (if (x.store.frame i).twin.isNone then 1 else 0)
    flawed := c.flawed + (if !(x.store.frame i).flaws.clean then 1 else 0)
    gaps := c1.gaps, overflow := c1.overflow
    startTc := if c.joined = 0 then some (c.timecode (x.store.frame i) x.time.rr) else c.startTc
    firstCapture := if c.joined = 0 then some (x.store.frame i).capture else c.firstCapture } := by
  have h := ClipRecord.commit_eq (x.store.frame i) x.time.rr c
  rwa [← e.clip] at h

theorem State.EntryCommitted.joined (e : State.EntryCommitted i ring rs c c1 x x1) : c1.joined = c.joined + 1 := by
  rw [e.clip_eq]

theorem State.EntryCommitted.number (e : State.EntryCommitted i ring rs c c1 x x1) : c1.number = c.number := by
  rw [e.clip_eq]

theorem State.EntryCommitted.isOpen (e : State.EntryCommitted i ring rs c c1 x x1) : c1.state = c.state := by
  rw [e.clip_eq]

theorem State.EntryCommitted.timecode (e : State.EntryCommitted i ring rs c c1 x x1) (j : RecNo) (k : Nat) :
    c1.timecode (x1.store.frame j) k = c.timecode (x.store.frame j) k := by
  have mode : c1.mode = c.mode := by rw [e.clip_eq]
  rw [ClipRecord.timecode, ClipRecord.timecode, mode, e.stamp]

theorem State.EntryCommitted.perDay (e : State.EntryCommitted i ring rs c c1 x x1) :
    x1.time.perDay = x.time.perDay := by rw [e.time]; rfl

theorem State.EntryCommitted.rr (e : State.EntryCommitted i ring rs c c1 x x1) (h : x.time.rr < x.time.perDay) :
    x1.time.rr = (x.time.rr + 1) % x.time.perDay := by rw [e.time, ← nextCount_eq h]

/-- Of the records that stand in no entry's place: an entry's own record and its twin. -/
theorem State.EntryCommitted.frame_other (e : State.EntryCommitted i ring rs c c1 x x1) {j : RecNo} (h : j ≠ i)
    (ht : (x.store.frame i).twin ≠ some j) : x1.store.frame j = x.store.frame j := by
  rw [e.frame, if_neg (not_or.mpr ⟨h, ht⟩)]

theorem State.EntryCommitted.part (e : State.EntryCommitted i ring rs c c1 x x1) {j : RecNo}
    (h : j = i ∨ (x.store.frame i).twin = some j) :
    (x1.store.frame j).part = some ⟨c.number, c.joined, c.timecode (x.store.frame i) x.time.rr⟩ := by
  rw [e.frame, if_pos h]

end

/-- The entries of a ring can be committed: no record stands in it twice, and a twin belongs to one entry alone. -/
structure Store.RingSound (ring : List RecNo) (s : Store) : Prop where
  nodup : ring.Nodup
  twins : ∀ p ∈ ring, ∀ q, (s.frame p).twin = some q → q ∉ ring ∧ (s.frame q).twin = some p

section
variable {i : RecNo} {ring : List RecNo} {rs : List ClipRecord} {c c1 c' : ClipRecord} {x x1 y : State}

theorem Store.RingSound.tail (h : x.store.RingSound (i :: ring)) (e : State.EntryCommitted i ring rs c c1 x x1) :
    x1.store.RingSound ring := by
  refine ⟨(List.nodup_cons.mp h.nodup).2, fun p hp q hq => ?_⟩
  rw [e.twin] at hq ⊢
  obtain ⟨notIn, back⟩ := h.twins p (List.mem_cons_of_mem _ hp) q hq
  exact ⟨fun hm => notIn (List.mem_cons_of_mem _ hm), back⟩

/-- The records of the first entry stand in no later entry's place. -/
theorem State.RingCommitted.frame_first (R : State.RingCommitted ring rs c1 c' x1 y)
    (e : State.EntryCommitted i ring rs c c1 x x1) (h : x.store.RingSound (i :: ring)) {j : RecNo}
    (hj : j = i ∨ (x.store.frame i).twin = some j) : y.store.frame j = x1.store.frame j := by
  have hi := (List.nodup_cons.mp h.nodup).1
  rcases hj with rfl | hj
  · refine R.others _ hi fun p hp ht => ?_
    rw [e.twin] at ht
    exact (h.twins p (List.mem_cons_of_mem _ hp) _ ht).1 List.mem_cons_self
  · obtain ⟨notIn, back⟩ := h.twins i List.mem_cons_self j hj
    refine R.others _ (fun hm => notIn (List.mem_cons_of_mem _ hm)) fun p hp ht => ?_
    rw [e.twin] at ht
    have same := (h.twins p (List.mem_cons_of_mem _ hp) _ ht).2
    rw [back, Option.some.injEq] at same
    exact hi (same ▸ hp)

/-- The clip parts of an entry and those behind it. -/
theorem State.RingCommitted.cons_parts (R : State.RingCommitted ring rs c1 c' x1 y)
    (e : State.EntryCommitted i ring rs c c1 x x1) (h : x.store.RingSound (i :: ring)) (rr : x.time.rr < x.time.perDay)
    (n : Nat) (hn : n < (i :: ring).length) :
    (y.store.frame (i :: ring)[n]).part = some ⟨c.number, c.joined + n,
      c.timecode (x.store.frame (i :: ring)[n]) ((x.time.rr + n) % x.time.perDay)⟩ ∧
    ∀ q, (x.store.frame (i :: ring)[n]).twin = some q →
      (y.store.frame q).part = (y.store.frame (i :: ring)[n]).part := by
  cases n with
  | zero =>
    simp only [List.getElem_cons_zero, Nat.add_zero, Nat.mod_eq_of_lt rr]
    have first := R.frame_first e h (.inl rfl)
    refine ⟨by rw [first, e.part (.inl rfl)], fun q hq => ?_⟩
    rw [R.frame_first e h (.inr hq), first, e.part (.inr hq), e.part (.inl rfl)]
  | succ n =>
    obtain ⟨part, twin⟩ := R.parts n (Nat.lt_of_succ_lt_succ hn)
    rw [e.timecode, e.number, e.joined, e.perDay, e.rr rr, Nat.mod_add_mod, Nat.add_right_comm, Nat.add_assoc] at part
    simp only [List.getElem_cons_succ]
    refine ⟨by rw [part, Nat.add_right_comm x.time.rr, Nat.add_assoc], fun q hq => twin q ?_⟩
    rwa [e.twin]

/-- An entry committed, then those behind it. -/
theorem State.RingCommitted.cons (R : State.RingCommitted ring rs c1 c' x1 y)
    (e : State.EntryCommitted i ring rs c c1 x x1) (h : x.store.RingSound (i :: ring))
    (rr : x.time.rr < x.time.perDay) : State.RingCommitted (i :: ring) rs c c' x y where
  clip := by
    refine R.clip.trans ?_
    rw [e.clip_eq]
    simp only [e.twin, e.flaws, List.countP_cons, List.length_cons]
    congr 1 <;> omega
  startTc := by
    have := R.startTc
    rw [if_neg (by rw [e.joined]; omega), e.clip_eq] at this
    rw [this]
    split <;> rfl
  capture := by
    have := R.capture
    rw [if_neg (by rw [e.joined]; omega), e.clip_eq] at this
    rw [this]
    split <;> rfl
  clips := by
    refine R.clips.trans ?_
    rw [e.clips, e.joined, e.blocks.banks, List.length_cons, Nat.add_right_comm c.joined]
    rfl
  fields := fun j => (R.fields j).trans (by rw [e.fields])
  others := fun j hj ht => by
    obtain ⟨hi, hr⟩ := not_or.mp (mt List.mem_cons.mpr hj)
    rw [R.others j hr fun p hp => by rw [e.twin]; exact ht p (List.mem_cons_of_mem _ hp)]
    exact e.frame_other hi (ht i List.mem_cons_self)
  parts := R.cons_parts e h rr
  time := by
    rw [R.time, e.rr rr, e.perDay, Nat.mod_add_mod, e.time, List.length_cons, Nat.add_assoc, Nat.add_comm 1]
  pq := by rw [R.pq, e.pq, List.append_assoc, List.singleton_append]
  xq := by
    rw [R.xq, e.xq]
    simp only [e.twin, List.filterMap_cons]
    cases (x.store.frame i).twin <;> simp
  pages := R.pages.trans e.pages
  gap := by
    rintro ⟨p, hp, ht⟩
    rcases List.mem_cons.mp hp with rfl | hp
    · exact R.mono _ (e.gap ht)
    · exact R.gap ⟨p, hp, by rw [e.twin]; exact ht⟩
  mono := fun g hg => R.mono g (e.mono g hg)
  quiet := fun ht => by
    obtain ⟨flags, dir⟩ := R.quiet fun p hp => by rw [e.twin]; exact ht p (List.mem_cons_of_mem _ hp)
    obtain ⟨flags1, dir1⟩ := e.quiet (ht i List.mem_cons_self)
    exact ⟨flags.trans flags1, dir.trans dir1⟩
  ingress := R.ingress.trans e.blocks.ingress
  render := R.render.trans e.blocks.render
  banks := R.banks.trans e.blocks.banks
  queue := R.queue.trans e.blocks.queue
  pLink := R.pLink.trans e.blocks.pLink
  xLink := R.xLink.trans e.blocks.xLink
  pace := R.pace.trans e.blocks.pace
  proxy := R.proxy.trans e.blocks.lastProxy
  pending := R.pending.trans e.blocks.pending

end

/-- No entry: nothing changes. -/
theorem State.RingCommitted.nil {rs : List ClipRecord} {c : ClipRecord} {x : State} (last : x.clips.LastOpen rs c)
    (hring : x.clips.ring = []) (split : x.clips.splitPending = splitDue x.banks.act.clipLimit c.joined)
    (rr : x.time.rr < x.time.perDay) : State.RingCommitted [] rs c c x x := by
  constructor <;> try (intros; rfl)
  · simp
  · simp
  · rw [List.length_nil, Nat.add_zero, ← split, ← hring, ← last.records]
  · intro n h; exact absurd h (Nat.not_lt_zero _)
  · rw [List.length_nil, Nat.add_zero, Nat.mod_eq_of_lt rr]
  · simp
  · simp
  · rintro ⟨p, hp, -⟩; exact absurd hp List.not_mem_nil
  · exact fun g h => h
  · exact fun _ => ⟨rfl, rfl⟩

/-- The ring committed, entry by entry, oldest first (R68). -/
theorem State.commitRing_committed (ring : List RecNo) (rs : List ClipRecord) (c : ClipRecord) (x : State)
    (last : x.clips.LastOpen rs c) (hring : x.clips.ring = ring)
    (split : x.clips.splitPending = splitDue x.banks.act.clipLimit c.joined) (rr : x.time.rr < x.time.perDay)
    (sound : x.store.RingSound ring) : ∃ c', State.RingCommitted ring rs c c' x (x.commitRing ring) := by
  induction ring generalizing x c with
  | nil => exact ⟨c, .nil last hring split rr⟩
  | cons i ring ih =>
    have e := State.commitEntry_committed (i := i) (ring := ring) last
    have hy : x.commitRing (i :: ring) =
      (State.commitEntry i { x with clips := { x.clips with ring := ring } }).commitRing ring := rfl
    rw [hy]
    generalize State.commitEntry i { x with clips := { x.clips with ring := ring } } = x1 at e ⊢
    obtain ⟨c', R⟩ := ih _ x1
      ⟨by rw [e.clips], by rw [e.isOpen]; exact last.isOpen, fun r hr => by rw [e.number]; exact last.others r hr⟩
      (by rw [e.clips]) (by rw [e.clips, e.blocks.banks, e.joined]; rfl)
      (by rw [e.perDay, e.rr rr]; exact Nat.mod_lt _ x.time.perDay_pos) (sound.tail e)
    exact ⟨c', R.cons e sound rr⟩

/-! ### START -/

/-- The counter after a clip opens: a number of its range that no record has (R67). -/
theorem State.openRecord_nextNumber {s : State} (room : s.clips.records.length < 4) :
    1 ≤ (s.openRecord none).clips.nextNumber ∧ (s.openRecord none).clips.nextNumber ≤ 9999 ∧
      (s.openRecord none).clips.nextNumber ∉ (s.openRecord none).clips.records.map (·.number) := by
  have range := numberAfter_range s.clips.nextNumber
  have len : (s.clips.records ++ [newClip none s]).length = s.clips.records.length + 1 := by simp
  exact advanceNumber_free range.1 range.2 (by rw [List.length_map]; omega) (by omega)

theorem State.openRecord_last {s : State} (noOpen : s.clips.hasOpen = false)
    (free : ∀ r ∈ s.clips.records, r.number ≠ s.clips.nextNumber) :
    (s.openRecord none).clips.LastOpen s.clips.records (newClip none s) :=
  ⟨rfl, rfl, fun r hr => ⟨fun h => by
    have := List.any_eq_false.mp noOpen r hr
    rw [h] at this
    exact this rfl, free r hr⟩⟩

/-- A clip without a frame is not due for a split (R80). -/
theorem splitDue_zero (limit : Nat) : splitDue limit 0 = false := by
  cases limit <;> rfl

/-- START with its refusals in order (R65). -/
theorem exec_start (tag : Byte) (s : State) : exec (.start tag) s = .next (s.takeStart tag) := rfl

theorem State.takeStart_accepted {s : State} (tag : Byte) (stopped : s.clips.recordState ≠ .recording)
    (valid : s.banks.act.valid = true) (room : s.clips.records.length < 4) :
    s.takeStart tag = s.startClip.respond tag DirCode.start.word .done 0 := by
  have hroom : s.clips.roomForClip = true := decide_eq_true room
  rw [State.takeStart, if_neg stopped, valid, hroom]
  rfl

theorem State.takeStart_refused (tag : Byte) (s : State) :
    (s.clips.recordState = .recording → s.Offered (.reply tag .start .refNotNow) (s.takeStart tag)) ∧
    (s.clips.recordState ≠ .recording →
      (s.banks.act.valid = false → s.Offered (.reply tag .start .refNotReady) (s.takeStart tag)) ∧
      (s.banks.act.valid = true → 4 ≤ s.clips.records.length →
        s.Offered (.reply tag .start .refBusy) (s.takeStart tag))) := by
  refine ⟨fun h => ?_, fun h => ⟨fun hv => ?_, fun hv hl => ?_⟩⟩
  · rw [State.takeStart, if_pos h]
    exact State.respond_offered _ _ _ _ _
  · rw [State.takeStart, if_neg h, hv]
    exact State.respond_offered _ _ _ _ _
  · have full : s.clips.roomForClip = false := decide_eq_false (Nat.not_lt.mpr hl)
    rw [State.takeStart, if_neg h, hv, full]
    exact State.respond_offered _ _ _ _ _

/-- Settles O39: the refusals by their tests, and the commit by induction over the entries of the ring. -/
theorem startOpensAClipAndCommitsTheRing : Obligations.StartOpensAClipAndCommitsTheRing := by
  refine ⟨fun tag s => ⟨_, exec_start tag s, State.takeStart_refused tag s⟩, ?_⟩
  intro tag s stopped valid room noOpen rr nodup free twins
  obtain ⟨c, R⟩ := State.commitRing_committed s.clips.ring s.clips.records (newClip none s) (s.openRecord none)
    (State.openRecord_last noOpen free) rfl (splitDue_zero _).symm rr ⟨nodup, twins⟩
  obtain ⟨low, high, unused⟩ := State.openRecord_nextNumber room
  have hu : (s.openRecord none).commitRing s.clips.ring = s.startClip := rfl
  rw [hu] at R
  have clip : c = { newClip none s with
      joined := s.clips.ring.length
      made := s.clips.ring.countP (fun p => (s.store.frame p).twin.isSome)
      gapTotal := s.clips.ring.countP (fun p => (s.store.frame p).twin.isNone)
      flawed := s.clips.ring.countP (fun p => !(s.store.frame p).flaws.clean)
      gaps := c.gaps, overflow := c.overflow, startTc := c.startTc, firstCapture := c.firstCapture } := by
    have h := R.clip
    simp only [newClip, Nat.zero_add] at h
    exact h
  have number : c.number = s.clips.nextNumber := by rw [clip]; rfl
  have clips := R.clips
  have next : s.startClip.clips.nextNumber = (s.openRecord none).clips.nextNumber := by rw [clips]
  have records : s.startClip.clips.records = s.clips.records ++ [c] := by rw [clips]
  refine ⟨_, s.startClip, c, exec_start tag s, ?_, records, by rw [clip]; rfl, number, by rw [clip]; rfl,
    by rw [clip]; rfl, by rw [clip]; rfl, by rw [clip]; rfl, by rw [clip]; rfl, by rw [clip]; rfl, by rw [clip],
    by rw [clip]; rfl, by rw [clip]; rfl, by rw [clip]; rfl, by rw [clip]; rfl, by rw [clip], by rw [clip],
    by rw [clip], ?_, ?_, ?_, R.time, R.pq, R.xq, R.pages, by rw [clips], by rw [clips]; rfl, ?_, ?_, ?_, R.gap, R.quiet,
    R.ingress, by rw [clips]; rfl, by rw [clips]; rfl, R.render, R.banks, R.queue, R.pLink, R.xLink, R.pace, R.proxy,
    R.pending⟩
  · rw [State.takeStart_accepted tag stopped valid room]
    exact State.respond_offered _ _ _ _ _
  · exact R.capture.trans (Option.or_none ..)
  · exact R.startTc.trans (Option.or_none ..)
  · intro n h
    obtain ⟨part, twin⟩ := R.parts n h
    refine ⟨part.trans ?_, twin⟩
    rw [number]
    simp only [newClip, Nat.zero_add]
    rfl
  · rw [clips]
    simp only [newClip, Nat.zero_add]
    rfl
  · intro r hr
    rw [next]
    rw [records, List.mem_append, List.mem_singleton] at hr
    refine fun heq => unused (List.mem_map.mpr ?_)
    rcases hr with hr | rfl
    · exact ⟨r, List.mem_append_left _ hr, heq⟩
    · exact ⟨newClip none s, List.mem_append_right _ List.mem_cons_self, by rw [← heq, number]; rfl⟩
  · exact fun _ _ => by rw [next]; exact ⟨low, high⟩

end Sys2Proof.Machine
end

section
/-! PROOFS. A LINE placed by its number, the rows it forms, and the fill that acts as a LINE (R11, R12, R89, R96). -/

namespace Sys2Proof.Machine

open Sys2Proof

/-! ### The words of a LINE (R11, R12) -/

/-- A payload word is the packet word after the line number, while the CRC comes behind it. -/
theorem linePayload_getD (rest : List Word) (i : Nat) :
    (linePayload rest).getD i 0 = if i + 2 < rest.length then rest.getD (i + 1) 0 else 0 := by
  unfold linePayload
  simp only [List.getD_eq_getElem?_getD, List.getElem?_dropLast, List.length_tail, List.getElem?_tail]
  by_cases h : i + 2 < rest.length
  · rw [if_pos h, if_pos (by omega)]
  · rw [if_neg h, if_neg (by omega)]; rfl

theorem lineSamples_eq (width : Nat) (rest : List Word) : lineSamples width rest =
    (List.range (3 * width)).map fun i => if i + 2 < rest.length then (rest.getD (i + 1) 0).toNat % 4096 else 0 := by
  refine List.map_congr_left fun i _ => ?_
  rw [linePayload_getD]
  split <;> rfl

/-- A LINE that holds a line number is sound when its verdict is good and it has 3 × W samples (R12). -/
theorem lineDamaged_eq (width : Nat) {rest : List Word} (h : 2 ≤ rest.length) : lineDamaged width rest =
    !decide (goodVerdict (Kind.line.code :: rest) = true ∧ rest.length = 3 * width + 2) := by
  have len : (linePayload rest).length = rest.length - 2 := by simp [linePayload]; omega
  have same : (rest.length - 2 = 3 * width) ↔ rest.length = 3 * width + 2 := by omega
  unfold lineDamaged
  rw [len]
  by_cases hv : goodVerdict (Kind.line.code :: rest) = true <;> by_cases hl : rest.length = 3 * width + 2 <;>
    simp [hv, hl, same, bne, BEq.beq]

/-! ### The rows a crop line forms (R95, R96) -/

/-- Forming rows does not change how a later row comes out. -/
theorem proxyRow_nextRow (banks : Banks) (u : FrameSetup) (n r : Nat) :
    proxyRow banks { u with nextRow := n } r = proxyRow banks u r := rfl

/-- The rows formed are those from next row on, in increasing order (R96). -/
theorem formRows_formed (banks : Banks) (arrived n : Nat) (u : FrameSetup) :
    (formRows banks arrived n u).2 = (List.range ((formRows banks arrived n u).1.nextRow - u.nextRow)).map
      fun k => proxyRow banks u (u.nextRow + k) := by
  induction n generalizing u with
  | zero => simp [formRows]
  | succ n ih =>
    obtain ⟨moved, -, -⟩ := formRows_rows banks arrived n { u with nextRow := u.nextRow + 1 }
    have := ih { u with nextRow := u.nextRow + 1 }
    unfold formRows
    split
    · dsimp only at moved this ⊢
      have count : (formRows banks arrived n { u with nextRow := u.nextRow + 1 }).1.nextRow - u.nextRow =
          (formRows banks arrived n { u with nextRow := u.nextRow + 1 }).1.nextRow - (u.nextRow + 1) + 1 := by omega
      rw [count, List.range_succ_eq_map, List.map_cons, List.map_map, this]
      simp only [proxyRow_nextRow, Nat.add_zero, Function.comp_def, Nat.succ_eq_add_one, Nat.add_right_comm _ 1,
        Nat.add_assoc]
    · simp

/-- Every row formed has its last needed crop row (R96). -/
theorem formRows_arrived (banks : Banks) (arrived n r : Nat) (u : FrameSetup) (h : u.nextRow ≤ r)
    (k : r < (formRows banks arrived n u).1.nextRow) : r < u.ho ∧ u.lastNeeded r ≤ arrived := by
  induction n generalizing u with
  | zero => exact absurd k (Nat.not_lt.mpr h)
  | succ n ih =>
    unfold formRows at k
    split at k
    next hr =>
      rcases Nat.eq_or_lt_of_le h with rfl | lt
      · exact hr
      · exact ih { u with nextRow := u.nextRow + 1 } lt k
    next => exact absurd k (Nat.not_lt.mpr h)

/-- The row at which the forming stops still needs a crop row (R96). -/
theorem formRows_waits (banks : Banks) (arrived n : Nat) (u : FrameSetup) (h : u.ho ≤ u.nextRow + n)
    (k : (formRows banks arrived n u).1.nextRow < u.ho) :
    arrived < u.lastNeeded (formRows banks arrived n u).1.nextRow := by
  induction n generalizing u with
  | zero => exact absurd k (Nat.not_lt.mpr h)
  | succ n ih =>
    unfold formRows at k ⊢
    split at k
    next hr =>
      rw [if_pos hr]
      exact ih { u with nextRow := u.nextRow + 1 } (by dsimp only; omega) k
    next hr =>
      rw [if_neg hr]
      exact Nat.not_le.mp fun le => hr ⟨k, le⟩

/-- A tap clamped into the crop, in integers (R91). -/
theorem clampTap_eq (position : Int) (n : Nat) :
    clampTap position n = (max 0 (min ((n : Int) - 1) position)).toNat := by
  unfold clampTap
  omega

/-- The crop rows a proxy row takes (R91, R95). -/
theorem FrameSetup.mem_rowTaps {u : FrameSetup} {r row : Nat} : row ∈ u.rowTaps r ↔
    ∃ k : Nat, k < 6 ∧ row = (max 0 (min ((u.hc : Int) - 1)
      (((u.oy + r * u.sy) / 65536 : Nat) + (k : Int) - 2))).toNat := by
  unfold FrameSetup.rowTaps taps
  simp only [List.mem_map, List.mem_range, clampTap_eq, eq_comm]
  rfl

/-- A crop row is still needed when a row not yet formed takes it (R96). -/
theorem FrameSetup.needs_iff {u : FrameSetup} {row : Nat} :
    u.needs row = true ↔ ∃ r, u.nextRow ≤ r ∧ r < u.ho ∧ row ∈ u.rowTaps r := by
  unfold FrameSetup.needs
  simp only [List.any_eq_true, List.mem_range, Bool.and_eq_true, decide_eq_true_eq, List.contains_iff_mem]
  exact ⟨fun ⟨r, h, n, m⟩ => ⟨r, n, h, m⟩, fun ⟨r, n, h, m⟩ => ⟨r, h, n, m⟩⟩

end Sys2Proof.Machine
end

section
/-! PROOFS. Filling, completing and setting a flag do not read the frame-in-progress state (R14, R16, R161). -/

namespace Sys2Proof.Machine

open Sys2Proof

/-! ### Setting a flag beside the frame-in-progress state: a snapshot holds the link state alone (R156, R167) -/

theorem State.markSet_setFrame (f : Flag) (fr : FrameState) (s : State) :
    (s.setFrame fr).markSet f = (s.markSet f).setFrame fr := rfl

theorem State.raiseClass_setFrame (c : NoticeClass) (fr : FrameState) (s : State) :
    (s.setFrame fr).raiseClass c = (s.raiseClass c).setFrame fr := by cases c <;> rfl

theorem State.placeMarker_setFrame (fr : FrameState) (s : State) :
    (s.setFrame fr).placeMarker = s.placeMarker.setFrame fr := by
  show (if s.dir.reports.length < Config.reportQueueDepth then _ else _) = _
  unfold State.placeMarker
  split
  · show (match s.flags.markerClass with | .urgent => _ | .routine => _) = _
    cases s.flags.markerClass <;> rfl
  · rfl

theorem State.promoteMarker_setFrame (fr : FrameState) (s : State) :
    (s.setFrame fr).promoteMarker = s.promoteMarker.setFrame fr := by
  unfold State.promoteMarker
  show (match s.dir.reports.find? Report.isMarker with | some m => _ | none => _) = _
  cases s.dir.reports.find? Report.isMarker <;> rfl

theorem State.callNotice_setFrame (c : NoticeClass) (fr : FrameState) (s : State) :
    (s.setFrame fr).callNotice c = (s.callNotice c).setFrame fr := by
  unfold State.callNotice
  simp only [State.raiseClass_setFrame, State.placeMarker_setFrame, State.promoteMarker_setFrame]
  rw [show (s.setFrame fr).markerPlace = s.markerPlace from rfl,
    show (s.setFrame fr).flags = s.flags from rfl]
  cases s.markerPlace with
  | queued => cases c <;> cases s.flags.markerClass <;> rfl
  | nowhere | owed | inFlight => rfl

theorem State.setFlagNotice_setFrame (f : Flag) (fr : FrameState) (s : State) :
    (s.setFrame fr).setFlagNotice f = (s.setFlagNotice f).setFrame fr := by
  unfold State.setFlagNotice
  rw [State.markSet_setFrame, State.callNotice_setFrame]
  exact (apply_ite (State.setFrame fr) _ _ _).symm

theorem State.capture_setFrame (f : Flag) (fr : FrameState) (s : State) :
    (s.setFrame fr).capture f = (s.capture f).setFrame fr :=
  State.setFlagNotice_setFrame .snapshotTaken fr
    { s with flags := { s.flags with snapshot := .captured (s.snapshotRecord f) } }

theorem State.setFlag_setFrame (f : Flag) (fr : FrameState) (s : State) :
    (s.setFrame fr).setFlag f = (s.setFlag f).setFrame fr := by
  unfold State.setFlag
  rw [State.setFlagNotice_setFrame]
  dsimp only
  rw [State.capture_setFrame, show ((s.setFlagNotice f).setFrame fr).flags = (s.setFlagNotice f).flags from rfl]
  cases (s.setFlagNotice f).flags.snapshot with
  | armed triggers => exact (apply_ite (State.setFrame fr) _ _ _).symm
  | disarmed => rfl
  | captured => rfl

/-! ### Placing and completing a frame -/

theorem State.countFlawed_setFrame (i : RecNo) (fr : FrameState) (s : State) :
    (s.setFrame fr).countFlawed i = (s.countFlawed i).setFrame fr := by
  unfold State.countFlawed
  rw [show (s.setFrame fr).store = s.store from rfl]
  cases (s.store.frame i).part <;> rfl

theorem State.releaseOldest_setFrame (fr : FrameState) (s : State) :
    (s.setFrame fr).releaseOldest = s.releaseOldest.setFrame fr := by
  unfold State.releaseOldest
  rw [show (s.setFrame fr).clips = s.clips from rfl]
  cases s.clips.ring <;> rfl

theorem State.placeInRing_setFrame (i : RecNo) (fr : FrameState) (s : State) :
    (s.setFrame fr).placeInRing i = (s.placeInRing i).setFrame fr := by
  unfold State.placeInRing
  rw [State.releaseOldest_setFrame]
  dsimp only
  rw [show (s.setFrame fr).clips = s.clips from rfl, show (s.setFrame fr).banks = s.banks from rfl]
  split
  · rfl
  · split <;> rfl

theorem State.placeFrame_setFrame (i : RecNo) (fr : FrameState) (s : State) :
    (s.setFrame fr).placeFrame i = (s.placeFrame i).setFrame fr := by
  unfold State.placeFrame
  rw [State.countFlawed_setFrame, State.placeInRing_setFrame, show (s.setFrame fr).store = s.store from rfl]
  cases (s.store.frame i).part <;> rfl

theorem State.completeFrame_setFrame (tr : Bool) (f : FrameInProgress) (fr : FrameState) (s : State) :
    (s.setFrame fr).completeFrame tr f = (s.completeFrame tr f).setFrame fr := by
  have placed := State.placeFrame_setFrame f.principal fr { s with
    store := s.store.complete f (f.flaws tr), render := { s.render with setup := none } }
  refine (congrArg (fun x : State => if (f.flaws tr).clean then x else x.setFlag .flawedFrame) placed).trans ?_
  dsimp only
  rw [State.setFlag_setFrame]
  exact (apply_ite (State.setFrame fr) _ _ _).symm

/-! ### Delivering and filling lines -/

theorem State.deliver_ingress (f : FrameInProgress) (n : Nat) (line : Samples) (i : Ingress) (s : State) :
    State.deliver f n line { s with ingress := i } = { s.deliver f n line with ingress := i } := by
  unfold State.deliver State.renderLine
  dsimp only
  cases s.render.setup <;> rfl

theorem State.deliver_setFrame (f : FrameInProgress) (n : Nat) (line : Samples) (fr : FrameState) (s : State) :
    (s.setFrame fr).deliver f n line = (s.deliver f n line).setFrame fr := by
  unfold State.setFrame
  rw [State.deliver_ingress, (State.deliver_filled f n line s).ingress]

theorem fillLines_setFrame (n : Nat) (f : FrameInProgress) (fr : FrameState) (s : State) :
    fillLines n f (s.setFrame fr) = ((fillLines n f s).1, (fillLines n f s).2.setFrame fr) := by
  induction n generalizing f s with
  | zero => rfl
  | succ n ih =>
    unfold fillLines
    rw [State.deliver_setFrame]
    exact ih _ _

/-- The missing count plays no part in what is filled. -/
theorem fillLines_missing (n m : Nat) (f : FrameInProgress) (s : State) :
    (fillLines n { f with missing := m } s).2 = (fillLines n f s).2 := by
  induction n generalizing f s with
  | zero => rfl
  | succ n ih => exact ih { f with expected := f.expected + 1 } _

/-- A frame-in-progress record after one line filled and counted missing (R11). -/
def FrameInProgress.filledOne (f : FrameInProgress) : FrameInProgress :=
  { f with expected := f.expected + 1, missing := satAdd Config.countLimit f.missing 1 }

/-- The part after one line filled, the frame-in-progress state as given. -/
def State.filledOne (fr : FrameState) (f : FrameInProgress) (s : State) : State :=
  (s.deliver f f.expected (s.fillLine f)).setFrame fr

/-- A number of fills is one fill and the others (R11). -/
theorem fillMissing_succ (n : Nat) (f : FrameInProgress) (fr : FrameState) (s : State) :
    fillMissing n f.filledOne (s.filledOne fr f) =
      ((fillMissing (n + 1) f s).1, (fillMissing (n + 1) f s).2.setFrame fr) := by
  refine Prod.ext ?_ ?_
  · rw [fillMissing_frame, fillMissing_frame]
    have missing : satAdd Config.countLimit (satAdd Config.countLimit f.missing 1) n =
        satAdd Config.countLimit f.missing (n + 1) := by
      unfold satAdd
      omega
    unfold FrameInProgress.filledOne
    dsimp only
    rw [missing, Nat.add_right_comm, Nat.add_assoc]
  · show (fillLines n f.filledOne (s.filledOne fr f)).2 =
      (fillLines n { f with expected := f.expected + 1 } (s.deliver f f.expected (s.fillLine f))).2.setFrame fr
    unfold State.filledOne
    rw [fillLines_setFrame]
    exact congrArg (State.setFrame fr) (fillLines_missing n _ { f with expected := f.expected + 1 } _)

/-- No fill leaves a frame whose missing count stands in its range. -/
theorem fillMissing_filledOne_zero (f : FrameInProgress) (s : State) :
    fillMissing 0 f.filledOne s = (f.filledOne, s) := by
  refine Prod.ext ?_ rfl
  rw [fillMissing_frame]
  have : satAdd Config.countLimit f.filledOne.missing 0 = f.filledOne.missing := by
    show satAdd _ (satAdd _ f.missing 1) 0 = satAdd _ f.missing 1
    unfold satAdd
    omega
  rw [this]
  rfl

/-! ### A close and a LINE after one fill (R11, R14) -/

/-- A close fills the same lines whether the first of them has been filled before it or not. -/
theorem State.closeFrame_filledOne {f : FrameInProgress} (tr : Bool) (n : Option Nat) (fr : FrameState) (s : State)
    (h : f.expected < f.height) : (s.filledOne fr f).closeFrame tr n f.filledOne = s.closeFrame tr n f := by
  obtain ⟨k, hk⟩ : ∃ k, f.height - f.expected = k + 1 := ⟨f.height - f.expected - 1, by omega⟩
  have left : f.filledOne.height - f.filledOne.expected = k := by
    show f.height - (f.expected + 1) = k
    omega
  unfold State.closeFrame
  rw [left, hk, fillMissing_succ]
  dsimp only
  rw [State.completeFrame_setFrame]
  rfl

theorem State.closeAny_filledOne {f : FrameInProgress} {s : State} (tr : Bool) (hf : s.ingress.frame = .inFrame f)
    (h : f.expected < f.height) : (s.filledOne (.inFrame f.filledOne) f).closeAny tr = s.closeAny tr := by
  rw [State.closeAny_open (f := f.filledOne) tr rfl, State.closeAny_open tr hf, State.closeFrame_filledOne tr none _ s h]

/-- A frame-in-progress record after a LINE is counted, and counted again when it is damaged (R12). -/
def FrameInProgress.received (rest : List Word) (f : FrameInProgress) : FrameInProgress :=
  { f with
    linesReceived := satAdd Config.countLimit f.linesReceived 1
    check := if lineDamaged f.width rest || rest.length < 2 then satAdd Config.countLimit f.check 1 else f.check }

theorem State.receiveLine_short {rest : List Word} (f : FrameInProgress) (s : State) (h : rest.length < 2) :
    s.receiveLine rest f = s.setFrame (.inFrame (f.received rest)) := by
  unfold State.receiveLine FrameInProgress.received
  dsimp only
  rw [if_pos h]
  split <;> rfl

theorem State.receiveLine_numbered {rest : List Word} (f : FrameInProgress) (s : State) (h : 2 ≤ rest.length) :
    s.receiveLine rest f =
      (placeLine (rest.getD 0 0).toNat (lineSamples f.width rest) (f.received rest) s).2.setFrame (.inFrame
        (placeLine (rest.getD 0 0).toNat (lineSamples f.width rest) (f.received rest) s).1) := by
  have received : (if lineDamaged f.width rest || rest.length < 2
      then { f with
        linesReceived := satAdd Config.countLimit f.linesReceived 1, check := satAdd Config.countLimit f.check 1 }
      else { f with linesReceived := satAdd Config.countLimit f.linesReceived 1 }) = f.received rest := by
    unfold FrameInProgress.received
    split <;> rfl
  unfold State.receiveLine
  dsimp only
  rw [if_neg (Nat.not_lt.mpr h), received]
  rfl

/-- A LINE below the expected line or at the height or above is excess (R11). -/
theorem placeLine_excess {number : Nat} {f : FrameInProgress} (line : Samples) (s : State)
    (h : f.height ≤ number ∨ number < f.expected) :
    placeLine number line f s = ({ f with excess := satAdd Config.countLimit f.excess 1 }, s) := if_pos h

/-- The expected line is stored (R11). -/
theorem placeLine_expected {number : Nat} {f : FrameInProgress} (line : Samples) (s : State)
    (h : f.expected = number) (k : number < f.height) : placeLine number line f s =
      ({ f with expected := number + 1, lastReceived := some number }, s.deliver f number line) := by
  unfold placeLine
  rw [if_neg (by omega), if_neg (by omega)]

/-- A LINE ahead of the expected line fills the lines before it and is stored (R11). -/
theorem placeLine_ahead {number : Nat} {f : FrameInProgress} (line : Samples) (s : State)
    (h : f.expected < number) (k : number < f.height) : placeLine number line f s =
      ({ (fillMissing (number - f.expected) f s).1 with expected := number + 1, lastReceived := some number },
        (fillMissing (number - f.expected) f s).2.deliver f number line) := by
  unfold placeLine
  rw [if_neg (by omega), if_pos h]
  have frame := fillMissing_frame (number - f.expected) f s
  generalize fillMissing (number - f.expected) f s = r at frame ⊢
  obtain ⟨g, t⟩ := r
  cases frame
  rfl

/-- A LINE ahead does the same whether the first of the lines before it has been filled before it or not. -/
theorem State.placeLine_filledOne {number : Nat} {f : FrameInProgress} (line : Samples) (fr : FrameState) (s : State)
    (h : f.expected < number) (k : number < f.height) : placeLine number line f.filledOne (s.filledOne fr f) =
      ((placeLine number line f s).1, (placeLine number line f s).2.setFrame fr) := by
  obtain ⟨n, hn⟩ : ∃ n, number - f.expected = n + 1 := ⟨number - f.expected - 1, by omega⟩
  have left : number - f.filledOne.expected = n := by
    show number - (f.expected + 1) = n
    omega
  have fill := fillMissing_succ n f fr s
  rw [placeLine_ahead line s h k, hn]
  rcases Nat.eq_zero_or_pos n with rfl | pos
  · rw [fillMissing_filledOne_zero, Prod.mk.injEq] at fill
    dsimp only
    rw [placeLine_expected (f := f.filledOne) line _ (by show f.expected + 1 = number; omega) k,
      ← State.deliver_setFrame, ← fill.2, ← fill.1]
    rfl
  · dsimp only
    rw [placeLine_ahead (f := f.filledOne) line _ (by show f.expected + 1 < number; omega) k, left, fill,
      ← State.deliver_setFrame]
    rfl

end Sys2Proof.Machine
end

section
/-! PROOFS. A LINE of an open frame (R11, R12, R89, R96). -/

namespace Sys2Proof.Machine

open Sys2Proof

/-! ### The commands that fill, after one fill (R2, R10, R11, R14, R16, R18) -/

/-- Lines delivered, then the frame-in-progress state set: the Ingress Port as it was with that state. -/
theorem State.Filled.setFrame_ingress {p : RecNo} {s t : State} (h : State.Filled p s t) (fr : FrameState) :
    (t.setFrame fr).ingress = { s.ingress with frame := fr } :=
  congrArg (fun i : Ingress => { i with frame := fr }) h.ingress

section
variable {f : FrameInProgress} {s : State}

theorem State.receiveLine_filledOne {rest : List Word} (h : 2 ≤ rest.length)
    (ahead : f.expected < (rest.getD 0 0).toNat) (inside : (rest.getD 0 0).toNat < f.height) :
    (s.filledOne (.inFrame f.filledOne) f).receiveLine rest f.filledOne = s.receiveLine rest f := by
  rw [State.receiveLine_numbered f s h, State.receiveLine_numbered f.filledOne _ h]
  have place := State.placeLine_filledOne (f := f.received rest) (lineSamples f.width rest) (.inFrame f.filledOne) s
    ahead inside
  change placeLine _ (lineSamples f.filledOne.width rest) (f.filledOne.received rest)
    (s.filledOne (.inFrame f.filledOne) f) = _ at place
  rw [place]
  rfl

/-- A frame closed by a loss of lock, the first fill made before it. -/
theorem State.loseLock_filledOne (hf : s.ingress.frame = .inFrame f) (h : f.expected < f.height) :
    (s.filledOne (.inFrame f.filledOne) f).loseLock = s.loseLock := by
  have down : { s.filledOne (.inFrame f.filledOne) f with
      ingress := { (s.filledOne (.inFrame f.filledOne) f).ingress with link := .down } } =
      State.filledOne (.inFrame f.filledOne) f { s with ingress := { s.ingress with link := .down } } := by
    have delivered := State.deliver_ingress f f.expected (s.fillLine f) { s.ingress with link := .down } s
    refine Eq.trans ?_ (congrArg (State.setFrame (.inFrame f.filledOne)) delivered.symm)
    rw [← (State.deliver_filled f f.expected (s.fillLine f) s).ingress]
    rfl
  unfold State.loseLock
  dsimp only
  rw [down, State.closeAny_filledOne (s := { s with ingress := { s.ingress with link := .down } }) true hf h]

theorem State.openFrame_filledOne (c : BitVec 32) (w h : Nat) (o : BoundaryOrder) (d : List (List LinkEvent))
    (hf : s.ingress.frame = .inFrame f) (he : f.expected < f.height) :
    (s.filledOne (.inFrame f.filledOne) f).openFrame c w h o d = s.openFrame c w h o d := by
  rw [State.openFrame_eq, State.closeAny_filledOne false hf he, State.openFrame_eq]

theorem State.filledOne_ingress (fr : FrameState) : (s.filledOne fr f).ingress = { s.ingress with frame := fr } :=
  (State.deliver_filled f f.expected (s.fillLine f) s).setFrame_ingress fr

theorem State.lossExpired_filledOne (fr : FrameState) : (s.filledOne fr f).lossExpired = s.lossExpired := by
  have filled := State.deliver_filled f f.expected (s.fillLine f) s
  have clips : (s.filledOne fr f).clips = s.clips := filled.clips
  have banks : (s.filledOne fr f).banks = s.banks := filled.banks
  unfold State.lossExpired
  rw [State.filledOne_ingress, clips, banks]

theorem State.testLoss_filledOne (hf : s.ingress.frame = .inFrame f) (h : f.expected < f.height)
    (k : s.lossExpired = true) : (s.filledOne (.inFrame f.filledOne) f).testLoss = s.testLoss := by
  rw [State.testLoss, State.testLoss, State.lossExpired_filledOne, if_pos k, if_pos k]
  unfold State.expire
  rw [State.closeAny_filledOne true hf h]

end

/-- The expected LINE received: delivered, whatever its counts come to (R11). -/
theorem State.receiveLine_expected {rest : List Word} {f : FrameInProgress} (s : State) (h : 2 ≤ rest.length)
    (he : (rest.getD 0 0).toNat = f.expected) (k : f.expected < f.height) : s.receiveLine rest f =
      (s.deliver f f.expected (lineSamples f.width rest)).setFrame (.inFrame { f.received rest with
        expected := f.expected + 1, lastReceived := some f.expected }) := by
  have place := placeLine_expected (f := f.received rest) (number := f.expected) (lineSamples f.width rest) s rfl k
  rw [State.receiveLine_numbered f s h, he, place]
  rfl

/-- A filled line does as a LINE that carries the copy would (R89): every command that fills ends in the same part. -/
theorem exec_filledOne (c : Instr) (f : FrameInProgress) (s : State) (hl : s.ingress.link ≠ .down)
    (hf : s.ingress.frame = .inFrame f) (he : f.expected < f.height)
    (hc : (∃ rest, c = .line rest ∧ 2 ≤ rest.length ∧ f.expected < (rest.getD 0 0).toNat ∧
        (rest.getD 0 0).toNat < f.height) ∨
      (∃ rest, c = .frameClose rest ∧ goodVerdict (Kind.frameClose.code :: rest) = true ∧ rest.length = 2) ∨
      (∃ rest o d, c = .frameOpen rest o d ∧ rest ≠ []) ∨ c = .symbolLockLost ∨
      (c = .pictureLossExpiry ∧ s.lossExpired = true)) :
    exec c s = exec c (s.filledOne (.inFrame f.filledOne) f) := by
  have hl' : (s.filledOne (.inFrame f.filledOne) f).ingress.link ≠ .down := by rwa [State.filledOne_ingress]
  have hf' : (s.filledOne (.inFrame f.filledOne) f).ingress.frame = .inFrame f.filledOne := rfl
  rcases hc with ⟨rest, rfl, h2, ahead, inside⟩ | ⟨rest, rfl, good, two⟩ | ⟨rest, o, d, rfl, hr⟩ | rfl | ⟨rfl, expired⟩
  · have hr : rest ≠ [] := by rintro rfl; simp at h2
    rw [exec_line_open hl hr hf, exec_line_open hl' hr hf', State.receiveLine_filledOne h2 ahead inside]
  · rw [exec_frameClose_open hl hf good two, exec_frameClose_open hl' hf' good two,
      State.closeFrame_filledOne _ _ _ s he]
  · by_cases good : goodVerdict (Kind.frameOpen.code :: rest) = true ∧ rest.length = 5
    · rw [exec_frameOpen_taken o d hl good.1 good.2, exec_frameOpen_taken o d hl' good.1 good.2,
        State.openFrame_filledOne _ _ _ o d hf he]
    · rw [exec_frameOpen_corrupt o d hl hr good, exec_frameOpen_corrupt o d hl' hr good]
      unfold State.corruptOpen
      rw [State.closeAny_filledOne false hf he]
  · rw [exec_symbolLockLost hl, exec_symbolLockLost hl', State.loseLock_filledOne hf he]
  · exact congrArg Host.Outcome.next (State.testLoss_filledOne hf he expired).symm

/-! ### The renderer's share of a LINE (R89, R96) -/

/-- A crop line scaled and held (R89). -/
def FrameSetup.hold (banks : Banks) (number : Nat) (line : Samples) (u : FrameSetup) : FrameSetup :=
  { u with held := u.held ++ [(number - u.y0, hLine u (banks.get u.bank).hkernel line)] }

theorem takeLine_outside {banks : Banks} {number : Nat} {line : Samples} {u : FrameSetup}
    (h : number < u.y0 ∨ u.y0 + u.hc ≤ number) : takeLine banks number line u = (u, []) := by
  unfold takeLine
  exact if_neg (by omega)

theorem takeLine_crop {banks : Banks} {number : Nat} {line : Samples} {u : FrameSetup} (h : u.y0 ≤ number)
    (k : number < u.y0 + u.hc) : takeLine banks number line u =
      ((formRows banks (number - u.y0) (u.ho - u.nextRow) (u.hold banks number line)).1.drop,
        (formRows banks (number - u.y0) (u.ho - u.nextRow) (u.hold banks number line)).2) := by
  unfold takeLine
  exact if_pos ⟨h, k⟩

/-- A delivered line as the renderer takes it (R89). -/
theorem State.deliver_rendered {f : FrameInProgress} {u : FrameSetup} {s : State} (number : Nat) (line : Samples)
    (hu : s.render.setup = some u) (hne : u.twin ≠ f.principal) :
    (s.deliver f number line).render = { s.render with setup := some (takeLine s.banks number line u).1 } ∧
      (s.deliver f number line).store.frame u.twin = { s.store.frame u.twin with
        lines := (s.store.frame u.twin).lines ++ (takeLine s.banks number line u).2 } := by
  unfold State.deliver State.renderLine
  dsimp only
  rw [hu]
  refine ⟨rfl, ?_⟩
  show ((s.store.modify f.principal _).modify u.twin _).frame u.twin = _
  rw [Store.modify_frame_self, Store.modify_frame_ne _ _ (Ne.symm hne)]
  rfl

/-- All that a crop line does to the frame setup, and the rows it completes (R89, R96). -/
theorem takeLine_formed {banks : Banks} {number : Nat} {line : Samples} {u v w : FrameSetup} {rows : List Samples}
    (hy : u.y0 ≤ number) (hc : number < u.y0 + u.hc) (hv : v = u.hold banks number line)
    (hw : takeLine banks number line u = (w, rows)) :
    w = { v with nextRow := w.nextRow, held := w.held } ∧ u.nextRow ≤ w.nextRow ∧
      (∀ r, u.nextRow ≤ r → r < w.nextRow → r < u.ho ∧ u.lastNeeded r ≤ number - u.y0) ∧
      (w.nextRow < u.ho → number - u.y0 < u.lastNeeded w.nextRow) ∧ w.held.Sublist v.held ∧
      (∀ h, h ∈ w.held ↔ h ∈ v.held ∧ ∃ r, w.nextRow ≤ r ∧ r < u.ho ∧ h.1 ∈ u.rowTaps r) ∧
      rows = (List.range (w.nextRow - u.nextRow)).map fun k => proxyRow banks v (u.nextRow + k) := by
  subst hv
  rw [takeLine_crop hy hc] at hw
  have setup := formRows_setup banks (number - u.y0) (u.ho - u.nextRow) (u.hold banks number line)
  obtain ⟨moved, -, -⟩ := formRows_rows banks (number - u.y0) (u.ho - u.nextRow) (u.hold banks number line)
  have formed := formRows_formed banks (number - u.y0) (u.ho - u.nextRow) (u.hold banks number line)
  have arrived := fun r => formRows_arrived banks (number - u.y0) (u.ho - u.nextRow) r (u.hold banks number line)
  have waits := formRows_waits banks (number - u.y0) (u.ho - u.nextRow) (u.hold banks number line)
    (show u.ho ≤ u.nextRow + (u.ho - u.nextRow) by omega)
  generalize formRows banks (number - u.y0) (u.ho - u.nextRow) (u.hold banks number line) = p
    at hw setup moved formed arrived waits
  obtain ⟨x, ls⟩ := p
  cases hw
  dsimp only at setup moved formed arrived waits
  have next : x.drop.nextRow = x.nextRow := rfl
  have le : u.nextRow ≤ x.nextRow := by
    rw [moved]
    exact Nat.le_add_right _ _
  refine ⟨by rw [setup]; rfl, le, arrived, fun h => ?_, ?_, fun h => ?_, formed⟩
  · have := waits h
    exact this
  · have held : x.held = (u.hold banks number line).held := by rw [setup]
    rw [← held]
    exact List.filter_sublist
  · have needs : x.needs h.1 = true ↔ ∃ r, x.nextRow ≤ r ∧ r < u.ho ∧ h.1 ∈ u.rowTaps r := by
      rw [FrameSetup.needs_iff, setup]
      rfl
    have held : x.held = (u.hold banks number line).held := by rw [setup]
    rw [next, ← needs, ← held]
    exact List.mem_filter

/-! ### The principal's share of a LINE (R11, R12) -/

/-- The counts of a received LINE that holds a line number (R12). -/
theorem FrameInProgress.received_check {rest : List Word} (f : FrameInProgress) (h : 2 ≤ rest.length) :
    (f.received rest).check = (if goodVerdict (Kind.line.code :: rest) = true ∧ rest.length = 3 * f.width + 2
      then f.check else min 65535 (f.check + 1)) := by
  unfold FrameInProgress.received
  dsimp only
  rw [lineDamaged_eq f.width h, decide_eq_false (Nat.not_lt.mpr h), Bool.or_false]
  by_cases sound : goodVerdict (Kind.line.code :: rest) = true ∧ rest.length = 3 * f.width + 2
  · rw [decide_eq_true sound, if_pos sound]
    rfl
  · rw [decide_eq_false sound, if_neg sound]
    rfl

/-- The lines of the principal after a LINE not excess: the fills, then the line (R11). -/
theorem State.placeLine_lines {f : FrameInProgress} {s : State} {number : Nat} (line : Samples)
    (hn : ∀ n ∈ f.lastReceived, n < (s.store.frame f.principal).lines.length)
    (hu : ∀ u ∈ s.render.setup, u.twin ≠ f.principal) :
    (((fillLines (number - f.expected) f s).2.deliver f number line).store.frame f.principal).lines =
      (s.store.frame f.principal).lines ++ List.replicate (number - f.expected) (s.fillLine f) ++ [line] := by
  rw [State.deliver_lines ((fillLines_filled _ f s).twins hu), fillLines_lines _ hn hu]

/-- A frame-in-progress record after a LINE that is not excess: the lines skipped count as missing (R11). -/
def FrameInProgress.storedAt (number : Nat) (f : FrameInProgress) : FrameInProgress :=
  { f with
    missing := if f.expected < number then min 65535 (f.missing + (number - f.expected)) else f.missing
    expected := number + 1, lastReceived := some number }

/-- A LINE not excess: the lines before it filled, and the line stored (R11). -/
theorem placeLine_stored {number : Nat} {f : FrameInProgress} (line : Samples) (s : State)
    (h : f.expected ≤ number) (k : number < f.height) : placeLine number line f s =
      (f.storedAt number, (fillLines (number - f.expected) f s).2.deliver f number line) := by
  unfold FrameInProgress.storedAt
  rcases Nat.eq_or_lt_of_le h with rfl | lt
  · rw [placeLine_expected line s rfl k, if_neg (Nat.lt_irrefl _), Nat.sub_self]
    rfl
  · rw [placeLine_ahead line s lt k, if_pos lt, fillMissing_frame]
    rfl

/-! ### The statement -/

theorem not_nil_of_two_le {rest : List Word} (h : 2 ≤ rest.length) : rest ≠ [] := by
  rintro rfl
  exact absurd h (by decide)

/-- Settles O13: a delivered line by the renderer's cases, a fill against the LINE that carries its copy, and a LINE by its
place. -/
theorem lineIsPlacedByItsNumber : Obligations.LineIsPlacedByItsNumber := by
  refine ⟨?_, ?_, ?_, ?_⟩
  · intro rest f u line last takes s hl hf h2 hu hne number inside hline hlast htakes
    have samples : lineSamples f.width rest = line := (lineSamples_eq _ _).trans hline.symm
    refine ⟨_, exec_line_open hl (not_nil_of_two_le h2) hf, ?_⟩
    rw [State.receiveLine_expected s h2 number inside, samples]
    obtain ⟨render, twin⟩ := State.deliver_rendered (s := s) f.expected line hu hne
    refine ⟨fun out => ?_, fun hy hc => ?_⟩
    · rw [takeLine_outside out] at render twin
      exact ⟨by rw [← hu] at render; exact render, by rw [List.append_nil] at twin; exact twin⟩
    · obtain ⟨⟨w, rows⟩, hw⟩ : ∃ r, takeLine s.banks f.expected line u = r := ⟨_, rfl⟩
      rw [hw] at render twin
      obtain ⟨fields, le, arrived, waits, sub, held, formed⟩ := takeLine_formed hy hc rfl hw
      rw [formed] at twin
      have lastEq : ∀ r, u.lastNeeded r = last r := fun r => (hlast r).symm
      have takesIff : ∀ r row, row ∈ u.rowTaps r ↔ takes r row := fun r row =>
        FrameSetup.mem_rowTaps.trans (htakes r row).symm
      simp only [lastEq] at arrived waits
      simp only [takesIff] at held
      exact ⟨_, w, rfl, render, fields, le, arrived, waits, sub, held, twin⟩
  · intro c carrier f a b s hl hf inside h2 number copy ha hb hc
    have samples : lineSamples f.width carrier = s.fillLine f := (lineSamples_eq _ _).trans copy
    rw [exec_line_open hl (not_nil_of_two_le h2) hf, State.receiveLine_expected s h2 number inside, samples] at ha
    have hb : b = s.filledOne (.inFrame f.filledOne) f := by
      rw [hb, ← Host.Outcome.next.inj ha, ← (State.deliver_filled f f.expected (s.fillLine f) s).ingress]
      rfl
    rw [hb]
    exact exec_filledOne c f s hl hf inside hc
  · intro rest f s hl hf h1
    have hr : rest ≠ [] := by
      rintro rfl
      exact absurd h1 (by decide)
    have short : (decide (rest.length < 2)) = true := by rw [h1]; rfl
    rw [exec_line_open hl hr hf, State.receiveLine_short f s (of_decide_eq_true short)]
    unfold FrameInProgress.received
    rw [short, Bool.or_true]
    rfl
  · intro rest f s hl hf h2 hn hu
    have check := f.received_check h2
    have placed := State.receiveLine_numbered f s h2
    by_cases out : f.height ≤ (rest.getD 0 0).toNat ∨ (rest.getD 0 0).toNat < f.expected
    · rw [placeLine_excess (f := f.received rest) _ s out] at placed
      refine ⟨_, _, (exec_line_open hl (not_nil_of_two_le h2) hf).trans (congrArg _ placed), rfl, rfl, rfl, rfl, rfl,
        rfl, check, ?_, ?_⟩
      · rw [if_pos out]
        exact ⟨rfl, rfl, rfl, rfl, rfl, rfl⟩
      · exact ⟨rfl, rfl, rfl, rfl, rfl, rfl, rfl, rfl, rfl, rfl, rfl⟩
    · obtain ⟨below, le⟩ := not_or.mp out
      rw [placeLine_stored (f := f.received rest) _ s (Nat.not_lt.mp le) (Nat.not_le.mp below)] at placed
      have filled := (fillLines_filled ((rest.getD 0 0).toNat - f.expected) (f.received rest) s).trans
        (State.deliver_filled (f.received rest) (rest.getD 0 0).toNat (lineSamples f.width rest) _)
      have lines := State.placeLine_lines (f := f.received rest) (number := (rest.getD 0 0).toNat)
        (lineSamples f.width rest) hn hu
      refine ⟨_, (f.received rest).storedAt (rest.getD 0 0).toNat,
        (exec_line_open hl (not_nil_of_two_le h2) hf).trans (congrArg _ placed),
        filled.setFrame_ingress _, rfl, rfl, rfl, rfl, rfl, check, ?_, ?_⟩
      · rw [if_neg out]
        refine ⟨rfl, rfl, rfl, rfl, lines.trans ?_, filled.free, filled.pq, filled.xq, filled.others⟩
        rw [lineSamples_eq]
        rfl
      · exact ⟨filled.time, filled.clips, filled.banks, filled.dir, filled.flags, filled.pLink, filled.xLink, filled.batch,
          filled.pace, filled.lastProxy, filled.pending⟩

end Sys2Proof.Machine
end

section
/-! PROOFS. What every command and every step keeps: the five laws of a good state, command by command, and from them the
ranges of the Time Base Unit (R20, R21, R24, R31, R32). -/

namespace Sys2Proof.Machine

open Sys2Proof

/-! ### The state after power-on reset is a good state (R19, R39, R59, R87, R159) -/

theorem Clips.Law.of_none {c : Clips} (h : c.records = []) : c.Law := by simp [Clips.Law, h]

theorem DirectiveUnit.Law.reset : State.reset.dir.Law := ⟨Nat.zero_le _, Nat.zero_le _, Nat.zero_le _⟩

/-- The Time Base Unit starts inside its ranges (R39). -/
theorem TimeBase.Law.reset : State.reset.time.Law :=
  ⟨nofun, Rate.divisor_pos _, Rate.divisor2_pos _, TimeBase.perDay_pos _, TimeBase.perDay_pos _, nofun, Nat.zero_le _⟩

/-- Power-on reset leaves every law true, whatever held before. -/
theorem execPowerOnReset_keeps (s : State) : ∃ t, execPowerOnReset s = .next t ∧ s.Keeps t :=
  ⟨_, rfl, fun _ => .reset, fun _ => .of_none rfl, fun _ => .reset, fun _ => .reset,
    fun _ => .inl (State.reset_banks .a).2⟩

/-! ### The commands of the input link -/

theorem execSymbolLockGained_keeps (s : State) : ∃ t, execSymbolLockGained s = .next t ∧ s.Keeps t := by
  refine ⟨_, rfl, ?_⟩
  split
  · exact .ingressOnly s _
  · exact .refl s

theorem execSymbolLockLost_keeps (s : State) : ∃ t, execSymbolLockLost s = .next t ∧ s.Keeps t := by
  refine ⟨_, rfl, ?_⟩
  split
  · exact .refl s
  · exact State.loseLock_keeps s

theorem execFrameOpen_keeps (rest : List Word) (o : BoundaryOrder) (d : List (List LinkEvent)) (s : State) :
    ∃ t, execFrameOpen rest o d s = .next t ∧ s.Keeps t := by
  refine ⟨_, rfl, ?_⟩
  split_ifs
  · exact .refl s
  · exact State.openFrame_keeps _ _ _ _ _ s
  · exact State.corruptOpen_keeps s

theorem execLine_keeps (rest : List Word) (s : State) : ∃ t, execLine rest s = .next t ∧ s.Keeps t := by
  refine ⟨_, rfl, ?_⟩
  split
  · exact .refl s
  · split
    · exact State.receiveLine_keeps _ _ s
    · exact State.setFlag_keeps _ s
    · exact .refl s

theorem execFrameClose_keeps (rest : List Word) (s : State) : ∃ t, execFrameClose rest s = .next t ∧ s.Keeps t := by
  refine ⟨_, rfl, ?_⟩
  split
  · split
    · exact State.closeFrame_keeps _ _ _ s
    · exact .refl s
  · exact .refl s

theorem execDirective_keeps (rest : List Word) (s : State) : ∃ t, execDirective rest s = .next t ∧ s.Keeps t := by
  refine ⟨_, rfl, ?_⟩
  split
  · exact State.receiveDirective_keeps _ s
  · exact .refl s

/-! ### The commands of the output links -/

theorem execOwedMarkerPlaced_keeps (s : State) : ∃ t, execOwedMarkerPlaced s = .next t ∧ s.Keeps t := by
  refine ⟨_, rfl, ?_⟩
  split
  · rename_i h
    exact State.placeOwed_keeps s (Bool.and_eq_true_iff.mp h).1
  · exact .refl s

theorem execSendFill_keeps (l : LinkId) (s : State) : ∃ t, execSendFill l s = .next t ∧ s.Keeps t := by
  refine ⟨_, rfl, ?_⟩
  split
  · exact State.emit_keeps _ _ s
  · exact .refl s

/-! ### Every command, and every step -/

/-- Every command leaves a next state, and keeps each of the five laws. -/
theorem exec_keeps (c : Instr) (s : State) : ∃ t, exec c s = .next t ∧ s.Keeps t := by
  cases c with
  | powerOnReset => exact execPowerOnReset_keeps s
  | symbolLockGained => exact execSymbolLockGained_keeps s
  | symbolLockLost => exact execSymbolLockLost_keeps s
  | frameOpen rest order during => exact execFrameOpen_keeps rest order during s
  | line rest => exact execLine_keeps rest s
  | frameClose rest => exact execFrameClose_keeps rest s
  | fill rest => exact ⟨_, rfl, .refl s⟩
  | unknownPacket words => exact ⟨_, rfl, .refl s⟩
  | todPulse order => exact ⟨_, rfl, State.pulse_keeps order s⟩
  | pictureLossExpiry => exact ⟨_, rfl, State.testLoss_keeps s⟩
  | directive rest => exact execDirective_keeps rest s
  | loadSegment tag param payload => exact ⟨_, rfl, State.takeLoad_keeps tag param payload s⟩
  | copyBank tag => exact ⟨_, rfl, State.takeCopy_keeps tag s⟩
  | switchBank tag ramp => exact ⟨_, rfl, State.takeSwitch_keeps tag ramp s⟩
  | cacheOn tag => exact ⟨_, rfl, State.takeCacheOn_keeps tag s⟩
  | cacheOff tag => exact ⟨_, rfl, State.takeCacheOff_keeps tag s⟩
  | start tag => exact ⟨_, rfl, State.takeStart_keeps tag s⟩
  | stop tag => exact ⟨_, rfl, State.takeStop_keeps tag s⟩
  | setCues tag a b c d e f => exact ⟨_, rfl, State.takeSetCues_keeps tag a b c d e f s⟩
  | jamTimecode tag hi lo hold => exact ⟨_, rfl, State.takeJam_keeps tag hi lo hold s⟩
  | runTimecode tag => exact ⟨_, rfl, State.takeRun_keeps tag s⟩
  | setRate tag code mark => exact ⟨_, rfl, State.takeSetRate_keeps tag code mark s⟩
  | clearFlags tag list => exact ⟨_, rfl, State.takeClear_keeps tag list s⟩
  | setNotices tag enables => exact ⟨_, rfl, State.takeNotices_keeps tag enables s⟩
  | queryStatus tag => exact ⟨_, rfl, State.takeQuery_keeps tag s⟩
  | armSnapshot tag triggers => exact ⟨_, rfl, State.takeArm_keeps tag triggers s⟩
  | fetchSnapshot tag => exact ⟨_, rfl, State.takeFetch_keeps tag s⟩
  | restart tag => exact ⟨_, rfl, State.takeRestart_keeps tag s⟩
  | owedMarkerPlaced => exact execOwedMarkerPlaced_keeps s
  | sinkReadyChange l level => exact ⟨_, rfl, State.setLink_keeps l _ s⟩
  | linkResetAsserted l => exact ⟨_, rfl, State.assertReset_keeps l s⟩
  | linkResetReleased l => exact ⟨_, rfl, State.releaseReset_keeps l s⟩
  | principalFrameStart => exact ⟨_, rfl, State.startPrincipal_keeps s⟩
  | proxyFrameStart => exact ⟨_, rfl, State.startProxy_keeps s⟩
  | frameSent l => exact ⟨_, rfl, State.frameSent_keeps l s⟩
  | reportStart => exact ⟨_, rfl, State.startReport_keeps s⟩
  | reportSent => exact ⟨_, rfl, State.finishReport_keeps s⟩
  | frameAbortSent l => exact ⟨_, rfl, State.abortSent_keeps l s⟩
  | sendFill l => exact execSendFill_keeps l s

/-- Every step, a command taken or a tick of the reference clock, keeps each of the five laws. -/
theorem step_keeps {s t : State} (h : step s = .next t) : s.Keeps t := by
  unfold step at h
  split at h
  · rename_i c cs _
    obtain ⟨u, hu, k⟩ := exec_keeps c { s with pending := cs }
    obtain rfl : u = t := Host.Outcome.next.inj (hu.symm.trans h)
    exact .after k (.of_eq rfl rfl rfl rfl rfl)
  · obtain rfl : s.referenceTick = t := Host.Outcome.next.inj h
    exact State.referenceTick_keeps s

/-- Settles O6: the ranges of the Time Base Unit are one of the laws that every step keeps. -/
theorem everyStepKeepsTheTimeRanges : Obligations.EveryStepKeepsTheTimeRanges :=
  fun _ _ law h => (step_keeps h).time law

end Sys2Proof.Machine
end

section
/-! PROOFS. The timecode lane: the reference tick (R21, R32), a quiet pulse (R22 to R24), and the four directives of the
Time Base Unit (R33 to R36). -/

namespace Sys2Proof.Machine

open Sys2Proof

/-! ### The reference tick (R21, R32) -/

/-- What the end of a packet of a frame in flight may leave of the links: their states and lines stand, the activity and
what has been sent move (R109). -/
structure State.LinksMoved (s t : State) : Prop where
  blocks : t = { s with pLink := t.pLink, xLink := t.xLink }
  pState : t.pLink.state = s.pLink.state
  pReady : t.pLink.readyLine = s.pLink.readyLine
  pReset : t.pLink.resetLine = s.pLink.resetLine
  xState : t.xLink.state = s.xLink.state
  xReady : t.xLink.readyLine = s.xLink.readyLine
  xReset : t.xLink.resetLine = s.xLink.resetLine

theorem State.LinksMoved.refl (s : State) : s.LinksMoved s := ⟨rfl, rfl, rfl, rfl, rfl, rfl, rfl⟩

theorem State.LinksMoved.trans {s t u : State} (h : s.LinksMoved t) (k : t.LinksMoved u) : s.LinksMoved u :=
  ⟨by rw [k.blocks, h.blocks], k.pState.trans h.pState, k.pReady.trans h.pReady, k.pReset.trans h.pReset,
    k.xState.trans h.xState, k.xReady.trans h.xReady, k.xReset.trans h.xReset⟩

/-- The end of a packet moves the links alone, and a link that is sending a frame goes on sending it. -/
theorem State.packetEnds_moved (l : LinkId) (ends : Bool) (s : State) : s.LinksMoved (s.packetEnds l ends) := by
  unfold State.packetEnds
  split
  · rename_i i header done hact
    split
    · cases l with
      | p =>
        have hp : s.pLink.act = .frame i header done := hact
        exact ⟨rfl, by simp [OutLink.state, hp, State.setAct, State.setLink, State.emit], rfl, rfl, rfl, rfl, rfl⟩
      | x =>
        have hx : s.xLink.act = .frame i header done := hact
        exact ⟨rfl, rfl, rfl, rfl, by simp [OutLink.state, hx, State.setAct, State.setLink, State.emit], rfl, rfl⟩
    · exact .refl s
  · exact .refl s

/-- A tick inside the lane period raises the phase by 1: the first stage rises, or it wraps and the second stage rises
(R21). -/
theorem TimeBase.tick_phase {t : TimeBase} (h : t.stage1 < t.rate.divisor) : t.tick.phase = t.phase + 1 := by
  unfold TimeBase.tick
  dsimp only
  split
  · rename_i w
    have full : t.stage1 + 1 = t.rate.divisor := Nat.le_antisymm h w
    show (t.stage2 + 1) * t.rate.divisor + 0 = t.stage2 * t.rate.divisor + t.stage1 + 1
    rw [Nat.succ_mul]
    omega
  · rfl

/-- What a tick moves of the Time Base Unit (R21, R32). -/
theorem TimeBase.tick_eq (t : TimeBase) : t.tick = { t with
    stage1 := t.tick.stage1, stage2 := t.tick.stage2, interval := min 4294967295 (t.interval + 1) } := by
  unfold TimeBase.tick
  dsimp only
  split <;> rfl

/-- A tick that does not end the lane period: the Time Base Unit, the links' packets and the free values' counter move. -/
theorem State.referenceTick_inside {s : State} (h : s.time.phase + 1 < s.time.rate.period) :
    ∃ u, s.LinksMoved u ∧ s.referenceTick = { u with drawn := s.drawn + 1, time := s.time.tick } := by
  have moved := (State.packetEnds_moved .p (Config.packetEnds (2 * s.drawn)) s).trans
    (State.packetEnds_moved .x (Config.packetEnds (2 * s.drawn + 1)) _)
  refine ⟨_, moved, ?_⟩
  unfold State.referenceTick
  dsimp only
  generalize (s.packetEnds .p (Config.packetEnds (2 * s.drawn))).packetEnds .x (Config.packetEnds (2 * s.drawn + 1)) = u
    at moved ⊢
  have time : u.time = s.time := by rw [moved.blocks]
  have inside : s.time.atWrap = false := decide_eq_false (Nat.not_le.mpr h)
  rw [time, inside, if_neg Bool.false_ne_true]

/-- Settles O2: with no command waiting a step is the reference tick, and inside a lane period that tick is no pulse. -/
theorem emptyQueueStepIsOneTick : Obligations.EmptyQueueStepIsOneTick := by
  intro s hp h1 hw
  obtain ⟨u, moved, tick⟩ := State.referenceTick_inside hw
  have hstep : step s = .next s.referenceTick := by unfold step; rw [hp]
  rw [tick] at hstep
  obtain ⟨blocks, pState, pReady, pReset, xState, xReady, xReset⟩ := moved
  refine ⟨_, hstep, TimeBase.tick_phase h1, TimeBase.tick_eq _, ?_, ?_, ?_, ?_, ?_, ?_, ?_, pState, xState, pReady, pReset,
    xReady, xReset, ?_, ?_, ?_, ?_⟩
  all_goals rw [blocks]
  exact hp

/-! ### A pulse that brings no cue and no expiry (R22 to R24, R31, R113) -/

/-- Settles O21: while STREAMING a pulse is no boundary, so with no cue it is the Time Base Unit, the pace count and the
picture-loss count, in either order of its parts. -/
theorem pulseWhileStreaming : Obligations.PulseWhileStreaming := by
  intro o n s hl hn hcue hw
  have quiet : firedActions s.pulsed.time = [] := firedActions_none (by rw [hn] at hcue; exact hcue)
  have noTest : s.pulsed.countLoss.testLoss = s.pulsed.countLoss := State.testLoss_quiet (.inr hw)
  have noBoundary : ∀ u : State, u.ingress.link = .streaming → u.pulseBoundary o [] = u := fun u hu =>
    State.pulseBoundary_streaming o [] hu
  have pulse : s.pulse o = s.pulsed.countLoss := by
    rw [State.pulse_noCue o quiet]
    split
    · rw [noTest, noBoundary s.pulsed.countLoss hl]
    · rw [noBoundary s.pulsed hl, noTest]
  subst hn
  exact congrArg Host.Outcome.next pulse

/-! ### Labels moved up (R27) -/

/-- What it is for a label to be dropped (R27). -/
theorem Label.dropped_iff {r : Rate} {df : Bool} {l : Label} :
    l.dropped r df = true ↔ l.ss = 0 ∧ l.mm % 10 ≠ 0 ∧ l.ff < dropCount r df := by
  simp [Label.dropped, and_assoc]

/-- A label is moved up exactly when it is dropped (R27). -/
theorem Label.movedUp_ne_iff {r : Rate} {df : Bool} {l : Label} : l.movedUp r df ≠ l ↔ l.dropped r df = true := by
  unfold Label.movedUp
  split
  · rename_i h
    refine iff_of_true (fun e => ?_) h
    have hff : dropCount r df = l.ff := congrArg Label.ff e
    have := (Label.dropped_iff.mp h).2.2
    omega
  · rename_i h
    exact iff_of_false (fun ne => ne rfl) h

/-! ### JAM TIMECODE and RUN TIMECODE (R33, R34) -/

/-- JAM TIMECODE with a label in range: the label, moved up when it is dropped, gives the count (R33). -/
theorem State.takeJam_inRange {s : State} (tag : Byte) {hi lo : Word} (hold : Word)
    (h : (wordsLabel hi lo).inRange s.time.rate = true) :
    s.takeJam tag hi lo hold =
      (let m := (wordsLabel hi lo).movedUp s.time.rate s.time.df
       State.respond tag DirCode.jamTimecode.word (if m = wordsLabel hi lo then .done else .doneClamped) 0
        { s with time := { s.time.restartLane with
          tod := labelToCount s.time.rate s.time.df m, running := decide (hold.toNat % 2 = 0) } }) := by
  unfold State.takeJam
  dsimp only
  rw [if_pos h]
  rfl

/-- JAM TIMECODE with a label out of range is refused (R33). -/
theorem State.takeJam_outOfRange {s : State} (tag : Byte) {hi lo : Word} (hold : Word)
    (h : ¬ (wordsLabel hi lo).inRange s.time.rate = true) :
    s.takeJam tag hi lo hold = s.respond tag DirCode.jamTimecode.word .refBadValue 0 := by
  unfold State.takeJam
  dsimp only
  rw [if_neg h]

/-- Settles O25: by the range check of the label. -/
theorem jamSetsTheCount : Obligations.JamSetsTheCount := by
  intro tag hi lo hold l m s hl hm
  obtain rfl : l = wordsLabel hi lo := hl
  obtain rfl : m = (wordsLabel hi lo).movedUp s.time.rate s.time.df := by
    rw [hm, Label.movedUp]
    simp only [Label.dropped_iff]
  refine ⟨_, rfl, ?_⟩
  simp only [← Label.inRange_iff]
  split
  · rename_i h
    rw [State.takeJam_inRange tag hold h]
    exact State.respond_offered _ _ _ _ _
  · rename_i h
    rw [State.takeJam_outOfRange tag hold h]
    exact State.respond_offered _ _ _ _ s

/-- Settles O26: the counter runs and the response follows. -/
theorem runMakesTheCounterRun : Obligations.RunMakesTheCounterRun :=
  fun _ _ => ⟨_, rfl, State.respond_offered _ _ _ _ _⟩

/-! ### SET RATE (R35) -/

theorem Rate.mayDrop_iff {r : Rate} : r.mayDrop = true ↔ r = .r2997 ∨ r = .r5994 := by cases r <;> decide

/-- A count carried to a new rate, by the label it is carried by (R35). -/
theorem reExpress_eq (r : Rate) (df : Bool) (r' : Rate) (df' : Bool) (n : Nat) :
    reExpress r df r' df' n =
      (let carried := Label.movedUp r' df' { countToLabel r df n with
        ff := min (countToLabel r df n).ff (r'.nominal - 1) }
       (labelToCount r' df' carried, carried != countToLabel r df n)) := rfl

/-- SET RATE refused for its code or its mark (R35). -/
theorem State.takeSetRate_badValue {s : State} (tag : Byte) {code mark : Word}
    (h : rateOfCode code.toNat = none ∨
      (mark.toNat % 2 = 1 ∧ rateOfCode code.toNat ≠ some .r2997 ∧ rateOfCode code.toNat ≠ some .r5994)) :
    s.takeSetRate tag code mark = s.respond tag DirCode.setRate.word .refBadValue 0 := by
  unfold State.takeSetRate
  cases hr : rateOfCode code.toNat with
  | none => rfl
  | some r =>
    obtain ⟨hm, h1, h2⟩ := h.resolve_left (by rw [hr]; nofun)
    have drop : r.mayDrop = false := by
      rw [Bool.eq_false_iff, ne_eq, Rate.mayDrop_iff]
      rintro (rfl | rfl)
      · exact h1 hr
      · exact h2 hr
    simp only [hm, drop]
    rfl

/-- SET RATE with a rate and mark that exist: refused while a clip record exists or the part is not in STANDBY, and
otherwise accepted (R35). -/
theorem State.takeSetRate_sound {s : State} (tag : Byte) {code mark : Word} {r : Rate}
    (hr : rateOfCode code.toNat = some r) (hm : mark.toNat % 2 = 1 → r = .r2997 ∨ r = .r5994) :
    s.takeSetRate tag code mark =
      if s.clips.recordState ≠ .standby ∨ s.clips.records ≠ [] then s.respond tag DirCode.setRate.word .refNotNow 0
      else
        let df := decide (mark.toNat % 2 = 1)
        ({ s with time := s.time.setRate r df }).respond tag DirCode.setRate.word
          (if (reExpress s.time.rate s.time.df r df s.time.tod).2 || (reExpress s.time.rate s.time.df r df s.time.rr).2
            then .doneClamped else .done) 0 := by
  have sound : ¬ ((mark.toNat % 2 == 1 && !r.mayDrop) = true) := by
    rw [Bool.and_eq_true, beq_iff_eq, Bool.not_eq_true', Bool.eq_false_iff, ne_eq, Rate.mayDrop_iff]
    exact fun h => h.2 (hm h.1)
  unfold State.takeSetRate
  rw [hr]
  dsimp only
  rw [if_neg sound]
  rfl

/-- Settles O27: the refusals in the rule's order, and the two counts carried over by their labels. -/
theorem setRateCarriesTheLabels : Obligations.SetRateCarriesTheLabels := by
  intro tag code mark s
  refine ⟨_, rfl, fun h => ?_, fun r hr hm => ⟨fun busy => ?_, fun standby noRecord df carried hdf hcarried => ?_⟩⟩
  · rw [State.takeSetRate_badValue tag h]
    exact State.respond_offered _ _ _ _ s
  · rw [State.takeSetRate_sound tag hr hm, if_pos busy]
    exact State.respond_offered _ _ _ _ s
  · subst hdf
    have free : ¬ (s.clips.recordState ≠ .standby ∨ s.clips.records ≠ []) := by simp [standby, noRecord]
    have carry : ∀ n, reExpress s.time.rate s.time.df r (decide (mark.toNat % 2 = 1)) n =
        (labelToCount r (decide (mark.toNat % 2 = 1)) (carried n), carried n != countToLabel s.time.rate s.time.df n) := by
      intro n
      rw [reExpress_eq, hcarried]
    have moved : ∀ a b c d : Label, (if (a != b || c != d) = true then DirOutcome.doneClamped else .done) =
        if a = b ∧ c = d then .done else .doneClamped := by
      intro a b c d
      by_cases h1 : a = b <;> by_cases h2 : c = d <;> simp [h1, h2]
    rw [State.takeSetRate_sound tag hr hm, if_neg free]
    dsimp only
    rw [TimeBase.setRate, carry, carry, moved]
    exact State.respond_offered _ _ _ _ _

/-! ### SET CUES (R36) -/

/-- A cue field that names nothing, or sets a label out of range, refuses the directive (R36, R172). -/
theorem cueField_none {t : TimeBase} {a : Word} {l : Label} (held : Option Nat)
    (h : a.toNat > 2 ∨ (a = 1 ∧ l.inRange t.rate = false)) : cueField t a l held = none := by
  unfold cueField
  rcases h with h | ⟨rfl, h⟩
  · have ne : ∀ n : Word, n.toNat ≤ 2 → a ≠ n := by rintro n hn rfl; omega
    rw [if_neg (ne 0 (by decide)), if_neg (ne 1 (by decide)), if_neg (ne 2 (by decide))]
  · simp [h]

/-- The cue a sound field leaves, with the mark that its label was moved up (R36). -/
theorem cueField_some {t : TimeBase} {a : Word} {l : Label} (held : Option Nat) (ha : a.toNat ≤ 2)
    (h : a = 1 → l.inRange t.rate = true) :
    cueField t a l held = some (if a = 0 then held else if a = 1
      then some (labelToCount t.rate t.df (l.movedUp t.rate t.df)) else none,
      decide (a = 1 ∧ l.dropped t.rate t.df = true)) := by
  have cases : a = 0 ∨ a = 1 ∨ a = 2 := by
    simp only [← BitVec.toNat_inj]
    show a.toNat = 0 ∨ a.toNat = 1 ∨ a.toNat = 2
    omega
  have moved : (l.movedUp t.rate t.df != l) = l.dropped t.rate t.df := by
    rw [Bool.eq_iff_iff, bne_iff_ne, Label.movedUp_ne_iff]
  unfold cueField
  rcases cases with rfl | rfl | rfl
  · rfl
  · simp [h rfl, moved]
  · rfl

/-- Settles O28: field by field; a field that is refused refuses both. -/
theorem setCuesHandlesEachField : Obligations.SetCuesHandlesEachField := by
  intro tag a1 h1 l1 a2 h2 l2 lab s hlab
  obtain rfl : lab = wordsLabel := funext fun h => funext fun l => hlab h l
  refine ⟨_, rfl, fun bad => ?_, fun u1 u2 r1 r2 => ?_⟩
  · have refused : cueField s.time a1 (wordsLabel h1 l1) s.time.startCue = none ∨
        cueField s.time a2 (wordsLabel h2 l2) s.time.stopCue = none := by
      rcases bad with h | h | h | h
      · exact .inl (cueField_none _ (.inl h))
      · exact .inr (cueField_none _ (.inl h))
      · exact .inl (cueField_none _ (.inr h))
      · exact .inr (cueField_none _ (.inr h))
    have e : s.takeSetCues tag a1 h1 l1 a2 h2 l2 = s.respond tag DirCode.setCues.word .refBadValue 0 := by
      unfold State.takeSetCues
      rcases refused with h | h
      · rw [h]
      · rw [h]
        cases cueField s.time a1 (wordsLabel h1 l1) s.time.startCue with
        | none => rfl
        | some field => rfl
    rw [e]
    exact State.respond_offered _ _ _ _ s
  · unfold State.takeSetCues
    rw [cueField_some _ u1 r1, cueField_some _ u2 r2]
    dsimp only
    rw [← Bool.decide_or]
    simp only [decide_eq_true_eq]
    exact State.respond_offered _ _ _ _ _

end Sys2Proof.Machine
end

section
/-! PROOFS. Counts and labels (R28, R29): both conversions go through the NDF position, the number a frame would have if no
label were dropped, and each is exact. -/

namespace Sys2Proof.Machine

open Sys2Proof

/-! ### The NDF position of a label (R28) -/

/-- The number of the frame a label names when no label is dropped. -/
def Label.position (r : Rate) (l : Label) : Nat := (l.hh * 3600 + l.mm * 60 + l.ss) * r.nominal + l.ff

/-- The labels dropped before a position: D for each minute begun, but for every tenth (R27). -/
def droppedBefore (r : Rate) (df : Bool) (p : Nat) : Nat :=
  dropCount r df * (p / (60 * r.nominal) - p / (60 * r.nominal) / 10)

/-- A position names a frame: it is not one of the first D of a minute, but for every tenth minute (R27). -/
def PositionNamed (r : Rate) (df : Bool) (p : Nat) : Prop :=
  p % (60 * r.nominal) < dropCount r df → p / (60 * r.nominal) % 10 = 0

/-- A position is the hours, minutes, seconds and frames of its label (R29). -/
theorem position_countToLabel (r : Rate) (df : Bool) (n : Nat) :
    (countToLabel r df n).position r = ndfPosition r df n := by
  simp only [countToLabel, Label.position]
  generalize ndfPosition r df n = p
  cases r <;> simp only [Rate.nominal] <;> omega

/-- The minutes of a label in range, and its seconds and frames within the minute, read off its position. -/
theorem Label.position_minute {r : Rate} {l : Label} (h : l.inRange r = true) :
    l.position r / (60 * r.nominal) = l.hh * 60 + l.mm ∧ l.position r % (60 * r.nominal) = l.ss * r.nominal + l.ff := by
  obtain ⟨-, -, hs, hf⟩ := Label.inRange_iff.mp h
  have split : l.position r = l.ss * r.nominal + l.ff + (60 * r.nominal) * (l.hh * 60 + l.mm) := by
    rw [Label.position]; ring
  have within : l.ss * r.nominal + l.ff < 60 * r.nominal := by
    have := Nat.mul_le_mul_right r.nominal (show l.ss + 1 ≤ 60 by omega)
    rw [Nat.add_mul] at this
    omega
  have pos : 0 < 60 * r.nominal := by have := r.nominal_pos; omega
  rw [split]
  exact ⟨by rw [Nat.add_mul_div_left _ _ pos, Nat.div_eq_of_lt within, Nat.zero_add],
    by rw [Nat.add_mul_mod_self_left, Nat.mod_eq_of_lt within]⟩

/-- The count of a label in range: its position less the labels dropped before it (R28). -/
theorem labelToCount_eq {r : Rate} {df : Bool} {l : Label} (h : l.inRange r = true) :
    labelToCount r df l = l.position r - droppedBefore r df (l.position r) := by
  rw [droppedBefore, (Label.position_minute h).1]
  rfl

/-- A label in range is dropped exactly when its position names no frame (R27). -/
theorem Label.named_iff {r : Rate} {df : Bool} {l : Label} (h : l.inRange r = true) :
    l.dropped r df = false ↔ PositionNamed r df (l.position r) := by
  obtain ⟨-, -, -, hf⟩ := Label.inRange_iff.mp h
  have hd := dropCount_lt r df
  have first : l.ss * r.nominal + l.ff < dropCount r df ↔ l.ss = 0 ∧ l.ff < dropCount r df := by
    cases hs : l.ss with
    | zero => simp
    | succ k => rw [Nat.succ_mul]; omega
  have tenth : (l.hh * 60 + l.mm) % 10 = l.mm % 10 := by omega
  obtain ⟨minute, within⟩ := Label.position_minute h
  rw [PositionNamed, minute, within, first, tenth, Bool.eq_false_iff, ne_eq]
  simp only [Label.dropped, Bool.and_eq_true, beq_iff_eq, bne_iff_ne, decide_eq_true_eq]
  tauto

/-! ### Counts and positions (R29) -/

/-- The drop counts that occur, each with its nominal frame count (R20). -/
theorem dropCount_cases (r : Rate) (df : Bool) : dropCount r df = 0 ∨ (dropCount r df = 2 ∧ r.nominal = 30) ∨
    (dropCount r df = 4 ∧ r.nominal = 60) := by cases r <;> cases df <;> decide

/-- A count restored to its position names a frame, and lies past the labels dropped before it (R29). -/
theorem ndfPosition_named (r : Rate) (df : Bool) (n : Nat) :
    PositionNamed r df (ndfPosition r df n) ∧
      ndfPosition r df n = n + droppedBefore r df (ndfPosition r df n) := by
  unfold PositionNamed droppedBefore
  have cases := ndfPosition_cases r df n
  generalize ndfPosition r df n = p at cases ⊢
  rcases dropCount_cases r df with hd | ⟨hd, hf⟩ | ⟨hd, hf⟩
  · simp only [hd] at cases ⊢; omega
  · simp only [hd, hf] at cases ⊢; omega
  · simp only [hd, hf] at cases ⊢; omega

/-- Of two positions that name frames the later has the greater count: less than a minute lies between what the labels
dropped before them add (R28). -/
theorem droppedBefore_lt {r : Rate} {df : Bool} {p q : Nat} (hq : PositionNamed r df q) (h : p < q) :
    p + droppedBefore r df q < q + droppedBefore r df p := by
  have minutes : p / (60 * r.nominal) ≤ q / (60 * r.nominal) := Nat.div_le_div_right h.le
  unfold PositionNamed at hq
  unfold droppedBefore
  rcases dropCount_cases r df with hd | ⟨hd, hf⟩ | ⟨hd, hf⟩
  · simp only [hd]; omega
  · simp only [hd, hf] at hq minutes ⊢; omega
  · simp only [hd, hf] at hq minutes ⊢; omega

/-- A position that names a frame comes back from its count (R28, R29). -/
theorem ndfPosition_sub_dropped {r : Rate} {df : Bool} {p : Nat} (h : PositionNamed r df p) :
    ndfPosition r df (p - droppedBefore r df p) = p := by
  obtain ⟨named, past⟩ := ndfPosition_named r df (p - droppedBefore r df p)
  have few : droppedBefore r df p ≤ p := by
    unfold droppedBefore
    rcases dropCount_cases r df with hd | ⟨hd, hf⟩ | ⟨hd, hf⟩
    · simp only [hd]; omega
    · simp only [hd, hf]; omega
    · simp only [hd, hf]; omega
  rcases lt_trichotomy (ndfPosition r df (p - droppedBefore r df p)) p with lt | eq | gt
  · have := droppedBefore_lt h lt
    omega
  · exact eq
  · have := droppedBefore_lt named gt
    omega

/-- The label of a count whose position is that of a label in range is that label (R29). -/
theorem countToLabel_of_position {r : Rate} {df : Bool} {l : Label} {n : Nat} (h : l.inRange r = true)
    (e : ndfPosition r df n = l.position r) : countToLabel r df n = l := by
  obtain ⟨h1, h2, h3, h4⟩ := Label.inRange_iff.mp h
  obtain ⟨hh, mm, ss, ff⟩ := l
  simp only [countToLabel, e, Label.position, Label.mk.injEq] at h1 h2 h3 h4 ⊢
  cases r <;> simp only [Rate.nominal] at h4 ⊢ <;> omega

/-- Settles O29: a count goes to its label by its position and back, and so does a label that is not dropped. -/
theorem labelsAndCountsAreExact : Obligations.LabelsAndCountsAreExact := by
  intro r df _
  refine ⟨fun n hn => ?_, fun l hl named => ⟨labelToCount_lt hl, ?_⟩⟩
  · have inRange := countToLabel_inRange hn
    obtain ⟨named, past⟩ := ndfPosition_named r df n
    refine ⟨inRange, ?_, ?_⟩
    · rw [Label.named_iff inRange, position_countToLabel]
      exact named
    · rw [labelToCount_eq inRange, position_countToLabel]
      omega
  · refine countToLabel_of_position hl ?_
    rw [labelToCount_eq hl]
    exact ndfPosition_sub_dropped ((Label.named_iff hl).mp named)

end Sys2Proof.Machine
end

section
/-! PROOFS. A frame admitted while RECORDING, up to its live join (R45, R49, R50, R69). -/

namespace Sys2Proof.Machine

open Sys2Proof

/-! ### The admission, up to the live join (R45, R49, R50) -/

/-- With room and no link request taken, a part that is not in STANDBY admits the frame at its lowest FREE record. -/
theorem State.admitFrame_room {s : State} {p : RecNo} (c : BitVec 32) (st : Stamp)
    (hs : s.clips.recordState ≠ .standby) (room : s.RoomAt p) :
    s.admitFrame c st [] = ((s.admitPrincipal c st p []).1, some (p, (s.admitPrincipal c st p []).2)) := by
  have hfree := Store.lowestFree_eq room.free room.lowest
  have hroom : s.store.short s.banks.pagesP = false := by simp [Store.short, room.pages, hfree]
  unfold State.admitFrame
  rw [if_neg hs, State.measures_room hroom]
  simp only [hroom, Bool.false_eq_true, if_false, hfree]

/-- What the admission of a frame leaves before its live join, the principal's record and its twin reserved: `u` from the
state `s` in which it was announced (R49, R50, R99). -/
structure State.Admitted (c : BitVec 32) (st : Stamp) (p : RecNo) (twin : Option RecNo) (s u : State) : Prop where
  ingress : u.ingress = s.ingress
  time    : u.time = s.time
  clips   : u.clips = s.clips
  banks   : u.banks = s.banks
  capture : (u.store.frame p).capture = c
  stamp   : (u.store.frame p).stamp = st
  twin    : (u.store.frame p).twin = twin
  pq      : u.store.pq = s.store.pq
  xq      : u.store.xq = s.store.xq
  quiet   : s.banks.act.lowMark ≤ u.store.freePages → u.flags = s.flags ∧ u.dir = s.dir

/-- The principal's reservation alone (R49). -/
theorem State.reserve_admitted (c : BitVec 32) (st : Stamp) (p : RecNo) (s : State) :
    s.Admitted c st p none (s.reserve p (principalRecord s.banks c st)) := by
  have same := State.reserve_same p (principalRecord s.banks c st) s
  have store : (s.reserve p (principalRecord s.banks c st)).store = s.store.reserve p (principalRecord s.banks c st) :=
    same.store
  refine ⟨same.ingress, same.time, same.clips, same.banks, ?_, ?_, ?_, ?_, ?_, fun h => ?_⟩
  · rw [store, Store.reserve_frame_self]; rfl
  · rw [store, Store.reserve_frame_self]; rfl
  · rw [store, Store.reserve_frame_self]; rfl
  · rw [store]; rfl
  · rw [store]; rfl
  · rw [store] at h
    rw [State.reserve_quiet (.inl h)]
    exact ⟨rfl, rfl⟩

/-- The twin, where there is room for one, and the ramp step (R50, R99). -/
theorem State.Admitted.withTwin {c : BitVec 32} {st : Stamp} {p : RecNo} {s a : State} (h : s.Admitted c st p none a)
    (hp : (a.store.frame p).state ≠ .free) :
    s.Admitted c st p (a.admitTwin c st p).2
      { (a.admitTwin c st p).1 with render := (a.admitTwin c st p).1.render.afterStep } := by
  cases hq : a.twinRoom with
  | none =>
    rw [State.admitTwin_none c st p hq]
    exact ⟨h.ingress, h.time, h.clips, h.banks, h.capture, h.stamp, h.twin, h.pq, h.xq, h.quiet⟩
  | some q =>
    obtain ⟨-, -, hlow⟩ := State.twinRoom_some hq
    have hqp : q ≠ p := by
      rintro rfl
      exact hp (FrameRecord.isFree_iff.mp (Store.lowestFree_some hlow).1)
    rw [State.admitTwin_some c st p hq]
    generalize hr : twinRecord a.banks c st p (a.render.step.map (·.step)) = r
    have same := State.reserve_same q r a
    have store : (a.reserve q r).store = a.store.reserve q r := same.store
    have frame : ((a.reserve q r).store.modify p fun x => { x with twin := some q }).frame p =
        { a.store.frame p with twin := some q } := by
      rw [Store.modify_frame_self, store, Store.reserve_frame, if_neg hqp]
    refine ⟨same.ingress.trans h.ingress, same.time.trans h.time, same.clips.trans h.clips, same.banks.trans h.banks,
      ?_, ?_, ?_, ?_, ?_, fun low => ?_⟩
    · exact (congrArg FrameRecord.capture frame).trans h.capture
    · exact (congrArg FrameRecord.stamp frame).trans h.stamp
    · exact congrArg FrameRecord.twin frame
    · exact (congrArg Store.pq store).trans h.pq
    · exact (congrArg Store.xq store).trans h.xq
    · have below : s.banks.act.lowMark ≤ (a.store.reserve q r).freePages := store ▸ low
      have less : (a.store.reserve q r).freePages ≤ a.store.freePages := Nat.sub_le _ _
      obtain ⟨flags, dir⟩ := h.quiet (below.trans less)
      dsimp only
      rw [State.reserve_quiet (.inl (by rw [h.banks]; exact below))]
      exact ⟨flags, dir⟩

/-- A frame admitted while RECORDING, with room and no link request taken: its reservations, then its live join (R45,
R69). -/
theorem State.admitPrincipal_recording {s : State} (c : BitVec 32) (st : Stamp) (p : RecNo)
    (hr : s.clips.recordState = .recording) :
    ∃ u twin, s.admitPrincipal c st p [] = (u.joinLive p, twin) ∧ s.Admitted c st p twin u := by
  have reserved := State.reserve_admitted c st p s
  have filling : ((s.reserve p (principalRecord s.banks c st)).store.frame p).state ≠ .free := by
    rw [(State.reserve_same _ _ s).store, Store.reserve_frame_self]
    nofun
  have admitted := reserved.withTwin filling
  refine ⟨_, _, ?_, admitted⟩
  have recording := (congrArg Clips.recordState admitted.clips).trans hr
  unfold State.admitPrincipal
  simp only [State.takeDuring_nil]
  exact Prod.ext (if_pos recording) rfl

/-- A part ready for the live join of the frame that a FRAME OPEN announced, in terms of the state `s` that took it: the
stamp latched, the frame's records reserved (R30 to R32, R49, R50). -/
structure State.ReadyToJoin (rest : List Word) (p : RecNo) (twin : Option RecNo) (s u : State) : Prop where
  loss    : u.ingress.lossCount = 0
  time    : u.time = s.time.afterStamp
  banks   : u.banks = s.banks
  capture : (u.store.frame p).capture = openCapture rest
  tod     : (u.store.frame p).stamp.tod = s.time.tod
  twin    : (u.store.frame p).twin = twin
  pq      : u.store.pq = s.store.pq
  xq      : u.store.xq = s.store.xq

/-- Readiness does not rest on the clips or on the flags. -/
theorem State.ReadyToJoin.of_same {rest : List Word} {p : RecNo} {twin : Option RecNo} {s u y : State}
    (h : s.ReadyToJoin rest p twin u) (cs : Clips) (i : Ingress) (hi : i.lossCount = 0)
    (same : ({ u with clips := cs, ingress := i } : State).SameBlocks y) : s.ReadyToJoin rest p twin y := by
  have store : y.store = u.store := same.store
  exact ⟨(congrArg Ingress.lossCount same.ingress).trans hi, same.time.trans h.time, same.banks.trans h.banks,
    by rw [store]; exact h.capture, by rw [store]; exact h.tod, by rw [store]; exact h.twin, by rw [store]; exact h.pq,
    by rw [store]; exact h.xq⟩

/-- A FRAME OPEN of the active bank's size while RECORDING, with room: the frame is admitted, joins, and is open. -/
theorem exec_frameOpen_recording {rest : List Word} {p : RecNo} {s : State} (o : BoundaryOrder) (op : s.OpensFrame rest)
    (room : s.RoomAt p) (hr : s.clips.recordState = .recording) :
    ∃ u twin, exec (.frameOpen rest o []) s =
        .next ((u.joinLive p).setFrame (.inFrame (newFrame p twin (openWidth rest) (openHeight rest)))) ∧
      s.ReadyToJoin rest p twin u ∧ u.clips = s.clips ∧
      (s.InSequence rest → s.banks.act.lowMark ≤ u.store.freePages → u.flags = s.flags ∧ u.dir = s.dir) := by
  obtain ⟨v, hx, same, -, quiet⟩ :=
    exec_frameOpen_quiet o [] op.link op.verdict op.count op.frame op.queue op.actions
  have vb : v.banks = s.banks := same.banks
  have vs : v.store = s.store := same.store
  have vr : v.clips.recordState = .recording := (congrArg Clips.recordState same.clips).trans hr
  have vroom : v.RoomAt p :=
    ⟨by rw [vb, vs]; exact room.pages, by rw [vs]; exact room.free, by rw [vs]; exact room.lowest⟩
  obtain ⟨u, twin, hu, adm⟩ := State.admitPrincipal_recording (openCapture rest) s.time.stamp p vr
  refine ⟨u, twin, ?_, ?_, adm.clips.trans same.clips, fun seq low => ?_⟩
  · rw [hx, State.announce_fits (by rw [vb]; exact op.valid) (by rw [vb]; exact op.width) (by rw [vb]; exact op.height),
      State.admitFrame_room _ _ (by rw [vr]; nofun) vroom, hu]
  · refine ⟨?_, adm.time.trans same.time, adm.banks.trans vb, adm.capture, by rw [adm.stamp]; rfl, adm.twin, ?_, ?_⟩
    · rw [adm.ingress, same.ingress]; rfl
    · rw [adm.pq, vs]
    · rw [adm.xq, vs]
  · obtain ⟨flags, dir⟩ := adm.quiet (by rw [vb]; exact low)
    rw [flags, dir, quiet seq]
    exact ⟨rfl, rfl⟩

end Sys2Proof.Machine
end

section
/-! PROOFS. The parts of a live join: the join to the open clip, the ceiling, and the split, made or deferred (R68, R69, R72, R80
to R84). -/

namespace Sys2Proof.Machine

open Sys2Proof

/-! ### The join to the open clip (R25, R26, R68, R69, R72, R80) -/

/-- Which flags are set is read off the Flag Unit alone (R160). -/
theorem State.isSet_of_flags {s t : State} (h : t.flags = s.flags) {g : Flag} (hg : s.isSet g) : t.isSet g := by
  unfold State.isSet at hg ⊢
  rw [h]
  exact hg

/-- The three blocks that a join writes, replaced. What it leaves of the others is stated for any three blocks, so that no
proof compares the written ones. -/
def State.setBlocks (t : TimeBase) (st : Store) (cs : Clips) (s : State) : State :=
  { s with time := t, store := st, clips := cs }

section
variable (t : TimeBase) (st : Store) (cs : Clips) (s : State)

@[simp] theorem State.setBlocks_time : (s.setBlocks t st cs).time = t := rfl
@[simp] theorem State.setBlocks_store : (s.setBlocks t st cs).store = st := rfl
@[simp] theorem State.setBlocks_clips : (s.setBlocks t st cs).clips = cs := rfl
@[simp] theorem State.setBlocks_ingress : (s.setBlocks t st cs).ingress = s.ingress := rfl
@[simp] theorem State.setBlocks_flags : (s.setBlocks t st cs).flags = s.flags := rfl
@[simp] theorem State.setBlocks_dir : (s.setBlocks t st cs).dir = s.dir := rfl
end

/-- The state that a join to the open clip `c` writes, PROXY GAP apart. -/
def State.liveJoined (i : RecNo) (c : ClipRecord) (s : State) : State :=
  s.setBlocks { s.time with rr := nextCount s.time.perDay s.time.rr }
    (s.store.writePart i ⟨c.number, c.joined, c.timecode (s.store.frame i) s.time.rr⟩)
    ((s.clips.modifyOpen (ClipRecord.join (c.timecode (s.store.frame i) s.time.rr) (s.store.frame i).capture
      (s.store.frame i).twin.isSome)).setSplit (splitDue s.banks.act.clipLimit (c.joined + 1)))

/-- A join to the open clip: what it writes, and PROXY GAP for a frame without a twin (R68, R72). -/
theorem State.joinOpen_live {s : State} {c : ClipRecord} (i : RecNo) (h : s.clips.openClip = some c) :
    s.joinOpen i = if (s.store.frame i).twin.isSome then s.liveJoined i c else (s.liveJoined i c).setFlag .proxyGap := by
  unfold State.joinOpen
  rw [h]
  rfl

/-- What a join to the open clip `c` does: the clip part, the clip's counts, the split-pending mark by the clip limit, the
RR count, and PROXY GAP for a frame without a twin. -/
structure State.JoinedLive (i : RecNo) (c : ClipRecord) (s t : State) : Prop where
  blocks : (s.liveJoined i c).SameBlocks t
  gap : (s.store.frame i).twin = none → t.isSet .proxyGap
  quiet : (s.store.frame i).twin ≠ none → t.flags = s.flags ∧ t.dir = s.dir
  mono : ∀ g, s.isSet g → t.isSet g

theorem State.joinOpen_joined {s : State} {c : ClipRecord} (i : RecNo) (h : s.clips.openClip = some c) :
    s.JoinedLive i c (s.joinOpen i) := by
  have mono : ∀ g, s.isSet g → (s.liveJoined i c).isSet g := fun _ =>
    State.isSet_of_flags (State.setBlocks_flags _ _ _ _)
  rw [State.joinOpen_live i h]
  cases ht : (s.store.frame i).twin with
  | some q =>
    rw [Option.isSome_some, if_pos rfl]
    exact ⟨.refl _, by rw [ht]; nofun, fun _ => ⟨State.setBlocks_flags _ _ _ _, State.setBlocks_dir _ _ _ _⟩, mono⟩
  | none =>
    rw [Option.isSome_none, if_neg Bool.false_ne_true]
    exact ⟨State.setFlag_same _ _, fun _ => State.setFlag_isSet _ _, fun hn => absurd ht hn,
      fun g hg => State.setFlag_mono .proxyGap g (mono g hg)⟩

section
variable {i : RecNo} {c : ClipRecord} {s t : State}

theorem State.JoinedLive.store (h : s.JoinedLive i c t) :
    t.store = s.store.writePart i ⟨c.number, c.joined, c.timecode (s.store.frame i) s.time.rr⟩ :=
  h.blocks.store.trans (State.setBlocks_store _ _ _ _)

theorem State.JoinedLive.clips (h : s.JoinedLive i c t) :
    t.clips = (s.clips.modifyOpen (ClipRecord.join (c.timecode (s.store.frame i) s.time.rr) (s.store.frame i).capture
      (s.store.frame i).twin.isSome)).setSplit (splitDue s.banks.act.clipLimit (c.joined + 1)) :=
  h.blocks.clips.trans (State.setBlocks_clips _ _ _ _)

theorem State.JoinedLive.time (h : s.JoinedLive i c t) :
    t.time = { s.time with rr := nextCount s.time.perDay s.time.rr } :=
  h.blocks.time.trans (State.setBlocks_time _ _ _ _)

theorem State.JoinedLive.ingress (h : s.JoinedLive i c t) : t.ingress = s.ingress :=
  h.blocks.ingress.trans (State.setBlocks_ingress _ _ _ _)

theorem State.JoinedLive.part (h : s.JoinedLive i c t) :
    (t.store.frame i).part = some ⟨c.number, c.joined, c.timecode (s.store.frame i) s.time.rr⟩ := by
  rw [h.store, Store.writePart_frame, if_pos (.inl rfl)]

/-- The twin takes the clip part of its principal (R68, step 3). -/
theorem State.JoinedLive.twinPart (h : s.JoinedLive i c t) {q : RecNo} (hq : (s.store.frame i).twin = some q) :
    (t.store.frame q).part = (t.store.frame i).part := by
  rw [h.part, h.store, Store.writePart_frame, if_pos (.inr hq)]

theorem State.JoinedLive.queues (h : s.JoinedLive i c t) :
    t.store.pq = s.store.pq ∧ t.store.xq = s.store.xq ∧ t.store.freePages = s.store.freePages := by
  rw [h.store]
  exact Store.writePart_queues _ _ _

theorem Clips.openClip_isOpen {cs : Clips} (h : cs.openClip = some c) : c.state = .isOpen := by
  simpa using List.find?_some h

theorem Clips.openClip_setSplit (cs : Clips) (mark : Bool) : (cs.setSplit mark).openClip = cs.openClip := rfl

theorem Clips.setSplit_splitPending (cs : Clips) (mark : Bool) : (cs.setSplit mark).splitPending = mark := rfl
theorem Clips.setSplit_deferralReported (cs : Clips) (mark : Bool) :
    (cs.setSplit mark).deferralReported = (cs.deferralReported && mark) := rfl

/-- A change that leaves the open clip open: the clip found open afterwards is the one found before, changed. -/
theorem Clips.openClip_modifyOpen {cs : Clips} {f : ClipRecord → ClipRecord}
    (hf : ∀ r, (f r).state = r.state) (h : cs.openClip = some c) : (cs.modifyOpen f).openClip = some (f c) := by
  have same : ((fun r : ClipRecord => r.state == .isOpen) ∘ fun r => if r.state = .isOpen then f r else r) =
      fun r => r.state == .isOpen := by
    funext r
    show ((if r.state = .isOpen then f r else r).state == _) = _
    split
    · rw [hf]
    · rfl
  show (cs.records.map _).find? _ = _
  rw [List.find?_map, same]
  show cs.openClip.map _ = _
  rw [h, Option.map_some, if_pos (Clips.openClip_isOpen h)]

theorem State.JoinedLive.openClip (h : s.JoinedLive i c t) (hc : s.clips.openClip = some c) :
    t.clips.openClip = some (c.join (c.timecode (s.store.frame i) s.time.rr) (s.store.frame i).capture
      (s.store.frame i).twin.isSome) := by
  rw [h.clips, Clips.openClip_setSplit]
  exact Clips.openClip_modifyOpen (ClipRecord.join_state _ _ _) hc

/-! ### The ceiling (R83) -/

theorem State.testCeiling_below (h : s.clips.openClip = some c) (hj : c.joined ≠ 16777215) : s.testCeiling = s := by
  unfold State.testCeiling
  rw [h, if_neg]
  simpa [Config.clipCeiling] using hj

theorem State.testCeiling_reached (h : s.clips.openClip = some c) (hj : c.joined = 16777215) :
    s.testCeiling = s.closeOpen .limit := by
  unfold State.testCeiling
  rw [h, if_pos]
  simpa [Config.clipCeiling] using hj

/-- A clip closed with frames still to send is CLOSING with its cause (R78, R84). -/
theorem State.closeOpen_unsettled (cause : EndCause) (h : s.clips.openClip = some c) (hs : c.sent ≠ c.joined) :
    c.close cause ∈ (s.closeOpen cause).clips.records := by
  have owed : (c.close cause).settled = false := by simp [ClipRecord.settled, ClipRecord.close, hs]
  rw [State.closeOpen_eq cause h, State.testSettle_clips]
  refine (List.mem_eraseP_of_neg (by simp [owed])).mpr ?_
  exact List.mem_map.mpr ⟨c, List.mem_of_find?_eq_some h, if_pos (Clips.openClip_isOpen h)⟩

/-- A close clears the split-pending mark (R78). -/
theorem State.closeOpen_splitPending (cause : EndCause) (h : s.clips.openClip = some c) :
    (s.closeOpen cause).clips.splitPending = false := by
  rw [State.closeOpen_eq cause h, State.testSettle_clips]
  rfl

/-! ### The split that is not made (R81, R82) -/

theorem Clips.roomForClip_full {cs : Clips} (h : 4 ≤ cs.records.length) : cs.roomForClip = false :=
  decide_eq_false (Nat.not_lt.mpr h)

/-- With no split pending, or no record free, the clip stays open: the deferral is reported, and all else is left. -/
theorem State.trySplit_stays (h : s.clips.splitPending = false ∨ 4 ≤ s.clips.records.length) :
    ({ s with clips := { s.clips with deferralReported := s.clips.deferralReported || s.clips.splitPending } } :
      State).SameBlocks s.trySplit := by
  unfold State.trySplit
  cases hp : s.clips.splitPending with
  | false =>
    rw [Bool.or_false, if_neg Bool.false_ne_true]
    exact .refl s
  | true =>
    have full := Clips.roomForClip_full (h.resolve_left (by rw [hp]; nofun))
    rw [Bool.or_true, if_pos rfl, full, if_neg Bool.false_ne_true, State.deferSplit]
    cases hd : s.clips.deferralReported with
    | true =>
      have : ({ s with clips := { s.clips with deferralReported := true } } : State) = s := by rw [← hd]
      rw [this, if_pos rfl]
      exact .refl s
    | false =>
      rw [if_neg Bool.false_ne_true]
      exact State.setFlag_same _ _

/-- The first deferral of a split sets SPLIT DEFERRED (R82). -/
theorem State.trySplit_reports (hp : s.clips.splitPending = true) (full : 4 ≤ s.clips.records.length)
    (hd : s.clips.deferralReported = false) : s.trySplit.isSet .splitDeferred := by
  unfold State.trySplit State.deferSplit
  rw [if_pos hp, Clips.roomForClip_full full, if_neg Bool.false_ne_true, hd, if_neg Bool.false_ne_true]
  exact State.setFlag_isSet _ _

/-- A deferral already reported changes nothing (R82). -/
theorem State.trySplit_reported (hp : s.clips.splitPending = true) (full : 4 ≤ s.clips.records.length)
    (hd : s.clips.deferralReported = true) : s.trySplit = s := by
  unfold State.trySplit State.deferSplit
  rw [if_pos hp, Clips.roomForClip_full full, if_neg Bool.false_ne_true, if_pos hd]

/-! ### The split that is made (R66, R78, R81, R84) -/

/-- A split made: the new clip stands last and alone is open, what is left of the others is closed, and the clip it
continues is CLOSING with cause SPLIT or has settled. -/
structure State.SplitMade (c : ClipRecord) (rs : List ClipRecord) (s t : State) : Prop where
  last : t.clips.LastOpen rs (newClip (some c) s)
  recordState : t.clips.recordState = .recording
  blocks : ({ s with clips := t.clips, ingress := { s.ingress with lossCount := 0 } } : State).SameBlocks t
  owed : ¬ (c.sent = c.joined ∧ c.proxySent + c.evicted = c.made) → c.close .split ∈ rs
  settled : c.sent = c.joined → c.proxySent + c.evicted = c.made → t.isSet .clipSettled ∧ ∀ r ∈ rs, r ∈ s.clips.records

/-- The clip records with the open clip `c` closed by a split. -/
def Clips.splitClosed (s : Clips) : List ClipRecord :=
  s.records.map fun r => if r.state = .isOpen then r.close .split else r

/-- The state between the opening of the next part and the settling test of the one before it (R81). -/
def State.splitOpened (c : ClipRecord) (s : State) : State :=
  State.openRecord (some c) { s with clips := (s.clips.modifyOpen (ClipRecord.close .split)).setSplit false }

theorem State.trySplit_made (hp : s.clips.splitPending = true) (room : s.clips.records.length < 4)
    (hc : s.clips.openClip = some c) : s.trySplit = (s.splitOpened c).testSettle c.number := by
  have free : s.clips.roomForClip = true := decide_eq_true room
  unfold State.trySplit State.split
  rw [if_pos hp, if_pos free, hc]
  rfl

theorem State.splitOpened_records (c : ClipRecord) (s : State) :
    (s.splitOpened c).clips.records = s.clips.splitClosed ++ [newClip (some c) s] := rfl

/-- Where `c` alone is open or has its number, the records closed by a split are the others and `c` closed. -/
theorem Clips.splitClosed_eq {cs : Clips} (ho : c.state = .isOpen) (hc : c ∈ cs.records) (nodup : cs.records.Nodup)
    (only : ∀ r ∈ cs.records, r.number = c.number ∨ r.state = .isOpen → r = c) :
    ∃ as bs, cs.splitClosed = as ++ c.close .split :: bs ∧ (∀ r ∈ as ++ bs, r ∈ cs.records ∧ r ≠ c) := by
  obtain ⟨as, bs, hl⟩ := List.append_of_mem hc
  have others : ∀ r ∈ as ++ bs, r ∈ cs.records ∧ r ≠ c := by
    intro r hr
    rw [hl] at nodup ⊢
    have apart := (List.nodup_cons.mp (List.nodup_middle.mp nodup)).1
    refine ⟨?_, fun e => apart (e ▸ hr)⟩
    simp only [List.mem_append, List.mem_cons] at hr ⊢
    tauto
  have keep : ∀ l : List ClipRecord, (∀ r ∈ l, r ∈ as ++ bs) →
      l.map (fun r => if r.state = .isOpen then r.close .split else r) = l := fun l hsub =>
    (List.map_congr_left fun r hr => if_neg fun hopen =>
      (others r (hsub r hr)).2 (only r (others r (hsub r hr)).1 (.inr hopen))).trans (List.map_id' l)
  refine ⟨as, bs, ?_, others⟩
  rw [Clips.splitClosed, hl, List.map_append, List.map_cons, if_pos ho,
    keep as fun r hr => List.mem_append_left _ hr, keep bs fun r hr => List.mem_append_right _ hr]

theorem ClipRecord.close_settled (cause : EndCause) (c : ClipRecord) : (c.close cause).settled = true ↔
    c.sent = c.joined ∧ c.proxySent + c.evicted = c.made := by
  simp [ClipRecord.settled, ClipRecord.close]

/-- The settling test after a split passes over every record but the closed clip's. -/
theorem State.splitOpened_settling (hc : s.clips.openClip = some c) (nodup : s.clips.records.Nodup)
    (only : ∀ r ∈ s.clips.records, r.number = c.number ∨ r.state = .isOpen → r = c) :
    ∃ as bs, s.clips.splitClosed = as ++ c.close .split :: bs ∧ (∀ r ∈ as ++ bs, r ∈ s.clips.records ∧ r ≠ c) ∧
      ((s.splitOpened c).testSettle c.number).clips.records =
        (if (c.close .split).settled then as ++ bs else s.clips.splitClosed) ++ [newClip (some c) s] := by
  have hmem : c ∈ s.clips.records := List.mem_of_find?_eq_some hc
  obtain ⟨as, bs, hl, others⟩ := Clips.splitClosed_eq (Clips.openClip_isOpen hc) hmem nodup only
  refine ⟨as, bs, hl, others, ?_⟩
  have pass : ∀ l : List ClipRecord, (∀ r ∈ l, r ∈ as ++ bs) →
      ∀ r ∈ l, ¬ (r.number == c.number && r.settled) = true := by
    intro l hsub r hr h
    have hn : r.number = c.number := by simpa using (Bool.and_eq_true_iff.mp h).1
    exact (others r (hsub r hr)).2 (only r (others r (hsub r hr)).1 (.inl hn))
  have passNew : ¬ ((newClip (some c) s).number == c.number && (newClip (some c) s).settled) = true := by
    have : (newClip (some c) s).settled = false := by simp [ClipRecord.settled, newClip]
    rw [this, Bool.and_false]
    exact Bool.false_ne_true
  have passA := pass as fun r hr => List.mem_append_left _ hr
  have passB := pass bs fun r hr => List.mem_append_right _ hr
  rw [State.testSettle_clips, State.splitOpened_records, hl]
  dsimp only
  rw [List.append_assoc, List.eraseP_append_right _ passA, List.cons_append]
  cases hset : (c.close .split).settled with
  | true =>
    rw [List.eraseP_cons_of_pos (by rw [hset]; simp [ClipRecord.close]), if_pos rfl, List.append_assoc]
  | false =>
    rw [List.eraseP_of_forall_not, if_neg Bool.false_ne_true, List.append_assoc, List.cons_append]
    intro r hr
    rcases List.mem_cons.mp hr with rfl | hr
    · rw [hset, Bool.and_false]; exact Bool.false_ne_true
    · rcases List.mem_append.mp hr with hr | hr
      · exact passB r hr
      · rw [List.mem_singleton.mp hr]; exact passNew

/-- With a split pending and a record free, the open clip closes and a clip that continues it opens (R81). -/
theorem State.trySplit_splitMade (hp : s.clips.splitPending = true) (room : s.clips.records.length < 4)
    (hc : s.clips.openClip = some c) (nodup : s.clips.records.Nodup)
    (only : ∀ r ∈ s.clips.records, r.number = c.number ∨ r.state = .isOpen → r = c)
    (fresh : ∀ r ∈ s.clips.records, r.number ≠ s.clips.nextNumber) :
    ∃ rs, s.SplitMade c rs s.trySplit := by
  obtain ⟨as, bs, hl, others, records⟩ := State.splitOpened_settling hc nodup only
  have hmem : c ∈ s.clips.records := List.mem_of_find?_eq_some hc
  have closedOld : ∀ r ∈ s.clips.splitClosed, r.state ≠ .isOpen ∧ r.number ≠ s.clips.nextNumber := by
    intro r hr
    obtain ⟨x, hx, rfl⟩ := List.mem_map.mp hr
    by_cases hopen : x.state = .isOpen
    · rw [if_pos hopen]; exact ⟨nofun, fresh x hx⟩
    · rw [if_neg hopen]; exact ⟨hopen, fresh x hx⟩
  have sub : ∀ r ∈ as ++ bs, r ∈ s.clips.splitClosed := by
    intro r hr
    rw [hl]
    simp only [List.mem_append, List.mem_cons] at hr ⊢
    tauto
  rw [State.trySplit_made hp room hc]
  refine ⟨_, ⟨records, rfl, fun r hr => ?_⟩, ?_, ?_, fun h => ?_, fun h1 h2 => ?_⟩
  · split at hr
    · exact closedOld r (sub r hr)
    · exact closedOld r hr
  · rw [State.testSettle_clips]; rfl
  · exact State.testSettle_blocks c.number (s.splitOpened c)
  · rw [if_neg fun k => h ((ClipRecord.close_settled _ c).mp k), hl]
    exact List.mem_append_right _ List.mem_cons_self
  · have settled := (ClipRecord.close_settled .split c).mpr ⟨h1, h2⟩
    rw [if_pos settled]
    refine ⟨State.testSettle_settled (r := c.close .split) ?_ rfl settled, fun r hr => (others r hr).1⟩
    rw [State.splitOpened_records, hl]
    simp
end

end Sys2Proof.Machine
end

section
/-! PROOFS. A FRAME OPEN while RECORDING: the live join as a whole (R25, R26, R69, R81 to R83). -/

namespace Sys2Proof.Machine

open Sys2Proof

/-- The timecode a live frame takes as it joins a clip: the TOD count of its stamp or the RR count (R26). -/
def State.liveTimecode (c : ClipRecord) (s : State) : Nat :=
  match c.mode with
  | .freeRun => s.time.tod
  | .recordRun => s.time.rr

theorem State.ReadyToJoin.timecode {rest : List Word} {p : RecNo} {twin : Option RecNo} {s u : State}
    (h : s.ReadyToJoin rest p twin u) (c : ClipRecord) :
    c.timecode (u.store.frame p) u.time.rr = s.liveTimecode c := by
  unfold ClipRecord.timecode State.liveTimecode
  rw [h.tod, h.time]
  rfl

/-- The live join with no split made: the frame joins the open clip, and the ceiling is tested (R69, R82, R83). -/
theorem State.ReadyToJoin.stays {rest : List Word} {p : RecNo} {twin : Option RecNo} {s u : State} {c : ClipRecord}
    (h : s.ReadyToJoin rest p twin u) (uc : u.clips = s.clips) (hc : s.clips.openClip = some c)
    (stays : s.clips.splitPending = false ∨ 4 ≤ s.clips.records.length) :
    ∃ x, u.joinLive p = x.testCeiling ∧ s.ReadyToJoin rest p twin u.trySplit ∧ u.trySplit.JoinedLive p c x ∧
      u.trySplit.store = u.store ∧ x.clips.openClip = some (c.join (s.liveTimecode c) (openCapture rest) twin.isSome) ∧
      u.trySplit.clips = { s.clips with deferralReported := s.clips.deferralReported || s.clips.splitPending } := by
  have same := State.trySplit_stays (s := u) (by rw [uc]; exact stays)
  have ready := h.of_same _ u.ingress h.loss same
  have clips : u.trySplit.clips = _ := same.clips
  rw [uc] at clips
  have hopen : u.trySplit.clips.openClip = some c := by rw [clips]; exact hc
  have joined := State.joinOpen_joined p hopen
  refine ⟨_, rfl, ready, joined, same.store, ?_, clips⟩
  rw [joined.openClip hopen, ready.timecode, ready.capture, ready.twin]

/-- The clip that a split opens, once the frame that made it has joined as frame 0 (R66, R81). -/
theorem newClip_joined (c : ClipRecord) (u : State) (timecode : Nat) (capture : BitVec 32) (twin : Bool) :
    let new := (newClip (some c) u).join timecode capture twin
    new.take = c.take ∧ new.part = min 255 (c.part + 1) ∧ new.reel = c.reel ∧ new.mode = c.mode ∧
      new.rate = u.time.rate ∧ new.df = u.time.df ∧ new.joined = 1 ∧ new.startTc = some timecode ∧
      new.firstCapture = some capture := by
  dsimp only
  rw [ClipRecord.join_eq]
  exact ⟨rfl, rfl, rfl, rfl, rfl, rfl, rfl, rfl, rfl⟩

/-- The live join with the split made: the frame joins the clip that continues the open one, as its frame 0 (R69, R81). -/
theorem State.ReadyToJoin.splits {rest : List Word} {p : RecNo} {twin : Option RecNo} {s u : State} {c : ClipRecord}
    (h : s.ReadyToJoin rest p twin u) (uc : u.clips = s.clips) (hp : s.clips.splitPending = true)
    (free : s.clips.records.length < 4) (hc : s.clips.openClip = some c) (nodup : s.clips.records.Nodup)
    (only : ∀ r ∈ s.clips.records, r.number = c.number ∨ r.state = .isOpen → r = c)
    (fresh : ∀ r ∈ s.clips.records, r.number ≠ s.clips.nextNumber) :
    ∃ rs x, u.joinLive p = x ∧ u.SplitMade c rs u.trySplit ∧ s.ReadyToJoin rest p twin u.trySplit ∧
      u.trySplit.JoinedLive p (newClip (some c) u) x ∧
      x.clips.openClip = some ((newClip (some c) u).join (s.liveTimecode c) (openCapture rest) twin.isSome) ∧
      x.clips.records = rs ++ [(newClip (some c) u).join (s.liveTimecode c) (openCapture rest) twin.isSome] := by
  obtain ⟨rs, made⟩ : ∃ rs, u.SplitMade c rs u.trySplit := by
    rw [← uc] at hp free hc nodup only fresh
    exact State.trySplit_splitMade hp free hc nodup only fresh
  have ready := h.of_same _ _ rfl made.blocks
  have joined := State.joinOpen_joined p made.last.openClip
  have hopen := joined.openClip made.last.openClip
  have records := congrArg Clips.records joined.clips
  rw [made.last.modifyOpen] at records
  have timecode : (newClip (some c) u).timecode (u.trySplit.store.frame p) u.trySplit.time.rr = s.liveTimecode c :=
    ready.timecode _
  rw [timecode, ready.capture, ready.twin] at hopen records
  refine ⟨rs, _, ?_, made, ready, joined, hopen, records⟩
  exact State.testCeiling_below hopen (by rw [ClipRecord.join_eq]; exact (by decide : 0 + 1 ≠ 16777215))

theorem Clips.hasOpen_of_openClip {cs : Clips} {c : ClipRecord} (h : cs.openClip = some c) : cs.hasOpen = true :=
  List.any_eq_true.mpr ⟨c, List.mem_of_find?_eq_some h, by rw [Clips.openClip_isOpen h]; rfl⟩

/-- A live frame that joins the open clip below the ceiling (R25, R26, R68, R69, R72). -/
theorem State.joinLive_below {p : RecNo} {u x : State} {c : ClipRecord} {timecode : Nat} {capture : BitVec 32}
    {twin : Bool} (hx : u.joinLive p = x.testCeiling) (hopen : x.clips.openClip = some (c.join timecode capture twin))
    (below : c.joined + 1 ≠ 16777215) : u.joinLive p = x := by
  rw [hx]
  exact State.testCeiling_below hopen (by rw [ClipRecord.join_eq]; exact below)

/-- Settles O20: the admission up to the join, and then by what becomes of the pending split: made, it gives the frame a
clip of its own; otherwise the frame joins the open clip, below the ceiling or at it. -/
theorem frameOpenJoinsTheOpenClip : Obligations.FrameOpenJoinsTheOpenClip := by
  refine ⟨fun rest o p c timecode s op room hr hc only nodup htc => ?_, ?_⟩
  · obtain rfl : timecode = s.liveTimecode c := htc
    obtain ⟨u, twin, hx, ready, uc, quiet⟩ := exec_frameOpen_recording o op room hr
    refine ⟨_, _, hx, rfl, rfl, fun hp free fresh => ?_, fun hp full below => ?_, fun reach hstay => ?_⟩
    · obtain ⟨rs, x, hj, made, ready', joined, hopen, records⟩ := ready.splits uc hp free hc nodup only fresh
      obtain ⟨take, part, reel, mode, rate, df, count, startTc, firstCapture⟩ :=
        newClip_joined c u (s.liveTimecode c) (openCapture rest) twin.isSome
      have number : (ClipRecord.join (s.liveTimecode c) (openCapture rest) twin.isSome (newClip (some c) u)).number =
          s.clips.nextNumber := (ClipRecord.join_number _ _ _ _).trans (congrArg Clips.nextNumber uc)
      rw [ready.time] at rate df
      rw [hj]
      refine ⟨_, hopen, number, take, part, reel, mode, rate, df, count, startTc, firstCapture, ?_,
        (congrArg Clips.recordState joined.clips).trans made.recordState,
        (congrArg Ingress.lossCount joined.ingress).trans ready'.loss, fun owed => ?_, fun h1 h2 => ?_⟩
      · rw [ClipRecord.join_number]
        refine joined.part.trans ?_
        rw [ready'.timecode]
        rfl
      · rw [State.setFrame_clips, records]
        exact List.mem_append_left _ (made.owed owed)
      · obtain ⟨set, old⟩ := made.settled h1 h2
        refine ⟨joined.mono _ set, fun r hmem => ?_⟩
        rw [State.setFrame_clips, records] at hmem
        rcases List.mem_append.mp hmem with h | h
        · exact .inr (uc ▸ old r h)
        · exact .inl (List.mem_singleton.mp h)
    · obtain ⟨x, hj, ready', joined, ustore, hopen, clips⟩ := ready.stays uc hc (.inr full)
      have same := State.joinLive_below hj hopen below
      have xclips := joined.clips
      rw [clips, hp, Bool.or_true, ready'.banks] at xclips
      rw [same]
      refine ⟨?_, ⟨_, hopen, ?_, ?_⟩, fun first => ?_, fun again seq low htwin => ?_, ?_, ?_⟩
      · refine joined.part.trans ?_
        rw [ready'.timecode]
      · exact ClipRecord.join_number _ _ _ c
      · rw [ClipRecord.join_eq]
      · rw [← uc] at hp full first
        exact joined.mono _ (State.trySplit_reports hp full first)
      · have stand : u.trySplit = u := by
          rw [← uc] at hp full again
          exact State.trySplit_reported hp full again
        obtain ⟨flags, dir⟩ := joined.quiet (by rw [ready'.twin]; exact htwin)
        obtain ⟨-, -, pages⟩ := joined.queues
        obtain ⟨uflags, udir⟩ := quiet seq (by rw [← ustore, ← pages]; exact low)
        rw [stand] at flags dir
        exact ⟨flags.trans uflags, dir.trans udir⟩
      · rw [State.setFrame_clips, xclips]; rfl
      · rw [State.setFrame_clips, xclips, Clips.setSplit_deferralReported, Clips.setSplit_splitPending]
        exact Bool.true_and _
    · obtain ⟨x, hj, ready', joined, -, hopen, clips⟩ := ready.stays uc hc hstay
      have count : (c.join (s.liveTimecode c) (openCapture rest) twin.isSome).joined = 16777215 := by
        rw [ClipRecord.join_eq]; exact reach
      rw [State.testCeiling_reached hopen count] at hj
      obtain ⟨closed, falls⟩ := State.closeOpen_fallsBack .limit (Clips.hasOpen_of_openClip hopen)
      have mark : x.clips.cacheMark = s.clips.cacheMark := by rw [joined.clips, clips]; rfl
      rw [hj]
      refine ⟨?_, closed, ?_, State.closeOpen_splitPending .limit hopen, fun sent => ⟨_,
        State.closeOpen_unsettled .limit hopen ?_, ?_, count, rfl, rfl⟩⟩
      · rw [State.setFrame_store, (State.closeOpen_blocks .limit x).store]
        refine joined.part.trans ?_
        rw [ready'.timecode]
      · rw [← mark]; exact falls
      · rw [count, ClipRecord.join_eq]
        dsimp only
        omega
      · exact ClipRecord.join_number (s.liveTimecode c) (openCapture rest) twin.isSome c
  · intro rest o p c s hl hv hn hf hq ha hr hc hsp below hvalid hw hh pages free low
    obtain ⟨u, twin, hx, ready, uc, -⟩ :=
      exec_frameOpen_recording o ⟨hl, hv, hn, hf, hq, ha, hvalid, hw, hh⟩ ⟨pages, free, low⟩ hr
    obtain ⟨x, hj, ready', joined, -, hopen, clips⟩ := ready.stays uc hc (.inl hsp)
    rw [State.joinLive_below hj hopen below] at hx
    obtain ⟨pq, xq, -⟩ := joined.queues
    refine ⟨_, _, _, hx, rfl, rfl, ?_, fun q hq => ?_, hopen, ClipRecord.join_number _ _ _ c, ?_, ?_, ?_, fun single => ?_,
      ?_, ?_, ?_, pq.trans ready'.pq, xq.trans ready'.xq⟩
    · refine joined.part.trans ?_
      rw [ready'.timecode]
      rfl
    · exact joined.twinPart (by rw [ready'.twin]; exact hq)
    · rw [ClipRecord.join_eq]
    · rw [ClipRecord.join_eq]; rfl
    · rw [ClipRecord.join_eq]; rfl
    · exact joined.gap (by rw [ready'.twin]; exact single)
    · rw [State.setFrame_time, joined.time, ready'.time, TimeBase.afterStamp_eq]
      rfl
    · rw [State.setFrame_clips, joined.clips, ready'.banks]; rfl
    · rw [State.setFrame_clips, joined.clips, clips]; exact hr

end Sys2Proof.Machine
end

section
/-! PROOFS. The frame store's page account (R40), and the two links taking a frame up and giving it back (R53, R111, R112,
R120, R121). -/

namespace Sys2Proof.Machine

open Sys2Proof

/-! ### The page account and the laws at reset (R40) -/

/-- Settles O4: the page account is one of the laws that every step keeps. -/
theorem everyStepKeepsThePageTotal : Obligations.EveryStepKeepsThePageTotal :=
  fun _ _ law h => (step_keeps h).store law

/-- Settles O3: the store is free, no clip has opened, the clock and the queues stand at 0, and the active bank is EMPTY. -/
theorem resetMeetsEveryLaw : Obligations.ResetMeetsEveryLaw :=
  ⟨.reset, .of_none rfl, .reset, .reset, .inl (State.reset_banks .a).2⟩

/-! ### One link beside the other (chapter 6) -/

theorem State.setLink_link_ne {l m : LinkId} (h : m ≠ l) (o : OutLink) (s : State) :
    (s.setLink l o).link m = s.link m := by
  cases l <;> cases m
  · exact absurd rfl h
  · rfl
  · rfl
  · exact absurd rfl h

theorem State.link_batch (l : LinkId) (n : Nat) (s : State) : ({ s with batch := n } : State).link l = s.link l := by
  cases l <;> rfl

/-- All that a link becoming free does (R118). -/
theorem State.freeLink_eq (l : LinkId) (s : State) : s.freeLink l =
    { s.setLink l { s.link l with act := .free } with batch := if l = .p then s.dir.reports.length else s.batch } := by
  cases l <;> rfl

/-! ### LINK RESET (R53, R120, R121) -/

/-- The store after LINK RESET has abandoned what a link had in flight: the record of a frame is STORED again (R53). -/
def State.abandonedStore (l : LinkId) (s : State) : Store :=
  match (s.link l).act with
  | .frame i _ _ => s.store.modify i .makeStored
  | _ => s.store

theorem State.abandonedStore_frame {l : LinkId} {s : State} {i : RecNo} {header : Packet} {done : Nat}
    (h : (s.link l).act = .frame i header done) : s.abandonedStore l = s.store.modify i .makeStored := by
  rw [State.abandonedStore, h]

theorem State.abandonedStore_other {l : LinkId} {s : State} (h : ∀ i header done, (s.link l).act ≠ .frame i header done) :
    s.abandonedStore l = s.store := by
  unfold State.abandonedStore
  split
  · rename_i hact
    exact absurd hact (h _ _ _)
  · rfl

/-- All that LINK RESET asserted does (R120). -/
theorem State.assertReset_eq (l : LinkId) (s : State) : s.assertReset l =
    { State.setLink l { s.link l with act := .free, resetLine := true } { s with store := s.abandonedStore l } with
      batch := if l = .p then 0 else s.batch } := by
  have abandoned : s.abandon l = State.setAct l .free { s with store := s.abandonedStore l } := by
    unfold State.abandon State.abandonedStore
    cases (s.link l).act <;> rfl
  unfold State.assertReset
  rw [abandoned]
  cases l <;> rfl

/-- All that LINK RESET released does, on a line that stood asserted (R121). -/
theorem State.releaseReset_eq {l : LinkId} {s : State} (h : (s.link l).resetLine = true) : s.releaseReset l =
    { s.setLink l { s.link l with act := .free, resetLine := false } with
      batch := if l = .p then s.dir.reports.length else s.batch } := by
  rw [State.releaseReset, if_pos h, State.freeLink_eq]
  cases l <;> rfl

theorem OutLink.state_reset (o : OutLink) : ({ o with act := .free, resetLine := true } : OutLink).state = .notReady := by
  simp [OutLink.state]

/-- Settles O50: an assertion frees the link and gives its record back, a release begins the batch. -/
theorem linkResetAbandonsWhatIsInFlight : Obligations.LinkResetAbandonsWhatIsInFlight := by
  refine ⟨fun l s => ⟨s.assertReset l, rfl, ?_⟩, fun l s h => ⟨s.releaseReset l, rfl, ?_⟩, fun l s h => ?_⟩
  · rw [State.assertReset_eq]
    rw [State.link_batch, State.setLink_link]
    refine ⟨rfl, OutLink.state_reset _, rfl, fun i header done hact => ?_, fun hact => ?_, fun m hm => ?_, ?_⟩
    · simp only [State.setLink_store, State.abandonedStore_frame hact]
      exact ⟨Store.modify_frame_self _ _ _, fun j hj => Store.modify_frame_ne _ _ hj.symm, rfl, rfl, rfl⟩
    · simpa only [State.setLink_store] using State.abandonedStore_other hact
    · rw [State.link_batch, State.setLink_link_ne hm]
      cases m <;> rfl
    · simp
  · rw [State.releaseReset_eq h]
    rw [State.link_batch, State.setLink_link]
    refine ⟨rfl, rfl, fun m hm => ?_, ?_⟩
    · rw [State.link_batch, State.setLink_link_ne hm]
    · simp
  · show Host.Outcome.next (s.releaseReset l) = _
    rw [State.releaseReset, h]
    rfl

/-! ### The start of a frame (R53, R111 to R116) -/

/-- The words of an output FRAME OPEN before its CRC, of a frame of a clip that has a record (R115, section 10.3). -/
def headerWords (kind : Rendition) (part : ClipPart) (c : ClipRecord) (r : FrameRecord) (skip note : Nat) : List Word :=
  [Kind.frameOpen.code, kind.word, word part.clip, word c.take, word c.part] ++ reelWords c.reel ++ words2 part.number ++
    labelWords (countToLabel c.rate c.df part.timecode) ++ [word (timecodeNat c.rate c.df)] ++
    labelWords (countToLabel c.rate c.df r.stamp.tod) ++ words2 r.stamp.phase ++ [word r.stamp.sub] ++
    words2 r.capture.toNat ++ [word r.flaws.setNat, word r.flaws.check, word r.flaws.missing, word r.flaws.excess,
      word r.width, word r.height] ++ words2 skip ++ [word note]

theorem headerWords_length (kind : Rendition) (part : ClipPart) (c : ClipRecord) (r : FrameRecord) (skip note : Nat) :
    (headerWords kind part c r skip note).length = 28 := rfl

theorem outputOpen_principal {s : State} {r : FrameRecord} {part : ClipPart} {c : ClipRecord} (hk : r.kind = .principal)
    (hp : r.part = some part) (hc : s.clips.find part.clip = some c) :
    outputOpen s r = sealed (headerWords .principal part c r 0 0) := by
  simp [outputOpen, hk, hp, hc, headerWords]

theorem outputOpen_proxy {s : State} {r : FrameRecord} {part : ClipPart} {c : ClipRecord} (hk : r.kind = .proxy)
    (hp : r.part = some part) (hc : s.clips.find part.clip = some c) : outputOpen s r =
      sealed (headerWords .proxy part c r (skipCount (some c) s.lastProxy part.number) (r.rampNote.getD 0)) := by
  simp [outputOpen, hk, hp, hc, headerWords]

/-- The skip count of the first proxy a clip sends, and of one that follows another (R116). -/
theorem skipCount_eq {c : ClipRecord} {last : Option Nat} {g skip : Nat} (first : c.proxySent = 0 → skip = g)
    (next : ∀ h, c.proxySent ≠ 0 → last = some h → skip = g - h - 1) (sent : c.proxySent ≠ 0 → last ≠ none) :
    skipCount (some c) last g = skip := by
  by_cases h0 : c.proxySent = 0
  · cases last <;> simp [skipCount, h0, first h0]
  · cases last with
    | none => exact absurd rfl (sent h0)
    | some h => simp [skipCount, h0, next h h0 rfl]

/-- A link is READY when nothing is being sent, its sink is ready and LINK RESET is released (R109). -/
theorem OutLink.state_ready {o : OutLink} :
    o.state = .ready ↔ o.act = .free ∧ o.readyLine = true ∧ o.resetLine = false := by
  unfold OutLink.state
  cases o.act <;> simp

theorem Banks.paceInterval_le {b : Banks} {n : Nat} :
    b.paceInterval ≤ n ↔ (b.act.valid = true → b.act.record.nat 6 ≤ n) := by
  unfold Banks.paceInterval
  split <;> simp [*]

theorem State.principalReady_some {s : State} {i : RecNo} {rest : List RecNo} (hr : s.pLink.state = .ready)
    (hb : s.batch = 0) (hq : s.store.pq = i :: rest) : s.principalReady = some i := by
  rw [State.principalReady, if_pos ⟨hr, hb⟩, hq]; rfl

theorem State.principalReady_none {s : State} (h : s.pLink.state ≠ .ready ∨ s.batch ≠ 0 ∨ s.store.pq = []) :
    s.principalReady = none := by
  unfold State.principalReady
  split
  · rename_i ready
    rcases h with h | h | h
    · exact absurd ready.1 h
    · exact absurd ready.2 h
    · rw [h]; rfl
  · rfl

theorem State.proxyReady_some {s : State} {i : RecNo} {rest : List RecNo} (hr : s.xLink.state = .ready)
    (hp : s.banks.paceInterval ≤ s.pace) (hq : s.store.xq = i :: rest) : s.proxyReady = some i := by
  rw [State.proxyReady, if_pos ⟨hr, hp⟩, hq]; rfl

theorem State.proxyReady_none {s : State}
    (h : s.xLink.state ≠ .ready ∨ ¬ s.banks.paceInterval ≤ s.pace ∨ s.store.xq = []) : s.proxyReady = none := by
  unfold State.proxyReady
  split
  · rename_i ready
    rcases h with h | h | h
    · exact absurd ready.1 h
    · exact absurd ready.2 h
    · rw [h]; rfl
  · rfl

/-- Settles O51: the head principal is taken with the header of its clip; where a condition fails nothing is. -/
theorem principalFrameStarts : Obligations.PrincipalFrameStarts := by
  refine ⟨fun i rest r part c body s ha hr hl hb hq hi hk hp hc hbody => ?_, fun s h => ?_⟩
  · obtain rfl : body = headerWords .principal part c r 0 0 := hbody
    refine ⟨headerWords_length _ _ _ _ _ _, congrArg Host.Outcome.next ?_⟩
    rw [State.startPrincipal, State.principalReady_some (OutLink.state_ready.mpr ⟨ha, hr, hl⟩) hb hq]
    dsimp only
    rw [hi, outputOpen_principal hk hp hc]
    rfl
  · refine congrArg Host.Outcome.next ?_
    rw [State.startPrincipal, State.principalReady_none]
    rw [Ne, OutLink.state_ready]
    rcases h with h | h | h | h
    · exact .inl fun k => h k.1
    · exact .inl fun k => by rw [h] at k; exact absurd k.2.1 nofun
    · exact .inl fun k => by rw [h] at k; exact absurd k.2.2 nofun
    · exact .inr h

/-- Settles O52: the head proxy is taken with the header of its clip, the skip count and the ramp step; where a condition
fails nothing is. -/
theorem proxyFrameStarts : Obligations.ProxyFrameStarts := by
  refine ⟨fun i rest r part c skip body s ha hr hl hpace hq hi hk hp hc first next sent hbody => ?_, fun s h => ?_⟩
  · obtain rfl : body = headerWords .proxy part c r skip (r.rampNote.getD 0) := hbody
    refine ⟨headerWords_length _ _ _ _ _ _, congrArg Host.Outcome.next ?_⟩
    rw [State.startProxy, State.proxyReady_some (OutLink.state_ready.mpr ⟨ha, hr, hl⟩) (Banks.paceInterval_le.mpr hpace) hq]
    dsimp only
    rw [hi, outputOpen_proxy hk hp hc, skipCount_eq first next sent]
    rfl
  · refine congrArg Host.Outcome.next ?_
    rw [State.startProxy, State.proxyReady_none]
    rw [Ne, OutLink.state_ready, Banks.paceInterval_le]
    rcases h with h | h | h | ⟨hv, hpace⟩ | h
    · exact .inl fun k => h k.1
    · exact .inl fun k => by rw [h] at k; exact absurd k.2.1 nofun
    · exact .inl fun k => by rw [h] at k; exact absurd k.2.2 nofun
    · exact .inr (.inl fun k => Nat.not_le.mpr hpace (k hv))
    · exact .inr (.inr h)

end Sys2Proof.Machine
end

section
/-! PROOFS. A frame sent (R54, R84, R114, R117, R122): the record leaves its queue, its clip counts the send and may
settle, and the link is free. -/

namespace Sys2Proof.Machine

open Sys2Proof

/-! ### A clip summary stays queued when a flag is set (R153, R161 to R165) -/

section
variable {body : List Word} {s : State}

theorem State.mem_atHead {x r : Report} {rs : List Report} (s : State) : x ∈ s.atHead r rs ↔ x = r ∨ x ∈ rs := by
  unfold State.atHead
  split
  · simp only [List.mem_cons]
    exact or_left_comm
  · exact List.mem_cons

theorem State.placeMarker_summary (h : .clipSummary body ∈ s.dir.reports) :
    .clipSummary body ∈ s.placeMarker.dir.reports := by
  unfold State.placeMarker
  split
  · split
    · exact (State.mem_atHead s).mpr (.inr h)
    · exact List.mem_append_left _ h
  · exact h

theorem State.promoteMarker_summary (h : .clipSummary body ∈ s.dir.reports) :
    .clipSummary body ∈ s.promoteMarker.dir.reports := by
  unfold State.promoteMarker
  split
  · exact (State.mem_atHead s).mpr (.inr ((List.mem_eraseP_of_neg (Bool.false_ne_true)).mpr h))
  · exact h

theorem State.raiseClass_summary (c : NoticeClass) (h : .clipSummary body ∈ s.dir.reports) :
    .clipSummary body ∈ (s.raiseClass c).dir.reports := by rw [State.raiseClass_dir]; exact h

theorem State.callNotice_summary (c : NoticeClass) (h : .clipSummary body ∈ s.dir.reports) :
    .clipSummary body ∈ (s.callNotice c).dir.reports := by
  unfold State.callNotice
  split
  · exact State.placeMarker_summary (State.raiseClass_summary c h)
  · split
    · exact State.promoteMarker_summary (State.raiseClass_summary _ h)
    · exact h
  · exact State.raiseClass_summary c h
  · exact State.raiseClass_summary c h

theorem State.setFlagNotice_summary (f : Flag) (h : .clipSummary body ∈ s.dir.reports) :
    .clipSummary body ∈ (s.setFlagNotice f).dir.reports := by
  have marked : .clipSummary body ∈ (s.markSet f).dir.reports := List.mem_map.mpr ⟨_, h, rfl⟩
  unfold State.setFlagNotice
  split
  · exact State.callNotice_summary _ marked
  · exact marked

/-- A setting event takes no clip summary out of the report queue. -/
theorem State.setFlag_summary (f : Flag) (h : .clipSummary body ∈ s.dir.reports) :
    .clipSummary body ∈ (s.setFlag f).dir.reports := by
  have noticed := State.setFlagNotice_summary f h
  unfold State.setFlag
  dsimp only
  split
  · split
    · exact State.setFlagNotice_summary .snapshotTaken (s := { s.setFlagNotice f with
        flags := { (s.setFlagNotice f).flags with snapshot := .captured ((s.setFlagNotice f).snapshotRecord f) } }) noticed
    · exact noticed
  · exact noticed
end

/-! ### The settling test of a clip that has its number alone (R84) -/

section
variable {n : Nat} {d : ClipRecord} {s : State} (only : ∀ r ∈ s.clips.records, r.number = n → r = d)
include only

theorem State.testSettle_unsettled (hs : d.settled = false) : s.testSettle n = s :=
  State.testSettle_open fun r hr hn => by rw [only r hr hn]; exact hs

/-- A clip that settles sets CLIP SETTLED and its record is freed; its summary is queued where there is room (R84). -/
theorem State.testSettle_settles (hd : d ∈ s.clips.records) (hn : d.number = n) (hs : d.settled = true) :
    (s.testSettle n).isSet .clipSettled ∧
    (s.testSettle n).clips = { s.clips with records := s.clips.records.eraseP fun r => r.number == n } ∧
    (s.hasRoom 1 → .clipSummary d.summary ∈ (s.testSettle n).dir.reports) := by
  refine ⟨State.testSettle_settled hd hn hs, ?_, fun room => ?_⟩
  · rw [State.testSettle_clips, List.eraseP_congr fun r hr => ?_]
    by_cases h : r.number = n
    · rw [only r hr h, hs, Bool.and_true]
    · simp [h]
  · obtain ⟨r, hfind⟩ : ∃ r, s.clips.records.find? (fun c => c.number == n && c.settled) = some r :=
      Option.isSome_iff_exists.mp (List.find?_isSome.mpr ⟨d, hd, by simp [hn, hs]⟩)
    have found := List.find?_some hfind
    simp only [Bool.and_eq_true, beq_iff_eq] at found
    obtain rfl : r = d := only r (List.mem_of_find?_eq_some hfind) found.1
    have placed : .clipSummary r.summary ∈ (s.placeReport (.clipSummary r.summary)).dir.reports := by
      rw [State.placeReport_room _ room]
      exact List.mem_append_right _ (List.mem_singleton_self _)
    unfold State.testSettle
    rw [hfind]
    exact State.setFlag_summary .clipSettled placed
end

/-! ### The record of one clip changed -/

section
variable {cs : Clips} {n : Nat} {c d : ClipRecord} (only : ∀ r ∈ cs.records, r.number = n → r = c)

include only in
theorem Clips.modifyNumber_only {f : ClipRecord → ClipRecord} (hf : f c = d) :
    cs.modifyNumber n f = { cs with records := cs.records.map fun r => if r.number = n then d else r } := by
  have records : ∀ r ∈ cs.records, (if r.number = n then f r else r) = if r.number = n then d else r := by
    intro r hr
    split
    · rename_i h
      rw [only r hr h, hf]
    · rfl
  rw [Clips.modifyNumber, List.map_congr_left records]

theorem Clips.written_only {rs : List ClipRecord} :
    ∀ r ∈ rs.map (fun r => if r.number = n then d else r), r.number = n → r = d := by
  intro r hr hn
  obtain ⟨o, -, rfl⟩ := List.mem_map.mp hr
  by_cases h : o.number = n
  · exact if_pos h
  · rw [if_neg h] at hn
    exact absurd hn h

theorem Clips.written_mem {rs : List ClipRecord} (hc : c ∈ rs) (hn : c.number = n) :
    d ∈ rs.map fun r => if r.number = n then d else r :=
  List.mem_map.mpr ⟨c, hc, if_pos hn⟩
end

/-! ### What a release leaves (R40, R42, R55) -/

theorem FrameRecord.dropTwin_eq (i : RecNo) (r : FrameRecord) :
    r.dropTwin i = { r with twin := if r.twin = some i then none else r.twin } := by
  unfold FrameRecord.dropTwin
  split <;> rfl

theorem Store.release_frame_ne {i j : RecNo} (h : j ≠ i) (s : Store) : (s.release i).frame j =
    { s.frame j with twin := if (s.frame j).twin = some i then none else (s.frame j).twin } := by
  rw [Store.release_frame, if_neg h.symm, FrameRecord.dropTwin_eq]

theorem Store.release_frame_self (i : RecNo) (s : Store) : (s.release i).frame i = .blank := by
  rw [Store.release_frame, if_pos rfl]

theorem FrameRecord.flawCount_eq (r : FrameRecord) : r.flawCount = if r.flaws = ⟨false, 0, 0, 0⟩ then 0 else 1 := by
  simp only [FrameRecord.flawCount, Flaws.clean_iff]

/-- All that the removal of a sent frame does (R40, R54, R55). -/
theorem Store.removeSent_eq (l : LinkId) (i : RecNo) (s : Store) : s.removeSent l i = { s.release i with
    pq := if l = .p then s.pq.tail else s.pq
    xq := if l = .x then s.xq.tail else s.xq
    pFlawed := s.pFlawed - (if l = .p ∧ (s.frame i).flaws ≠ ⟨false, 0, 0, 0⟩ then 1 else 0)
    xFlawed := s.xFlawed - (if l = .x ∧ (s.frame i).flaws ≠ ⟨false, 0, 0, 0⟩ then 1 else 0) } := by
  have flawed : (s.frame i).flawCount = if (s.frame i).flaws ≠ ⟨false, 0, 0, 0⟩ then 1 else 0 := by
    rw [FrameRecord.flawCount_eq, ite_not]
  cases l <;> simp [Store.removeSent, flawed] <;> rfl

/-! ### The send of a frame's last packet (R54, R84, R117) -/

theorem State.SameBlocks.link {s t : State} (h : s.SameBlocks t) (l : LinkId) : t.link l = s.link l := by
  cases l
  · exact h.pLink
  · exact h.xLink

theorem State.freeLink_link (l : LinkId) (s : State) : (s.freeLink l).link l = { s.link l with act := .free } := by
  cases l <;> rfl

theorem State.freeLink_link_ne {l m : LinkId} (h : m ≠ l) (s : State) : (s.freeLink l).link m = s.link m := by
  rw [State.freeLink_eq, State.link_batch, State.setLink_link_ne h]

/-- A frame's packets sent, its record returned and its send counted, before its clip is tested for settling. -/
def State.sentCounted (l : LinkId) (i : RecNo) (packets : List Packet) (counted : Clips) (s : State) : State :=
  { s.emit l packets with store := s.store.removeSent l i, clips := counted }

theorem State.sentCounted_link (l : LinkId) (i : RecNo) (packets : List Packet) (counted : Clips) (s : State) :
    (s.sentCounted l i packets counted).link l = { s.link l with sent := (s.link l).sent ++ packets } := by
  cases l <;> rfl

theorem State.sentCounted_link_ne {l m : LinkId} (h : m ≠ l) (i : RecNo) (packets : List Packet) (counted : Clips)
    (s : State) : (s.sentCounted l i packets counted).link m = s.link m :=
  calc (s.sentCounted l i packets counted).link m = (s.emit l packets).link m := by cases m <;> rfl
    _ = s.link m := State.setLink_link_ne h _ s

/-- All that the FRAME CLOSE of a frame of a clip does once it has been sent: `y` is the settling test of the state that
has counted the send, and no other block but the last proxy sent differs from it before the link is free. -/
theorem State.frameSent_frame {l : LinkId} {i : RecNo} {header : Packet} {done : Nat} {part : ClipPart}
    {counted : Clips} {s x : State} (hact : (s.link l).act = .frame i header done)
    (hpart : (s.store.frame i).part = some part)
    (hcounted : s.clips.modifyNumber part.clip (ClipRecord.countSend l) = counted)
    (hx : s.sentCounted l i (restOfFrame header (s.store.frame i) done) counted = x) :
    ∃ z : State, s.frameSent l = z.freeLink l ∧ z.dir = (x.testSettle part.clip).dir ∧
      z.flags = (x.testSettle part.clip).flags ∧
      ({ x with
          clips := (x.testSettle part.clip).clips
          lastProxy := if l = .x then some part.number else s.lastProxy } : State).SameBlocks z := by
  have same := State.testSettle_blocks part.clip x
  have left : s.frameSent l = State.freeLink l (match l with
      | .p => x.testSettle part.clip
      | .x => { x.testSettle part.clip with lastProxy := some part.number }) := by
    unfold State.frameSent State.frameLeft
    rw [hact]
    dsimp only
    rw [State.emit_store, hpart]
    subst hx hcounted
    cases l <;> rfl
  refine ⟨_, left, ?_⟩
  cases l
  · have last : x.lastProxy = s.lastProxy := by rw [← hx]; rfl
    refine ⟨rfl, rfl, ?_⟩
    rw [if_neg nofun, ← last]
    exact same
  · obtain ⟨h1, h2, h3, h4, h5, h6, h7, h8, h9, h10, -, h12, h13⟩ := same
    exact ⟨rfl, rfl, h1, h2, h3, h4, h5, h6, h7, h8, h9, h10, rfl, h12, h13⟩

/-- Settles O53: the record and its clip's count are changed before the settling test, which touches no other block. -/
theorem frameSentFreesTheRecord : Obligations.FrameSentFreesTheRecord := by
  refine ⟨fun l i header done part c d counted s hact hpart hc hn only hd hcounted => ⟨s.frameSent l, rfl, ?_⟩,
    fun l p s hact => ⟨s.frameSent l, rfl, ?_⟩, fun l s h => ?_⟩
  · have count : ClipRecord.countSend l c = d := by cases l <;> exact hd.symm
    have dn : d.number = part.clip := by rw [hd, ← hn]; cases l <;> rfl
    have settled : d.settled = true ↔ c.state = .closing ∧ d.sent = c.joined ∧ d.proxySent + c.evicted = c.made := by
      rw [hd]
      cases l <;> simp [ClipRecord.settled, and_assoc]
    generalize hx : s.sentCounted l i (restOfFrame header (s.store.frame i) done) counted = x
    obtain ⟨z, hz, zdir, zflags, same⟩ :=
      State.frameSent_frame hact hpart ((Clips.modifyNumber_only only count).trans hcounted.symm) hx
    have xclips : x.clips = counted := by rw [← hx]; rfl
    have xdir : x.dir = s.dir := by rw [← hx]; exact State.emit_dir _ _ _
    have xflags : x.flags = s.flags := by rw [← hx]; exact State.emit_flags _ _ _
    have only' : ∀ r ∈ x.clips.records, r.number = part.clip → r = d := by
      rw [xclips, hcounted]; exact Clips.written_only
    have mem : d ∈ x.clips.records := by rw [xclips, hcounted]; exact Clips.written_mem hc hn
    have store : z.store = s.store.removeSent l i := same.store.trans (by rw [← hx]; rfl)
    have link : ∀ m, z.link m = x.link m := fun m => (same.link m).trans (by cases m <;> rfl)
    rw [Store.removeSent_eq] at store
    simp only [hz, State.freeLink_store, State.freeLink_clips, State.freeLink_dir, State.freeLink_flags,
      State.freeLink_lastProxy, State.freeLink_ingress, State.freeLink_time, State.freeLink_render, State.freeLink_banks,
      State.freeLink_pace, State.freeLink_pending, State.freeLink_link, State.isSet]
    rw [link, store]
    refine ⟨?_, fun m hm => ?_, ?_, rfl, fun j hj => ?_, rfl, rfl, rfl, rfl, same.lastProxy, fun hl => ?_, fun h => ?_,
      fun h1 h2 h3 => ?_, ?_⟩
    · rw [← hx, State.sentCounted_link]; rfl
    · rw [State.freeLink_link_ne hm, link, ← hx, State.sentCounted_link_ne hm]
    · exact congrArg FrameRecord.state (Store.release_frame_self i s.store)
    · exact Store.release_frame_ne hj s.store
    · subst hl; rfl
    · have stay : x.testSettle part.clip = x :=
        State.testSettle_unsettled only' (Bool.eq_false_iff.mpr fun k => h (settled.mp k))
      rw [stay] at zdir zflags
      exact ⟨same.clips.trans (by rw [stay, xclips]), zdir.trans xdir, zflags.trans xflags⟩
    · obtain ⟨set, clips, queued⟩ := State.testSettle_settles only' mem dn (settled.mpr ⟨h1, h2, h3⟩)
      rw [zdir, zflags]
      refine ⟨same.clips.trans (by rw [← xclips]; exact clips), set, fun room => queued ?_⟩
      rw [State.hasRoom, xdir]
      exact room
    · refine ⟨same.ingress.trans ?_, same.time.trans ?_, same.render.trans ?_, same.banks.trans ?_, same.queue.trans ?_,
        same.pace.trans ?_, same.pending.trans ?_⟩ <;> simp [← hx, State.sentCounted]
  · have freed : s.frameSent l = (s.emit l [p]).freeLink l := by rw [State.frameSent, hact]
    rw [freed, State.freeLink_link]
    refine ⟨?_, fun m hm => ?_, ?_, ?_⟩
    · rw [State.emit, State.setLink_link]
    · rw [State.freeLink_link_ne hm]; exact State.setLink_link_ne hm _ s
    · cases l <;> rfl
    · simp
  · show Host.Outcome.next (s.frameSent l) = _
    unfold State.frameSent
    rcases h with h | ⟨b, h⟩ <;> rw [h]

end Sys2Proof.Machine
end

section
/-! PROOFS. The Flag Unit and the settling test do not read the Ingress Port or the clock, but for a capture
(R84, R161, R163, R167). -/

namespace Sys2Proof.Machine

open Sys2Proof

/-! ### Setting a flag with no snapshot armed (R161, R163, R167) -/

/-- The part with another Ingress Port and another clock: what a FRAME OPEN changes before its admission (R6). -/
def State.withInputs (i : Ingress) (t : TimeBase) (s : State) : State := { s with ingress := i, time := t }

/-- No setting event can trigger a capture (R167). -/
def State.Unarmed (s : State) : Prop := ∀ triggers, s.flags.snapshot ≠ .armed triggers

section
variable (i : Ingress) (t : TimeBase) (s : State)

theorem State.markSet_withInputs (f : Flag) : (s.withInputs i t).markSet f = (s.markSet f).withInputs i t := rfl

theorem State.raiseClass_withInputs (c : NoticeClass) :
    (s.withInputs i t).raiseClass c = (s.raiseClass c).withInputs i t := by cases c <;> rfl

theorem State.placeMarker_withInputs : (s.withInputs i t).placeMarker = s.placeMarker.withInputs i t := by
  unfold State.placeMarker
  rw [show (s.withInputs i t).dir = s.dir from rfl, show (s.withInputs i t).flags = s.flags from rfl]
  split
  · cases s.flags.markerClass <;> rfl
  · rfl

theorem State.promoteMarker_withInputs : (s.withInputs i t).promoteMarker = s.promoteMarker.withInputs i t := by
  unfold State.promoteMarker
  rw [show (s.withInputs i t).dir = s.dir from rfl]
  cases s.dir.reports.find? Report.isMarker <;> rfl

theorem State.callNotice_withInputs (c : NoticeClass) :
    (s.withInputs i t).callNotice c = (s.callNotice c).withInputs i t := by
  unfold State.callNotice
  simp only [State.raiseClass_withInputs, State.placeMarker_withInputs, State.promoteMarker_withInputs]
  rw [show (s.withInputs i t).markerPlace = s.markerPlace from rfl, show (s.withInputs i t).flags = s.flags from rfl]
  cases s.markerPlace with
  | queued => cases c <;> cases s.flags.markerClass <;> rfl
  | nowhere | owed | inFlight => rfl

theorem State.setFlagNotice_withInputs (f : Flag) :
    (s.withInputs i t).setFlagNotice f = (s.setFlagNotice f).withInputs i t := by
  unfold State.setFlagNotice
  rw [State.markSet_withInputs, State.callNotice_withInputs]
  exact (apply_ite (State.withInputs i t) _ _ _).symm

/-- A notice changes no snapshot (R163). -/
theorem State.callNotice_snapshot (c : NoticeClass) : (s.callNotice c).flags.snapshot = s.flags.snapshot := by
  have raised : ∀ c (s : State), (s.raiseClass c).flags.snapshot = s.flags.snapshot := by intro c s; cases c <;> rfl
  have placed : ∀ s : State, s.placeMarker.flags = s.flags := by
    intro s
    unfold State.placeMarker
    split
    · split <;> rfl
    · rfl
  have promoted : ∀ s : State, s.promoteMarker.flags = s.flags := by
    intro s
    unfold State.promoteMarker
    split <;> rfl
  unfold State.callNotice
  split
  · rw [placed, raised]
  · split
    · rw [promoted, raised]
    · rfl
  · exact raised _ _
  · exact raised _ _

theorem State.setFlagNotice_snapshot (f : Flag) : (s.setFlagNotice f).flags.snapshot = s.flags.snapshot := by
  unfold State.setFlagNotice
  split
  · rw [State.callNotice_snapshot]; rfl
  · rfl

variable {s}

/-- With no snapshot armed a setting event is steps 1 to 3 of R161. -/
theorem State.setFlag_unarmed (h : s.Unarmed) (f : Flag) : s.setFlag f = s.setFlagNotice f := by
  unfold State.setFlag
  dsimp only
  rw [State.setFlagNotice_snapshot]
  split
  · rename_i triggers armed
    exact absurd armed (h triggers)
  · rfl

theorem State.Unarmed.setFlag (h : s.Unarmed) (f : Flag) : (s.setFlag f).Unarmed := by
  intro triggers
  rw [State.setFlag_unarmed h, State.setFlagNotice_snapshot]
  exact h triggers

theorem State.Unarmed.placeReport (h : s.Unarmed) (r : Report) : (s.placeReport r).Unarmed := by
  unfold State.placeReport
  split
  · exact h
  · exact h.setFlag _

theorem State.setFlag_withInputs (h : s.Unarmed) (f : Flag) :
    (s.withInputs i t).setFlag f = (s.setFlag f).withInputs i t := by
  rw [State.setFlag_unarmed (s := s.withInputs i t) h, State.setFlag_unarmed h, State.setFlagNotice_withInputs]

theorem State.placeReport_withInputs (h : s.Unarmed) (r : Report) :
    (s.withInputs i t).placeReport r = (s.placeReport r).withInputs i t := by
  unfold State.placeReport
  rw [State.setFlag_withInputs i t h, show (s.withInputs i t).dir = s.dir from rfl]
  split <;> rfl

/-! ### Settling and evicting with no snapshot armed (R47, R72, R84) -/

theorem State.testSettle_withInputs (h : s.Unarmed) (n : Nat) :
    (s.withInputs i t).testSettle n = (s.testSettle n).withInputs i t := by
  unfold State.testSettle
  rw [show (s.withInputs i t).clips = s.clips from rfl]
  cases s.clips.records.find? (fun c => c.number == n && c.settled) with
  | none => rfl
  | some c =>
    dsimp only
    rw [State.placeReport_withInputs i t h, State.setFlag_withInputs i t (h.placeReport _)]
    rfl

theorem State.reportEviction_withInputs (h : s.Unarmed) (part : ClipPart) :
    (s.withInputs i t).reportEviction part = (s.reportEviction part).withInputs i t := by
  have counted : State.Unarmed { s with clips := s.clips.modifyNumber part.clip (ClipRecord.evict part.number) } := h
  unfold State.reportEviction
  rw [← State.testSettle_withInputs i t (counted.setFlag _), ← State.setFlag_withInputs i t counted]
  rfl
end

end Sys2Proof.Machine
end

section
/-! PROOFS. A short principal with no ring pair to release: the newest proxy is evicted, and with nothing to evict the frame
is not admitted (R46 to R48, R72, R79). -/

namespace Sys2Proof.Machine

open Sys2Proof

/-! ### One eviction (R47, R72) -/

/-- The part after an eviction of a proxy that a clip has joined (R47). -/
def State.evicted (i : RecNo) (part : ClipPart) (s : State) : State :=
  State.reportEviction part { s with store := s.store.evict i }

/-- An eviction touches the store, the clips, the flags and the report queue alone. -/
theorem State.evicted_same (i : RecNo) (part : ClipPart) (s : State) :
    ({ s with store := s.store.evict i, clips := (s.evicted i part).clips } : State).SameBlocks (s.evicted i part) := by
  have settled := State.testSettle_blocks part.clip (State.setFlag .proxyGap
    { s with
      store := s.store.evict i
      clips := s.clips.modifyNumber part.clip (ClipRecord.evict part.number) })
  refine State.SameBlocks.trans ?_ settled
  constructor <;> simp [State.evicted, State.reportEviction]

/-- An eviction counts in its clip's record, and the clip may settle (R72, R84). -/
theorem State.evicted_clips (i : RecNo) (part : ClipPart) (s : State) : (s.evicted i part).clips = { s.clips with
    records := (s.clips.modifyNumber part.clip (ClipRecord.evict part.number)).records.eraseP
      fun c => c.number == part.clip && c.settled } := by
  rw [State.evicted, State.reportEviction, State.testSettle_clips, State.setFlag_clips]
  rfl

/-- The clip record after an eviction, written out (R72, R73). -/
theorem ClipRecord.evict_eq {g : Nat} {c d : ClipRecord}
    (entered : ∀ gaps, enterGap g (decide (c.gaps.length < 16)) c.gaps = some gaps →
      d = { c with evicted := c.evicted + 1, gapTotal := c.gapTotal + 1, gaps := gaps })
    (full : enterGap g (decide (c.gaps.length < 16)) c.gaps = none →
      d = { c with evicted := c.evicted + 1, gapTotal := c.gapTotal + 1, overflow := true }) : c.evict g = d := by
  rcases c.addGap_cases g with ⟨gaps, e, added⟩ | ⟨e, added⟩
  · rw [ClipRecord.evict, added, entered gaps e]
  · rw [ClipRecord.evict, added, full e]

theorem ClipRecord.evict_number (g : Nat) (c : ClipRecord) : (c.evict g).number = c.number := by
  rcases c.addGap_cases g with ⟨gaps, -, added⟩ | ⟨-, added⟩ <;> rw [ClipRecord.evict, added]

theorem ClipRecord.evict_settled (g : Nat) (c : ClipRecord) : (c.evict g).settled = true ↔
    c.state = .closing ∧ c.sent = c.joined ∧ c.proxySent + (c.evict g).evicted = c.made := by
  rcases c.addGap_cases g with ⟨gaps, -, added⟩ | ⟨-, added⟩ <;>
    simp [ClipRecord.evict, added, ClipRecord.settled, and_assoc]

/-- What an eviction leaves of the flags and the clips, where the clip has its number alone (R47, R72, R84). -/
theorem State.evicted_settles {part : ClipPart} {c d : ClipRecord} {s : State} (i : RecNo) (hc : c ∈ s.clips.records)
    (hn : c.number = part.clip) (only : ∀ r ∈ s.clips.records, r.number = part.clip → r = c)
    (hd : c.evict part.number = d) :
    (s.evicted i part).isSet .proxyGap ∧
    (d.settled = false → (s.evicted i part).clips =
      { s.clips with records := s.clips.records.map fun r => if r.number = part.clip then d else r }) ∧
    (d.settled = true → (s.evicted i part).isSet .clipSettled ∧ (s.evicted i part).clips =
      { s.clips with records := (s.clips.records.map fun r =>
        if r.number = part.clip then d else r).eraseP fun r => r.number == part.clip }) := by
  generalize hw : State.setFlag .proxyGap
    { s with
      store := s.store.evict i
      clips := { s.clips with records := s.clips.records.map fun r => if r.number = part.clip then d else r } } = w
  have wclips : w.clips = { s.clips with
      records := s.clips.records.map fun r => if r.number = part.clip then d else r } := by
    rw [← hw, State.setFlag_clips]
  have he : s.evicted i part = w.testSettle part.clip := by
    rw [← hw, ← Clips.modifyNumber_only only hd]; rfl
  have only' : ∀ r ∈ w.clips.records, r.number = part.clip → r = d := by rw [wclips]; exact Clips.written_only
  rw [he]
  refine ⟨State.testSettle_mono _ _ (by rw [← hw]; exact State.setFlag_isSet _ _), fun h => ?_, fun h => ?_⟩
  · rw [State.testSettle_unsettled only' h, wclips]
  · obtain ⟨set, clips, -⟩ := State.testSettle_settles only' (by rw [wclips]; exact Clips.written_mem hc hn)
      (by rw [← hd, ClipRecord.evict_number]; exact hn) h
    exact ⟨set, by rw [clips, wclips]⟩

/-! ### The measures of an admission with no ring pair to release (R46, R47) -/

/-- A measure that has nothing to give is not repeated. -/
theorem measureWhileShort_stuck {m : State → Option State} {s : State} (n : Nat) (d : List (List LinkEvent))
    (h : m s = none) : measureWhileShort m n d s = (s, d) := by
  cases n with
  | zero => rfl
  | succ n =>
    rw [measureWhileShort, h]
    split <;> rfl

/-- Frames are admitted, and the ring has no pair to release for them: RECORDING, or CACHING with an empty ring
(R45, R46). -/
def State.NoRingPair (s : State) : Prop :=
  s.clips.recordState = .recording ∨ (s.clips.recordState = .caching ∧ s.clips.ring = [])

theorem State.NoRingPair.admits {s : State} (h : s.NoRingPair) : s.clips.recordState ≠ .standby := by
  rcases h with h | h
  · rw [h]; nofun
  · rw [h.1]; nofun

theorem State.NoRingPair.ringMeasure {s : State} (h : s.NoRingPair) : s.ringMeasure = none := by
  rw [State.ringMeasure, if_neg]
  rintro ⟨caching, ring⟩
  rcases h with h | h
  · rw [h] at caching; cases caching
  · exact ring h.2

/-- With nothing in the ring to give, the proxy send queue alone is asked (R47). -/
theorem State.measures_noRing {s : State} (h : s.ringMeasure = none) :
    s.measures [] = measureWhileShort State.evictMeasure s.store.xq.length [] s := by
  unfold State.measures
  rw [State.takeDuring_nil]
  dsimp only
  rw [measureWhileShort_stuck _ _ h]

theorem Store.evictable_eq {i : RecNo} {before : List RecNo} {s : Store} (hq : s.xq = before ++ [i])
    (hs : (s.frame i).state = .stored) (hst : (s.frame i).started = false) : s.evictable = some i := by
  rw [Store.evictable, hq, List.getLast?_concat]
  exact if_pos ⟨hs, hst⟩

/-- While the principal is short and the ring has nothing to give, one measure evicts the newest proxy, and the rest follow
on what that leaves (R47). -/
theorem State.measures_evict {s : State} {i : RecNo} {before : List RecNo} {part : ClipPart}
    (hr : s.NoRingPair)
    (hs : s.store.short s.banks.pagesP = true) (hq : s.store.xq = before ++ [i]) (he : s.store.evictable = some i)
    (hp : (s.store.frame i).part = some part) : s.measures [] = (s.evicted i part).measures [] := by
  have hr' : (s.evicted i part).NoRingPair := by rw [State.NoRingPair, State.evicted_clips]; exact hr
  have queue : (s.evicted i part).store.xq = before := by
    rw [(State.evicted_same i part s).store]
    show s.store.xq.dropLast = before
    rw [hq, List.dropLast_concat]
  have measure : s.evictMeasure = some (s.evicted i part) := by
    rw [State.evictMeasure, he]
    dsimp only
    rw [hp]
    rfl
  rw [State.measures_noRing hr.ringMeasure, State.measures_noRing hr'.ringMeasure, queue, hq, List.length_append,
    List.length_singleton, measureWhileShort, if_pos hs, measure]
  rfl

theorem State.admitFrame_evict {s : State} {i : RecNo} {before : List RecNo} {part : ClipPart} (c : BitVec 32) (st : Stamp)
    (hr : s.NoRingPair)
    (hs : s.store.short s.banks.pagesP = true) (hq : s.store.xq = before ++ [i]) (he : s.store.evictable = some i)
    (hp : (s.store.frame i).part = some part) : s.admitFrame c st [] = (s.evicted i part).admitFrame c st [] := by
  have recordState : (s.evicted i part).clips.recordState = s.clips.recordState := by rw [State.evicted_clips]
  unfold State.admitFrame
  rw [State.measures_evict hr hs hq he hp, recordState]
  rw [if_neg hr.admits, if_neg hr.admits]

/-- A principal still short with nothing to give is not admitted (R45, R48). -/
theorem State.admitFrame_starved {s : State} (c : BitVec 32) (st : Stamp)
    (hr : s.NoRingPair)
    (hs : s.store.short s.banks.pagesP = true) (he : s.store.evictable = none) :
    s.admitFrame c st [] = (s.storeFull, none) := by
  have measure : s.evictMeasure = none := by rw [State.evictMeasure, he]
  rw [State.admitFrame, if_neg hr.admits, State.measures_noRing hr.ringMeasure, measureWhileShort_stuck _ _ measure]
  exact if_pos hs

/-! ### A FRAME OPEN whose principal is short (R6, R46 to R48) -/

/-- The opening of a FRAME OPEN and an eviction do not disturb each other while no snapshot is armed. -/
theorem State.evicted_opening {s : State} (index : BitVec 32) (i : RecNo) (part : ClipPart) (h : s.Unarmed) :
    (s.opening index).evicted i part = (s.evicted i part).opening index := by
  have same := State.evicted_same i part s
  have commute := State.reportEviction_withInputs (s.opening index).ingress (s.opening index).time
    (s := { s with store := s.store.evict i }) h part
  refine commute.trans ?_
  unfold State.opening
  rw [same.ingress, same.time]
  rfl

/-- A FRAME OPEN in sequence that finds no frame open and nothing waiting is its announcement. -/
theorem exec_frameOpen_opens {rest : List Word} {s : State} (o : BoundaryOrder) (op : s.OpensFrame rest)
    (seq : s.InSequence rest) : exec (.frameOpen rest o []) s = .next
      ((s.opening (openCapture rest)).announce (openCapture rest) (openWidth rest) (openHeight rest) s.time.stamp []) := by
  obtain ⟨v, hv, -, -, v0⟩ := exec_frameOpen_quiet o [] op.link op.verdict op.count op.frame op.queue op.actions
  rw [hv, v0 seq]

/-- An eviction leaves all that a FRAME OPEN is taken by (R3, R6, R8). -/
theorem State.OpensFrame.evicted {rest : List Word} {s : State} (op : s.OpensFrame rest) (i : RecNo) (part : ClipPart) :
    (s.evicted i part).OpensFrame rest := by
  have same := State.evicted_same i part s
  have ingress : (s.evicted i part).ingress = s.ingress := same.ingress
  have banks : (s.evicted i part).banks = s.banks := same.banks
  exact {
    link := by rw [ingress]; exact op.link
    verdict := op.verdict
    count := op.count
    frame := by rw [ingress]; exact op.frame
    queue := same.queue.trans op.queue
    actions := by rw [State.evicted_clips]; exact op.actions
    valid := by rw [banks]; exact op.valid
    width := by rw [banks]; exact op.width
    height := by rw [banks]; exact op.height }

/-- The announcement of a frame of the active bank's size is its admission, on the state in which it is announced. -/
theorem State.OpensFrame.announce {rest : List Word} {s : State} (op : s.OpensFrame rest) (st : Stamp) :
    (s.opening (openCapture rest)).announce (openCapture rest) (openWidth rest) (openHeight rest) st [] =
      ((s.opening (openCapture rest)).admitFrame (openCapture rest) st []).1.setFrame
        (match ((s.opening (openCapture rest)).admitFrame (openCapture rest) st []).2 with
          | some (p, twin) => .inFrame (newFrame p twin (openWidth rest) (openHeight rest))
          | none => .skipping) :=
  State.announce_fits op.valid op.width op.height

/-- The FRAME OPEN of a short principal goes on as on the state with the newest proxy evicted (R47). -/
theorem exec_frameOpen_evict {rest : List Word} {o : BoundaryOrder} {i : RecNo} {before : List RecNo} {part : ClipPart}
    {s : State} (op : s.OpensFrame rest) (seq : s.InSequence rest) (unarmed : s.Unarmed) (hr : s.NoRingPair)
    (hs : s.Short) (hq : s.store.xq = before ++ [i]) (he : s.store.evictable = some i)
    (hp : (s.store.frame i).part = some part) :
    exec (.frameOpen rest o []) s = exec (.frameOpen rest o []) (s.evicted i part) := by
  have same := State.evicted_same i part s
  have ingress : (s.evicted i part).ingress = s.ingress := same.ingress
  have time : (s.evicted i part).time = s.time := same.time
  have seq' : (s.evicted i part).InSequence rest := by rw [State.InSequence, ingress]; exact seq
  have op' := op.evicted i part
  rw [exec_frameOpen_opens o op seq, exec_frameOpen_opens o op' seq', op.announce, op'.announce, time,
    ← State.evicted_opening _ i part unarmed,
    State.admitFrame_evict (s := s.opening (openCapture rest)) _ _ hr (State.short_iff.mpr hs) hq he hp]

/-- Settles O59: one eviction commutes with the opening of the frame; with nothing to evict the frame is not admitted, and
cuts the clip while RECORDING. -/
theorem storeFullCutsTheClip : Obligations.StoreFullCutsTheClip := by
  refine ⟨fun rest o i before part c d s op seq unarmed hr hs hq hst hns hp hc hn only entered full =>
    ⟨s.evicted i part, ?_⟩, fun rest o s op seq hr ring hs he => ?_,
    fun rest o c s hl hv hk hf hq ha hr hc only hvalid hw hh hs he => ?_⟩
  · have hd := ClipRecord.evict_eq entered full
    have settled := ClipRecord.evict_settled part.number c
    rw [hd] at settled
    obtain ⟨gap, stays, settles⟩ := State.evicted_settles i hc hn only hd
    have same := State.evicted_same i part s
    have store : (s.evicted i part).store = s.store.evict i := same.store
    rw [store]
    refine ⟨exec_frameOpen_evict op seq unarmed hr hs hq (Store.evictable_eq hq hst hns) hp,
      congrArg FrameRecord.state (Store.release_frame_self i _), rfl, ?_, rfl, rfl, ?_,
      fun j hj => Store.release_frame_ne hj _, gap, fun h => stays (Bool.eq_false_iff.mpr fun k => h (settled.mp k)),
      fun h1 h2 h3 => settles (settled.mpr ⟨h1, h2, h3⟩), same.ingress, same.time, same.render, same.banks, same.queue,
      same.pLink, same.xLink, same.pace, same.lastProxy, same.pending⟩
    · show s.store.xq.dropLast = before
      rw [hq, List.dropLast_concat]
    · rw [← FrameRecord.flawCount_eq]; rfl
  · have starved := State.admitFrame_starved (s := s.opening (openCapture rest)) (openCapture rest) s.time.stamp
      (.inr ⟨hr, ring⟩) (State.short_iff.mpr hs) he
    rw [exec_frameOpen_opens o op seq, op.announce, starved]
    have kept : (s.opening (openCapture rest)).storeFull = s.opening (openCapture rest) := by
      rw [State.storeFull, if_neg]
      show s.clips.recordState ≠ .recording
      rw [hr]; nofun
    rw [kept]
    exact congrArg (fun time : TimeBase => Host.Outcome.next { s with
      ingress := {
        link := .streaming, frame := .skipping, lossCount := 0
        lastCapture := some (openCapture rest) }
      time := time }) (TimeBase.afterStamp_eq s.time)
  · obtain ⟨v, hx, same, -, -⟩ := exec_frameOpen_quiet o [] hl hv hk hf hq ha
    have vc : v.clips = s.clips := same.clips
    have vs : v.store = s.store := same.store
    have vb : v.banks = s.banks := same.banks
    have short : v.store.short v.banks.pagesP = true := by rw [vs, vb]; exact State.short_iff.mpr hs
    have cut : v.storeFull = (v.closeOpen .storeFull).setFlag .storeFullCut := by
      rw [State.storeFull, if_pos (by rw [vc]; exact hr)]
    rw [State.announce_fits (by rw [vb]; exact hvalid) (by rw [vb]; exact hw) (by rw [vb]; exact hh),
      State.admitFrame_starved _ _ (.inl (by rw [vc]; exact hr)) short (by rw [vs]; exact he), cut] at hx
    have ho : c.state = .isOpen := Clips.openClip_isOpen hc
    have hc' : v.clips.openClip = some c := by rw [vc]; exact hc
    have only' : ∀ r ∈ v.clips.records, r.number = c.number ∨ r.state = .isOpen → r = c := by rw [vc]; exact only
    obtain ⟨closed, falls⟩ := State.closeOpen_fallsBack .storeFull (Clips.hasOpen_of_openClip hc')
    have blocks := (State.closeOpen_blocks .storeFull v).trans (State.setFlag_same .storeFullCut _)
    have clips : ((v.closeOpen .storeFull).setFlag .storeFullCut).clips = (v.closeOpen .storeFull).clips :=
      State.setFlag_clips _ _
    refine ⟨_, hx, rfl, State.setFlag_isSet .storeFullCut _, ?_, ?_, fun unsettled => ?_, blocks.store.trans vs,
      blocks.render.trans same.render, blocks.banks.trans vb, blocks.pLink.trans same.pLink, blocks.xLink.trans same.xLink⟩
    · rw [State.setFrame_clips, clips]; exact closed
    · rw [State.setFrame_clips, clips, falls, vc]
    · rw [State.setFrame_clips, clips, (State.closeOpen_settles .storeFull hc' only').1 unsettled,
        Clips.closed_eq .storeFull ho only']
      exact Clips.written_mem (List.mem_of_find?_eq_some hc') rfl

end Sys2Proof.Machine
end

section
/-! PROOFS. Gaps (R72, R73): the gap account that every step keeps, and a gap list that covers exactly its gaps. -/

namespace Sys2Proof.Machine

open Sys2Proof

/-- Settles O5: the gap account is one of the laws that every step keeps. -/
theorem everyStepKeepsTheGapAccount : Obligations.EveryStepKeepsTheGapAccount :=
  fun _ _ law h => (step_keeps h).clips law

/-! ### What a gap list covers -/

/-- A clip frame number lies in a run (R73). -/
def GapRun.Covers (r : GapRun) (n : Nat) : Prop := r.first ≤ n ∧ n < r.stop

/-- A clip frame number lies in a run of a gap list (R73). -/
def GapsCover (gs : List GapRun) (n : Nat) : Prop := ∃ r ∈ gs, r.Covers n

theorem GapRun.covers_iff {r : GapRun} {n : Nat} : r.Covers n ↔ r.first ≤ n ∧ n < r.first + r.length := Iff.rfl

theorem gapsCover_nil (n : Nat) : ¬ GapsCover [] n := nofun

theorem gapsCover_cons {r : GapRun} {rs : List GapRun} {n : Nat} :
    GapsCover (r :: rs) n ↔ r.Covers n ∨ GapsCover rs n := List.exists_mem_cons_iff ..

/-- Nothing before the first run of a list in order is covered. -/
theorem gapsCover_first_le {r : GapRun} {rs : List GapRun} {n : Nat} (after : ∀ x ∈ rs, r.stop < x.first)
    (h : GapsCover (r :: rs) n) : r.first ≤ n := by
  obtain ⟨x, hx, hc⟩ := h
  rcases List.mem_cons.mp hx with rfl | hx
  · exact hc.1
  · have := after x hx
    have := hc.1
    simp only [GapRun.stop] at *
    omega

/-- A run that takes the place of the head of a list and covers a gap besides. -/
theorem gapsCover_grown {r r' : GapRun} {rs : List GapRun} {g : Nat} (h : ∀ n, r'.Covers n ↔ r.Covers n ∨ n = g)
    (n : Nat) : GapsCover (r' :: rs) n ↔ GapsCover (r :: rs) n ∨ n = g := by
  rw [gapsCover_cons, gapsCover_cons, h]
  exact or_right_comm

/-- Entering a gap adds the gap to what the list covers, and nothing else (R73). -/
theorem gapsCover_enterGap {g : Nat} {room : Bool} {gs hs : List GapRun} (h : enterGap g room gs = some hs) (n : Nat) :
    GapsCover hs n ↔ GapsCover gs n ∨ n = g := by
  have single : (⟨g, 1⟩ : GapRun).Covers n ↔ n = g := by rw [GapRun.covers_iff]; dsimp only; omega
  induction gs generalizing hs with
  | nil =>
    cases room with
    | false => cases h
    | true =>
      cases h
      rw [gapsCover_cons, single]
      exact or_comm
  | cons r rs ih =>
    unfold enterGap at h
    split at h
    · cases room with
      | false => cases h
      | true =>
        cases h
        rw [gapsCover_cons, single]
        exact or_comm
    · split at h
      · cases h
        refine gapsCover_grown (fun n => ?_) n
        simp only [GapRun.covers_iff]; omega
      · split at h
        · cases h
        · split at h
          · rename_i hstop
            simp only [GapRun.stop] at hstop
            split at h
            · rename_i x xs
              split at h <;> cases h
              · -- the gap joins two runs
                have joined : (⟨r.first, r.length + 1 + x.length⟩ : GapRun).Covers n ↔
                    (r.Covers n ∨ x.Covers n) ∨ n = g := by
                  simp only [GapRun.covers_iff]; omega
                rw [gapsCover_cons, gapsCover_cons, gapsCover_cons, joined, or_right_comm, or_assoc (a := r.Covers n)]
              · refine gapsCover_grown (fun n => ?_) n
                simp only [GapRun.covers_iff]; omega
            · cases h
              refine gapsCover_grown (fun n => ?_) n
              simp only [GapRun.covers_iff]; omega
          · obtain ⟨hs', he, rfl⟩ := Option.map_eq_some_iff.mp h
            rw [gapsCover_cons, gapsCover_cons, or_assoc]
            exact or_congr_right (ih he)

/-- A gap that a list in order does not cover is left out exactly when there is no room for a run and it touches none
(R73). -/
theorem enterGap_none_iff {g : Nat} {room : Bool} {gs : List GapRun} (pos : ∀ r ∈ gs, 1 ≤ r.length)
    (apart : gs.Pairwise fun a b => a.stop < b.first) (fresh : ¬ GapsCover gs g) :
    enterGap g room gs = none ↔ room = false ∧ ¬ GapsCover gs (g + 1) ∧ ∀ n, n + 1 = g → ¬ GapsCover gs n := by
  induction gs with
  | nil => cases room <;> simp [enterGap, gapsCover_nil]
  | cons r rs ih =>
    obtain ⟨after, apart'⟩ := List.pairwise_cons.mp apart
    have hr : 1 ≤ r.length := pos r List.mem_cons_self
    have first {n : Nat} : GapsCover (r :: rs) n → r.first ≤ n := gapsCover_first_le after
    have inRun {n : Nat} (h : r.Covers n) : GapsCover (r :: rs) n := gapsCover_cons.mpr (.inl h)
    have outside : ¬ r.Covers g := fun h => fresh (inRun h)
    simp only [GapRun.covers_iff] at inRun outside
    have stop : r.stop = r.first + r.length := rfl
    unfold enterGap
    split
    · rename_i hlt
      have untouched : ¬ GapsCover (r :: rs) (g + 1) ∧ ∀ n, n + 1 = g → ¬ GapsCover (r :: rs) n :=
        ⟨fun h => by have := first h; omega, fun n hn h => by have := first h; omega⟩
      cases room with
      | false => exact iff_of_true rfl ⟨rfl, untouched⟩
      | true => exact iff_of_false nofun fun ⟨full, _⟩ => Bool.noConfusion full
    · split
      · exact iff_of_false nofun fun ⟨_, after, _⟩ => after (inRun ⟨by omega, by omega⟩)
      · split
        · omega
        · split
          · have touched : ¬ ∀ n, n + 1 = g → ¬ GapsCover (r :: rs) n :=
              fun before => before (g - 1) (by omega) (inRun ⟨by omega, by omega⟩)
            refine iff_of_false ?_ fun h => touched h.2.2
            split
            · split <;> nofun
            · nofun
          · have skip {n : Nat} (hn : r.first + r.length ≤ n) : GapsCover (r :: rs) n ↔ GapsCover rs n := by
              rw [gapsCover_cons, or_iff_right]
              simp only [GapRun.covers_iff]; omega
            rw [Option.map_eq_none_iff, ih (fun x hx => pos x (List.mem_cons_of_mem _ hx)) apart'
              fun h => fresh (gapsCover_cons.mpr (.inr h)), skip (by omega)]
            refine and_congr_right fun _ => and_congr_right fun _ => forall_congr' fun n => ?_
            refine forall_congr' fun hn => ?_
            rw [skip (by omega)]

/-- Settles O58: what entering a gap covers, and when it is refused, each by the runs in order. -/
theorem gapListCoversExactlyItsGaps : Obligations.GapListCoversExactlyItsGaps := by
  intro g gs covers sound hcovers fresh
  obtain rfl : covers = GapsCover := funext fun l => funext fun n => propext (hcovers l n)
  refine ⟨fun hs h => ⟨sound.enter h, gapsCover_enterGap h⟩, ?_⟩
  have full : decide (gs.length < 16) = false ↔ gs.length = 16 := by
    have few : gs.length ≤ 16 := sound.few
    rw [decide_eq_false_iff_not]; omega
  rw [enterGap_none_iff sound.positive sound.apart fresh, full]

end Sys2Proof.Machine
end

section
/-! PROOFS. The record state by directive (R60 to R62, R64): CACHE ON, and CACHE OFF with the ring it flushes. -/

namespace Sys2Proof.Machine

open Sys2Proof

/-! ### A list of pairs released (R56, R64) -/

/-- A release gives no record a twin. -/
theorem Store.release_twin {i j q : RecNo} {s : Store} (h : ((s.release i).frame j).twin = some q) :
    j ≠ i ∧ q ≠ i ∧ (s.frame j).twin = some q := by
  by_cases hj : j = i
  · rw [hj, Store.release_frame_self] at h; cases h
  · rw [Store.release_frame_ne hj] at h
    split at h
    · cases h
    · rename_i hi
      exact ⟨hj, by rintro rfl; exact hi h, h⟩

/-- A twin field that a release changes named the record released (R42). -/
theorem Store.release_twin_other {i j q : RecNo} {s : Store} (h : (s.frame j).twin = some q) (hj : j ≠ i) (hq : q ≠ i) :
    ((s.release i).frame j).twin = some q := by
  rw [Store.release_frame_ne hj, h]
  exact if_neg fun e => hq (Option.some.inj e)

/-- A pair release gives no record a twin. -/
theorem Store.releasePair_twin {i j q : RecNo} {s : Store} (h : ((s.releasePair i).frame j).twin = some q) :
    (s.frame j).twin = some q := by
  unfold Store.releasePair at h
  split at h
  · exact (Store.release_twin (Store.release_twin h).2.2).2.2
  · exact (Store.release_twin h).2.2

/-- A record outside a pair that is released keeps its twin, or its twin is FREE. -/
theorem Store.releasePair_twin_other {i j q : RecNo} {s : Store} (h : (s.frame j).twin = some q) (hj : j ≠ i)
    (hi : (s.frame i).twin ≠ some j) (hq : q ≠ i) :
    ((s.releasePair i).frame j).twin = some q ∨ ((s.releasePair i).frame q).state = .free := by
  by_cases ht : (s.frame i).twin = some q
  · exact .inr ((Store.releasePair_free i s).2 q ht)
  · have kept := Store.release_twin_other h hj hq
    left
    unfold Store.releasePair
    split
    · rename_i t hti
      exact Store.release_twin_other kept (by rintro rfl; exact hi hti) (by rintro rfl; exact ht hti)
    · exact kept

theorem Store.releasePairs_cons (i : RecNo) (is : List RecNo) (s : Store) :
    s.releasePairs (i :: is) = (s.releasePair i).releasePairs is := rfl

/-- The send queues and their counts do not see ring releases. -/
theorem Store.releasePairs_queues (is : List RecNo) (s : Store) :
    (s.releasePairs is).pq = s.pq ∧ (s.releasePairs is).xq = s.xq ∧ (s.releasePairs is).pFlawed = s.pFlawed ∧
      (s.releasePairs is).xFlawed = s.xFlawed := by
  induction is generalizing s with
  | nil => exact ⟨rfl, rfl, rfl, rfl⟩
  | cons i is ih => simpa [Store.releasePairs_cons] using ih (s.releasePair i)

/-- A FREE record stays FREE while pairs are released. -/
theorem Store.releasePairs_stays_free {j : RecNo} (is : List RecNo) {s : Store} (h : (s.frame j).state = .free) :
    ((s.releasePairs is).frame j).state = .free := by
  induction is generalizing s with
  | nil => exact h
  | cons i is ih => exact ih ((Store.releasePair_state i j s).elim id (·.trans h))

/-- Every record of the list is FREE after its pairs are released. -/
theorem Store.releasePairs_free {is : List RecNo} {p : RecNo} (s : Store) (hp : p ∈ is) :
    ((s.releasePairs is).frame p).state = .free := by
  induction is generalizing s with
  | nil => cases hp
  | cons i is ih =>
    rcases List.mem_cons.mp hp with rfl | hp
    · exact Store.releasePairs_stays_free is (Store.releasePair_free _ _).1
    · exact ih (s.releasePair i) hp

/-- The twins are FREE too, where no record of the list is the twin of one. -/
theorem Store.releasePairs_twin_free {is : List RecNo} {s : Store}
    (apart : ∀ p ∈ is, ∀ q, (s.frame p).twin = some q → q ∉ is) {p q : RecNo} (hp : p ∈ is)
    (hq : (s.frame p).twin = some q) : ((s.releasePairs is).frame q).state = .free := by
  induction is generalizing s with
  | nil => cases hp
  | cons i is ih =>
    rw [Store.releasePairs_cons]
    by_cases hi : p = i
    · subst hi
      exact Store.releasePairs_stays_free is ((Store.releasePair_free p s).2 q hq)
    · have hp' : p ∈ is := (List.mem_cons.mp hp).resolve_left hi
      have hit : (s.frame i).twin ≠ some p := fun h => apart i List.mem_cons_self p h hp
      have hqi : q ≠ i := fun h => apart p hp q hq (h ▸ List.mem_cons_self)
      rcases Store.releasePair_twin_other hq hi hit hqi with kept | free
      · exact ih (fun p hp q hq h => apart p (List.mem_cons_of_mem _ hp) q (Store.releasePair_twin hq)
          (List.mem_cons_of_mem _ h)) hp' kept
      · exact Store.releasePairs_stays_free is free

/-- A record that is neither in the list nor a twin of one in it keeps its state and its pages. -/
theorem Store.releasePairs_other {is : List RecNo} {j : RecNo} {s : Store} (hj : j ∉ is)
    (ht : ∀ p ∈ is, (s.frame p).twin ≠ some j) :
    ((s.releasePairs is).frame j).state = (s.frame j).state ∧
      ((s.releasePairs is).frame j).pages = (s.frame j).pages := by
  induction is generalizing s with
  | nil => exact ⟨rfl, rfl⟩
  | cons i is ih =>
    obtain ⟨hji, hjs⟩ := not_or.mp (mt List.mem_cons.mpr hj)
    obtain ⟨state, pages, -⟩ := Store.releasePair_fields hji (ht i List.mem_cons_self)
    obtain ⟨state', pages'⟩ := ih (s := s.releasePair i) hjs fun p hp h =>
      ht p (List.mem_cons_of_mem _ hp) (Store.releasePair_twin h)
    exact ⟨state'.trans state, pages'.trans pages⟩

/-! ### CACHE ON and CACHE OFF -/

theorem exec_cacheOn (tag : Byte) (s : State) : exec (.cacheOn tag) s = .next (s.takeCacheOn tag) := rfl
theorem exec_cacheOff (tag : Byte) (s : State) : exec (.cacheOff tag) s = .next (s.takeCacheOff tag) := rfl

theorem State.cacheOff_caching {s : State} (h : s.clips.recordState = .caching) : s.cacheOff = { s with
    clips := { s.clips with cacheMark := false, recordState := .standby, ring := [] }
    store := s.store.releasePairs s.clips.ring } := by
  unfold State.cacheOff
  dsimp only
  rw [if_pos h]
  rfl

theorem State.cacheOff_other {s : State} (h : s.clips.recordState ≠ .caching) :
    s.cacheOff = { s with clips := { s.clips with cacheMark := false } } := if_neg h

/-- Settles O38: each by its tests; the flush by induction over the ring. -/
theorem cacheOnAndCacheOff : Obligations.CacheOnAndCacheOff := by
  refine ⟨fun tag s => ⟨_, exec_cacheOn tag s, fun invalid => ?_, fun valid => ?_⟩,
    fun tag s => ⟨_, exec_cacheOff tag s, fun other => ?_, fun caching => ?_⟩⟩
  · rw [State.takeCacheOn, invalid]
    exact State.respond_offered _ _ _ _ _
  · rw [State.takeCacheOn, valid]
    exact State.respond_offered _ _ _ _ _
  · rw [State.takeCacheOff, State.cacheOff_other other]
    exact State.respond_offered _ _ _ _ _
  · rw [State.takeCacheOff, State.cacheOff_caching caching]
    exact ⟨s.store.releasePairs s.clips.ring, State.respond_offered _ _ _ _ _,
      fun p hp => Store.releasePairs_free _ hp, fun apart p hp q hq => Store.releasePairs_twin_free apart hp hq,
      fun j hj ht => Store.releasePairs_other hj ht, Store.releasePairs_queues _ _⟩

end Sys2Proof.Machine
end

section
/-! PROOFS. STOP (R77, R78, R84, R85): the open clip closes, and settles when nothing of it is left. -/

namespace Sys2Proof.Machine

open Sys2Proof

theorem exec_stop (tag : Byte) (s : State) : exec (.stop tag) s = .next (s.takeStop tag) := rfl

theorem State.takeStop_recording {s : State} (tag : Byte) (h : s.clips.recordState = .recording) :
    s.takeStop tag = (s.closeOpen .stop).respond tag DirCode.stop.word .done 0 := if_pos h

theorem State.takeStop_refused {s : State} (tag : Byte) (h : s.clips.recordState ≠ .recording) :
    s.takeStop tag = s.respond tag DirCode.stop.word .refNotNow 0 := if_neg h

/-- Settles O40: the close rewrites the open clip's record alone, and its settling test then decides. -/
theorem stopClosesTheOpenClip : Obligations.StopClosesTheOpenClip := by
  refine ⟨fun tag s h => ⟨_, exec_stop tag s, ?_⟩, fun tag c d closed s hr hc only hd hclosed => ⟨_, exec_stop tag s, ?_⟩⟩
  · rw [State.takeStop_refused tag h]
    exact State.respond_offered _ _ _ _ _
  · have closes : s.closeOpen .stop = State.testSettle c.number { s with clips := closed } := by
      rw [State.closeOpen_eq .stop hc, Clips.closed_eq .stop (Clips.openClip_isOpen hc) only, hclosed, hd]
    have alone : ∀ r ∈ closed.records, r.number = c.number → r = d := by
      rw [hclosed]; exact Clips.written_only
    have member : d ∈ closed.records := by
      rw [hclosed]; exact Clips.written_mem (List.mem_of_find?_eq_some hc) rfl
    have number : d.number = c.number := by rw [hd]
    have settled : d.settled = true ↔ c.sent = c.joined ∧ c.proxySent + c.evicted = c.made := by
      rw [hd]; exact ClipRecord.close_settled .stop c
    rw [State.takeStop_recording tag hr, closes]
    refine ⟨fun unsent => ?_, fun sent proxySent => ?_⟩
    · rw [State.testSettle_unsettled alone (Bool.eq_false_iff.mpr fun k => unsent (settled.mp k))]
      exact State.respond_offered _ _ _ _ _
    · obtain ⟨flag, clips, summary⟩ := State.testSettle_settles (s := { s with clips := closed }) alone member number
        (settled.mpr ⟨sent, proxySent⟩)
      have same := State.testSettle_blocks c.number { s with clips := closed }
      exact ⟨_, State.respond_offered _ _ _ _ _, flag, clips, summary, same.ingress, same.time, same.store, same.render,
        same.banks, same.queue, same.pLink, same.xLink, same.pace, same.lastProxy, same.pending⟩

end Sys2Proof.Machine
end

section
/-! PROOFS. The boundary, one directive and one cue action at a time (R75, R76, R149). -/

namespace Sys2Proof.Machine

open Sys2Proof

/-! ### The head of the directive queue (R149) -/

/-- The command that a queued directive spells is that directive being taken (R147). -/
theorem exec_command (d : Directive) (s : State) : exec d.command s = .next (s.takeDirective d) := by
  obtain ⟨code, tag, param, payload⟩ := d
  cases code <;> rfl

/-- The head of the queue is taken, the rest still queued. -/
def State.takeHead (d : Directive) (ds : List Directive) (s : State) : State :=
  State.takeDirective d { s with dir := { s.dir with queue := ds } }

theorem State.takeQueue_empty {s : State} (n : Nat) (h : s.dir.queue = []) : s.takeQueue n = s := by
  cases n with
  | zero => rfl
  | succ n => rw [State.takeQueue, h]

/-- After the head of the queue the directives that are left are taken: the rest, or none after a RESTART (R149, R158). -/
theorem State.takeQueue_cons {s : State} {d : Directive} {ds : List Directive} (h : s.dir.queue = d :: ds) :
    s.takeQueue s.dir.queue.length = (s.takeHead d ds).takeQueue (s.takeHead d ds).dir.queue.length := by
  have head : s.takeQueue s.dir.queue.length = (s.takeHead d ds).takeQueue ds.length := by
    rw [h, List.length_cons, State.takeQueue, h]
    rfl
  rw [head]
  have left : (s.takeHead d ds).dir.queue = ds ∨ (s.takeHead d ds).dir.queue = [] :=
    (State.takeDirective_crossed d { s with dir := { s.dir with queue := ds } }).queue
  rcases left with rest | none
  · rw [rest]
  · rw [State.takeQueue_empty _ none, State.takeQueue_empty _ none]

theorem State.boundary_directive {o : BoundaryOrder} {s : State} {d : Directive} {ds : List Directive}
    (ho : o = .directivesFirst ∨ s.clips.actions = []) (h : s.dir.queue = d :: ds) :
    s.boundary o = (s.takeHead d ds).boundary o := by
  cases o with
  | directivesFirst =>
    show (s.takeQueue _).takeActions _ = _
    rw [State.takeQueue_cons h]
    rfl
  | actionsFirst =>
    have none : s.clips.actions = [] := ho.resolve_left nofun
    have none' : (s.takeHead d ds).clips.actions = [] :=
      (State.takeDirective_crossed d { s with dir := { s.dir with queue := ds } }).actions.elim (·.trans none) id
    unfold State.boundary
    rw [none, none']
    exact State.takeQueue_cons h

/-! ### The head of the pending actions (R74, R75) -/

/-- The first pending action is taken, removed from the list. -/
def State.takeFirst (a : CueAction) (as : List CueAction) (s : State) : State :=
  State.takeAction a { s with clips := { s.clips with actions := as } }

theorem State.takeActions_cons {s : State} {a : CueAction} {as : List CueAction} (h : s.clips.actions = a :: as) :
    s.takeActions s.clips.actions = (s.takeFirst a as).takeActions (s.takeFirst a as).clips.actions := by
  have rest : (s.takeFirst a as).clips.actions = as :=
    (State.takeAction_took a { s with clips := { s.clips with actions := as } }).actions
  rw [h, rest]
  rfl

theorem State.boundary_action {o : BoundaryOrder} {s : State} {a : CueAction} {as : List CueAction}
    (ho : o = .actionsFirst ∨ s.dir.queue = []) (h : s.clips.actions = a :: as) :
    s.boundary o = (s.takeFirst a as).boundary o := by
  cases o with
  | actionsFirst =>
    show State.takeQueue _ (s.takeActions _) = _
    rw [State.takeActions_cons h]
    rfl
  | directivesFirst =>
    have none : s.dir.queue = [] := ho.resolve_left nofun
    have none' : (s.takeFirst a as).dir.queue = [] :=
      (State.takeAction_took a { s with clips := { s.clips with actions := as } }).queue.trans none
    unfold State.boundary
    rw [State.takeQueue_empty _ none, State.takeQueue_empty _ none']
    exact State.takeActions_cons h

/-! ### What an action does (R75) -/

theorem State.mayStart_iff {s : State} : s.mayStart = true ↔
    s.clips.recordState ≠ .recording ∧ s.banks.act.valid = true ∧ s.clips.records.length < 4 := by
  have room : s.clips.roomForClip = true ↔ s.clips.records.length < 4 := decide_eq_true_iff
  rw [State.mayStart, Bool.and_eq_true, Bool.and_eq_true, bne_iff_ne, room, and_assoc]

theorem State.takeAction_start {s : State} (h : s.clips.recordState ≠ .recording) (valid : s.banks.act.valid = true)
    (room : s.clips.records.length < 4) : s.takeAction .start = s.startClip :=
  if_pos (State.mayStart_iff.mpr ⟨h, valid, room⟩)

theorem State.takeAction_start_dropped {s : State}
    (h : s.clips.recordState = .recording ∨ s.banks.act.valid = false ∨ 4 ≤ s.clips.records.length) :
    s.takeAction .start = s := by
  refine if_neg fun may => ?_
  obtain ⟨stopped, valid, room⟩ := State.mayStart_iff.mp may
  rcases h with recording | invalid | full
  · exact stopped recording
  · rw [invalid] at valid; cases valid
  · omega

/-- Settles O31: a boundary is its first taking and the boundary on what that leaves. -/
theorem boundaryTakesBothListsInOrder : Obligations.BoundaryTakesBothListsInOrder := by
  refine ⟨fun o s => State.boundary_empty o, fun o d ds s ho hq => ⟨_, exec_command d _, State.boundary_directive ho hq⟩,
    fun o a as s u ho ha hu => ?_⟩
  have first : s.boundary o = (u.takeAction a).boundary o := hu ▸ State.boundary_action ho ha
  have state : u.clips.recordState = s.clips.recordState := by rw [hu]
  have records : u.clips.records = s.clips.records := by rw [hu]
  have banks : u.banks = s.banks := by rw [hu]
  rw [first, ← state, ← records, ← banks]
  refine ⟨fun start => ⟨fun stopped valid room => ?_, fun dropped => ?_⟩,
    fun stop => ⟨fun recording => ?_, fun idle => ?_⟩⟩
  · rw [start, State.takeAction_start stopped valid room]
  · rw [start, State.takeAction_start_dropped dropped]
  · rw [stop]
    exact congrArg (State.boundary o) (State.cut_recording .cue recording)
  · rw [stop]
    exact congrArg (State.boundary o) (State.cut_idle .cue idle)

end Sys2Proof.Machine
end

section
/-! PROOFS. The renderer's arithmetic (R91 to R95, R97, R100, R103, R104): a sample's way through the scalers, the tone curves,
the blend and the burn-in. -/

namespace Sys2Proof.Machine

open Sys2Proof

/-! ### A scaled sample as six products (R91, R93, R95) -/

theorem getD_map_range {n i : Nat} (f : Nat → Nat) (h : i < n) : ((List.range n).map f).getD i 0 = f i := by
  simp [List.getD_eq_getElem?_getD, h]

/-- The scaler sum over the taps of a base position, written out, where `sample` reads a crop column or row. -/
theorem scalerSum_taps {kernel : Table} {phase base n : Nat} {sample tap : Nat → Nat} {coeff : Nat → Int}
    (hcoeff : ∀ k, coeff k = kernel.coeff phase k)
    (htap : ∀ k, tap k = sample (max 0 (min ((n : Int) - 1) ((base : Int) + (k : Int) - 2))).toNat) :
    scalerSum (kernel.phase phase) ((taps base n).map sample) = coeff 0 * tap 0 + coeff 1 * tap 1 + coeff 2 * tap 2 +
      coeff 3 * tap 3 + coeff 4 * tap 4 + coeff 5 * tap 5 := by
  have samples : (taps base n).map sample = (List.range 6).map tap := by
    simp only [taps, List.map_map, Function.comp_def, clampTap_eq, funext htap]
  have coeffs : kernel.phase phase = (List.range 6).map coeff := by
    rw [Table.phase, funext hcoeff]
  have six : List.range 6 = [0, 1, 2, 3, 4, 5] := rfl
  rw [samples, coeffs, six]
  simp only [scalerSum, List.map_cons, List.map_nil, List.zipWith_cons_cons, List.zipWith_nil_left, List.sum_cons,
    List.sum_nil]
  ring

/-- A crop line scaled horizontally (R93). -/
theorem hLine_getD (u : FrameSetup) (kernel : Table) (line : Samples) {i : Nat} (h : i < 3 * u.wo) :
    (hLine u kernel line).getD i 0 = scalerResult (scalerSum
      (kernel.phase (phasePosition (scalePosition u.sx u.ox (i / 3))))
      ((taps (basePosition (scalePosition u.sx u.ox (i / 3))) u.wc).map fun c =>
        line.getD (3 * (u.x0 + c) + i % 3) 0)) :=
  getD_map_range (fun i => hSample u kernel line (i / 3) (i % 3)) h

theorem hLine_length (u : FrameSetup) (kernel : Table) (line : Samples) : (hLine u kernel line).length = 3 * u.wo := by
  simp [hLine]

/-- A sample of a proxy row: scaled vertically, then tone and blend, then the overlay (R95 to R105). -/
theorem proxyRow_getD (banks : Banks) (u : FrameSetup) (r : Nat) {i : Nat} (h : i < 3 * u.wo) :
    (proxyRow banks u r).getD i 0 = overlayStage (banks.get u.bank) u.overlay (i / 3) r
      (toneStage banks u (i % 3) (vSample u (banks.get u.bank).vkernel r i)) :=
  getD_map_range (fun i => overlayStage (banks.get u.bank) u.overlay (i / 3) r
    (toneStage banks u (i % 3) (vSample u (banks.get u.bank).vkernel r i))) h

theorem proxyRow_length (banks : Banks) (u : FrameSetup) (r : Nat) : (proxyRow banks u r).length = 3 * u.wo := by
  simp [proxyRow]

/-! ### Positions (R92, R95) -/

/-- Every output position lies below the crop's end, as the step is a whole source sample or more. -/
theorem scalePosition_lt {crop proxy j : Nat} (hcrop : proxy ≤ crop) (hj : j < proxy) :
    scalePosition (scaleStep crop proxy) (scaleOffset (scaleStep crop proxy)) j < crop * 65536 := by
  unfold scalePosition scaleOffset
  have whole : 65536 ≤ scaleStep crop proxy :=
    (Nat.le_div_iff_mul_le (by omega)).mpr (by omega)
  have span : proxy * scaleStep crop proxy ≤ crop * 65536 := Nat.mul_div_le _ _
  generalize scaleStep crop proxy = step at whole span ⊢
  calc (step - 65536) / 2 + j * step < (j + 1) * step := by rw [Nat.succ_mul]; omega
    _ ≤ proxy * step := Nat.mul_le_mul_right step hj
    _ ≤ crop * 65536 := span

theorem phasePosition_lt (p : Nat) : phasePosition p < 32 := by
  unfold phasePosition
  omega

/-! ### The scaler's result (R94) -/

theorem scalerResult_eq (sum : Int) : scalerResult sum = (max 0 (min 4095 (Int.fdiv (sum + 128) 256))).toNat := by
  rw [Int.fdiv_eq_ediv_of_nonneg _ (by decide)]
  unfold scalerResult
  omega

/-- Coefficients laid on a flat line give their sum times its value. -/
theorem scalerSum_flat (cs : List Int) (v : Nat) : scalerSum cs (List.replicate cs.length v) = cs.sum * v := by
  induction cs with
  | nil => simp [scalerSum]
  | cons c cs ih =>
    unfold scalerSum at ih ⊢
    rw [List.length_cons, List.replicate_succ, List.zipWith_cons_cons, List.sum_cons, List.sum_cons, ih, add_mul]

theorem scalerResult_flat {cs : List Int} {v : Nat} (hsum : cs.sum = 256) (hv : v ≤ 4095) :
    scalerResult (scalerSum cs (List.replicate cs.length v)) = v := by
  rw [scalerSum_flat, hsum]
  unfold scalerResult
  omega

/-! ### Tone and blend (R97, R100) -/

/-- A rounded average of two entries, with weights that add to 16, keeps their bound (R97). -/
theorem toneOut_le {tone : Table} {t x : Nat} (h : tone.curve t (x / 16) ≤ 1023) (k : tone.curve t (x / 16 + 1) ≤ 1023) :
    toneOut tone t x ≤ 1023 := by
  unfold toneOut
  dsimp only
  generalize tone.curve t (x / 16) = a at h
  generalize tone.curve t (x / 16 + 1) = b at k
  have ha : a * (16 - x % 16) ≤ 1023 * (16 - x % 16) := Nat.mul_le_mul_right _ h
  have hb : b * (x % 16) ≤ 1023 * (x % 16) := Nat.mul_le_mul_right _ k
  omega

/-- The weights of a blend add to the ramp's length, so it lies between what it blends (R100). -/
theorem blend_between {i k : Nat} (old new : Nat) (hi : 1 ≤ i) (hk : i ≤ k) :
    min old new ≤ blend ⟨i, k⟩ old new ∧ blend ⟨i, k⟩ old new ≤ max old new := by
  have weights (m : Nat) : m * (k - i) + m * i = m * k := by rw [← Nat.mul_add, Nat.sub_add_cancel hk]
  have low := Nat.add_le_add (Nat.mul_le_mul_right (k - i) (min_le_left old new))
    (Nat.mul_le_mul_right i (min_le_right old new))
  have high := Nat.add_le_add (Nat.mul_le_mul_right (k - i) (le_max_left old new))
    (Nat.mul_le_mul_right i (le_max_right old new))
  rw [weights] at low high
  have pos : 0 < k := by omega
  unfold blend
  constructor
  · exact (Nat.le_div_iff_mul_le pos).mpr (Nat.le_add_right_of_le low)
  · refine Nat.le_of_lt_succ ((Nat.div_lt_iff_lt_mul pos).mpr ?_)
    rw [Nat.succ_mul]
    dsimp only
    omega

theorem blend_last {k : Nat} (old new : Nat) (hk : 1 ≤ k) : blend ⟨k, k⟩ old new = new := by
  unfold blend
  dsimp only
  rw [Nat.sub_self, Nat.mul_zero, Nat.zero_add, Nat.add_comm, Nat.add_mul_div_right _ _ hk,
    Nat.div_eq_of_lt (Nat.div_lt_self hk Nat.one_lt_two), Nat.zero_add]

/-! ### The burn-in (R103, R104) -/

theorem Bank.overlayScale_pos (b : Bank) : 0 < b.overlayScale := by
  unfold Bank.overlayScale
  omega

theorem inBoxes_iff {b : Bank} {x y : Nat} : inBoxes b x y = true ↔
    (b.originColumn ≤ x ∧ x < b.originColumn + 192 * b.overlayScale) ∧
      b.originRow ≤ y ∧ y < b.originRow + 20 * b.overlayScale := by
  simp only [inBoxes, Bool.and_eq_true, decide_eq_true_eq, and_assoc]

/-- In cell c, which starts at column 12 · scale · c of the string, the lit test reads glyph c's pixel (R103). -/
theorem overlayLit_cell {b : Bank} (cells : List Nat) {c e : Nat} (dy : Nat) (he : e < 12 * b.overlayScale) :
    overlayLit b cells (12 * b.overlayScale * c + e) dy =
      (b.glyphRow (cells.getD c 0) (dy / b.overlayScale)).getLsbD (11 - e / b.overlayScale) := by
  unfold overlayLit
  dsimp only
  rw [Nat.mul_add_div (by omega), Nat.div_eq_of_lt he, Nat.add_zero, Nat.mul_add_mod, Nat.mod_eq_of_lt he]

theorem overlayStage_outside {b : Bank} {cells : List Nat} {x y v : Nat} (h : ¬ inBoxes b x y = true) :
    overlayStage b (some cells) x y v = v := if_neg h

theorem overlayStage_inside {b : Bank} {cells : List Nat} {x y v : Nat} (h : inBoxes b x y = true) :
    overlayStage b (some cells) x y v = if overlayLit b cells (x - b.originColumn) (y - b.originRow) then b.ink
      else if b.darken then v / 4 else v := if_pos h

/-- A pixel of cell c's box. -/
theorem overlayStage_cell {b : Bank} (cells : List Nat) {x y c : Nat} (v : Nat) (hc : c < 16)
    (left : b.originColumn + 12 * b.overlayScale * c ≤ x)
    (right : x < b.originColumn + 12 * b.overlayScale * c + 12 * b.overlayScale)
    (top : b.originRow ≤ y) (bottom : y < b.originRow + 20 * b.overlayScale) :
    overlayStage b (some cells) x y v =
      if (b.glyphRow (cells.getD c 0) ((y - b.originRow) / b.overlayScale)).getLsbD
          (11 - (x - b.originColumn - 12 * b.overlayScale * c) / b.overlayScale) then b.ink
      else if b.darken then v / 4 else v := by
  have last : 12 * b.overlayScale * c ≤ 12 * b.overlayScale * 15 := Nat.mul_le_mul_left _ (by omega)
  have inside : inBoxes b x y = true := inBoxes_iff.mpr ⟨⟨by omega, by omega⟩, top, bottom⟩
  have column : x - b.originColumn = 12 * b.overlayScale * c + (x - b.originColumn - 12 * b.overlayScale * c) := by omega
  rw [overlayStage_inside inside, column, overlayLit_cell cells _ (by omega), Nat.add_sub_cancel_left]

/-! ### The statement -/

/-- Settles O60: each stage by its own lemma. -/
theorem renderArithmeticIsExact : Obligations.RenderArithmeticIsExact := by
  refine ⟨fun u kernel line i p coeff tap hi hp hcoeff htap => ⟨hLine_length u kernel line, ?_⟩,
    fun banks b other u r i p v coeff tap hi hb hother hp hcoeff htap hv => ⟨proxyRow_length banks u r, ?_⟩,
    fun crop proxy j sx ox p hcrop hj hsx hox hp => ?_,
    fun b cells x y c v scale hscale hc left right top bottom => ?_, fun b cells x y v out => ?_,
    fun b x y v => rfl, scalerResult_eq, fun cs v hsum hv => scalerResult_flat hsum hv,
    fun tone t x => ⟨rfl, toneOut_le⟩, fun k i old new hi hk => ⟨rfl, (blend_between old new hi hk).1,
      (blend_between old new hi hk).2, blend_last old new (hi.trans hk)⟩⟩
  · have position : scalePosition u.sx u.ox (i / 3) = p := hp.symm
    rw [hLine_getD u kernel line hi, position]
    exact congrArg scalerResult (scalerSum_taps hcoeff htap)
  · have position : u.rowPosition r = p := hp.symm
    have scaled : vSample u b.vkernel r i = v := by
      rw [vSample, FrameSetup.rowTaps, position, hv]
      exact congrArg scalerResult (scalerSum_taps hcoeff htap)
    rw [proxyRow_getD banks u r hi, ← hb, scaled]
    subst hb hother
    rfl
  · have position : scalePosition (scaleStep crop proxy) (scaleOffset (scaleStep crop proxy)) j = p := by
      rw [hp, hox, hsx]; rfl
    have below : p < crop * 65536 := position ▸ scalePosition_lt hcrop hj
    exact ⟨position, rfl, (Nat.div_lt_iff_lt_mul (by decide)).mpr below, rfl, phasePosition_lt p⟩
  · subst hscale
    exact overlayStage_cell cells v hc left right top bottom
  · exact overlayStage_outside fun inside => by
      obtain ⟨columns, rows⟩ := inBoxes_iff.mp inside
      omega

end Sys2Proof.Machine
end

section
/-! PROOFS. An accepted SWITCH BANK (R82, R98, R137 to R140): the roles exchanged, and then the ring, the split-pending mark
and the low mark under the new active bank. -/

namespace Sys2Proof.Machine

open Sys2Proof

/-! ### The twins of a list released (R56, R64) -/

theorem Store.releaseTwins_cons (i : RecNo) (is : List RecNo) (s : Store) :
    s.releaseTwins (i :: is) = (s.releaseTwin i).releaseTwins is := rfl

theorem Store.releaseTwin_some {i t : RecNo} {s : Store} (h : (s.frame i).twin = some t) :
    s.releaseTwin i = s.release t := by
  rw [Store.releaseTwin, h]

theorem Store.releaseTwin_none {i : RecNo} {s : Store} (h : (s.frame i).twin = none) : s.releaseTwin i = s := by
  rw [Store.releaseTwin, h]

@[simp] theorem Store.releaseTwin_pq (i : RecNo) (s : Store) : (s.releaseTwin i).pq = s.pq := by
  unfold Store.releaseTwin; split <;> rfl
@[simp] theorem Store.releaseTwin_xq (i : RecNo) (s : Store) : (s.releaseTwin i).xq = s.xq := by
  unfold Store.releaseTwin; split <;> rfl

/-- The send queues do not see twin releases. -/
theorem Store.releaseTwins_queues (is : List RecNo) (s : Store) :
    (s.releaseTwins is).pq = s.pq ∧ (s.releaseTwins is).xq = s.xq := by
  induction is generalizing s with
  | nil => exact ⟨rfl, rfl⟩
  | cons i is ih => simpa [Store.releaseTwins_cons] using ih (s.releaseTwin i)

/-- A FREE record stays FREE while twins are released. -/
theorem Store.releaseTwins_stays_free {j : RecNo} (is : List RecNo) {s : Store} (h : (s.frame j).state = .free) :
    ((s.releaseTwins is).frame j).state = .free := by
  induction is generalizing s with
  | nil => exact h
  | cons i is ih =>
    rw [Store.releaseTwins_cons]
    cases ht : (s.frame i).twin with
    | none => rw [Store.releaseTwin_none ht]; exact ih h
    | some t => rw [Store.releaseTwin_some ht]; exact ih ((Store.release_state t j s).elim id (·.trans h))

/-- The twin of every record of the list is FREE afterwards, where no record of the list is the twin of one. -/
theorem Store.releaseTwins_twin_free {is : List RecNo} {s : Store}
    (apart : ∀ p ∈ is, ∀ q, (s.frame p).twin = some q → q ∉ is) {p q : RecNo} (hp : p ∈ is)
    (hq : (s.frame p).twin = some q) : ((s.releaseTwins is).frame q).state = .free := by
  induction is generalizing s with
  | nil => cases hp
  | cons i is ih =>
    have freed {t : RecNo} : ((s.release t).frame t).state = .free := by rw [Store.release_frame_self]; rfl
    rw [Store.releaseTwins_cons]
    cases hi : (s.frame i).twin with
    | none =>
      have hp' : p ∈ is := (List.mem_cons.mp hp).resolve_left (by rintro rfl; rw [hi] at hq; cases hq)
      rw [Store.releaseTwin_none hi]
      exact ih (fun p hp q hq h => apart p (List.mem_cons_of_mem _ hp) q hq (List.mem_cons_of_mem _ h)) hp' hq
    | some t =>
      rw [Store.releaseTwin_some hi]
      by_cases hqt : q = t
      · exact hqt ▸ Store.releaseTwins_stays_free is freed
      · have hp' : p ∈ is := (List.mem_cons.mp hp).resolve_left
          (by rintro rfl; exact hqt (Option.some.inj (hq.symm.trans hi)))
        have hpt : p ≠ t := fun h => apart i List.mem_cons_self t hi (h ▸ hp)
        exact ih (fun p hp q hq h => apart p (List.mem_cons_of_mem _ hp) q (Store.release_twin hq).2.2
          (List.mem_cons_of_mem _ h)) hp' (Store.release_twin_other hq hpt hqt)

/-! ### The roles exchanged (R98, R137) -/

theorem BankId.other_other (i : BankId) : i.other.other = i := by cases i <;> rfl

/-- The roles of the banks exchanged and the ramp started, before the consequences of the switch. -/
def State.exchange (k : Nat) (s : State) : State :=
  { s with
    banks := { s.banks with active := s.banks.active.other }
    render := s.render.startRamp k s.banks.act.valid }

theorem State.switchBanks_eq (k : Nat) (s : State) : s.switchBanks k =
    (((s.exchange k).switchRing s.banks.act).switchSplit s.banks.act).switchLowMark s.banks.act := rfl

theorem State.exchange_act (k : Nat) (s : State) : (s.exchange k).banks.act = s.banks.standby := rfl

theorem State.exchange_standby (k : Nat) (s : State) : (s.exchange k).banks.standby = s.banks.act :=
  congrArg s.banks.get (BankId.other_other _)

/-! ### The ring at a switch (R138) -/

theorem Bank.size_of_geometry {a b : Bank} (h : a.geometry = b.geometry) : a.wi = b.wi ∧ a.hi = b.hi :=
  ⟨congrArg (·.getD 0 0) h, congrArg (·.getD 1 0) h⟩

/-- A ring within its depth is not trimmed. -/
theorem State.trimRing_of_le {depth : Nat} {s : State} (h : s.clips.ring.length ≤ depth) : s.trimRing depth = s := by
  unfold State.trimRing
  rw [Nat.sub_eq_zero_of_le h]
  rfl

theorem State.trimRing_ite (depth : Nat) (s : State) :
    (if depth < s.clips.ring.length then s.trimRing depth else s) = s.trimRing depth :=
  ite_eq_left_iff.mpr fun h => (State.trimRing_of_le (Nat.le_of_not_lt h)).symm

section
variable {old : Bank} {s : State}

theorem State.switchRing_resized (h : s.banks.act.wi ≠ old.wi ∨ s.banks.act.hi ≠ old.hi) :
    s.switchRing old = s.flushRing := by
  unfold State.switchRing
  dsimp only
  rw [if_pos h, State.trimRing_ite]
  exact State.trimRing_of_le (Nat.zero_le _)

theorem State.switchRing_reframed (h : ¬ (s.banks.act.wi ≠ old.wi ∨ s.banks.act.hi ≠ old.hi))
    (g : s.banks.act.geometry ≠ old.geometry) :
    s.switchRing old = s.releaseRingTwins.trimRing s.banks.act.preRollDepth := by
  unfold State.switchRing
  dsimp only
  rw [if_neg h, if_pos g, State.trimRing_ite]

theorem State.switchRing_same (g : s.banks.act.geometry = old.geometry) :
    s.switchRing old = s.trimRing s.banks.act.preRollDepth := by
  have h : ¬ (s.banks.act.wi ≠ old.wi ∨ s.banks.act.hi ≠ old.hi) := by
    obtain ⟨wi, hi⟩ := Bank.size_of_geometry g
    exact not_or.mpr ⟨not_not_intro wi, not_not_intro hi⟩
  unfold State.switchRing
  dsimp only
  rw [if_neg h, if_neg (not_not_intro g), State.trimRing_ite]

end

/-- What an accepted switch makes of the store and the ring, given the old and the new bank (R138). -/
structure State.RingSwitched (old new : Bank) (s : State) (store : Store) (ring : List RecNo) : Prop where
  pq : store.pq = s.store.pq
  xq : store.xq = s.store.xq
  flushed : new.wi ≠ old.wi ∨ new.hi ≠ old.hi → ring = [] ∧ ∀ p ∈ s.clips.ring, (store.frame p).state = .free
  trimmed : ¬ (new.wi ≠ old.wi ∨ new.hi ≠ old.hi) →
    ring = s.clips.ring.drop (s.clips.ring.length - new.preRollDepth) ∧
      ∀ p ∈ s.clips.ring.take (s.clips.ring.length - new.preRollDepth), (store.frame p).state = .free
  untwinned : ¬ (new.wi ≠ old.wi ∨ new.hi ≠ old.hi) → new.geometry ≠ old.geometry →
    (∀ p ∈ s.clips.ring, ∀ q, (s.store.frame p).twin = some q → q ∉ s.clips.ring) →
    ∀ p ∈ s.clips.ring, ∀ q, (s.store.frame p).twin = some q → (store.frame q).state = .free
  kept : new.geometry = old.geometry → s.clips.ring.length ≤ new.preRollDepth → store = s.store

/-- The three ways a switch deals with the ring; the rest of the state stays as it is. -/
theorem State.switchRing_switched (old : Bank) (s : State) : ∃ store ring,
    s.switchRing old = { s with store := store, clips := { s.clips with ring := ring } } ∧
      s.RingSwitched old s.banks.act store ring := by
  by_cases size : s.banks.act.wi ≠ old.wi ∨ s.banks.act.hi ≠ old.hi
  · obtain ⟨pq, xq, -, -⟩ := Store.releasePairs_queues s.clips.ring s.store
    refine ⟨_, _, State.switchRing_resized size, pq, xq, fun _ => ⟨rfl, fun p hp => Store.releasePairs_free _ hp⟩,
      fun h => absurd size h, fun h => absurd size h, fun g => ?_⟩
    obtain ⟨wi, hi⟩ := Bank.size_of_geometry g
    exact absurd size (not_or.mpr ⟨not_not_intro wi, not_not_intro hi⟩)
  · by_cases g : s.banks.act.geometry = old.geometry
    · obtain ⟨pq, xq, -, -⟩ := Store.releasePairs_queues
        (s.clips.ring.take (s.clips.ring.length - s.banks.act.preRollDepth)) s.store
      refine ⟨_, _, State.switchRing_same g, pq, xq, fun h => absurd h size,
        fun _ => ⟨rfl, fun p hp => Store.releasePairs_free _ hp⟩, fun _ h => absurd g h, fun _ short => ?_⟩
      rw [Nat.sub_eq_zero_of_le short]
      rfl
    · obtain ⟨tpq, txq⟩ := Store.releaseTwins_queues s.clips.ring s.store
      obtain ⟨pq, xq, -, -⟩ := Store.releasePairs_queues
        (s.clips.ring.take (s.clips.ring.length - s.banks.act.preRollDepth)) (s.store.releaseTwins s.clips.ring)
      exact ⟨_, _, State.switchRing_reframed size g, pq.trans tpq, xq.trans txq, fun h => absurd h size,
        fun _ => ⟨rfl, fun p hp => Store.releasePairs_free _ hp⟩,
        fun _ _ apart p hp q hq => Store.releasePairs_stays_free _ (Store.releaseTwins_twin_free apart hp hq),
        fun h => absurd h g⟩

/-! ### The split-pending mark at a switch (R82, R139) -/

/-- The clip limit of an open clip changes at a switch (R139). -/
def State.LimitChanges (old new : Bank) (s : State) : Prop :=
  s.clips.recordState = .recording ∧ new.clipLimit ≠ old.clipLimit

theorem State.switchSplit_unchanged {old : Bank} {s : State}
    (h : s.clips.openClip = none ∨ ¬ s.LimitChanges old s.banks.act) : s.switchSplit old = s := by
  unfold State.switchSplit
  split
  · rename_i c hc
    exact if_neg (h.resolve_left (by rw [hc]; exact Option.some_ne_none c))
  · rfl

theorem State.switchSplit_changed {old : Bank} {c : ClipRecord} {s : State} (hc : s.clips.openClip = some c)
    (h : s.LimitChanges old s.banks.act) : s.switchSplit old =
      { s with clips := s.clips.setSplit (splitDue s.banks.act.clipLimit c.joined) } := by
  unfold State.switchSplit
  rw [hc]
  exact if_pos h

/-- What an accepted switch makes of the two split marks: setting or clearing the first clears the second with it. -/
structure State.SplitSwitched (old new : Bank) (s : State) (pending reported : Bool) : Prop where
  changed : ∀ c, s.clips.openClip = some c → s.LimitChanges old new →
    pending = splitDue new.clipLimit c.joined ∧ reported = (s.clips.deferralReported && pending)
  unchanged : s.clips.openClip = none ∨ ¬ s.LimitChanges old new →
    pending = s.clips.splitPending ∧ reported = s.clips.deferralReported

theorem State.switchSplit_switched (old : Bank) (s : State) : ∃ pending reported,
    s.switchSplit old = { s with clips := { s.clips with splitPending := pending, deferralReported := reported } } ∧
      s.SplitSwitched old s.banks.act pending reported := by
  by_cases h : s.clips.openClip = none ∨ ¬ s.LimitChanges old s.banks.act
  · exact ⟨_, _, State.switchSplit_unchanged h, fun c hc changes => h.elim (fun none => by rw [none] at hc; cases hc)
      (absurd changes), fun _ => ⟨rfl, rfl⟩⟩
  · obtain ⟨isOpen, changes⟩ := not_or.mp h
    obtain ⟨c, hc⟩ := Option.ne_none_iff_exists'.mp isOpen
    refine ⟨_, _, State.switchSplit_changed hc (not_not.mp changes), fun d hd _ => ?_, fun k => absurd k h⟩
    rw [Option.some.inj (hd.symm.trans hc)]
    exact ⟨rfl, rfl⟩

/-! ### The low mark at a switch (R57, R140) -/

theorem belowMark_iff {mark free : Nat} : belowMark mark free = true ↔ free < mark := by
  unfold belowMark
  rw [Bool.and_eq_true, decide_eq_true_eq, decide_eq_true_eq]
  omega

theorem belowMark_newly_iff {new old free : Nat} :
    (belowMark new free && !belowMark old free) = true ↔ free < new ∧ old ≤ free := by
  rw [Bool.and_eq_true, Bool.not_eq_true', belowMark_iff, ← Bool.not_eq_true, belowMark_iff, Nat.not_lt]

section
variable {old : Bank} {s : State}

theorem State.switchLowMark_low (h : s.store.freePages < s.banks.act.lowMark) (k : old.lowMark ≤ s.store.freePages) :
    s.switchLowMark old = s.setFlag .storeLow := if_pos (belowMark_newly_iff.mpr ⟨h, k⟩)

theorem State.switchLowMark_other (h : s.banks.act.lowMark ≤ s.store.freePages ∨ s.store.freePages < old.lowMark) :
    s.switchLowMark old = s := if_neg fun newly => by
  have := belowMark_newly_iff.mp newly
  omega

end

theorem State.switchLowMark_same (old : Bank) (s : State) : s.SameBlocks (s.switchLowMark old) := by
  unfold State.switchLowMark
  split
  · exact State.setFlag_same _ _
  · exact .refl s

/-! ### The directive (R136, R137) -/

theorem exec_switchBank (tag : Byte) (k : Word) (s : State) :
    exec (.switchBank tag k) s = .next (s.takeSwitch tag k) := rfl

/-- A switch within every condition of R136 is not refused. -/
theorem switchRefusal_none {k : Word} {s : State} (hk : k.toNat ≤ 16) (valid : s.banks.standby.valid = true)
    (idle : s.render.stepsLeft = 0)
    (locked : s.clips.recordState = .recording → s.banks.standby.geometry = s.banks.act.geometry) :
    switchRefusal s k = none := by
  have still : ¬ s.render.ramping = true := by simp [Renderer.ramping, idle]
  unfold switchRefusal
  rw [if_neg (Nat.not_lt.mpr hk), valid, if_neg (by decide), if_neg still, if_neg fun h => h.2 (locked h.1)]

theorem State.takeSwitch_accepted (tag : Byte) {k : Word} {s : State} (h : switchRefusal s k = none) :
    s.takeSwitch tag k = (s.switchBanks k.toNat).respond tag DirCode.switchBank.word
      (if s.banks.act.valid = false ∧ 0 < k.toNat then .doneClamped else .done) 0 := by
  rw [State.takeSwitch, h]
  simp only [Bool.and_eq_true, Bool.not_eq_true', decide_eq_true_eq]

/-- The deferral-reported mark goes with a split-pending mark that the switch clears (R82). -/
theorem State.SplitSwitched.reported_eq {old new : Bank} {s : State} {pending reported : Bool}
    (h : s.SplitSwitched old new pending reported) :
    reported = if s.clips.recordState = .recording ∧ new.clipLimit ≠ old.clipLimit ∧
      s.clips.openClip ≠ none ∧ pending = false then false else s.clips.deferralReported := by
  by_cases untouched : s.clips.openClip = none ∨ ¬ s.LimitChanges old new
  · rw [if_neg fun ⟨recording, limit, isOpen, _⟩ => untouched.elim isOpen fun k => k ⟨recording, limit⟩]
    exact (h.unchanged untouched).2
  · obtain ⟨isOpen, changes⟩ := not_or.mp untouched
    obtain ⟨c, hc⟩ := Option.ne_none_iff_exists'.mp isOpen
    obtain ⟨recording, limit⟩ := not_not.mp changes
    rw [(h.changed c hc ⟨recording, limit⟩).2]
    cases pending with
    | false => rw [if_pos ⟨recording, limit, isOpen, rfl⟩, Bool.and_false]
    | true => rw [if_neg fun k => Bool.noConfusion k.2.2.2, Bool.and_true]

/-- The state of an accepted switch before its low-mark test: the roles exchanged, and a store, a ring and two split
marks. -/
def State.switchedTo (k : Nat) (store : Store) (ring : List RecNo) (pending reported : Bool) (s : State) : State :=
  { s.exchange k with
    store := store
    clips := { s.clips with ring := ring, splitPending := pending, deferralReported := reported } }

theorem State.switchBanks_switched (k : Nat) (s : State) : ∃ store ring pending reported,
    s.switchBanks k = (s.switchedTo k store ring pending reported).switchLowMark s.banks.act ∧
    s.RingSwitched s.banks.act s.banks.standby store ring ∧
    s.SplitSwitched s.banks.act s.banks.standby pending reported := by
  obtain ⟨store, ring, ringEq, switched⟩ := (s.exchange k).switchRing_switched s.banks.act
  obtain ⟨pending, reported, splitEq, split⟩ :=
    ((s.exchange k).switchRing s.banks.act).switchSplit_switched s.banks.act
  rw [ringEq] at splitEq split
  refine ⟨store, ring, pending, reported, ?_, ⟨switched.pq, switched.xq, switched.flushed, switched.trimmed,
    switched.untwinned, switched.kept⟩, split.changed, split.unchanged⟩
  rw [State.switchBanks_eq, ringEq, splitEq]
  rfl

/-- Settles O37: the state before the low-mark test says what becomes of the ring and the marks; the test then sets STORE
LOW or leaves that state as it is. -/
theorem switchBankExchangesTheRoles : Obligations.SwitchBankExchangesTheRoles := by
  rintro tag k old new n resized reframed s hk rfl rfl valid idle locked rfl hresized hreframed
  obtain ⟨store, ring, pending, reported, eq, switched, split⟩ := s.switchBanks_switched k.toNat
  have accepted := State.takeSwitch_accepted tag (switchRefusal_none hk valid idle locked)
  have same := State.switchLowMark_same s.banks.act (s.switchedTo k.toNat store ring pending reported)
  have low := State.switchLowMark_low (old := s.banks.act) (s := s.switchedTo k.toNat store ring pending reported)
  have other := State.switchLowMark_other (old := s.banks.act) (s := s.switchedTo k.toNat store ring pending reported)
  rw [← eq] at same low other
  refine ⟨_, s.switchBanks k.toNat, exec_switchBank tag k s, accepted ▸ State.respond_offered _ _ _ _ _, same.banks,
    congrArg Banks.act same.banks, (congrArg Banks.standby same.banks).trans (State.exchange_standby k.toNat s), same.render, ?_⟩
  rw [same.store, same.clips, hresized, hreframed]
  refine ⟨switched.flushed, switched.trimmed, switched.untwinned, fun g => switched.kept (not_not.mp g), ?_,
    split.reported_eq, fun below above => low below above ▸ State.setFlag_isSet _ _,
    fun h => other h ▸ ⟨rfl, rfl⟩, rfl, rfl, rfl, rfl, rfl, switched.pq, switched.xq, same.ingress, same.time, same.queue,
    same.pLink, same.xLink, same.pace, same.lastProxy, same.pending⟩
  split
  next c hc =>
    split_ifs with changes
    · exact (split.changed c hc changes).1
    · exact (split.unchanged (.inr changes)).1
  next closed => exact (split.unchanged (.inl closed)).1

end Sys2Proof.Machine
end

section
/-! PROOFS. A report on the P-link (R118, R119, R122, R163 to R165): the head report is taken up with its marker filled, and
leaves the queue with its flags marked shown. -/

namespace Sys2Proof.Machine

open Sys2Proof

/-! ### The start of a report (R118, R119) -/

/-- A P-link that is free and released is idle when its batch is done and no frame may start (R118). -/
theorem State.idleP_iff {s : State} (free : s.pLink.act = .free) (released : s.pLink.resetLine = false) :
    s.idleP = true ↔ s.batch = 0 ∧ (s.pLink.readyLine = false ∨ s.store.pq = []) := by
  simp only [State.idleP, free, released, Bool.and_eq_true, Bool.not_eq_true', Bool.and_eq_false_iff, beq_iff_eq,
    Bool.not_eq_false', List.isEmpty_iff, true_and]

theorem State.reportReady_iff {s : State} : s.reportReady = true ↔
    s.pLink.act = .free ∧ s.pLink.resetLine = false ∧ s.dir.reports ≠ [] ∧
      (s.batch ≠ 0 ∨ s.pLink.readyLine = false ∨ s.store.pq = []) := by
  simp only [State.reportReady, Bool.and_eq_true, Bool.or_eq_true, Bool.not_eq_true', beq_iff_eq, bne_iff_ne, and_assoc,
    ← Bool.not_eq_true, List.isEmpty_iff]
  refine and_congr_right fun free => and_congr_right fun released => and_congr_right fun _ => ?_
  rw [State.idleP_iff free (Bool.not_eq_true _ ▸ released), Bool.not_eq_true]
  by_cases h : s.batch = 0 <;> simp [h]

/-- All that the start of a report does (R118, R119). -/
theorem State.startReport_ready {s : State} {r : Report} {rs : List Report} (queued : s.dir.reports = r :: rs)
    (ready : s.reportReady = true) : s.startReport = { s with
      dir := { s.dir with reports := r.filled s.flags.raised :: rs }
      flags := s.flags.atStart r
      batch := if s.batch = 0 then rs.length + 1 else s.batch
      pLink := { s.pLink with act := .report false } } := by
  rw [State.startReport, ready, queued]; rfl

theorem State.startReport_unready {s : State} (h : ¬ s.reportReady = true) : s.startReport = s := by
  rw [State.startReport, Bool.eq_false_iff.mpr h]

theorem Report.filled_marker {r : Report} (h : r.isMarker = true) (raised : FlagSet) :
    r.filled raised = .marker (some ⟨raised, 0⟩) := by
  cases r with
  | marker => rfl
  | _ => exact absurd h nofun

theorem Report.filled_plain {r : Report} (h : r.isMarker = false) (raised : FlagSet) : r.filled raised = r := by
  cases r with
  | marker => exact absurd h nofun
  | _ => rfl

theorem FlagUnit.atStart_marker {r : Report} (h : r.isMarker = true) (u : FlagUnit) :
    u.atStart r = { u with markerClass := .routine, renotice := false } := if_pos h

theorem FlagUnit.atStart_plain {r : Report} (h : r.isMarker = false) (u : FlagUnit) : u.atStart r = u := by
  rw [FlagUnit.atStart, h]; rfl

/-- Settles O54: the report taken up differs from the one queued where it is a marker, and so does the Flag Unit. -/
theorem reportStartFillsAMarker : Obligations.ReportStartFillsAMarker := by
  refine ⟨fun r rs s free released queued may => ⟨s.startReport, rfl, ?_⟩, fun s h => ?_⟩
  · have ready : s.reportReady = true :=
      State.reportReady_iff.mpr ⟨free, released, by rw [queued]; exact List.cons_ne_nil r rs, may⟩
    rw [State.startReport_ready queued ready]
    refine ⟨rfl, rfl, rfl, fun marker => ⟨?_, FlagUnit.atStart_marker marker s.flags⟩,
      fun plain => ⟨?_, FlagUnit.atStart_plain plain s.flags⟩, rfl, rfl, rfl, rfl⟩
    · rw [Report.filled_marker marker]
    · rw [Report.filled_plain plain, ← queued]
  · refine congrArg Host.Outcome.next (State.startReport_unready fun ready => ?_)
    obtain ⟨free, released, queued, may⟩ := State.reportReady_iff.mp ready
    rcases h with h | h | h | ⟨done, line, frames⟩
    · exact h free
    · rw [h] at released; exact absurd released nofun
    · exact queued h
    · rcases may with h | h | h
      · exact h done
      · rw [line] at h; exact absurd h nofun
      · exact frames h

/-! ### A marker placed (R154, R163) -/

theorem State.placeMarker_flags (s : State) : s.placeMarker.flags = s.flags := by
  unfold State.placeMarker
  split
  · split <;> rfl
  · rfl

/-- Where there is room and no report is in flight, an urgent marker goes to the head and a routine one to the tail. -/
theorem State.placeMarker_reports {s : State} (room : s.dir.reports.length < 32) (free : s.pLink.act = .free) :
    s.placeMarker.dir.reports = if s.flags.markerClass = .urgent then .marker none :: s.dir.reports
      else s.dir.reports ++ [.marker none] := by
  have head : s.atHead (.marker none) s.dir.reports = .marker none :: s.dir.reports := by
    simp [State.atHead, OutLink.sendingReport, free]
  rw [State.placeMarker, if_pos (show s.dir.reports.length < Config.reportQueueDepth from room)]
  cases s.flags.markerClass with
  | routine => rfl
  | urgent => exact head

/-! ### What the Flag Unit is told of a report sent (R164, R165) -/

theorem State.renotice_unmarked {s : State} (h : s.flags.renotice = false) : s.renotice = s := by
  rw [State.renotice, h]; rfl

theorem State.renotice_marked {s : State} (h : s.flags.renotice = true) :
    s.renotice = ({ s with flags := { s.flags with renotice := false } } : State).placeMarker := if_pos h

theorem State.renotice_flags (s : State) : s.renotice.flags = { s.flags with renotice := false } := by
  cases h : s.flags.renotice with
  | false => rw [State.renotice_unmarked h, ← h]
  | true => rw [State.renotice_marked h, State.placeMarker_flags]

/-- The shown marks after a report has been sent: with those it listed that no setting event has met since (R165). -/
def Report.shownBy (shown : FlagSet) (r : Report) : FlagSet :=
  match r.content with
  | some c => shown ||| (c.listed &&& ~~~c.later)
  | none => shown

/-- The shown marks of a report sent, before the renotice mark is read. -/
def State.listedShown (r : Report) (s : State) : State :=
  { s with flags := { s.flags with shown := r.shownBy s.flags.shown } }

theorem State.reportShown_eq (r : Report) (s : State) :
    s.reportShown r = if r.isMarker then (s.listedShown r).renotice else s.listedShown r := by
  unfold State.reportShown State.listedShown Report.shownBy
  cases r.content <;> rfl

theorem State.reportShown_flags (r : Report) (s : State) : (s.reportShown r).flags = { s.flags with
    shown := r.shownBy s.flags.shown
    renotice := if r.isMarker then false else s.flags.renotice } := by
  rw [State.reportShown_eq]
  split
  · exact State.renotice_flags _
  · rfl

theorem State.reportShown_dir {r : Report} {s : State} (h : r.isMarker = false ∨ s.flags.renotice = false) :
    (s.reportShown r).dir = s.dir := by
  rw [State.reportShown_eq]
  split
  · rename_i marker
    have unmarked : s.flags.renotice = false := h.resolve_left fun plain => by rw [plain] at marker; exact nomatch marker
    rw [State.renotice_unmarked (s := s.listedShown r) unmarked]
    rfl
  · rfl

/-- After a NOTICE, the renotice mark places a marker (R164). -/
theorem State.reportShown_renotice {r : Report} {s : State} (marker : r.isMarker = true)
    (marked : s.flags.renotice = true) (room : s.dir.reports.length < 32) (free : s.pLink.act = .free) :
    (s.reportShown r).dir.reports = if s.flags.markerClass = .urgent then .marker none :: s.dir.reports
      else s.dir.reports ++ [.marker none] := by
  rw [State.reportShown_eq, if_pos marker, State.renotice_marked (s := s.listedShown r) marked]
  exact State.placeMarker_reports room free

/-! ### A report sent (R118, R119, R122) -/

/-- The report in flight has left: the queue holds the others, and the link is free. -/
def State.reportLeft (r : Report) (rs : List Report) (s : State) : State :=
  { s with
    dir := { s.dir with reports := rs }
    pLink := { s.pLink with act := .free, sent := s.pLink.sent ++ [r.packet] } }

theorem State.finishReport_report {s : State} {across : Bool} {r : Report} {rs : List Report}
    (sending : s.pLink.act = .report across) (queued : s.dir.reports = r :: rs) : s.finishReport =
      { (s.reportLeft r rs).reportShown r with
        batch := batchAfter across s.batch ((s.reportLeft r rs).reportShown r).dir.reports.length } := by
  rw [State.finishReport, sending, queued]; rfl

theorem State.finishReport_none {s : State} (h : (∀ b, s.pLink.act ≠ .report b) ∨ s.dir.reports = []) :
    s.finishReport = s := by
  unfold State.finishReport
  split
  · rename_i sending queued
    rcases h with h | h
    · exact absurd sending (h _)
    · rw [h] at queued; exact nomatch queued
  · rfl

/-- Settles O55: the report leaves, the Flag Unit is told what it listed, and the batch goes on from the queue that
leaves. -/
theorem reportSentMarksFlagsShown : Obligations.ReportSentMarksFlagsShown := by
  refine ⟨fun across r rs s sending queued => ⟨s.finishReport, rfl, ?_⟩,
    fun s h => congrArg Host.Outcome.next (State.finishReport_none h)⟩
  have same := State.reportShown_same r (s.reportLeft r rs)
  rw [State.finishReport_report sending queued]
  simp only [State.reportShown_flags]
  refine ⟨same.pLink, ?_, rfl, fun h => ⟨State.reportShown_dir h, ?_, ?_⟩, fun marker marked room => ⟨if_pos marker, ?_⟩,
    same.store, same.clips, same.xLink, same.pace⟩
  · cases r with
    | marker content => cases content <;> rfl
    | _ => rfl
  · rw [State.reportShown_dir (s := s.reportLeft r rs) h]
    simp only [State.reportLeft, batchAfter, List.length_eq_zero_iff]
  · rcases h with plain | unmarked
    · rw [plain]; rfl
    · exact (ite_eq_left_iff.mpr fun _ => unmarked).trans unmarked.symm
  · exact State.reportShown_renotice (s := s.reportLeft r rs) marker marked room rfl

end Sys2Proof.Machine
end

section
/-! PROOFS. The lines of an idle link (R109 to R112, R118, R122): READY changes, FILL packets and the end of a FRAME
ABORT. -/

namespace Sys2Proof.Machine

open Sys2Proof

/-! ### A FILL packet (R109) -/

theorem exec_sendFill_sends {l : LinkId} {s : State} (h : s.nothingToSend l = true) :
    exec (.sendFill l) s = .next (s.emit l [fillPacket]) := congrArg Host.Outcome.next (if_pos h)

theorem exec_sendFill_none {l : LinkId} {s : State} (h : ¬ s.nothingToSend l = true) : exec (.sendFill l) s = .next s :=
  congrArg Host.Outcome.next (if_neg h)

theorem State.principalReady_isNone {s : State} (free : s.pLink.act = .free) (released : s.pLink.resetLine = false) :
    s.principalReady.isNone = true ↔ s.pLink.readyLine = false ∨ s.batch ≠ 0 ∨ s.store.pq = [] := by
  constructor
  · intro stays
    by_contra! h
    obtain ⟨line, done, frames⟩ := h
    obtain ⟨i, rest, queued⟩ := List.exists_cons_of_ne_nil frames
    have ready : s.pLink.state = .ready := OutLink.state_ready.mpr ⟨free, Bool.eq_true_of_not_eq_false line, released⟩
    rw [State.principalReady_some ready done queued] at stays
    exact nomatch stays
  · intro h
    rw [State.principalReady_none (h.imp_left fun line ready => ?_)]
    · rfl
    · rw [(OutLink.state_ready.mp ready).2.1] at line
      exact nomatch line

theorem State.proxyReady_isNone {s : State} (free : s.xLink.act = .free) (released : s.xLink.resetLine = false) :
    s.proxyReady.isNone = true ↔ s.xLink.readyLine = false ∨ s.pace < s.banks.paceInterval ∨ s.store.xq = [] := by
  constructor
  · intro stays
    by_contra! h
    obtain ⟨line, pace, frames⟩ := h
    obtain ⟨i, rest, queued⟩ := List.exists_cons_of_ne_nil frames
    have ready : s.xLink.state = .ready := OutLink.state_ready.mpr ⟨free, Bool.eq_true_of_not_eq_false line, released⟩
    rw [State.proxyReady_some ready pace queued] at stays
    exact nomatch stays
  · intro h
    rw [State.proxyReady_none (h.imp (fun line ready => ?_) (.imp_left Nat.not_le.mpr))]
    · rfl
    · rw [(OutLink.state_ready.mp ready).2.1] at line
      exact nomatch line

theorem State.nothingToSend_free {l : LinkId} {s : State} (h : s.nothingToSend l = true) :
    (s.link l).act = .free ∧ (s.link l).resetLine = false := by
  simp only [State.nothingToSend, Bool.and_eq_true, beq_iff_eq, Bool.not_eq_true'] at h
  exact h.1

/-- A P-link that is free and released sends a FILL packet when no report waits and no frame may start. -/
theorem State.nothingToSend_p {s : State} (free : s.pLink.act = .free) (released : s.pLink.resetLine = false) :
    s.nothingToSend .p = true ↔
      s.dir.reports = [] ∧ (s.pLink.readyLine = false ∨ s.batch ≠ 0 ∨ s.store.pq = []) := by
  simp only [State.nothingToSend, State.link, free, released, Bool.and_eq_true, Bool.not_eq_true', beq_self_eq_true,
    Bool.not_false, true_and, State.principalReady_isNone free released, ← Bool.not_eq_true s.reportReady,
    State.reportReady_iff]
  tauto

/-- An X-link that is free and released sends a FILL packet when no frame may start. -/
theorem State.nothingToSend_x {s : State} (free : s.xLink.act = .free) (released : s.xLink.resetLine = false) :
    s.nothingToSend .x = true ↔ s.xLink.readyLine = false ∨ s.pace < s.banks.paceInterval ∨ s.store.xq = [] := by
  simp only [State.nothingToSend, State.link, free, released, Bool.and_eq_true, beq_self_eq_true, Bool.not_false, true_and,
    State.proxyReady_isNone free released]

theorem Banks.lt_paceInterval {b : Banks} {n : Nat} :
    n < b.paceInterval ↔ b.act.valid = true ∧ n < b.act.record.nat 6 := by
  rw [← Nat.not_le, Banks.paceInterval_le, Classical.not_imp, Nat.not_le]

/-- A link that is free, released and NOT READY with no report queued has nothing to send. -/
theorem State.nothingToSend_notReady {l : LinkId} {s : State} (free : (s.link l).act = .free)
    (released : (s.link l).resetLine = false) (line : (s.link l).readyLine = false) (empty : s.dir.reports = []) :
    s.nothingToSend l = true := by
  cases l with
  | p => exact (State.nothingToSend_p free released).mpr ⟨empty, .inl line⟩
  | x => exact (State.nothingToSend_x free released).mpr (.inl line)

/-! ### A FRAME ABORT sent (R118, R122) -/

theorem State.abortSent_aborting {l : LinkId} {p : Packet} {s : State} (h : (s.link l).act = .aborting p) :
    s.abortSent l = (s.emit l [p]).freeLink l := by
  rw [State.abortSent, h]

theorem State.abortSent_none {l : LinkId} {s : State} (h : ∀ p, (s.link l).act ≠ .aborting p) : s.abortSent l = s := by
  unfold State.abortSent
  split
  · rename_i aborting
    exact absurd aborting (h _)
  · rfl

/-- A link that has sent packets and become free (R118). -/
theorem State.emit_freeLink_link (l : LinkId) (ps : List Packet) (s : State) : ((s.emit l ps).freeLink l).link l =
    { s.link l with act := .free, sent := (s.link l).sent ++ ps } := by
  rw [State.freeLink_link, State.emit, State.setLink_link]

theorem State.emit_freeLink_link_ne {l m : LinkId} (h : m ≠ l) (ps : List Packet) (s : State) :
    ((s.emit l ps).freeLink l).link m = s.link m := by
  rw [State.freeLink_link_ne h, State.emit, State.setLink_link_ne h]

theorem State.freeLink_batch (l : LinkId) (s : State) :
    (s.freeLink l).batch = if l = .p then s.dir.reports.length else s.batch := by
  rw [State.freeLink_eq]

/-! ### The statement -/

theorem OutLink.state_free_ready {o : OutLink} (free : o.act = .free) :
    ({ o with readyLine := true } : OutLink).state = .ready ↔ o.resetLine = false := by
  rw [OutLink.state_ready]
  exact ⟨fun h => h.2.2, fun h => ⟨free, rfl, h⟩⟩

theorem OutLink.state_free_notReady {o : OutLink} (free : o.act = .free) :
    ({ o with readyLine := false } : OutLink).state = .notReady := by
  rw [OutLink.state, free]; rfl

/-- Settles O49: the READY line is taken as it is, a FILL packet is sent exactly when there is nothing to send, and a FRAME
ABORT sent frees its link. -/
theorem linkLinesFillAndAbort : Obligations.LinkLinesFillAndAbort := by
  refine ⟨fun l level s => rfl, fun s o free => ⟨?_, ?_⟩, fun l s free released line empty => ?_,
    fun s free released => ⟨fun empty frames => ?_, fun h => ?_⟩,
    fun s free released => ⟨fun h => ?_, fun line frames pace => ?_⟩, fun l s h => ?_,
    fun l p s aborting => ⟨s.abortSent l, rfl, ?_⟩,
    fun l s h => congrArg Host.Outcome.next (State.abortSent_none h)⟩
  · rintro rfl
    exact OutLink.state_free_ready free
  · rintro rfl
    exact OutLink.state_free_notReady free
  · exact exec_sendFill_sends (State.nothingToSend_notReady free released line empty)
  · exact exec_sendFill_sends ((State.nothingToSend_p free released).mpr ⟨empty, frames.imp_right .inr⟩)
  · refine exec_sendFill_none fun nothing => ?_
    obtain ⟨empty, noFrame⟩ := (State.nothingToSend_p free released).mp nothing
    rcases h with waiting | ⟨line, done, frames⟩
    · exact waiting empty
    · rcases noFrame with h | h | h
      · rw [line] at h; exact nomatch h
      · exact h done
      · exact frames h
  · refine exec_sendFill_sends ((State.nothingToSend_x free released).mpr ?_)
    rw [Banks.lt_paceInterval]
    exact h.imp_right Or.symm
  · refine exec_sendFill_none fun nothing => ?_
    rcases (State.nothingToSend_x free released).mp nothing with h | h | h
    · rw [line] at h; exact nomatch h
    · exact Nat.not_le.mpr h (Banks.paceInterval_le.mpr pace)
    · exact frames h
  · refine exec_sendFill_none fun nothing => ?_
    obtain ⟨free, released⟩ := State.nothingToSend_free nothing
    rcases h with h | h
    · rw [h] at released; exact nomatch released
    · exact h free
  · rw [State.abortSent_aborting aborting]
    refine ⟨State.emit_freeLink_link l [p] s, ?_, by simp, by simp, by simp, by simp,
      fun m hm => State.emit_freeLink_link_ne hm [p] s⟩
    rw [State.freeLink_batch, State.emit_dir, State.emit_batch]

end Sys2Proof.Machine
end

section
/-! PROOFS. The table banks (R125 to R127, R135, R136): the law of the active bank, COPY BANK, and the refusals of
SWITCH BANK and LOAD SEGMENT in their order. -/

namespace Sys2Proof.Machine

open Sys2Proof

/-- Settles O8: the law of the active bank is one of the laws that every step keeps. -/
theorem everyStepKeepsTheActiveBankWhole : Obligations.EveryStepKeepsTheActiveBankWhole :=
  fun _ _ law h => (step_keeps h).banks law

/-! ### Banks and the ramp -/

theorem TableId.mem_all (i : TableId) : i ∈ TableId.all := by cases i <;> decide

theorem Bank.valid_iff {b : Bank} : b.valid = true ↔ ∀ i, (b.table i).state = .valid := by
  unfold Bank.valid
  rw [List.all_eq_true]
  exact ⟨fun h i => beq_iff_eq.mp (h i i.mem_all), fun h i _ => beq_iff_eq.mpr (h i)⟩

theorem Renderer.ramping_iff {r : Renderer} : r.ramping = true ↔ 0 < r.stepsLeft := decide_eq_true_iff

theorem Renderer.not_ramping_iff {r : Renderer} : ¬ r.ramping = true ↔ r.stepsLeft = 0 := by
  rw [Renderer.ramping_iff, Nat.pos_iff_ne_zero, not_not]

/-- The active bank written over the standby one leaves both banks equal to it (R135). -/
theorem Banks.setStandby_act_eq (b : Banks) :
    b.setStandby b.act = { a := b.act, b := b.act, active := b.active } := by
  obtain ⟨bankA, bankB, active⟩ := b
  cases active <;> rfl

/-! ### COPY BANK (R135) -/

/-- Settles O35: the ramp decides between the refusal and the copy. -/
theorem copyBankCopiesTheActiveBank : Obligations.CopyBankCopiesTheActiveBank := by
  intro tag s
  refine ⟨s.takeCopy tag, rfl, fun running => ?_, fun idle => ?_⟩
  · rw [State.takeCopy, if_pos (Renderer.ramping_iff.mpr running)]
    exact State.respond_offered _ _ _ _ _
  · rw [State.takeCopy, if_neg (Renderer.not_ramping_iff.mpr idle), Banks.setStandby_act_eq]
    exact State.respond_offered _ _ _ _ _

/-! ### The refusals of SWITCH BANK (R136) -/

theorem State.takeSwitch_refused (tag : Byte) {k : Word} {o : DirOutcome} {s : State} (h : switchRefusal s k = some o) :
    s.Offered (.reply tag .switchBank o) (s.takeSwitch tag k) := by
  rw [State.takeSwitch, h]
  exact State.respond_offered _ _ _ _ _

section
variable {k : Word} {s : State}

theorem switchRefusal_badValue (h : 16 < k.toNat) : switchRefusal s k = some .refBadValue := if_pos h

theorem switchRefusal_inRange (h : k.toNat ≤ 16) : switchRefusal s k =
    if !s.banks.standby.valid then some .refNotReady
    else if s.render.ramping then some .refBusy
    else if s.clips.recordState = .recording ∧ s.banks.standby.geometry ≠ s.banks.act.geometry then
      some .refGeometryLocked
    else none := if_neg (Nat.not_lt.mpr h)

theorem switchRefusal_notReady (h : k.toNat ≤ 16) {i : TableId} (hi : (s.banks.standby.table i).state ≠ .valid) :
    switchRefusal s k = some .refNotReady := by
  have invalid : s.banks.standby.valid = false := Bool.eq_false_iff.mpr fun valid => hi (Bank.valid_iff.mp valid i)
  rw [switchRefusal_inRange h, invalid]
  rfl

theorem switchRefusal_ready (h : k.toNat ≤ 16) (ready : ∀ i, (s.banks.standby.table i).state = .valid) :
    switchRefusal s k =
      if s.render.ramping then some .refBusy
      else if s.clips.recordState = .recording ∧ s.banks.standby.geometry ≠ s.banks.act.geometry then
        some .refGeometryLocked
      else none := by
  rw [switchRefusal_inRange h, Bank.valid_iff.mpr ready]
  rfl

end

/-- Settles O36: each refusal once the ones before it do not hold. -/
theorem switchBankRefusals : Obligations.SwitchBankRefusals := by
  intro tag k s
  refine ⟨s.takeSwitch tag k, rfl, fun large => State.takeSwitch_refused tag (switchRefusal_badValue large),
    fun inRange => ⟨fun i hi => State.takeSwitch_refused tag (switchRefusal_notReady inRange hi), fun ready => ?_⟩⟩
  have refusal := switchRefusal_ready inRange ready
  refine ⟨fun running => State.takeSwitch_refused tag ?_, fun idle recording locked => State.takeSwitch_refused tag ?_⟩
  · rw [refusal, if_pos (Renderer.ramping_iff.mpr running)]
  · rw [refusal, if_neg (Renderer.not_ramping_iff.mpr idle), if_pos ⟨recording, locked⟩]

/-! ### The table and segment that a LOAD SEGMENT names (R127) -/

theorem tableOfId_eq_none {n : Nat} (h : n = 0 ∨ 6 < n) : tableOfId n = none := by
  rcases h with rfl | h
  · rfl
  · obtain ⟨m, rfl⟩ := Nat.exists_eq_add_of_le' h
    rfl

/-- Tables 4 and 5 have four segments, every other table one (chapter 7). -/
theorem segments_length_of_tableOfId {n : Nat} {i : TableId} (h : tableOfId n = some i) :
    i.segments.length = if n = 4 ∨ n = 5 then 4 else 1 := by
  unfold tableOfId at h
  split at h <;> cases h <;> rfl

theorem Table.expects_iff {t : Table} {segment : Nat} :
    t.expects segment = true ↔ segment = 0 ∨ t.state = .incomplete segment := by
  unfold Table.expects
  rw [Bool.or_eq_true, beq_iff_eq, beq_iff_eq]

section
variable {s : State} {param : Word} {payload : List Word} {i : TableId}

theorem judgeSegment_noTable (h : tableOfId (param.toNat / 256) = none) :
    judgeSegment s param payload = .inr .refBadValue := by
  unfold judgeSegment highByte
  rw [h]

theorem judgeSegment_noSegment (h : tableOfId (param.toNat / 256) = some i)
    (k : i.segments.length ≤ param.toNat % 256) : judgeSegment s param payload = .inr .refBadValue := by
  unfold judgeSegment highByte lowByte
  rw [h]
  dsimp only
  rw [List.getElem?_eq_none k]

/-- A segment that its table has is judged by the ramp, the order of the segments, and its length (R127). -/
theorem judgeSegment_named {length : Nat} (h : tableOfId (param.toNat / 256) = some i)
    (k : i.segments[param.toNat % 256]? = some length) : judgeSegment s param payload =
      if i = .tone ∧ s.render.ramping then .inr .refBusy
      else if !(s.banks.standby.table i).expects (param.toNat % 256) then .inr .refBadSegment
      else if payload.length ≠ length then .inr .refBadLength
      else .inl (i, param.toNat % 256) := by
  unfold judgeSegment highByte lowByte
  rw [h]
  dsimp only
  rw [k]

/-- A segment that the ramp does not hold up is judged by the order of the segments and by its length (R127). -/
theorem judgeSegment_free {length : Nat} (h : tableOfId (param.toNat / 256) = some i)
    (k : i.segments[param.toNat % 256]? = some length) (free : i ≠ .tone ∨ s.render.stepsLeft = 0) :
    judgeSegment s param payload =
      if !(s.banks.standby.table i).expects (param.toNat % 256) then .inr .refBadSegment
      else if payload.length ≠ length then .inr .refBadLength
      else .inl (i, param.toNat % 256) := by
  rw [judgeSegment_named h k, if_neg fun ⟨tone, ramping⟩ => free.elim (· tone)
    fun idle => Renderer.not_ramping_iff.mpr idle ramping]

end

theorem State.takeLoad_refused (tag : Byte) {param : Word} {payload : List Word} {o : DirOutcome} {s : State}
    (h : judgeSegment s param payload = .inr o) :
    s.Offered (.reply tag .loadSegment o) (s.takeLoad tag param payload) := by
  rw [State.takeLoad, h]
  exact State.respond_offered _ _ _ _ _

/-- Settles O32: each refusal once the ones before it do not hold. -/
theorem loadSegmentRefusals : Obligations.LoadSegmentRefusals := by
  rintro tag param payload id segment s rfl rfl
  refine ⟨s.takeLoad tag param payload, rfl, fun bad => State.takeLoad_refused tag ?_, fun i hi hseg => ?_⟩
  · cases hi : tableOfId (param.toNat / 256) with
    | none => exact judgeSegment_noTable hi
    | some i =>
      refine judgeSegment_noSegment hi ?_
      rw [segments_length_of_tableOfId hi]
      rcases bad with bad | bad | bad
      · exact nomatch hi.symm.trans (tableOfId_eq_none (.inl bad))
      · exact nomatch hi.symm.trans (tableOfId_eq_none (.inr bad))
      · exact bad
  · rw [← segments_length_of_tableOfId hi] at hseg
    have named : i.segments[param.toNat % 256]? = some (i.segments.getD (param.toNat % 256) 0) := by
      rw [List.getD_eq_getElem _ _ hseg, List.getElem?_eq_getElem hseg]
    refine ⟨fun tone running => State.takeLoad_refused tag ?_, fun free later order => State.takeLoad_refused tag ?_,
      fun free order long => State.takeLoad_refused tag ?_⟩
    · rw [judgeSegment_named hi named, if_pos ⟨tone, Renderer.ramping_iff.mpr running⟩]
    · have unexpected : ¬ (s.banks.standby.table i).expects (param.toNat % 256) = true := fun h =>
        (Table.expects_iff.mp h).elim later order
      rw [judgeSegment_free hi named free, Bool.eq_false_iff.mpr unexpected]
      rfl
    · rw [judgeSegment_free hi named free, Table.expects_iff.mpr order, if_neg (by decide), if_pos long]

end Sys2Proof.Machine
end

section
/-! PROOFS. Validation (R130 to R134): the first fault of each completed table, and the words that a RECORD table is clamped
to. -/

namespace Sys2Proof.Machine

open Sys2Proof

/-! ### INPUT tables (R130) -/

/-- The size of an INPUT table is outside its range (R130). -/
def Bank.BadGeometry (b : Bank) : Prop := b.wi % 2 = 1 ∨ b.wi < 64 ∨ 4096 < b.wi ∨ b.hi < 16 ∨ 2304 < b.hi

/-- The crop of an INPUT table reaches outside the picture (R130). -/
def Bank.BadCrop (b : Bank) : Prop := b.wi < b.x0 + b.wc ∨ b.hi < b.y0 + b.hc

/-- The proxy size of an INPUT table is outside its range, or no scaler reaches it from the crop (R130). -/
def Bank.BadScale (b : Bank) : Prop :=
  b.wo % 2 = 1 ∨ b.wo < 64 ∨ 2048 < b.wo ∨ b.ho % 2 = 1 ∨ b.ho < 36 ∨ 1152 < b.ho ∨
    b.wc < b.wo ∨ 8 * b.wo < b.wc ∨ b.hc < b.ho ∨ 8 * b.ho < b.hc

section
variable {b : Bank}

theorem inputFault_geometry (h : b.BadGeometry) : inputFault b = some .geometry := by
  refine if_pos ?_
  simpa [Bank.BadGeometry, or_assoc] using h

theorem inputFault_sized (h : ¬ b.BadGeometry) : inputFault b =
    if b.x0 + b.wc > b.wi || b.y0 + b.hc > b.hi then some .crop
    else if b.wo % 2 = 1 || b.wo < 64 || b.wo > 2048 || b.ho % 2 = 1 || b.ho < 36 || b.ho > 1152
        || b.wc < b.wo || b.wc > 8 * b.wo || b.hc < b.ho || b.hc > 8 * b.ho then some .scale
    else none := by
  refine if_neg ?_
  simpa [Bank.BadGeometry, or_assoc] using h

theorem inputFault_crop (h : ¬ b.BadGeometry) (k : b.BadCrop) : inputFault b = some .crop := by
  rw [inputFault_sized h]
  refine if_pos ?_
  simpa [Bank.BadCrop] using k

theorem inputFault_cropped (h : ¬ b.BadGeometry) (k : ¬ b.BadCrop) : inputFault b =
    if b.wo % 2 = 1 || b.wo < 64 || b.wo > 2048 || b.ho % 2 = 1 || b.ho < 36 || b.ho > 1152
        || b.wc < b.wo || b.wc > 8 * b.wo || b.hc < b.ho || b.hc > 8 * b.ho then some .scale
    else none := by
  rw [inputFault_sized h]
  refine if_neg ?_
  simpa [Bank.BadCrop] using k

theorem inputFault_scale (h : ¬ b.BadGeometry) (k : ¬ b.BadCrop) (l : b.BadScale) : inputFault b = some .scale := by
  rw [inputFault_cropped h k]
  refine if_pos ?_
  simpa [Bank.BadScale, or_assoc] using l

theorem inputFault_none (h : ¬ b.BadGeometry) (k : ¬ b.BadCrop) (l : ¬ b.BadScale) : inputFault b = none := by
  rw [inputFault_cropped h k]
  refine if_neg ?_
  simpa [Bank.BadScale, or_assoc] using l

/-- The three faults of an INPUT table, in the rule's order (R130). -/
theorem inputFault_iff (b : Bank) :
    (inputFault b = some .geometry ↔ b.BadGeometry) ∧ (inputFault b = some .crop ↔ ¬ b.BadGeometry ∧ b.BadCrop) ∧
    (inputFault b = some .scale ↔ ¬ b.BadGeometry ∧ ¬ b.BadCrop ∧ b.BadScale) ∧
    (inputFault b = none ↔ ¬ b.BadGeometry ∧ ¬ b.BadCrop ∧ ¬ b.BadScale) := by
  by_cases h : b.BadGeometry
  · simp [inputFault_geometry h, h]
  by_cases k : b.BadCrop
  · simp [inputFault_crop h k, h, k]
  by_cases l : b.BadScale
  · simp [inputFault_scale h k l, h, k, l]
  · simp [inputFault_none h k l, h, k, l]

end

/-! ### Kernel, TONE and RECORD tables (R131, R132, R134) -/

theorem phaseSound_iff (t : Table) (p : Nat) : phaseSound (t.phase p) = true ↔
    (∀ k < 6, -512 ≤ t.coeff p k ∧ t.coeff p k ≤ 511) ∧
      t.coeff p 0 + t.coeff p 1 + t.coeff p 2 + t.coeff p 3 + t.coeff p 4 + t.coeff p 5 = 256 := by
  have sum : (t.phase p).sum =
      t.coeff p 0 + t.coeff p 1 + t.coeff p 2 + t.coeff p 3 + t.coeff p 4 + t.coeff p 5 := by
    simp [Table.phase, List.range_succ, add_assoc]
  unfold phaseSound
  rw [Bool.and_eq_true, beq_iff_eq, sum]
  simp [Table.phase]

theorem kernelFault_eq_none_iff {t : Table} :
    kernelFault t = none ↔ ∀ p < 32, phaseSound (t.phase p) = true := by
  simp [kernelFault]

theorem kernelFault_of_ne_none {t : Table} (h : kernelFault t ≠ none) : kernelFault t = some .kernelSum := by
  unfold kernelFault at h ⊢
  split_ifs at h ⊢ with sound
  · exact absurd rfl h
  · rfl

theorem toneFault_eq_none_iff {t : Table} : toneFault t = none ↔ ∀ n < 771, t.nat n ≤ 1023 := by
  simp [toneFault]

theorem toneFault_of_ne_none {t : Table} (h : toneFault t ≠ none) : toneFault t = some .curveRange := by
  unfold toneFault at h ⊢
  split_ifs at h ⊢ with sound
  · exact absurd rfl h
  · rfl

theorem Bank.reel_any_iff {b : Bank} : b.reel.any (· > 41) = true ↔
    41 < b.record.nat 8 ∨ 41 < b.record.nat 9 ∨ 41 < b.record.nat 10 ∨ 41 < b.record.nat 11 := by
  simp [Bank.reel]

/-! ### The clamped RECORD table (R134) -/

/-- A count that a word can hold is read back from it. -/
theorem word_toNat_of_lt {n : Nat} (h : n < 65536) : (word n).toNat = n := Nat.mod_eq_of_lt h

theorem Table.nat_lt (t : Table) (i : Nat) : t.nat i < 65536 := BitVec.isLt _

/-- The twelve words of a clamped table, one by one (R134). -/
theorem clampRecord_words (t : Table) : clampRecord t =
    [word (min (t.nat 0) 120), word (min (t.nat 1 * 65536 + t.nat 2) 1048575 / 65536),
      word (min (t.nat 1 * 65536 + t.nat 2) 1048575), word (min (t.nat 3) 8192), word (t.nat 4),
      word (max 1 (min (t.nat 5) 255)), word (min (t.nat 6) 8), t.words.getD 7 0, t.words.getD 8 0, t.words.getD 9 0,
      t.words.getD 10 0, t.words.getD 11 0] := rfl

/-- The high word and the low word of a quantity of two words give it back (section 10.1). -/
theorem word_high_low {n : Nat} (h : n < 65536 * 65536) : (word (n / 65536)).toNat * 65536 + (word n).toNat = n := by
  rw [word_toNat_of_lt (Nat.div_lt_of_lt_mul h)]
  exact Nat.div_add_mod' n 65536

section
variable {t u : Table} (h : u.words = clampRecord t)
include h

/-- A clamped table's numeric fields (R134). -/
theorem clampRecord_fields : u.nat 0 = min (t.nat 0) 120 ∧
    u.nat 1 * 65536 + u.nat 2 = min (t.nat 1 * 65536 + t.nat 2) 1048575 ∧ u.nat 3 = min (t.nat 3) 8192 ∧
    u.nat 4 = t.nat 4 ∧ u.nat 5 = max 1 (min (t.nat 5) 255) ∧ u.nat 6 = min (t.nat 6) 8 := by
  have entry (i : Nat) : u.nat i = ((clampRecord t).getD i 0).toNat := congrArg (fun ws => (ws.getD i 0).toNat) h
  simp only [entry, clampRecord_words]
  exact ⟨word_toNat_of_lt (by omega), word_high_low (by omega), word_toNat_of_lt (by omega),
    word_toNat_of_lt (t.nat_lt 4), word_toNat_of_lt (by omega), word_toNat_of_lt (by omega)⟩

/-- The words of a clamped table behind the numeric fields are left (R134). -/
theorem clampRecord_rest {n : Nat} (low : 7 ≤ n) (high : n < 12) : u.nat n = t.nat n := by
  unfold Table.nat
  rw [h, clampRecord_words]
  interval_cases n <;> rfl

end

/-! ### The statement -/

/-- Settles O34: table by table, and then the clamped words. -/
theorem validationFollowsTheTables : Obligations.ValidationFollowsTheTables := by
  refine ⟨fun b geometry crop scale hg hc hs => ?_, fun b i kernel c hc => ?_,
    fun b => ⟨toneFault_eq_none_iff, toneFault_of_ne_none⟩, fun b => rfl, fun b => ?_, fun t u limit hu hlimit => ?_⟩
  · rw [hg, hc, hs]
    exact inputFault_iff b
  · have fault : tableFault b i = kernelFault (b.table i) := by rcases kernel with rfl | rfl <;> rfl
    have coeff (p k : Nat) : c p k = (b.table i).coeff p k := hc p k
    rw [fault]
    simp only [coeff]
    exact ⟨kernelFault_eq_none_iff.trans (forall₂_congr fun p _ => phaseSound_iff _ p), kernelFault_of_ne_none⟩
  · show recordFault b = _
    simp only [recordFault, Bank.reel_any_iff]
  · obtain ⟨n0, limits, n3, n4, n5, n6⟩ := clampRecord_fields hu
    exact ⟨by rw [hu]; rfl, n0, limits.trans hlimit.symm, n3, n4, n5, n6, fun n => clampRecord_rest hu⟩

end Sys2Proof.Machine
end

section
/-! PROOFS. An accepted LOAD SEGMENT (R126, R128, R129): what it makes of its table, of the rest of the standby bank, and the
response it brings. -/

namespace Sys2Proof.Machine

open Sys2Proof

/-! ### One table of a bank replaced (R126) -/

section
variable (b : Bank) (t : Table) (i : TableId) (pages : Option (Nat × Nat))

@[simp] theorem Bank.setTable_table_self : (b.setTable t i).table i = t := by cases i <;> rfl

@[simp] theorem Bank.setTable_pages : (b.setTable t i).pages = b.pages := by cases i <;> rfl

@[simp] theorem Bank.pages_table : ({ b with pages := pages } : Bank).table i = b.table i := by cases i <;> rfl

end

theorem Bank.setTable_table_ne (b : Bank) (t : Table) {i j : TableId} (h : j ≠ i) :
    (b.setTable t i).table j = b.table j := by
  revert h
  cases i <;> cases j <;> simp [Bank.setTable, Bank.table]

/-- Two banks agree but for one table, and for the page counts where that table is INPUT (R130). -/
structure Bank.AgreeBut (i : TableId) (b c : Bank) : Prop where
  tables : ∀ j, j ≠ i → c.table j = b.table j
  pages  : i ≠ .input → c.pages = b.pages

theorem Bank.AgreeBut.trans {i : TableId} {a b c : Bank} (h : a.AgreeBut i b) (k : b.AgreeBut i c) : a.AgreeBut i c :=
  ⟨fun j hj => (k.tables j hj).trans (h.tables j hj), fun hi => (k.pages hi).trans (h.pages hi)⟩

theorem Bank.setTable_agreeBut (b : Bank) (t : Table) (i : TableId) : b.AgreeBut i (b.setTable t i) :=
  ⟨fun _ => b.setTable_table_ne t, fun _ => b.setTable_pages t i⟩

/-- A bank whose page counts are written with its INPUT table. -/
theorem Bank.AgreeBut.inputPages {i : TableId} {b c : Bank} (h : b.AgreeBut i c) (pages : Option (Nat × Nat)) :
    b.AgreeBut i (if i = .input then { c with pages := pages } else c) := by
  split_ifs with hi
  · exact ⟨fun j hj => (c.pages_table j pages).trans (h.tables j hj), fun k => absurd hi k⟩
  · exact h

theorem Bank.inputPages_table (c : Bank) (i j : TableId) (pages : Option (Nat × Nat)) :
    (if i = .input then { c with pages := pages } else c : Bank).table j = c.table j := by
  split_ifs
  · exact c.pages_table j pages
  · rfl

/-! ### Validation of a completed table (R129) -/

section
variable {b : Bank} {i : TableId}

/-- A completed table with a fault is INVALID with its reason, and keeps its words; an INPUT table then has no page counts
(R129, R130). -/
theorem validated_faulty {reason : Reason} (h : tableFault b i = some reason) :
    (validated b i).1.table i = ⟨(b.table i).words, .invalid reason⟩ ∧
      (i = .input → (validated b i).1.pages = none) ∧ (validated b i).2 = .refBadTable := by
  unfold validated
  rw [h]
  refine ⟨?_, fun hi => ?_, rfl⟩
  · exact (Bank.inputPages_table _ i i none).trans (b.setTable_table_self _ i)
  · exact congrArg Bank.pages (if_pos hi)

/-- A completed table without a fault is VALID; a RECORD table is clamped, and an INPUT table's page counts are worked out
(R129, R130, R134). -/
theorem validated_sound (h : tableFault b i = none) :
    (validated b i).1.table i = ⟨if i = .record then clampRecord (b.table i) else (b.table i).words, .valid⟩ ∧
      (i = .input → (validated b i).1.pages = some (principalPages (validated b i).1.wi (validated b i).1.hi,
        proxyPages (validated b i).1.wo (validated b i).1.ho)) ∧
      (validated b i).2 =
        if ((validated b i).1.table i).words = (b.table i).words then .done else .doneClamped := by
  have table : (validated b i).1.table i =
      ⟨if i = .record then clampRecord (b.table i) else (b.table i).words, .valid⟩ := by
    unfold validated
    rw [h]
    exact (Bank.inputPages_table _ i i _).trans (b.setTable_table_self _ i)
  refine ⟨table, fun hi => ?_, ?_⟩
  · subst hi
    unfold validated
    rw [h]
    rfl
  · rw [table]
    unfold validated
    rw [h]

theorem validated_agreeBut (b : Bank) (i : TableId) : b.AgreeBut i (validated b i).1 := by
  unfold validated
  split <;> exact (b.setTable_agreeBut _ i).inputPages _

end

/-! ### A segment written (R128) -/

section
variable (b : Bank) {i : TableId} {segment : Nat} (payload : List Word)

theorem loadAccepted_more (h : segment + 1 < i.segments.length) : loadAccepted b i segment payload =
    (b.setTable ((b.table i).append segment payload) i, .done) := if_neg (Nat.ne_of_lt h)

theorem loadAccepted_last (h : segment + 1 = i.segments.length) : loadAccepted b i segment payload =
    validated (b.setTable ((b.table i).append segment payload) i) i := if_pos h

theorem loadAccepted_agreeBut (i : TableId) (segment : Nat) :
    b.AgreeBut i (loadAccepted b i segment payload).1 := by
  unfold loadAccepted
  dsimp only
  split_ifs
  · exact (b.setTable_agreeBut _ i).trans (validated_agreeBut _ i)
  · exact b.setTable_agreeBut _ i

end

/-! ### The directive taken (R127, R128, R147) -/

theorem judgeSegment_accepted {s : State} {param : Word} {payload : List Word} {i : TableId}
    (h : tableOfId (param.toNat / 256) = some i) (k : i.segments[param.toNat % 256]? = some payload.length)
    (free : i ≠ .tone ∨ s.render.stepsLeft = 0)
    (order : param.toNat % 256 = 0 ∨ (s.banks.standby.table i).state = .incomplete (param.toNat % 256)) :
    judgeSegment s param payload = .inl (i, param.toNat % 256) := by
  rw [judgeSegment_free h k free, Table.expects_iff.mpr order, if_neg (by decide), if_neg (not_not_intro rfl)]

section
variable {s : State} {param : Word} {payload : List Word} {i : TableId} {segment : Nat} (tag : Byte)
  (h : judgeSegment s param payload = .inl (i, segment))
include h

/-- An accepted segment writes the standby bank, and touches no other bank (R126, R128). -/
theorem State.takeLoad_banks : (s.takeLoad tag param payload).banks =
    s.banks.setStandby (loadAccepted s.banks.standby i segment payload).1 := by
  rw [State.takeLoad, h]
  dsimp only
  rw [State.respond_banks]
  split_ifs
  · exact State.setFlag_banks _ _
  · rfl

/-- The response to a segment that completes no table with a fault. -/
theorem State.takeLoad_sound (sound : (loadAccepted s.banks.standby i segment payload).2 ≠ .refBadTable) :
    State.Offered { s with banks := s.banks.setStandby (loadAccepted s.banks.standby i segment payload).1 }
      (.reply tag .loadSegment (loadAccepted s.banks.standby i segment payload).2) (s.takeLoad tag param payload) := by
  rw [State.takeLoad, h]
  dsimp only
  rw [if_neg sound]
  exact State.respond_offered _ _ _ _ _

/-- TABLE INVALID is set, and then the response placed, when validation finds a fault (R129, R147). -/
theorem State.takeLoad_faulty (faulty : (loadAccepted s.banks.standby i segment payload).2 = .refBadTable) :
    (s.takeLoad tag param payload).isSet .tableInvalid ∧
      State.Offered (({ s with
        banks := s.banks.setStandby (loadAccepted s.banks.standby i segment payload).1 }).setFlag .tableInvalid)
        (.reply tag .loadSegment .refBadTable) (s.takeLoad tag param payload) := by
  rw [State.takeLoad, h]
  dsimp only
  rw [if_pos faulty, faulty]
  exact ⟨State.placeReport_mono _ _ (State.setFlag_isSet _ _), State.respond_offered _ _ _ _ _⟩

end

/-- Settles O33: a segment that is not the last leaves the table PARTIAL; the last one is followed by validation. -/
theorem loadSegmentWritesTheStandbyTable : Obligations.LoadSegmentWritesTheStandbyTable := by
  rintro tag param payload words i segment loaded s hi rfl length free order hwords hloaded
  have accepted := judgeSegment_accepted hi length free order
  have banks := State.takeLoad_banks tag accepted
  have response := State.takeLoad_sound tag accepted
  have failure := State.takeLoad_faulty tag accepted
  have agree := loadAccepted_agreeBut s.banks.standby payload i (param.toNat % 256)
  have more := loadAccepted_more s.banks.standby payload (i := i) (segment := param.toNat % 256)
  have last := loadAccepted_last s.banks.standby payload (i := i) (segment := param.toNat % 256)
  have append : (s.banks.standby.table i).append (param.toNat % 256) payload =
      ⟨words, .incomplete (param.toNat % 256 + 1)⟩ := by rw [hwords]; rfl
  rw [append, ← hloaded] at more last
  have table : loaded.table i = ⟨words, .incomplete (param.toNat % 256 + 1)⟩ := by
    rw [hloaded, Bank.setTable_table_self]
  refine ⟨_, _, rfl, banks, by rw [banks, Banks.setStandby_act], by rw [banks, Banks.setStandby_standby], agree.tables,
    agree.pages, fun partway => ?_, fun complete => ⟨fun reason fault => ?_, fun sound => ?_⟩⟩
  · rw [more partway] at response ⊢
    exact ⟨table, response nofun⟩
  · obtain ⟨invalid, pages, outcome⟩ := validated_faulty fault
    rw [last complete] at failure ⊢
    rw [table] at invalid
    obtain ⟨isSet, offered⟩ := failure outcome
    exact ⟨invalid, pages, isSet, offered⟩
  · obtain ⟨valid, pages, outcome⟩ := validated_sound sound
    rw [last complete] at response ⊢
    rw [table] at valid outcome
    rw [outcome] at response
    refine ⟨congrArg Table.state valid, fun other => ?_, fun record => ?_, pages, response ?_⟩
    · rw [valid]
      exact if_neg other
    · rw [valid]
      exact if_pos record
    · split_ifs <;> exact nofun

end Sys2Proof.Machine
end

section
/-! PROOFS. Directives and the report queue (R145, R146, R148, R153, R154): the queue bounds that every step keeps, the
judgement of a DIRECTIVE in its order, and the placing of an owed marker. -/

namespace Sys2Proof.Machine

open Sys2Proof

/-- Settles O7: the queue bounds are one of the laws that every step keeps. -/
theorem everyStepKeepsTheQueueBounds : Obligations.EveryStepKeepsTheQueueBounds :=
  fun _ _ law h => (step_keeps h).dir law

/-! ### An owed marker (R154) -/

/-- The part with no marker owed: the state on which an owed marker is placed. -/
def State.unowed (s : State) : State := { s with dir := { s.dir with markerWaiting := false } }

theorem State.unowed_same (s : State) : s.SameBlocks s.unowed := by constructor <;> rfl

theorem exec_owedMarkerPlaced {s : State} (owed : s.dir.markerWaiting = true) (room : s.dir.reports.length < 32) :
    exec .owedMarkerPlaced s = .next s.unowed.placeMarker :=
  congrArg Host.Outcome.next (if_pos (Bool.and_eq_true_iff.mpr ⟨owed, decide_eq_true room⟩))

theorem exec_owedMarkerPlaced_none {s : State} (h : s.dir.markerWaiting = false ∨ 32 ≤ s.dir.reports.length) :
    exec .owedMarkerPlaced s = .next s := by
  refine congrArg Host.Outcome.next (if_neg fun both => ?_)
  obtain ⟨owed, room⟩ := Bool.and_eq_true_iff.mp both
  rcases h with h | h
  · rw [h] at owed
    exact nomatch owed
  · exact Nat.not_lt.mpr h (of_decide_eq_true room)

/-- A report placed at the head, with none in flight, goes before all the others (R153). -/
theorem State.atHead_first {s : State} (r : Report) (rs : List Report) (h : s.pLink.sendingReport = false) :
    s.atHead r rs = r :: rs := by
  unfold State.atHead
  rw [h]

/-- A report placed at the head goes behind the one in flight (R153). -/
theorem State.atHead_second {s : State} (r : Report) {rs : List Report} (h : s.pLink.sendingReport = true)
    (queued : rs ≠ []) : s.atHead r rs = rs.take 1 ++ [r] ++ rs.drop 1 := by
  cases rs with
  | nil => exact absurd rfl queued
  | cons first others =>
    unfold State.atHead
    rw [h]
    rfl

section
variable {s : State} (room : s.dir.reports.length < 32)
include room

/-- A marker of the routine class is placed at the tail (R154). -/
theorem State.placeMarker_routine (h : s.flags.markerClass = .routine) :
    s.placeMarker = s.placed (s.dir.reports ++ [.marker none]) := by
  rw [State.placeMarker, if_pos (show s.dir.reports.length < Config.reportQueueDepth from room), h]

/-- A marker of the urgent class is placed at the head (R154). -/
theorem State.placeMarker_urgent (h : s.flags.markerClass = .urgent) :
    s.placeMarker = s.placed (s.atHead (.marker none) s.dir.reports) := by
  rw [State.placeMarker, if_pos (show s.dir.reports.length < Config.reportQueueDepth from room), h]

/-- Where there is room, placing a marker owes none. -/
theorem State.placeMarker_markerWaiting : s.placeMarker.dir.markerWaiting = s.dir.markerWaiting := by
  cases h : s.flags.markerClass with
  | routine => rw [State.placeMarker_routine room h]; rfl
  | urgent => rw [State.placeMarker_urgent room h]; rfl

end

/-- Settles O47: by the class of the marker, and for an urgent one by whether a report is in flight. -/
theorem owedMarkerIsPlaced : Obligations.OwedMarkerIsPlaced := by
  refine ⟨fun s owed room => ?_, fun s h => exec_owedMarkerPlaced_none h⟩
  have room' : s.unowed.dir.reports.length < 32 := room
  refine ⟨_, exec_owedMarkerPlaced owed room, State.placeMarker_markerWaiting room',
    s.unowed_same.trans (State.placeMarker_same _), State.placeMarker_flags _, fun routine => ?_,
    fun urgent idle => ?_, fun urgent sending queued => ?_⟩
  · rw [State.placeMarker_routine room' routine]
    rfl
  · rw [State.placeMarker_urgent room' urgent]
    exact State.atHead_first _ _ idle
  · rw [State.placeMarker_urgent room' urgent]
    exact State.atHead_second _ sending queued

/-! ### Directive codes (section 10.4) -/

/-- A directive's code names it. -/
theorem dirCode_word (c : DirCode) : dirCode c.word = some c := by cases c <;> decide

/-- The directive codes run from 1 to 17. -/
theorem DirCode.word_range (c : DirCode) : 1 ≤ c.word.toNat ∧ c.word.toNat ≤ 17 := by cases c <;> decide

/-- A code outside 1 to 17 names no directive. -/
theorem dirCode_unknown {w : Word} (h : w.toNat = 0 ∨ 17 < w.toNat) : dirCode w = none := by
  refine List.find?_eq_none.mpr fun c _ hc => ?_
  obtain rfl : c.word = w := of_decide_eq_true hc
  have := c.word_range
  omega

/-- The five directives that wait for a boundary whatever their timing (R146). -/
theorem DirCode.boundaryOnly_iff {c : DirCode} :
    c.boundaryOnly = true ↔ c ∈ [DirCode.switchBank, .cacheOn, .cacheOff, .start, .stop] := by
  cases c <;> decide

/-! ### The judgement of a DIRECTIVE (R145, R146) -/

/-- A DIRECTIVE's length is over 256, not the packet's own, or not what its code fixes (R145, case 4). -/
def DirCode.badLength (c : DirCode) (rest : List Word) : Bool :=
  decide (256 < (rest.getD 2 0).toNat) || rest.length + 1 != (rest.getD 2 0).toNat + 6 ||
    c.payloadLength.any (· != (rest.getD 2 0).toNat)

theorem DirCode.badLength_iff {c : DirCode} {rest : List Word} : c.badLength rest = true ↔
    256 < (rest.getD 2 0).toNat ∨ rest.length ≠ (rest.getD 2 0).toNat + 5 ∨
      ∃ n, c.payloadLength = some n ∧ (rest.getD 2 0).toNat ≠ n := by
  simp only [DirCode.badLength, Bool.or_eq_true, decide_eq_true_eq, bne_iff_ne, Option.any_eq_true, or_assoc]
  exact or_congr_right (or_congr (by omega) (exists_congr fun n => and_congr_right fun _ => ne_comm))

/-- The directive that a sound DIRECTIVE of a code carries (section 10.4). -/
def DirCode.carried (c : DirCode) (rest : List Word) : Directive :=
  ⟨c, (rest.getD 1 0).setWidth 8, rest.getD 3 0, (rest.drop 4).take (rest.getD 2 0).toNat⟩

/-- A bad verdict, or a packet too short for its header (R145, cases 1 and 2). -/
theorem judge_corrupt {rest : List Word} (h : goodVerdict (0x0D04#16 :: rest) = false ∨ rest.length < 5) :
    judge rest = .corrupt := by
  unfold judge
  dsimp only
  rcases h with bad | short
  · exact if_pos (congrArg (!·) bad)
  · rw [if_pos (show rest.length + 1 < 6 by omega), ite_self]

section
variable {rest : List Word} (good : goodVerdict (0x0D04#16 :: rest) = true) (whole : 5 ≤ rest.length)
include good whole

/-- A whole packet whose code names no directive is refused with its code (R145, case 3). -/
theorem judge_unknown (h : (rest.getD 0 0).toNat = 0 ∨ 17 < (rest.getD 0 0).toNat) :
    judge rest = .refused ((rest.getD 1 0).setWidth 8) (rest.getD 0 0) .refUnknown := by
  unfold judge
  dsimp only
  rw [if_neg (show ¬ (!goodVerdict (Kind.directive.code :: rest)) = true from ne_true_of_eq_false (congrArg (!·) good)),
    if_neg (show ¬ rest.length + 1 < 6 by omega), dirCode_unknown h]

variable {c : DirCode} (known : c.word = rest.getD 0 0)
include known

/-- A whole packet whose code names a directive goes by its length, its timing, and whether the directive waits for a
boundary (R145, cases 4 and 5, R146). -/
theorem judge_known : judge rest =
    if c.badLength rest = true then .refused ((rest.getD 1 0).setWidth 8) (rest.getD 0 0) .refBadLength
    else if 1 < (rest.getD 1 0).toNat / 256 then .refused ((rest.getD 1 0).setWidth 8) (rest.getD 0 0) .refBadValue
    else if (c.boundaryOnly || (rest.getD 1 0).toNat / 256 == 1) = true then .atBoundary (c.carried rest)
    else .atOnce (c.carried rest) := by
  unfold judge
  dsimp only
  rw [if_neg (show ¬ (!goodVerdict (Kind.directive.code :: rest)) = true from ne_true_of_eq_false (congrArg (!·) good)),
    if_neg (show ¬ rest.length + 1 < 6 by omega), ← known, dirCode_word]
  rfl

theorem judge_badLength (h : c.badLength rest = true) :
    judge rest = .refused ((rest.getD 1 0).setWidth 8) (rest.getD 0 0) .refBadLength := by
  rw [judge_known good whole known, if_pos h]

variable (sized : ¬ c.badLength rest = true)
include sized

theorem judge_badTiming (h : 1 < (rest.getD 1 0).toNat / 256) :
    judge rest = .refused ((rest.getD 1 0).setWidth 8) (rest.getD 0 0) .refBadValue := by
  rw [judge_known good whole known, if_neg sized, if_pos h]

theorem judge_atOnce (now : (rest.getD 1 0).toNat / 256 = 0) (free : ¬ c.boundaryOnly = true) :
    judge rest = .atOnce (c.carried rest) := by
  rw [judge_known good whole known, if_neg sized, now, if_neg (by decide), if_neg (by simpa using free)]

theorem judge_atBoundary
    (h : (rest.getD 1 0).toNat / 256 = 1 ∨ (rest.getD 1 0).toNat / 256 = 0 ∧ c.boundaryOnly = true) :
    judge rest = .atBoundary (c.carried rest) := by
  rw [judge_known good whole known, if_neg sized, if_neg (by omega), if_pos ?_]
  rcases h with later | ⟨-, waits⟩
  · rw [later]
    exact Bool.or_true _
  · rw [waits]
    rfl

end

/-! ### The arrival of a DIRECTIVE (R145, R148) -/

theorem exec_directive {rest : List Word} {s : State} (hl : s.ingress.link ≠ .down) (hr : rest ≠ []) :
    exec (.directive rest) s = .next (s.receiveDirective rest) :=
  congrArg Host.Outcome.next (if_pos (State.delivers_of hl hr))

section
variable {rest : List Word} {s : State}

theorem State.receiveDirective_corrupt (h : judge rest = .corrupt) :
    s.receiveDirective rest = s.setFlag .directiveCorrupt := by
  rw [State.receiveDirective, h]

theorem State.receiveDirective_refused {tag : Byte} {code : Word} {o : DirOutcome}
    (h : judge rest = .refused tag code o) :
    s.Offered (.response tag code o 0) (s.receiveDirective rest) := by
  rw [State.receiveDirective, h]
  exact State.respond_offered _ _ _ _ s

/-- A directive taken at once is the command it spells (R146, R147). -/
theorem State.receiveDirective_atOnce {d : Directive} (h : judge rest = .atOnce d) :
    exec d.command s = .next (s.receiveDirective rest) := by
  rw [State.receiveDirective, h, exec_command]

theorem State.receiveDirective_atBoundary {d : Directive} (h : judge rest = .atBoundary d) :
    s.receiveDirective rest = s.queueDirective d := by
  rw [State.receiveDirective, h]

end

theorem State.queueDirective_room {s : State} (d : Directive) (h : s.dir.queue.length < 16) :
    s.queueDirective d = { s with dir := { s.dir with queue := s.dir.queue ++ [d] } } :=
  if_pos h

theorem State.queueDirective_full {s : State} (d : Directive) (h : 16 ≤ s.dir.queue.length) :
    s.Offered (.response d.tag d.code.word .refQueueFull 0) (s.queueDirective d) := by
  rw [State.queueDirective, if_neg (show ¬ s.dir.queue.length < Config.directiveQueueDepth from Nat.not_lt.mpr h)]
  exact State.respond_offered _ _ _ _ s

/-- Settles O30: by the cases of the judgement, in their order. -/
theorem directiveArrivalIsJudgedInOrder : Obligations.DirectiveArrivalIsJudgedInOrder := by
  rintro rest _ _ _ _ s hl hr rfl rfl rfl rfl
  refine ⟨_, exec_directive hl hr, fun corrupt => ?_, fun good whole => ⟨fun unknown => ?_, fun c known =>
    ⟨fun bad => ?_, fun short fits fixed => ?_⟩⟩⟩
  · rw [State.receiveDirective_corrupt (judge_corrupt corrupt)]
    exact ⟨rfl, State.setFlag_isSet _ s, State.setFlag_same _ s⟩
  · exact State.receiveDirective_refused (judge_unknown good whole unknown)
  · exact State.receiveDirective_refused (judge_badLength good whole known (DirCode.badLength_iff.mpr bad))
  · have sized : ¬ c.badLength rest = true := by
      rw [DirCode.badLength_iff]
      rintro (long | other | ⟨n, hn, wrong⟩)
      · omega
      · exact other fits
      · exact wrong (fixed n hn)
    refine ⟨fun late => State.receiveDirective_refused (judge_badTiming good whole known sized late), ?_⟩
    rintro _ rfl
    simp only [← DirCode.boundaryOnly_iff]
    refine ⟨fun now free => State.receiveDirective_atOnce (judge_atOnce good whole known sized now free),
      fun waits => ?_⟩
    rw [State.receiveDirective_atBoundary (judge_atBoundary good whole known sized waits)]
    exact ⟨State.queueDirective_room _, fun full => known ▸ State.queueDirective_full (c.carried rest) full⟩

end Sys2Proof.Machine
end

section
/-! PROOFS. The STATUS report (R155, R156, R173): where each of its 92 words stands, and QUERY STATUS. -/

namespace Sys2Proof.Machine

open Sys2Proof

/-! ### The places of the STATUS layout (section 10.5) -/

/-- The 28 words of a STATUS before its clip entries, in the order of the layout (section 10.5). -/
def State.statusHead (s : State) : List Word :=
  [word s.ingress.link.code, bytesWord s.clips.cacheMark.toNat s.clips.recordState.code,
   word (if s.banks.active = .a then 0 else 1),
   s.banks.standby.input.state.word, s.banks.standby.hkernel.state.word, s.banks.standby.vkernel.state.word,
   s.banks.standby.tone.state.word, s.banks.standby.overlay.state.word, s.banks.standby.record.state.word,
   word s.render.stepsLeft, word (s.store.freePages / 65536), word s.store.freePages, word s.store.freeRecords,
   word s.store.pq.length, word s.store.pFlawed, word s.store.xq.length, word s.store.xFlawed,
   word s.clips.ring.length,
   bytesWord (s.time.label s.time.tod).hh (s.time.label s.time.tod).mm,
   bytesWord (s.time.label s.time.tod).ss (s.time.label s.time.tod).ff,
   word (timecodeNat s.time.rate s.time.df + if s.time.running then 0 else 16),
   bytesWord (s.time.label s.time.rr).hh (s.time.label s.time.rr).mm,
   bytesWord (s.time.label s.time.rr).ss (s.time.label s.time.rr).ff,
   word (s.time.lastInterval / 65536), word s.time.lastInterval,
   word s.pLink.state.code, word s.xLink.state.code, s.flags.raised]

theorem State.statusBody_eq (s : State) : s.statusBody = s.statusHead ++ clipEntries s.clips.records := rfl

/-- A word of the head of a STATUS. -/
theorem State.statusBody_word {s : State} {n : Nat} {w : Word} (h : s.statusHead[n]? = some w) :
    s.statusBody.getD n 0 = w := by
  obtain ⟨lt, -⟩ := List.getElem?_eq_some_iff.mp h
  rw [State.statusBody_eq, List.getD_append _ _ _ _ lt, List.getD_eq_getElem?_getD, h]
  rfl

/-- A word of the clip entries of a STATUS. -/
theorem State.statusBody_clips (s : State) (n : Nat) :
    s.statusBody.getD (28 + n) 0 = (clipEntries s.clips.records).getD n 0 := by
  have past : s.statusHead.length ≤ 28 + n := Nat.le_add_right 28 n
  rw [State.statusBody_eq, List.getD_append_right _ _ _ _ past]
  exact congrArg (List.getD _ · 0) (Nat.add_sub_cancel_left 28 n)

/-! ### The clip entries of a STATUS (section 10.5) -/

theorem ClipRecord.entry_length (c : ClipRecord) : c.entry.length = 16 := rfl

theorem ClipRecord.entries_length (cs : List ClipRecord) : (cs.flatMap ClipRecord.entry).length = 16 * cs.length := by
  induction cs with
  | nil => rfl
  | cons c cs ih => rw [List.flatMap_cons, List.length_append, ih, c.entry_length, List.length_cons]; omega

/-- Entries that follow one another stand 16 words apart. -/
theorem ClipRecord.entries_getD {w : Nat} (h : w < 16) (cs : List ClipRecord) (n : Nat) :
    (cs.flatMap ClipRecord.entry).getD (16 * n + w) 0 = (cs[n]?.elim 0 fun c => c.entry.getD w 0) := by
  induction cs generalizing n with
  | nil => rfl
  | cons c cs ih =>
    rw [List.flatMap_cons]
    cases n with
    | zero => rw [Nat.mul_zero, Nat.zero_add, List.getD_append _ _ _ _ h]; rfl
    | succ n =>
      rw [List.getD_append_right _ _ _ _ (by rw [c.entry_length]; omega), c.entry_length,
        show 16 * (n + 1) + w - 16 = 16 * n + w by omega, ih, List.getElem?_cons_succ]

/-- Zero words after a list of words are what is read past its end. -/
theorem getD_append_zeros (ws : List Word) (k i : Nat) : (ws ++ List.replicate k 0).getD i 0 = ws.getD i 0 := by
  rcases Nat.lt_or_ge i ws.length with h | h
  · exact List.getD_append _ _ _ _ h
  · rw [List.getD_append_right _ _ _ _ h, List.getD_eq_default _ _ h]
    exact List.getElem?_getD_replicate_default_eq ..

theorem clipEntries_length (cs : List ClipRecord) : (clipEntries cs).length = 64 := by
  have few : (cs.take 4).length ≤ 4 := List.length_take_le 4 cs
  rw [clipEntries, List.length_append, List.length_replicate, ClipRecord.entries_length]
  omega

/-- The words of the four entries: those of the clip records that exist, 0 in the others (R173). -/
theorem clipEntries_getD {n w : Nat} (hn : n < 4) (hw : w < 16) (cs : List ClipRecord) :
    (clipEntries cs).getD (16 * n + w) 0 = (cs[n]?.elim 0 fun c => c.entry.getD w 0) := by
  rw [clipEntries, getD_append_zeros, ClipRecord.entries_getD hw, List.getElem?_take_of_lt hn]

theorem State.statusBody_length (s : State) : s.statusBody.length = 92 := by
  rw [State.statusBody_eq, List.length_append, clipEntries_length]
  rfl

theorem State.statusBody_noClip {s : State} {n w : Nat} (hn : n < 4) (hw : w < 16)
    (h : s.clips.records[n]? = none) : s.statusBody.getD (28 + 16 * n + w) 0 = 0 := by
  rw [Nat.add_assoc, State.statusBody_clips, clipEntries_getD hn hw, h]
  rfl

theorem State.statusBody_clip {s : State} {n w : Nat} {c : ClipRecord} (hn : n < 4) (hw : w < 16)
    (h : s.clips.records[n]? = some c) : s.statusBody.getD (28 + 16 * n + w) 0 = c.entry.getD w 0 := by
  rw [Nat.add_assoc, State.statusBody_clips, clipEntries_getD hn hw, h]
  rfl

/-! ### The packed words of the layout (section 10.5) -/

theorem InputLink.code_word (l : InputLink) : word l.code = (match l with
    | .down => 0#16
    | .idle => 1#16
    | .streaming => 2#16) := by
  cases l <;> rfl

theorem RecordState.code_word (r : RecordState) (mark : Bool) : bytesWord mark.toNat r.code = (match r with
    | .standby => 0#16
    | .caching => 1#16
    | .recording => 2#16) + (if mark = true then 256#16 else 0#16) := by
  cases r <;> cases mark <;> rfl

theorem ClipRecord.entry_state (c : ClipRecord) : c.entry.getD 1 0 =
    (if c.state = .closing then 1#16 else 0#16) + (if c.overflow then 256#16 else 0#16) := by
  show bytesWord c.overflow.toNat (if c.state = .closing then 1 else 0) = _
  cases c.state <;> cases c.overflow <;> rfl

/-- Each of the seven counts of a clip takes two words of its entry, the high word first. -/
theorem ClipRecord.entry_count {c : ClipRecord} {k count : Nat} (h : (k, count) ∈ [(2, c.joined), (4, c.sent),
    (6, c.made), (8, c.evicted), (10, c.proxySent), (12, c.gapTotal), (14, c.flawed)]) :
    k + 1 < 16 ∧ c.entry.getD k 0 = word (count / 65536) ∧ c.entry.getD (k + 1) 0 = word count := by
  simp only [List.mem_cons, Prod.mk.injEq, List.not_mem_nil, or_false] at h
  rcases h with ⟨rfl, rfl⟩ | ⟨rfl, rfl⟩ | ⟨rfl, rfl⟩ | ⟨rfl, rfl⟩ | ⟨rfl, rfl⟩ | ⟨rfl, rfl⟩ | ⟨rfl, rfl⟩ <;>
    exact ⟨by decide, rfl, rfl⟩

theorem timecodeNat_eq (r : Rate) (df : Bool) : timecodeNat r df = (if df = true then 1 else 0) + 2 * r.code := by
  cases df <;> rfl

/-! ### QUERY STATUS (R155) -/

theorem exec_queryStatus (tag : Byte) (s : State) : exec (.queryStatus tag) s = .next (s.takeQuery tag) := rfl

/-- Settles O43: the two reports, then the layout word by word: its head, and the entries of the clips. -/
theorem queryStatusPlacesAStatusReport : Obligations.QueryStatusPlacesAStatusReport := by
  rintro tag _ s rfl
  have place {n : Nat} {w : Word} (h : s.statusHead[n]? = some w) : s.statusBody.getD n 0 = w := State.statusBody_word h
  have pair {n m : Nat} {v w : Word} (hn : s.statusHead[n]? = some v) (hm : s.statusHead[m]? = some w) :
      [s.statusBody.getD n 0, s.statusBody.getD m 0] = [v, w] := by rw [place hn, place hm]
  rw [← timecodeNat_eq]
  refine ⟨⟨_, s.respond tag DirCode.queryStatus.word .done 0, exec_queryStatus tag s, State.respond_offered _ _ _ _ s,
    State.placeReport_offered _ _⟩, s.statusBody_length, ?_⟩
  refine ⟨(place rfl).trans (InputLink.code_word _), (place rfl).trans (RecordState.code_word _ _),
    (place rfl).trans (apply_ite word _ _ _), place rfl, place rfl, place rfl, place rfl, place rfl, place rfl,
    place rfl, place rfl, place rfl, place rfl, place rfl, place rfl, place rfl, place rfl, place rfl, pair rfl rfl, place rfl,
    pair rfl rfl, pair rfl rfl, place rfl, place rfl, place rfl,
    fun n hn none w hw => State.statusBody_noClip hn hw none, fun n hn c hc => ?_⟩
  refine ⟨State.statusBody_clip (w := 0) hn (by decide) hc,
    (State.statusBody_clip hn (by decide) hc).trans c.entry_state, fun k count h => ?_⟩
  obtain ⟨hk, high, low⟩ := ClipRecord.entry_count h
  refine ⟨?_, ?_⟩
  · rw [State.statusBody_clip hn (by omega) hc, high]
  · rw [Nat.add_assoc, State.statusBody_clip hn hk hc, low]

end Sys2Proof.Machine
end

section
/-! PROOFS. Directives to the Flag Unit (R162, R166 to R168): each is a change of the Flag Unit with a response offered. -/

namespace Sys2Proof.Machine

open Sys2Proof

/-! ### Flags in a flag set (R160) -/

theorem Flag.number_eq (f : Flag) : f.number = f.ctorIdx + 1 := by cases f <;> rfl

theorem Flag.number_pred_lt (f : Flag) : f.number - 1 < 16 := by cases f <;> decide

theorem Flag.number_pred_inj {f g : Flag} (h : f.number - 1 = g.number - 1) : f = g := by
  rw [Flag.number_eq, Flag.number_eq, Nat.add_sub_cancel, Nat.add_sub_cancel] at h
  rw [← Flag.ofNat_ctorIdx f, h, Flag.ofNat_ctorIdx]

theorem Flag.isIn_and (f : Flag) (a b : FlagSet) : f.isIn (a &&& b) = (f.isIn a && f.isIn b) := BitVec.getLsbD_and

theorem Flag.isIn_not (f : Flag) (a : FlagSet) : f.isIn (~~~a) = !f.isIn a := by
  unfold Flag.isIn
  rw [BitVec.getLsbD_not, decide_eq_true f.number_pred_lt, Bool.true_and]

/-- The bit of a flag is its own alone. -/
theorem Flag.isIn_bit_of_ne {f g : Flag} (h : g ≠ f) : g.isIn f.bit = false := by
  have apart : f.number - 1 ≠ g.number - 1 := fun e => h (Flag.number_pred_inj e).symm
  show (BitVec.twoPow 16 (f.number - 1)).getLsbD (g.number - 1) = false
  rw [BitVec.getLsbD_twoPow, decide_eq_false apart, Bool.and_false]

/-- A flag set without a flag's bit. -/
theorem Flag.isIn_and_not_bit (f : Flag) (a : FlagSet) : f.isIn (a &&& ~~~f.bit) = false := by
  rw [Flag.isIn_and, Flag.isIn_not, Flag.isIn_bit, Bool.not_true, Bool.and_false]

/-! ### What a setting event and a report offered leave of the other flags (R153, R161, R167) -/

/-- A setting event sets no flag but its own and SNAPSHOT TAKEN. -/
theorem State.setFlag_isIn_of_ne {f g : Flag} (own : g ≠ f) (taken : g ≠ .snapshotTaken) (s : State) :
    g.isIn (s.setFlag f).flags.raised = g.isIn s.flags.raised := by
  rcases State.setFlag_raised f s with e | e <;>
    simp only [e, Flag.isIn_or, Flag.isIn_bit_of_ne own, Flag.isIn_bit_of_ne taken, Bool.or_false]

/-- Placing a report sets no flag but REPORTS LOST and SNAPSHOT TAKEN. -/
theorem State.placeReport_isIn_of_ne {g : Flag} (lost : g ≠ .reportsLost) (taken : g ≠ .snapshotTaken) (r : Report)
    (s : State) : g.isIn (s.placeReport r).flags.raised = g.isIn s.flags.raised := by
  unfold State.placeReport
  split
  · rfl
  · exact State.setFlag_isIn_of_ne lost taken s

/-! ### SET NOTICES and CLEAR FLAGS (R162, R166) -/

/-- Settles O42: the enables change, and the response follows. -/
theorem setNoticesSetsEveryEnable : Obligations.SetNoticesSetsEveryEnable :=
  fun _ _ _ => ⟨_, rfl, State.respond_offered _ _ _ _ _⟩

/-- A flag stays after the clearing of the flags that are listed, set and shown just when it was set and not one of them. -/
theorem Flag.isIn_cleared (f : Flag) (list raised shown : FlagSet) :
    f.isIn (raised &&& ~~~(list &&& raised &&& shown)) = true ↔
      f.isIn raised = true ∧ ¬ (f.isIn list = true ∧ f.isIn shown = true) := by
  simp only [Flag.isIn_and, Flag.isIn_not]
  cases f.isIn raised <;> cases f.isIn list <;> simp

/-- Settles O41: the flags listed, set and shown are cleared, and the response that lists them sets REPORTS LOST and SNAPSHOT
TAKEN at most. -/
theorem clearFlagsClearsOnlyShownFlags : Obligations.ClearFlagsClearsOnlyShownFlags := by
  rintro tag list _ s rfl
  refine ⟨s.takeClear tag list, rfl, State.respond_offered _ _ _ _ _, fun f lost taken => ?_⟩
  rw [← Flag.isIn_cleared]
  exact iff_of_eq (congrArg (· = true) (State.placeReport_isIn_of_ne lost taken _ _))

/-! ### ARM SNAPSHOT and FETCH SNAPSHOT (R167, R168) -/

section
variable (tag : Byte) {s : State}

theorem State.takeArm_captured (triggers : FlagSet) {r : SnapshotRecord} (h : s.flags.snapshot = .captured r) :
    s.takeArm tag triggers = s.respond tag DirCode.armSnapshot.word .refNotNow 0 := by
  rw [State.takeArm, h]

theorem State.takeArm_uncaptured (triggers : FlagSet) (h : ∀ r, s.flags.snapshot ≠ .captured r) :
    s.takeArm tag triggers = ({ s with flags := { s.flags with
      snapshot := if triggers = 0 then .disarmed else .armed triggers } } : State).respond tag
        DirCode.armSnapshot.word .done 0 := by
  unfold State.takeArm
  split
  · rename_i r captured
    exact absurd captured (h r)
  · rfl

theorem State.takeFetch_captured {r : SnapshotRecord} (h : s.flags.snapshot = .captured r) :
    s.takeFetch tag =
      { (s.respond tag DirCode.fetchSnapshot.word .done 0).placeReport (.snapshot r.body) with
        flags := { ((s.respond tag DirCode.fetchSnapshot.word .done 0).placeReport (.snapshot r.body)).flags with
          snapshot := .disarmed } } := by
  rw [State.takeFetch, h]

theorem State.takeFetch_uncaptured (h : ∀ r, s.flags.snapshot ≠ .captured r) :
    s.takeFetch tag = s.respond tag DirCode.fetchSnapshot.word .refNotNow 0 := by
  unfold State.takeFetch
  split
  · rename_i r captured
    exact absurd captured (h r)
  · rfl

end

/-- Settles O44: each directive by whether a snapshot is held. -/
theorem snapshotIsArmedAndFetched : Obligations.SnapshotIsArmedAndFetched := by
  refine ⟨fun tag triggers s => ⟨s.takeArm tag triggers, rfl, ?_, fun uncaptured => ?_⟩,
    fun tag s => ⟨s.takeFetch tag, rfl, fun uncaptured => ?_, fun r captured => ?_⟩⟩
  · rintro ⟨r, captured⟩
    rw [State.takeArm_captured tag triggers captured]
    exact State.respond_offered _ _ _ _ s
  · rw [State.takeArm_uncaptured tag triggers uncaptured]
    exact State.respond_offered _ _ _ _ _
  · rw [State.takeFetch_uncaptured tag uncaptured]
    exact State.respond_offered _ _ _ _ s
  · exact ⟨_, _, State.respond_offered _ _ _ _ s, State.placeReport_offered _ _, State.takeFetch_captured tag captured⟩

end Sys2Proof.Machine
end

section
/-! PROOFS. A setting event (R161, R165, R167): the flag marked set, the notice called for, and the snapshot captured. -/

namespace Sys2Proof.Machine

open Sys2Proof

/-! ### Steps 1 to 3 of a setting event (R161) -/

theorem State.promoteMarker_flags (s : State) : s.promoteMarker.flags = s.flags := by
  unfold State.promoteMarker
  split <;> rfl

theorem State.raiseClass_flags (c : NoticeClass) (s : State) : (s.raiseClass c).flags =
    { s.flags with markerClass := if c = .urgent then .urgent else s.flags.markerClass } := by cases c <;> rfl

/-- A call for a notice changes the marker class and the renotice mark at most (R163). -/
theorem State.callNotice_flags (c : NoticeClass) (s : State) :
    ∃ k m, (s.callNotice c).flags = { s.flags with markerClass := k, renotice := m } := by
  unfold State.callNotice
  split
  · exact ⟨_, _, (State.placeMarker_flags _).trans (State.raiseClass_flags c s)⟩
  · split
    · exact ⟨_, _, (State.promoteMarker_flags _).trans (State.raiseClass_flags .urgent s)⟩
    · exact ⟨_, _, rfl⟩
  · exact ⟨_, _, State.raiseClass_flags c s⟩
  · exact ⟨_, _, congrArg (fun u : FlagUnit => { u with renotice := true }) (State.raiseClass_flags c s)⟩

section
variable {f : Flag} {s : State}

/-- A flag that was clear and whose notice is enabled calls for a notice. -/
theorem State.setFlagNotice_calls (clear : f.isIn s.flags.raised = false) (enabled : f.isIn s.flags.enables = true) :
    s.setFlagNotice f = (s.markSet f).callNotice f.noticeClass := by
  rw [State.setFlagNotice, clear, enabled]; rfl

/-- A flag that was set, or whose notice is off, calls for none. -/
theorem State.setFlagNotice_quiet (h : f.isIn s.flags.raised = true ∨ f.isIn s.flags.enables = false) :
    s.setFlagNotice f = s.markSet f := by
  refine if_neg fun calls => ?_
  obtain ⟨clear, enabled⟩ := Bool.and_eq_true_iff.mp calls
  rcases h with h | h
  · rw [h] at clear
    exact nomatch clear
  · rw [h] at enabled
    exact nomatch enabled

variable (f s)

/-- Steps 1 to 3 change the flag, its shown mark, and the state of the notice. -/
theorem State.setFlagNotice_flags : ∃ k m, (s.setFlagNotice f).flags =
    { s.flags with
      raised := s.flags.raised ||| f.bit, shown := s.flags.shown &&& ~~~f.bit, markerClass := k, renotice := m } := by
  unfold State.setFlagNotice
  split
  · exact State.callNotice_flags f.noticeClass (s.markSet f)
  · exact ⟨_, _, rfl⟩

theorem State.setFlagNotice_shown : (s.setFlagNotice f).flags.shown = s.flags.shown &&& ~~~f.bit := by
  obtain ⟨k, m, h⟩ := State.setFlagNotice_flags f s
  rw [h]

theorem State.setFlagNotice_enables : (s.setFlagNotice f).flags.enables = s.flags.enables := by
  obtain ⟨k, m, h⟩ := State.setFlagNotice_flags f s
  rw [h]

end

/-! ### Step 4 of a setting event (R161, R167) -/

/-- The flag triggers a capture of the snapshot. -/
def State.Captures (f : Flag) (s : State) : Prop :=
  ∃ triggers, s.flags.snapshot = .armed triggers ∧ f.isIn triggers = true

/-- The part with its snapshot record made, before SNAPSHOT TAKEN is set (R167). -/
def State.recorded (f : Flag) (s : State) : State :=
  { s with flags := { s.flags with snapshot := .captured (s.snapshotRecord f) } }

section
variable {f : Flag} {s : State}

/-- A trigger sets two flags: itself, and SNAPSHOT TAKEN once the record is made. -/
theorem State.setFlag_captures (h : s.Captures f) :
    s.setFlag f = ((s.setFlagNotice f).recorded f).setFlagNotice .snapshotTaken := by
  obtain ⟨triggers, armed, trigger⟩ := h
  have armed' : (s.setFlagNotice f).flags.snapshot = .armed triggers :=
    (State.setFlagNotice_snapshot s f).trans armed
  unfold State.setFlag
  dsimp only
  rw [armed']
  exact if_pos trigger

/-- An event that is no trigger is steps 1 to 3 alone. -/
theorem State.setFlag_not_captures (h : ¬ s.Captures f) : s.setFlag f = s.setFlagNotice f := by
  unfold State.setFlag
  dsimp only
  rw [State.setFlagNotice_snapshot]
  split
  · rename_i triggers armed
    exact if_neg fun trigger => h ⟨triggers, armed, trigger⟩
  · rfl

variable (f s)

/-- A setting event leaves its flag unshown (R161, R165). -/
theorem State.setFlag_unshown : f.isIn (s.setFlag f).flags.shown = false := by
  by_cases h : s.Captures f
  · have unshown : f.isIn ((s.setFlagNotice f).recorded f).flags.shown = false := by
      show f.isIn (s.setFlagNotice f).flags.shown = false
      rw [State.setFlagNotice_shown, Flag.isIn_and_not_bit]
    rw [State.setFlag_captures h, State.setFlagNotice_shown, Flag.isIn_and, unshown, Bool.false_and]
  · rw [State.setFlag_not_captures h, State.setFlagNotice_shown, Flag.isIn_and_not_bit]

theorem State.setFlag_enables : (s.setFlag f).flags.enables = s.flags.enables := by
  by_cases h : s.Captures f
  · rw [State.setFlag_captures h, State.setFlagNotice_enables]
    exact State.setFlagNotice_enables f s
  · rw [State.setFlag_not_captures h, State.setFlagNotice_enables]

/-- The record a trigger makes shows the flag set, since step 1 of R161 has been done (R167). -/
theorem State.snapshotRecord_isIn : f.isIn (((s.setFlagNotice f).snapshotRecord f).status.getD 27 0) = true := by
  have flags : ((s.setFlagNotice f).snapshotRecord f).status.getD 27 0 = (s.setFlagNotice f).flags.raised :=
    State.statusBody_word rfl
  rw [flags, State.setFlagNotice_raised, Flag.isIn_or, Flag.isIn_bit, Bool.or_true]

theorem State.snapshotRecord_tod :
    ((s.setFlagNotice f).snapshotRecord f).tod = countToLabel s.time.rate s.time.df s.time.tod := by
  show (s.setFlagNotice f).time.label (s.setFlagNotice f).time.tod = _
  rw [(State.setFlagNotice_same f s).time]
  rfl

end

/-- The snapshot after a trigger is the record, and SNAPSHOT TAKEN is set (R167). -/
theorem State.setFlag_captured {f : Flag} {s : State} (h : s.Captures f) :
    (s.setFlag f).isSet .snapshotTaken ∧
      (s.setFlag f).flags.snapshot = .captured ((s.setFlagNotice f).snapshotRecord f) := by
  rw [State.setFlag_captures h]
  refine ⟨?_, State.setFlagNotice_snapshot _ _⟩
  unfold State.isSet
  rw [State.setFlagNotice_raised, Flag.isIn_or, Flag.isIn_bit, Bool.or_true]

/-- Settles O45: steps 1 to 3 of R161, and step 4 by whether the flag is a trigger. -/
theorem settingEventSetsTheFlag : Obligations.SettingEventSetsTheFlag := by
  rintro f _ s rfl
  refine ⟨State.setFlag_isSet f s, State.setFlag_unshown f s, State.setFlag_enables f s, State.setFlag_same f s,
    fun triggers armed trigger => ?_, fun other => ?_⟩
  · obtain ⟨taken, captured⟩ := State.setFlag_captured ⟨triggers, armed, trigger⟩
    exact ⟨taken, _, captured, rfl, State.snapshotRecord_tod f s, State.snapshotRecord_isIn f s,
      fun g hg own => State.setFlag_isIn_of_ne own hg s⟩
  · have keeps : ¬ s.Captures f := fun ⟨triggers, armed, trigger⟩ =>
      Bool.false_ne_true ((other triggers armed).symm.trans trigger)
    rw [State.setFlag_not_captures keeps]
    refine ⟨State.setFlagNotice_snapshot s f, State.setFlagNotice_raised f s, State.setFlagNotice_shown f s,
      fun quiet => ?_⟩
    rw [State.setFlagNotice_quiet quiet]
    exact ⟨rfl, rfl, rfl, rfl⟩

end Sys2Proof.Machine
end

section
/-! PROOFS. A call for a notice (R154, R163, R164): where the single marker is, and what the call makes of it there. -/

namespace Sys2Proof.Machine

open Sys2Proof

/-! ### Where the marker is (R163) -/

section
variable {s : State}

theorem State.markerPlace_inFlight {m : Report} {rs : List Report} (queued : s.dir.reports = m :: rs)
    (marker : m.isMarker = true) (sending : s.pLink.sendingReport = true) : s.markerPlace = .inFlight := by
  refine if_pos ?_
  rw [queued, sending]
  exact marker

theorem State.markerPlace_queued {m : Report} (queued : m ∈ s.dir.reports) (marker : m.isMarker = true)
    (waits : s.pLink.sendingReport = false ∨ ∀ r ∈ s.dir.reports.head?, r.isMarker = false) :
    s.markerPlace = .queued := by
  unfold State.markerPlace
  rw [if_neg, if_pos (List.any_eq_true.mpr ⟨m, queued, marker⟩)]
  intro flies
  obtain ⟨sending, flying⟩ := Bool.and_eq_true_iff.mp flies
  obtain ⟨r, head, isMarker⟩ := (Option.any_eq_true _ _).mp flying
  rcases waits with free | plain
  · exact Bool.false_ne_true (free.symm.trans sending)
  · exact Bool.false_ne_true ((plain r head).symm.trans isMarker)

/-- With no marker in the queue it is owed or nowhere. -/
theorem State.markerPlace_unqueued (none : ∀ r ∈ s.dir.reports, r.isMarker = false) :
    s.markerPlace = if s.dir.markerWaiting then .owed else .nowhere := by
  have head : s.dir.reports.head?.any Report.isMarker = false := by
    cases h : s.dir.reports with
    | nil => rfl
    | cons r rs => exact none r (by rw [h]; exact List.mem_cons_self)
  unfold State.markerPlace
  rw [head, Bool.and_false, List.any_eq_false.mpr fun r h => by rw [none r h]; exact Bool.false_ne_true]
  rfl

/-! ### What a call does with the marker there (R163, R164) -/

variable (c : NoticeClass)

theorem State.callNotice_nowhere (h : s.markerPlace = .nowhere) : s.callNotice c = (s.raiseClass c).placeMarker := by
  unfold State.callNotice
  rw [h]

theorem State.callNotice_owed (h : s.markerPlace = .owed) : s.callNotice c = s.raiseClass c := by
  unfold State.callNotice
  rw [h]

theorem State.callNotice_inFlight (h : s.markerPlace = .inFlight) : s.callNotice c =
    { s.raiseClass c with flags := { (s.raiseClass c).flags with renotice := true } } := by
  unfold State.callNotice
  rw [h]

theorem State.callNotice_promotes (h : s.markerPlace = .queued) (routine : s.flags.markerClass = .routine) :
    s.callNotice .urgent = (s.raiseClass .urgent).promoteMarker := by
  unfold State.callNotice
  rw [h, routine]

variable {c} in
theorem State.callNotice_met (h : s.markerPlace = .queued) (met : c = .routine ∨ s.flags.markerClass = .urgent) :
    s.callNotice c = s := by
  unfold State.callNotice
  rw [h]
  rcases met with rfl | urgent
  · rfl
  · rw [urgent]
    cases c <;> rfl

/-! ### A marker placed, promoted or owed (R154, R163, R164) -/

/-- With the queue full the marker is owed (R154). -/
theorem State.placeMarker_full (full : 32 ≤ s.dir.reports.length) :
    s.placeMarker = { s with dir := { s.dir with markerWaiting := true } } :=
  if_neg (Nat.not_lt.mpr full)

/-- The first marker of the queue goes to the head, and the others keep their order (R164). -/
theorem State.promoteMarker_reports {m : Report} {before after : List Report}
    (queued : s.dir.reports = before ++ m :: after) (marker : m.isMarker = true)
    (first : ∀ r ∈ before, r.isMarker = false) : s.promoteMarker.dir.reports = s.atHead m (before ++ after) := by
  have first' : ∀ r ∈ before, ¬ r.isMarker = true := fun r h => by rw [first r h]; exact Bool.false_ne_true
  have found : s.dir.reports.find? Report.isMarker = some m := by
    rw [queued, List.find?_append, List.find?_eq_none.mpr first', List.find?_cons_of_pos marker]
    rfl
  have others : s.dir.reports.eraseP Report.isMarker = before ++ after := by
    rw [queued, List.eraseP_append_right _ first', List.eraseP_cons_of_pos marker]
  rw [State.promoteMarker, found, others]

/-- A call while a routine marker is queued: an urgent flag promotes it, a routine one leaves it (R163, R164). -/
theorem State.callNotice_queued_routine {m : Report} {before after : List Report}
    (queued : s.dir.reports = before ++ m :: after) (marker : m.isMarker = true)
    (first : ∀ r ∈ before, r.isMarker = false)
    (waits : s.pLink.sendingReport = false ∨ ∀ r ∈ s.dir.reports.head?, r.isMarker = false)
    (routine : s.flags.markerClass = .routine) :
    (s.callNotice c).dir.reports = (if c = .urgent then s.atHead m (before ++ after) else s.dir.reports) ∧
      (s.callNotice c).flags.markerClass = c := by
  have place : s.markerPlace = .queued :=
    State.markerPlace_queued (by rw [queued]; exact List.mem_append_right _ List.mem_cons_self) marker waits
  cases c with
  | urgent =>
    rw [State.callNotice_promotes place routine, State.promoteMarker_flags]
    exact ⟨State.promoteMarker_reports (s := s.raiseClass .urgent) queued marker first, rfl⟩
  | routine =>
    rw [State.callNotice_met place (.inl rfl)]
    exact ⟨rfl, routine⟩

end

/-! ### The setting event that calls (R161, R163) -/

theorem State.markSet_reports_length (f : Flag) (s : State) :
    (s.markSet f).dir.reports.length = s.dir.reports.length := List.length_map _

/-- A queue that holds no marker holds none after a setting event has joined the later-settings sets (R165). -/
theorem Report.noMarker_later (f : Flag) {rs : List Report} (none : ∀ r ∈ rs, r.isMarker = false) :
    ∀ r ∈ rs.map (Report.addLater f.bit), r.isMarker = false :=
  List.forall_mem_map.mpr fun r h => (Report.isMarker_addLater _ r).trans (none r h)

theorem Report.noMarker_head_later (f : Flag) {rs : List Report} (plain : ∀ r ∈ rs.head?, r.isMarker = false) :
    ∀ r ∈ (rs.map (Report.addLater f.bit)).head?, r.isMarker = false := by
  cases rs with
  | nil => exact plain
  | cons r rs =>
    rintro _ ⟨⟩
    exact (Report.isMarker_addLater _ r).trans (plain r rfl)

/-- Settles O46: the setting event is the call on the marked state, and the call goes by the place of the marker: nowhere
with room and with none, queued behind others with the link free and sending, owed, queued and urgent, and in flight. -/
theorem noticeMarkerIsPlaced : Obligations.NoticeMarkerIsPlaced := by
  rintro f _ s _ rfl rfl clear enabled disarmed
  have calls : s.setFlag f = (s.markSet f).callNotice f.noticeClass := by
    rw [State.setFlag_unarmed (fun triggers armed => nomatch disarmed.symm.trans armed),
      State.setFlagNotice_calls clear enabled]
  rw [calls]
  have unqueued (none : ∀ r ∈ s.dir.reports, r.isMarker = false) :
      (s.markSet f).markerPlace = if s.dir.markerWaiting then .owed else .nowhere :=
    State.markerPlace_unqueued (s := s.markSet f) (Report.noMarker_later f none)
  refine ⟨fun none unowed room routine => ?_, fun none unowed full => ?_,
    fun m before after queued marker first free routine => ?_,
    fun m first before after queued marker plain others sending routine => ?_, fun none owed => ?_,
    fun m queued marker urgent waits => ?_, fun m after queued marker sending => ?_⟩
  · have room' : (s.markSet f).dir.reports.length < 32 := (State.markSet_reports_length f s).trans_lt room
    rw [State.callNotice_nowhere _ (by rw [unqueued none, unowed]; rfl)]
    refine ⟨fun urgent => ?_, fun calm => ?_⟩
    · rw [urgent, State.placeMarker_urgent (s := (s.markSet f).raiseClass .urgent) room' rfl]
      exact ⟨rfl, State.atHead_first _ _, State.atHead_second _⟩
    · rw [calm, State.placeMarker_routine (s := (s.markSet f).raiseClass .routine) room' routine]
      exact ⟨routine, rfl⟩
  · have full' : 32 ≤ (s.markSet f).dir.reports.length := full.trans_eq (State.markSet_reports_length f s).symm
    rw [State.callNotice_nowhere _ (by rw [unqueued none, unowed]; rfl),
      State.placeMarker_full (by rw [State.raiseClass_dir]; exact full'), State.raiseClass_dir]
    exact ⟨rfl, rfl⟩
  · rw [← State.atHead_first (s := s.markSet f) m (before ++ after) free]
    exact State.callNotice_queued_routine _ queued marker first (.inl free) routine
  · have behind : (s.markSet f).atHead m (first :: before ++ after) = first :: m :: (before ++ after) :=
      State.atHead_second m sending (List.cons_ne_nil _ _)
    have waits : ∀ r ∈ (s.markSet f).dir.reports.head?, r.isMarker = false := by
      rw [show (s.markSet f).dir.reports = first :: before ++ m :: after from queued]
      rintro _ ⟨⟩
      exact plain
    rw [← behind]
    exact State.callNotice_queued_routine _ queued marker (List.forall_mem_cons.mpr ⟨plain, others⟩) (.inr waits) routine
  · rw [State.callNotice_owed _ (by rw [unqueued none, owed]; rfl), State.raiseClass_dir, State.raiseClass_flags]
    exact ⟨rfl, owed, rfl⟩
  · have place := State.markerPlace_queued (s := s.markSet f) (List.mem_map_of_mem queued)
      ((Report.isMarker_addLater _ m).trans marker) (waits.imp_right (Report.noMarker_head_later f))
    rw [State.callNotice_met place (.inr urgent)]
    exact ⟨rfl, rfl, urgent, rfl⟩
  · rw [State.callNotice_inFlight _ (State.markerPlace_inFlight (s := s.markSet f) queued marker sending),
      State.raiseClass_dir, State.raiseClass_flags]
    exact ⟨rfl, rfl, fun urgent => if_pos urgent⟩

end Sys2Proof.Machine
end

section
/-! PROOFS. A step with a command waiting: the front of the queue is taken. -/

namespace Sys2Proof.Machine

/-- The first of the two cases of `step`: the command sees the state with the queue's rest. -/
theorem step_of_pending_cons {s : State} {c : Instr} {cs : List Instr} (waiting : s.pending = c :: cs) :
    step s = exec c { s with pending := cs } := by
  unfold step
  rw [waiting]

/-- Settles O1, by the case of `step` in which a command waits. -/
theorem stepTakesFrontCommand : Obligations.StepTakesFrontCommand :=
  fun _ _ _ waiting => step_of_pending_cons waiting

end Sys2Proof.Machine
end
